-- ==== Sys2Proof/Word.lean ====
section
/-!
DEFINITION. The word types of the NM8-1152 and the fixed sets of names that several files use.
-/
namespace Sys2Proof

/-- A general or uniform register (R75). -/
abbrev Word := BitVec 32
/-- A pair of registers, a slot of code or an FP64 value (R18, R42). -/
abbrev DWord := BitVec 64
/-- A byte of memory (R6). -/
abbrev Byte := BitVec 8
/-- A program counter or a virtual address (R13, R36). -/
abbrev Addr := BitVec 48

/-- The access kinds of a translation and of a trap record's ACCESS field (R292, R327). -/
inductive Access where
  | fetch | read | write | readWrite
  deriving DecidableEq, Repr

/-- The barrier instructions (R191). -/
inductive BarKind where
  | team | cluster | grid
  deriving DecidableEq, Repr

/-- The two engines of a core (R348). -/
inductive Engine where
  | matrix | pour
  deriving DecidableEq, Repr

/-- The kinds of a handler's access to its address space (R363, R364). -/
inductive LadleAccess where
  | load | store
  | amoSwap | amoAdd | amoAnd | amoOr | amoXor | amoMin | amoMax | amoMinu | amoMaxu
  | lr | sc
  deriving DecidableEq, Repr

/-- The parts of the package that may fail (R403). -/
inductive Part where
  | core (c : Nat) | slice (s : Nat) | ladle (s : Nat) | channel (n : Nat) | link (n : Nat)
  deriving DecidableEq, Repr

/-- Where an uncorrectable cache error was found (R282). -/
inductive CacheSite where
  | dieCache (die : Nat) | l2 (slice : Nat) | hbm
  /-- One bit of a word of a die cache, which the check bits correct (R282, R298). -/
  | dieCacheBit (die : Nat)
  deriving DecidableEq, Repr

/-- The causes of R324, by name. -/
inductive Cause where
  | illOpc | illTree | illField | illReg | chanUnbound | badTarget
  | arith | affWindow | affExhaust | fmtIllegal
  | addrNoncanon | misalign | scratchRange | apertureRange | clusterRange
  | pageFault | permFault | pteBad | fetchFault | memError | storeUe | engXlate
  | nonuniform | collMask | collTimeout | barTimeout | barMismatch | barStale
  | chanDir | chanBind | engParam | taskScope | taskBad | scopeFull | graphCount | taskBar | graphSucc
  | detOwner | detAtomic | preForced | preSaved | timer | trapNested | trapFrame | restoreBad
  | trap | brk | ladleFault | ladleOverrun | floorBreach | cplFail
  deriving DecidableEq, Repr

/-- The 8-bit code of a cause (R324). -/
def Cause.code : Cause → BitVec 8
  | .illOpc => 0x01 | .illTree => 0x02 | .illField => 0x03 | .illReg => 0x04 | .chanUnbound => 0x05
  | .badTarget => 0x06 | .arith => 0x10 | .affWindow => 0x11 | .affExhaust => 0x12 | .fmtIllegal => 0x13
  | .addrNoncanon => 0x20 | .misalign => 0x21 | .scratchRange => 0x22 | .apertureRange => 0x23
  | .clusterRange => 0x24 | .pageFault => 0x25 | .permFault => 0x26 | .pteBad => 0x27
  | .fetchFault => 0x28 | .memError => 0x29 | .storeUe => 0x2a | .engXlate => 0x2b
  | .nonuniform => 0x30 | .collMask => 0x31 | .collTimeout => 0x32 | .barTimeout => 0x33
  | .barMismatch => 0x34 | .barStale => 0x35 | .chanDir => 0x36 | .chanBind => 0x37 | .engParam => 0x38
  | .taskScope => 0x39 | .taskBad => 0x3a | .scopeFull => 0x3b | .graphCount => 0x3c | .taskBar => 0x3d
  | .graphSucc => 0x3e | .detOwner => 0x40 | .detAtomic => 0x41 | .preForced => 0x42 | .preSaved => 0x43
  | .timer => 0x44 | .trapNested => 0x45 | .trapFrame => 0x46 | .restoreBad => 0x47 | .trap => 0x50
  | .brk => 0x51 | .ladleFault => 0x52 | .ladleOverrun => 0x53 | .floorBreach => 0x54 | .cplFail => 0x55

/-- A synchronous user trap, delivery code U of R324 (R132). -/
def Cause.isUser : Cause → Bool
  | .arith | .affWindow | .timer | .trap => true
  | _ => false

/-- A cause whose record key is the faulting data address (R326: codes 0x20 to 0x29). -/
def Cause.keyedByData (c : Cause) : Bool :=
  let n := c.code.toNat
  0x20 ≤ n && n ≤ 0x29

end Sys2Proof
end

