-- ==== Sys2Proof/Syntax/Slot.lean ====
section
/-!
DEFINITION. The fields of the slots of an instruction: the operation layout (R44, R45), the repeat
prefix (R52), the tree header (R55) and one operation slot of a tree (R58).
-/
namespace Sys2Proof

/-- The fields of an operation below its opcode (R44). In an immediate form S2, S3 and MOD together
hold the immediate (R47). -/
structure OpF where
  tr : Bool
  d : BitVec 8
  dc : Bool
  s1 : BitVec 10
  s2 : BitVec 10
  s3 : BitVec 10
  mod : BitVec 13
  deriving DecidableEq, Repr

/-- The fields of an operation with every field zero. -/
def OpF.zero : OpF := { tr := false, d := 0, dc := false, s1 := 0, s2 := 0, s3 := 0, mod := 0 }

/-- The repeat prefix (R52). The reserved bits [38:0] are kept so that a word decodes without loss. -/
structure RepPrefix where
  cnt : BitVec 6
  dStep : BitVec 4
  s1Step : BitVec 4
  s2Step : BitVec 4
  s3Step : BitVec 4
  rsv : BitVec 39
  deriving DecidableEq, Repr

/-- The tree header below bit 63 (R55). -/
structure TreeHeader where
  rf : Bool
  ns : BitVec 3
  sh : BitVec 2
  t0 : BitVec 6
  t1 : BitVec 6
  t2 : BitVec 6
  l0 : BitVec 9
  l1 : BitVec 9
  l2 : BitVec 9
  l3 : BitVec 9
  hleaf : BitVec 2
  hval : Bool
  deriving DecidableEq, Repr

/-- One operation slot of a tree: its arc, its opcode and its fields (R44, R58). -/
structure TreeSlot where
  arc : BitVec 3
  opc : BitVec 8
  f : OpF
  deriving DecidableEq, Repr

/-- The power and the demand of a partition in a step of the arbiter, in watts (R407). -/
structure PartPower where
  watts : Nat
  demand : Nat
  deriving DecidableEq, Repr
/-- What a flask would draw at point 0, and the point that the arbiter grants it (R407, log 43). -/
structure FlaskPower where
  floorWatts : Nat
  point : Nat
  deriving DecidableEq, Repr
/-- A monitor image: the kind and the security version of its header, its bytes, the entries of the PMP that it programs and
locks, each an address register, a mode and its permissions, its hash, and whether its signature verifies (R362, R383, R409). -/
structure MonitorImage where
  hdrKind : Nat
  version : Nat
  image : List (BitVec 8)
  rules : List (Nat × Nat × BitVec 3)
  hash : BitVec 256
  sigOk : Bool
  deriving DecidableEq, Repr

end Sys2Proof
end

