-- ==== Sys2Proof/Syntax.lean ====
section
/-!
DEFINITION. The instructions and steps of the NM8-1152, one constructor per row of the opcode table.
Operations of the ISA carry the fields of their slot (R44). The other rows are steps of the devices,
of the dispatcher and of the host, and carry the names of what they act on: c a core, t a team slot
of it, g a group slot, l a lane, i a position in a list of outstanding work, p a partition, sl an L2
slice, d a compute die, fl a flask.
-/
namespace Sys2Proof

/-- One step of the part. Each constructor cites the rule its row names. -/
inductive Instr where
  /-- R107: A wave issues a tree instruction; each lane runs stem, tests and arc operations along its own path and ends at a leaf. -/
  | tree (h : TreeHeader) (slots : List TreeSlot)
  /-- R53: A repeat prefix performs the following single operation 2 to 64 times, stepping its register indices. -/
  | rep (p : RepPrefix) (opc : BitVec 8) (f : OpF)
  /-- R145: Integer addition with wrap or saturation. -/
  | add (f : OpF)
  /-- R145: Integer subtraction with wrap or saturation. -/
  | sub (f : OpF)
  /-- R145: Low half of the integer product. -/
  | mulLo (f : OpF)
  /-- R145: High half of the exact double-width integer product. -/
  | mulHi (f : OpF)
  /-- R145: Integer multiply-add formed exactly, then wrapped or saturated. -/
  | mad (f : OpF)
  /-- R77: Integer division truncating toward zero, with defined results and DZ on a zero divisor. -/
  | div (f : OpF)
  /-- R77: Integer remainder with defined results for a zero divisor. -/
  | rem (f : OpF)
  /-- R144: Smaller of two integers in the order of the type. -/
  | min (f : OpF)
  /-- R144: Larger of two integers in the order of the type. -/
  | max (f : OpF)
  /-- R145: Absolute value of a signed integer. -/
  | abs (f : OpF)
  /-- R144: Bitwise and. -/
  | and (f : OpF)
  /-- R144: Bitwise or. -/
  | or (f : OpF)
  /-- R144: Bitwise exclusive or. -/
  | xor (f : OpF)
  /-- R144: Bitwise and with the complement of the second source. -/
  | andn (f : OpF)
  /-- R144: Bitwise complement. -/
  | not (f : OpF)
  /-- R145: Copies a register or channel entry unchanged. -/
  | mov (f : OpF)
  /-- R146: Logical shift left, zero when the count reaches the width. -/
  | shl (f : OpF)
  /-- R146: Logical shift right. -/
  | shr (f : OpF)
  /-- R146: Arithmetic shift right. -/
  | sar (f : OpF)
  /-- R146: Rotate left by the count modulo the width. -/
  | rot (f : OpF)
  /-- R147: Extracts a bit field, zero- or sign-extended. -/
  | bfe (f : OpF)
  /-- R147: Inserts a bit field into a base value. -/
  | bfi (f : OpF)
  /-- R148: Counts the one bits. -/
  | popc (f : OpF)
  /-- R148: Counts leading zero bits. -/
  | clz (f : OpF)
  /-- R148: Counts trailing zero bits. -/
  | ctz (f : OpF)
  /-- R148: Reverses the bit order. -/
  | brev (f : OpF)
  /-- R149: Selects one of two sources by a predicate. -/
  | sel (f : OpF)
  /-- R151: Writes a 32-bit immediate to one register or channel. -/
  | movi (f : OpF)
  /-- R54: Long-immediate form writing a 64-bit immediate to a register pair. -/
  | moviLong (f : OpF) (imm : DWord)
  /-- R54: An operation of families 0x0, 0x1, 0x3, 0x4 or a memory access whose S2 or offset is replaced by a 64-bit immediate slot. -/
  | longImmediateForm (opc : BitVec 8) (f : OpF) (imm : DWord)
  /-- R150: Forms a 64-bit address from a base pair plus a shifted index. -/
  | lea (f : OpF)
  /-- R121: Integer compare writing a predicate. -/
  | cmp (f : OpF)
  /-- R122: Floating-point compare writing a predicate, with NV on signalling or ordered-quiet NaNs. -/
  | fcmp (f : OpF)
  /-- R123: Predicate and with optional inversions. -/
  | pand (f : OpF)
  /-- R123: Predicate or with optional inversions. -/
  | por (f : OpF)
  /-- R123: Predicate exclusive or with optional inversions. -/
  | pxor (f : OpF)
  /-- R123: Predicate complement. -/
  | pnot (f : OpF)
  /-- R124: Copies one predicate, optionally inverted. -/
  | pmov (f : OpF)
  /-- R124: Writes all 32 predicates into a general register. -/
  | pmovToReg (f : OpF)
  /-- R124: Sets predicates p1-p31 from the bits of a general register. -/
  | pmovFromReg (f : OpF)
  /-- R154: Floating-point addition rounded once. -/
  | fadd (f : OpF)
  /-- R64: Floating-point subtraction, fadd with NEG set. -/
  | fsub (f : OpF)
  /-- R154: Floating-point multiplication rounded once. -/
  | fmul (f : OpF)
  /-- R154: Fused multiply-add rounded once. -/
  | ffma (f : OpF)
  /-- R155: Returns the smaller operand, NaN treated as missing. -/
  | fmin (f : OpF)
  /-- R155: Returns the larger operand, NaN treated as missing. -/
  | fmax (f : OpF)
  /-- R154: Floating-point division rounded once. -/
  | fdiv (f : OpF)
  /-- R154: Floating-point square root rounded once. -/
  | fsqrt (f : OpF)
  /-- R156: Approximate reciprocal within 1 ulp. -/
  | frcpAp (f : OpF)
  /-- R156: Approximate reciprocal square root within 2 ulp. -/
  | frsqrtAp (f : OpF)
  /-- R156: Approximate sine within 2 ulp. -/
  | fsinAp (f : OpF)
  /-- R156: Approximate cosine within 2 ulp. -/
  | fcosAp (f : OpF)
  /-- R156: Approximate base-2 exponential. -/
  | fexp2Ap (f : OpF)
  /-- R156: Approximate base-2 logarithm. -/
  | flog2Ap (f : OpF)
  /-- R158: Packed addition of two 16-bit halves. -/
  | hadd2 (f : OpF)
  /-- R158: Packed multiplication of two 16-bit halves. -/
  | hmul2 (f : OpF)
  /-- R158: Packed fused multiply-add of two 16-bit halves. -/
  | hfma2 (f : OpF)
  /-- R154: FP64 addition on register pairs. -/
  | faddF64 (f : OpF)
  /-- R64: FP64 subtraction, fadd.f64 with NEG set. -/
  | fsubF64 (f : OpF)
  /-- R154: FP64 multiplication. -/
  | fmulF64 (f : OpF)
  /-- R154: FP64 fused multiply-add. -/
  | ffmaF64 (f : OpF)
  /-- R155: FP64 minimum. -/
  | fminF64 (f : OpF)
  /-- R155: FP64 maximum. -/
  | fmaxF64 (f : OpF)
  /-- R154: FP64 division. -/
  | fdivF64 (f : OpF)
  /-- R154: FP64 square root. -/
  | fsqrtF64 (f : OpF)
  /-- R156: FP64 approximate reciprocal. -/
  | frcpApF64 (f : OpF)
  /-- R156: FP64 approximate reciprocal square root. -/
  | frsqrtApF64 (f : OpF)
  /-- R160: Converts between integer, floating-point, narrow and C16 formats. -/
  | cvt (f : OpF)
  /-- R162: Writes a format register per group, checking uniformity and legality. -/
  | fmset (f : OpF)
  /-- R161: Reads a format register of the lane's group. -/
  | fmget (f : OpF)
  /-- R166: Lane collective reading a value from an indexed lane of the segment. -/
  | shflIdx (f : OpF)
  /-- R166: Lane collective reading from a lower lane. -/
  | shflUp (f : OpF)
  /-- R166: Lane collective reading from a higher lane. -/
  | shflDown (f : OpF)
  /-- R166: Lane collective reading from the lane at lane xor mask. -/
  | shflXor (f : OpF)
  /-- R167: Predicate true when true in every present member. -/
  | voteAll (f : OpF)
  /-- R167: Predicate true when true in any present member. -/
  | voteAny (f : OpF)
  /-- R167: Word of present members whose predicate is true. -/
  | ballot (f : OpF)
  /-- R168: Folds present members' values in ascending lane id. -/
  | redux (f : OpF)
  /-- R168: Inclusive or exclusive prefix fold over present members. -/
  | scan (f : OpF)
  /-- R167: Sets the predicate in the present member of lowest lane id. -/
  | elect (f : OpF)
  /-- R165: When every present member has arrived, the collective instance computes and delivers results to the waiting lanes. -/
  | collectiveComplete (c t g : Nat) (pc : Addr)
  /-- R165: A collective not complete after collwait x 1,024 cycles parks its arrived lanes with COLL_TIMEOUT. -/
  | collTimeout (c t g : Nat) (pc : Addr)
  /-- R175: Loads from global memory, counting in L. -/
  | ldG (f : OpF)
  /-- R175: Loads from scratchpad. -/
  | ldS (f : OpF)
  /-- R176: Reads the register aperture at its path position. -/
  | ldR (f : OpF)
  /-- R177: Loads from the constant space through the die cache. -/
  | ldC (f : OpF)
  /-- R173: Loads from the scratchpad of another team of the cluster. -/
  | ldx (f : OpF)
  /-- R180: Prefetches a global line into L1, die cache or L2, never faulting. -/
  | pref (f : OpF)
  /-- R175: Stores to global memory, counting in S. -/
  | stG (f : OpF)
  /-- R175: Stores to scratchpad. -/
  | stS (f : OpF)
  /-- R176: Writes the register aperture at its path position. -/
  | stR (f : OpF)
  /-- R173: Stores to the scratchpad of another team of the cluster. -/
  | stx (f : OpF)
  /-- R35: Data of a load, returning atomic or arrive is written to its destination and L falls by one. -/
  | loadReply (c t g l i : Nat)
  /-- R267: A store, reduction or send is acknowledged at its scope and S falls by one. -/
  | storeAck (c t g l i : Nat)
  /-- R291: A page-table walk for a missing translation completes, setting A and D or raising a translation fault. -/
  | translationWalk (c : Nat) (va : Addr) (a : Access)
  /-- R183: Indivisible read-modify-write at the global line's home slice, returning the old value. -/
  | atomG (f : OpF)
  /-- R183: Indivisible read-modify-write in a scratchpad bank. -/
  | atomS (f : OpF)
  /-- R186: Non-returning reduction to global memory. -/
  | redG (f : OpF)
  /-- R186: Non-returning reduction to scratchpad. -/
  | redS (f : OpF)
  /-- R188: Acquire fence at a scope. -/
  | fenceAcq (f : OpF)
  /-- R188: Release fence waiting for acknowledgement at a scope. -/
  | fenceRel (f : OpF)
  /-- R188: Acquire-release fence. -/
  | fenceAr (f : OpF)
  /-- R189: Waits until L, S, C and T are at or below the given limits, raising BAR_STALE while a stale record is valid. -/
  | wait (f : OpF)
  /-- R189: A lane waiting on counters, a full engine queue or an outstanding read resumes when its condition is met. -/
  | waitResume (c t g l : Nat)
  /-- R191: Team barrier with release and acquire fences. -/
  | bar (f : OpF)
  /-- R191: Cluster barrier. -/
  | barClu (f : OpF)
  /-- R191: Grid barrier at .pkg or .sys scope. -/
  | barGrid (f : OpF)
  /-- R191: When every non-exited participant has arrived, the barrier opens and waiting threads are released. -/
  | barrierOpen (c t : Nat) (k : BarKind)
  /-- R192: A team's count reaching collwait x 1,024 withdraws its arrivals and parks them with BAR_TIMEOUT. -/
  | barTimeout (c t : Nat) (k : BarKind)
  /-- R323: Each GAP cycles the Pavane controller releases the next STEP waiting groups of its flask. -/
  | pavaneReleaseStep (fl : Nat)
  /-- R195: Release then one arrival at a barrier object, returning the old phase. -/
  | arrive (f : OpF)
  /-- R196: Waits until a barrier object's phase differs from a token. -/
  | waitbar (f : OpF)
  /-- R196: A waiting waitbar lane re-examines the object after a write and resumes or raises BAR_STALE. -/
  | waitbarResume (c t g l : Nat)
  /-- R142: Gives up the issue slot, or stops the threads for saving when the pre-emption sample reads 1. -/
  | yield (f : OpF)
  /-- R201: Binds or unbinds a channel of the group to a FIFO queue, future, reply port or peer. -/
  | cbind (f : OpF)
  /-- R199: A lane waiting on an empty or full channel resumes when an entry or room appears. -/
  | channelResume (c t g l : Nat)
  /-- R202: A peer send is appended to the target queue and S falls. -/
  | peerSendAppend (c t g l i : Nat)
  /-- R204: Writes a value to an empty future slot, waiting while it is full. -/
  | fput (f : OpF)
  /-- R205: Consumes a future's value, waiting while empty. -/
  | fget (f : OpF)
  /-- R205: Reads a future's value without consuming it. -/
  | fgetPeek (f : OpF)
  /-- R207: A lane waiting to write or read a future is served after a write to the slot. -/
  | futureResume (c t g l : Nat)
  /-- R220: Issues a matrix multiply-accumulate into a tile from a parameter block. -/
  | mma (f : OpF)
  /-- R223: Issues matrix-vector streaming of narrow weights against resident vectors. -/
  | mmv (f : OpF)
  /-- R224: Gives the matrix engine a queue and a count to run blocks from. -/
  | mqrun (f : OpF)
  /-- R225: With 16 words at the queue head, the run performs, stops on, or fails a block. -/
  | mqrunBlock (c : Nat)
  /-- R226: Zeroes a tile in engine order. -/
  | accz (f : OpF)
  /-- R226: Copies scratchpad bytes into tile rows. -/
  | accld (f : OpF)
  /-- R226: Copies tile rows to scratchpad. -/
  | accst (f : OpF)
  /-- R230: Issues a converting copy from global memory to scratchpad. -/
  | pour (f : OpF)
  /-- R230: Issues a converting copy from scratchpad or a tile to global memory with an overflow count. -/
  | pourOut (f : OpF)
  /-- R211: An engine begins the operation at the head of its queue once the one before it is done. -/
  | engineOpStart (c : Nat) (e : Engine) (n : Nat)
  /-- R212: An engine operation's writes are done; its counter falls, then barrier arrival, then future write. -/
  | engineOpComplete (c : Nat) (e : Engine)
  /-- R233: Registers a task record or copy node with the dispatcher. -/
  | tspawn (f : OpF)
  /-- R233: Decrements a node's predecessor count, launching it at zero. -/
  | gnode (f : OpF)
  /-- R233: Allocates a finish scope and returns its token. -/
  | fsopen (f : OpF)
  /-- R233: Closes a finish scope to further joins. -/
  | fsclose (f : OpF)
  /-- R233: Waits until a finish scope is complete. -/
  | fswait (f : OpF)
  /-- R234: Sends one message per lane to the Ladle core of ARG0's home slice. -/
  | lmsg (f : OpF)
  /-- R235: A Ladle reply is written to registers or appended to the reply port. -/
  | lmsgReply (c t g l i : Nat)
  /-- R239: Takes a block of symbols from the allocator word and loads the group's symbol window. -/
  | asym (f : OpF)
  /-- R240: Writes an affine value from a centre. -/
  | aset (f : OpF)
  /-- R240: Writes an affine value with a half-width on a named symbol. -/
  | asetSym (f : OpF)
  /-- R240: Writes an affine value with a half-width on a freshly minted symbol. -/
  | asetMint (f : OpF)
  /-- R241: Copies an affine value in canonical form. -/
  | amov (f : OpF)
  /-- R241: Loads 128 raw bytes into an affine register. -/
  | ald (f : OpF)
  /-- R241: Stores 128 raw bytes of an affine register. -/
  | ast (f : OpF)
  /-- R100: Affine addition. -/
  | aadd (f : OpF)
  /-- R100: Affine subtraction. -/
  | asub (f : OpF)
  /-- R100: Affine negation. -/
  | aneg (f : OpF)
  /-- R100: Scales an affine value by an FP64 scalar. -/
  | ascl (f : OpF)
  /-- R100: Adds an FP64 constant to an affine value. -/
  | aaddc (f : OpF)
  /-- R102: Affine multiplication minting a remainder symbol. -/
  | amul (f : OpF)
  /-- R102: Affine square. -/
  | asqr (f : OpF)
  /-- R102: Affine reciprocal by linearisation. -/
  | arcp (f : OpF)
  /-- R102: Affine square root by linearisation. -/
  | asqrt (f : OpF)
  /-- R104: Condenses an affine value to at most n terms. -/
  | acond (f : OpF)
  /-- R105: Returns the centre. -/
  | acent (f : OpF)
  /-- R105: Returns the total radius rounded up. -/
  | arad (f : OpF)
  /-- R105: Returns the lower bound of the enclosure. -/
  | alo (f : OpF)
  /-- R105: Returns the upper bound of the enclosure. -/
  | ahi (f : OpF)
  /-- R242: Affine lane shuffle collective. -/
  | ashfl (f : OpF)
  /-- R242: Affine sum across present lanes in ascending lane id. -/
  | aredd (f : OpF)
  /-- R127: Writes the return address to a pair and jumps to a relative target. -/
  | call (f : OpF)
  /-- R127: Writes the return address and jumps to a target held in a pair. -/
  | callIndirect (f : OpF)
  /-- R128: Jumps to the address in a pair. -/
  | ret (f : OpF)
  /-- R134: Returns from a user trap handler by reading and checking the trap frame. -/
  | retTrap (f : OpF)
  /-- R129: Jumps to the address in a pair. -/
  | jmpi (f : OpF)
  /-- R130: Supplies a relative far leaf target. -/
  | far (f : OpF)
  /-- R130: Supplies a far leaf target from a pair. -/
  | farIndirect (f : OpF)
  /-- R131: Sets the region entry to a relative target and counts it. -/
  | region (f : OpF)
  /-- R131: Sets the region entry to a target held in a pair. -/
  | regionIndirect (f : OpF)
  /-- R136: Raises the synchronous user trap TRAP with code n. -/
  | trap (f : OpF)
  /-- R137: Marks the lane to park at its successor with BRK after its path. -/
  | brk (f : OpF)
  /-- R138: Reads a special value or event counter. -/
  | mfs (f : OpF)
  /-- R139: Writes %astat, %trapen or %alarm. -/
  | mts (f : OpF)
  /-- R140: Invalidates a code range in every instruction cache and translation, waiting until done everywhere. -/
  | icinv (f : OpF)
  /-- R140: The package-wide invalidation finishes and the issuing lanes become Ready. -/
  | icinvComplete (c t g l : Nat)
  /-- R141: No operation. -/
  | nop (f : OpF)
  /-- R152: add.u32 with a 32-bit immediate. -/
  | addImm (f : OpF)
  /-- R152: sub.u32 with an immediate. -/
  | subImm (f : OpF)
  /-- R152: mul.lo.u32 with an immediate. -/
  | mulLoImm (f : OpF)
  /-- R152: and with an immediate pattern. -/
  | andImm (f : OpF)
  /-- R152: or with an immediate pattern. -/
  | orImm (f : OpF)
  /-- R152: xor with an immediate pattern. -/
  | xorImm (f : OpF)
  /-- R152: shl.u32 by an immediate count 0-31. -/
  | shlImm (f : OpF)
  /-- R152: shr.u32 by an immediate count 0-31. -/
  | shrImm (f : OpF)
  /-- R152: sar.s32 by an immediate count 0-31. -/
  | sarImm (f : OpF)
  /-- R152: min.s32 with a signed immediate. -/
  | minImm (f : OpF)
  /-- R152: max.s32 with a signed immediate. -/
  | maxImm (f : OpF)
  /-- R152: fadd.f32.rn with an FP32 immediate. -/
  | faddImm (f : OpF)
  /-- R152: fmul.f32.rn with an FP32 immediate. -/
  | fmulImm (f : OpF)
  /-- R34: When %clocks reaches a nonzero %alarm, the group's threads take TIMER at their next tree boundary and %alarm clears. -/
  | timer (c t g : Nat)
  /-- R317: An active wave stalled more than 16 issue cycles moves to the pending set and a ready pending wave takes its place. -/
  | activeSetRotate (c : Nat)
  /-- R318: A bin whose age reaches AGE drains as a wave into the pending set. -/
  | quadrilleAgeDrain (c b : Nat)
  /-- R301: Host writes the launch queue tail, the doorbell. -/
  | lqTailWrite (p : Nat) (v : Word)
  /-- R301: Host writes launch queue control, enabling or stopping packet reads. -/
  | lqCtlWrite (p : Nat) (v : Word)
  /-- R304: The dispatcher reads, journals and checks the next launch packet, accepting it or writing a failing completion record. -/
  | launchPacketRead (p : Nat)
  /-- R305: An accepted launch is placed once every named core has resources, creating its teams and groups. -/
  | launchPlace (p : Nat)
  /-- R308: When every team has ended, nodes are discarded, scopes freed and the completion record written. -/
  | gridEnd (p g : Nat)
  /-- R313: A registered task with PRED 0 becomes a new group in a team of its grid with a free slot. -/
  | taskLaunch (p n k : Nat)
  /-- R313: A ready copy node is given to a Pour queue with room. -/
  | copyNodeDispatch (p n c : Nat)
  /-- R312: A finished node leaves its scope and decrements its successors' counts. -/
  | nodeFinish (p n : Nat)
  /-- R315: A closed scope with no members or children is freed and its waiters return. -/
  | scopeComplete (p n : Nat)
  /-- R328: A coalescer writes a formed record into the trap queue when the ring has room. -/
  | trapRecordWrite (p : Nat) (id : Word)
  /-- R328: Host advances the trap queue head, possibly resending the interrupt. -/
  | tqHeadWrite (p : Nat) (v : Word)
  /-- R328: Host writes trap queue control, changing EN or clearing OVF. -/
  | tqCtlWrite (p : Nat) (v : Word)
  /-- R330: Releases an open record's lanes or lets its engine operation retry. -/
  | tqServRelease (p : Nat) (id : Word)
  /-- R331: Ends the record's team. -/
  | tqServEndTeam (p : Nat) (id : Word)
  /-- R331: Ends every team of the record's grid. -/
  | tqServEndGrid (p : Nat) (id : Word)
  /-- R334: Host requests a save of a grid, raising %preq in its teams. -/
  | preReqWrite (p : Nat) (v : Word)
  /-- R335: The pre-emption deadline passes and the core forces the save at tree boundaries. -/
  | preForced (c t : Nat)
  /-- R336: Once its threads are stopped and outstanding work at rest, a team's state is written to the save area. -/
  | teamSave (c t : Nat)
  /-- R345: Host starts a restore; the save area is checked, rejecting with RESTORE_BAD on failure. -/
  | rsSaveWrite (p : Nat) (v : DWord)
  /-- R347: A checked restore is placed when resources are free, reissuing engine operations and resuming threads. -/
  | restorePlace (p : Nat)
  /-- R293: Host starts an invalidation of a page or the partition. -/
  | tlbInvWrite (p : Nat) (v : DWord)
  /-- R293: GO clears once no access can use the old entry. -/
  | tlbInvComplete (p : Nat)
  /-- R277: Host retires a bank from L1 or returns a retired bank to L1. -/
  | bankRoleWrite (c b : Nat) (v : Word)
  /-- R281: A corrected banked-store error counts in CEC and may mark the bank for retirement. -/
  | storeEccCorrected (c b : Nat)
  /-- R281: An uncorrectable banked-store error refetches, or raises STORE_UE in the reader. -/
  | storeUe (c off : Nat)
  /-- R282: An uncorrectable die-cache or L2 error invalidates or poisons the line. -/
  | cacheUe (w : CacheSite) (line : Nat)
  /-- R268: An L1 lease runs out and the copy becomes invalid. -/
  | leaseExpiry (d c line : Nat)
  /-- R274: A line held past AGE x 1,024 die-cache cycles is written back or dropped. -/
  | ageWriteback (d line : Nat)
  /-- R401: Host assigns flasks to partitions when no placed grid is affected. -/
  | partCfgWrite (v : DWord)
  /-- R393: Host configures or disables the translation store, discarding translations when EN clears. -/
  | annCtlWrite (p : Nat) (v : DWord)
  /-- R392: The translator builds native code in the background for use at safe points. -/
  | annealTranslate (p : Nat) (base : Addr) (len : Nat)
  /-- R402: Host sets the launch journal base. -/
  | jrnBaseWrite (p : Nat) (v : DWord)
  /-- R403: After a reset or part failure, the failed part is mapped out and journalled launches and nodes resume. -/
  | failureRecovery (w : Part)
  /-- R407: Every 50 us the arbiter measures power and grants operating points under floors and cap. -/
  | powerArbiterStep (parts : List PartPower) (flasks : List FlaskPower)
  /-- R407: Host clears the sticky BREACH bit. -/
  | pwrStatW1c (v : DWord)
  /-- R406: Every 5 us sensors update THERM_MAX, applying the TRIP and SOFT limits. -/
  | thermalSensorRead (first : BitVec 12) (rest : List (BitVec 12))
  /-- R405: A flask moves to a new operating point, sequencing rail and clock and dropping leases. -/
  | operatingPointChange (fl pt : Nat)
  /-- R358: Host clears sticky engine status bits. -/
  | engStatW1c (c : Nat) (v : DWord)
  /-- R357: Read-and-clear of the non-finite element count. -/
  | engNfinRead (c : Nat)
  /-- R357: Read-and-clear of the saturated element count. -/
  | engOvfcRead (c : Nat)
  /-- R381: Read-and-clear of a tenant's INV, OVR, FLT or DROP counter. -/
  | ladleCounterRead (sl n k : Nat)
  /-- R365: Host writes a tenant register, enabling it only if its region is valid. -/
  | ldTenWrite (sl n : Nat) (v : DWord)
  /-- R377: A handler reaching its budget is aborted and answered TIMEOUT. -/
  | ladleOverrun (sl : Nat)
  /-- R370: A miss on a registered line starts a miss handler invocation. -/
  | ladleMiss (sl line : Nat)
  /-- R370: Arriving fill data starts a fill handler invocation on the held line. -/
  | ladleFill (sl line : Nat)
  /-- R370: A line leaving the slice starts an eviction handler invocation. -/
  | ladleEviction (sl line : Nat)
  /-- R375: A queued message starts a handler invocation holding ARG0's line. -/
  | ladleMessage (sl : Nat)
  /-- R374: Handler write that commits the window, ends the invocation and replies OK. -/
  | done (sl : Nat) (v : DWord)
  /-- R374: Handler write setting ARG0 of a forward. -/
  | fwda0 (sl : Nat) (v : DWord)
  /-- R374: Handler write setting ARG1 of a forward. -/
  | fwda1 (sl : Nat) (v : DWord)
  /-- R379: Handler write forwarding the message to another slice and ending the invocation. -/
  | fwd (sl : Nat) (v : DWord)
  /-- R374: Handler write setting the post handle. -/
  | posth (sl : Nat) (v : DWord)
  /-- R380: Handler write posting a value to a future slot. -/
  | post (sl : Nat) (v : DWord)
  /-- R374: Handler write starting a fill of a line at its home slice. -/
  | prefLadle (sl : Nat) (v : DWord)
  /-- R378: A handler exception aborts the invocation and is answered HFAULT. -/
  | ladleFault (sl : Nat) (mcause : BitVec 8) (mepc : BitVec 16)
  /-- R383: At reset the management core verifies and loads the Ladle monitor and sets RUN. -/
  | monitorBoot (sl slot : Nat) (fw : MonitorImage)
  /-- R409: A firmware image is verified against key slots and security version before its engine leaves reset. -/
  | firmwareVerify (kind hdrKind slot version : Nat) (hash : BitVec 256) (sigOk : Bool)
  /-- R409: A signed command enrols an owner key in a fuse slot. -/
  | keyEnrol (slot signer : Nat) (key : BitVec 256) (sigOk : Bool)
  /-- R409: A signed command revokes a key slot, never the last unrevoked one. -/
  | keyRevoke (slot signer : Nat) (sigOk : Bool)
  /-- R410: A measurement request is answered with signed hashes, key slots and PART_CFG. -/
  | spdmMeasurement (nonce : BitVec 256)
  /-- R404: A Sprue flit arrives, checked by CRC and retried on failure. -/
  | sprueFlitReceive (port : Nat) (hdr : BitVec 128) (payload : List Byte) (crcOk : Bool)
  /-- R404: A failed port's traffic is rerouted, or MEM_ERROR raised when no path remains. -/
  | spruePortFail (port : Nat)
  /-- R275: A host CXL.mem read is served at the home slice. -/
  | hostMemRead (pa n : Nat)
  /-- R275: A host CXL.mem write is performed at the home slice. -/
  | hostMemWrite (pa : Nat) (bytes : List Byte)
  /-- R275: A host snoop of a leased line completes after the lease expires. -/
  | hostSnoop (line : Nat)
  /-- R399: A misaligned or wrong-size window access completes as unsupported request with no effect. -/
  | mmioUnsupported (off width : Nat) (write : Bool)
  /-- R8: A host write to a register with no row of its own sets its RW fields. -/
  | registerWrite (off width : Nat) (v : DWord)
  /-- R3: Reset maps defective sites to spares and brings registers to their reset values. -/
  | packageReset (defects : List Nat)
  /-- R364: A Ladle handler's load, store or AMO to the global aperture is translated through the tenant's partition and performed at the line's home slice in program order, or raises an access fault. -/
  | globalApertureAccess (sl : Nat) (addr : DWord) (k : LadleAccess) (size : Nat) (v : DWord)
  deriving DecidableEq, Repr

end Sys2Proof
end

