-- ==== Sys2Proof/Machine/OpcodeMap.lean ====
section
/-!
DEFINITION. The opcode map (R65): the operation that an opcode and its selecting MOD bits name, and
the opcode of each operation.
-/
namespace Sys2Proof

/-- The 32-bit immediate of an immediate form (R47). -/
def OpF.imm32 (f : OpF) : Word := (f.s2.extractLsb' 0 9 ++ f.s3 ++ f.mod)

/-- TYPE, MOD[3:0] (R49). -/
def OpF.typ (f : OpF) : Nat := (f.mod.extractLsb' 0 4).toNat
/-- SUB, MOD[12:9] (R49). -/
def OpF.sub (f : OpF) : Nat := (f.mod.extractLsb' 9 4).toNat
/-- SCOPE, MOD[6:4] (R49). -/
def OpF.scope (f : OpF) : Nat := (f.mod.extractLsb' 4 3).toNat
/-- AOP, MOD[12:10] (R49). -/
def OpF.aop (f : OpF) : Nat := (f.mod.extractLsb' 10 3).toNat
/-- Bit n of MOD. -/
def OpF.bit (f : OpF) (n : Nat) : Bool := f.mod.getLsbD n
/-- Bits [hi:lo] of MOD as a number. -/
def OpF.bits (f : OpF) (hi lo : Nat) : Nat := (f.mod.toNat >>> lo) % 2 ^ (hi - lo + 1)

/-- The operation an opcode names with its fields (R65); none for a cell that raises ILL_OPC.
A selector value that R65 or an entry reserves is given to the first operation of the cell, whose field
check then refuses it (R61). -/
def opInstr (opc : BitVec 8) (f : OpF) : Option Instr :=
  match opc.toNat with
  | 0x00 => some (.add f) | 0x01 => some (.sub f) | 0x02 => some (.mulLo f) | 0x03 => some (.mulHi f)
  | 0x04 => some (.mad f) | 0x05 => some (.div f) | 0x06 => some (.rem f) | 0x07 => some (.min f)
  | 0x08 => some (.max f) | 0x09 => some (.abs f) | 0x0a => some (.and f) | 0x0b => some (.or f)
  | 0x0c => some (.xor f) | 0x0d => some (.andn f) | 0x0e => some (.not f) | 0x0f => some (.mov f)
  | 0x10 => some (.shl f) | 0x11 => some (.shr f) | 0x12 => some (.sar f) | 0x13 => some (.rot f)
  | 0x14 => some (.bfe f) | 0x15 => some (.bfi f) | 0x16 => some (.popc f) | 0x17 => some (.clz f)
  | 0x18 => some (.ctz f) | 0x19 => some (.brev f) | 0x1a => some (.sel f) | 0x1b => some (.movi f)
  | 0x1c => some (.lea f)
  | 0x20 => some (.cmp f) | 0x21 => some (.fcmp f) | 0x22 => some (.pand f) | 0x23 => some (.por f)
  | 0x24 => some (.pxor f) | 0x25 => some (.pnot f)
  | 0x26 => some (if f.bits 3 2 = 1 then .pmovToReg f else if f.bits 3 2 = 2 then .pmovFromReg f else .pmov f)
  | 0x30 => some (if f.bit 8 then .fsub f else .fadd f)
  | 0x31 => some (.fmul f) | 0x32 => some (.ffma f) | 0x33 => some (.fmin f) | 0x34 => some (.fmax f)
  | 0x35 => some (.fdiv f) | 0x36 => some (.fsqrt f) | 0x37 => some (.frcpAp f) | 0x38 => some (.frsqrtAp f)
  | 0x39 => some (.fsinAp f) | 0x3a => some (.fcosAp f) | 0x3b => some (.fexp2Ap f) | 0x3c => some (.flog2Ap f)
  | 0x3d => some (.hadd2 f) | 0x3e => some (.hmul2 f) | 0x3f => some (.hfma2 f)
  | 0x40 => some (if f.bit 8 then .fsubF64 f else .faddF64 f)
  | 0x41 => some (.fmulF64 f) | 0x42 => some (.ffmaF64 f) | 0x43 => some (.fminF64 f) | 0x44 => some (.fmaxF64 f)
  | 0x45 => some (.fdivF64 f) | 0x46 => some (.fsqrtF64 f) | 0x47 => some (.frcpApF64 f)
  | 0x48 => some (.frsqrtApF64 f)
  | 0x50 => some (.cvt f) | 0x51 => some (.fmset f) | 0x52 => some (.fmget f)
  | 0x60 => some (.shflIdx f) | 0x61 => some (.shflUp f) | 0x62 => some (.shflDown f) | 0x63 => some (.shflXor f)
  | 0x64 => some (.voteAll f) | 0x65 => some (.voteAny f) | 0x66 => some (.ballot f) | 0x67 => some (.redux f)
  | 0x68 => some (.scan f) | 0x69 => some (.elect f)
  | 0x70 => some (.ldG f) | 0x71 => some (.ldS f) | 0x72 => some (.ldR f) | 0x73 => some (.ldC f)
  | 0x74 => some (.ldx f) | 0x75 => some (.pref f)
  | 0x80 => some (.stG f) | 0x81 => some (.stS f) | 0x82 => some (.stR f) | 0x83 => some (.stx f)
  | 0x90 => some (.atomG f) | 0x91 => some (.atomS f) | 0x92 => some (.redG f) | 0x93 => some (.redS f)
  | 0xa0 => some (.fenceAcq f) | 0xa1 => some (.fenceRel f) | 0xa2 => some (.fenceAr f) | 0xa3 => some (.wait f)
  | 0xa4 => some (.bar f) | 0xa5 => some (.barClu f) | 0xa6 => some (.barGrid f) | 0xa7 => some (.arrive f)
  | 0xa8 => some (.waitbar f) | 0xa9 => some (.yield f) | 0xaa => some (.cbind f) | 0xab => some (.fput f)
  | 0xac => some (if f.bit 0 then .fgetPeek f else .fget f)
  | 0xb0 => some (.mma f) | 0xb1 => some (.mmv f) | 0xb2 => some (.mqrun f) | 0xb3 => some (.accz f)
  | 0xb4 => some (.accld f) | 0xb5 => some (.accst f) | 0xb6 => some (.pour f) | 0xb7 => some (.pourOut f)
  | 0xb8 => some (.tspawn f) | 0xb9 => some (.gnode f) | 0xba => some (.fsopen f) | 0xbb => some (.fsclose f)
  | 0xbc => some (.fswait f) | 0xbd => some (.lmsg f)
  | 0xc0 => some (.asym f)
  | 0xc1 => some (if f.bits 1 0 = 1 then .asetSym f else if f.bits 1 0 = 2 then .asetMint f else .aset f)
  | 0xc2 => some (.amov f) | 0xc3 => some (.ald f) | 0xc4 => some (.ast f)
  | 0xc5 => some (if f.bit 0 then .asub f else .aadd f)
  | 0xc6 => some (.aneg f) | 0xc7 => some (.ascl f) | 0xc8 => some (.aaddc f) | 0xc9 => some (.amul f)
  | 0xca => some (.asqr f) | 0xcb => some (.arcp f) | 0xcc => some (.asqrt f) | 0xcd => some (.acond f)
  | 0xce => some (if f.bits 1 0 = 0 then .acent f else if f.bits 1 0 = 1 then .arad f
      else if f.bits 1 0 = 2 then .alo f else .ahi f)
  | 0xcf => some (if f.bits 1 0 = 1 then .aredd f else .ashfl f)
  | 0xd0 => some (if f.bit 0 then .callIndirect f else .call f)
  | 0xd1 => some (if f.bit 0 then .retTrap f else .ret f)
  | 0xd2 => some (.jmpi f)
  | 0xd3 => some (if f.imm32.extractLsb' 0 3 = 1 then .farIndirect f else .far f)
  | 0xd4 => some (if f.bit 0 then .regionIndirect f else .region f)
  | 0xe0 => some (.trap f) | 0xe1 => some (.brk f) | 0xe2 => some (.mfs f) | 0xe3 => some (.mts f)
  | 0xe4 => some (.icinv f) | 0xe5 => some (.nop f)
  | 0xf0 => some (.addImm f) | 0xf1 => some (.subImm f) | 0xf2 => some (.mulLoImm f) | 0xf3 => some (.andImm f)
  | 0xf4 => some (.orImm f) | 0xf5 => some (.xorImm f) | 0xf6 => some (.shlImm f) | 0xf7 => some (.shrImm f)
  | 0xf8 => some (.sarImm f) | 0xf9 => some (.minImm f) | 0xfa => some (.maxImm f) | 0xfb => some (.faddImm f)
  | 0xfc => some (.fmulImm f)
  | _ => none

/-- The opcode and the fields of an operation (R65); none for a tree, a repeated or long-immediate
instruction, and for the rows that are no instruction of the ISA. -/
def Instr.op : Instr → Option (BitVec 8 × OpF)
  | .add f => some (0x00, f) | .sub f => some (0x01, f) | .mulLo f => some (0x02, f) | .mulHi f => some (0x03, f)
  | .mad f => some (0x04, f) | .div f => some (0x05, f) | .rem f => some (0x06, f) | .min f => some (0x07, f)
  | .max f => some (0x08, f) | .abs f => some (0x09, f) | .and f => some (0x0a, f) | .or f => some (0x0b, f)
  | .xor f => some (0x0c, f) | .andn f => some (0x0d, f) | .not f => some (0x0e, f) | .mov f => some (0x0f, f)
  | .shl f => some (0x10, f) | .shr f => some (0x11, f) | .sar f => some (0x12, f) | .rot f => some (0x13, f)
  | .bfe f => some (0x14, f) | .bfi f => some (0x15, f) | .popc f => some (0x16, f) | .clz f => some (0x17, f)
  | .ctz f => some (0x18, f) | .brev f => some (0x19, f) | .sel f => some (0x1a, f) | .movi f => some (0x1b, f)
  | .lea f => some (0x1c, f)
  | .cmp f => some (0x20, f) | .fcmp f => some (0x21, f) | .pand f => some (0x22, f) | .por f => some (0x23, f)
  | .pxor f => some (0x24, f) | .pnot f => some (0x25, f) | .pmov f => some (0x26, f)
  | .pmovToReg f => some (0x26, f) | .pmovFromReg f => some (0x26, f)
  | .fadd f => some (0x30, f) | .fsub f => some (0x30, f) | .fmul f => some (0x31, f) | .ffma f => some (0x32, f)
  | .fmin f => some (0x33, f) | .fmax f => some (0x34, f) | .fdiv f => some (0x35, f) | .fsqrt f => some (0x36, f)
  | .frcpAp f => some (0x37, f) | .frsqrtAp f => some (0x38, f) | .fsinAp f => some (0x39, f)
  | .fcosAp f => some (0x3a, f) | .fexp2Ap f => some (0x3b, f) | .flog2Ap f => some (0x3c, f)
  | .hadd2 f => some (0x3d, f) | .hmul2 f => some (0x3e, f) | .hfma2 f => some (0x3f, f)
  | .faddF64 f => some (0x40, f) | .fsubF64 f => some (0x40, f) | .fmulF64 f => some (0x41, f)
  | .ffmaF64 f => some (0x42, f) | .fminF64 f => some (0x43, f) | .fmaxF64 f => some (0x44, f)
  | .fdivF64 f => some (0x45, f) | .fsqrtF64 f => some (0x46, f) | .frcpApF64 f => some (0x47, f)
  | .frsqrtApF64 f => some (0x48, f)
  | .cvt f => some (0x50, f) | .fmset f => some (0x51, f) | .fmget f => some (0x52, f)
  | .shflIdx f => some (0x60, f) | .shflUp f => some (0x61, f) | .shflDown f => some (0x62, f)
  | .shflXor f => some (0x63, f) | .voteAll f => some (0x64, f) | .voteAny f => some (0x65, f)
  | .ballot f => some (0x66, f) | .redux f => some (0x67, f) | .scan f => some (0x68, f) | .elect f => some (0x69, f)
  | .ldG f => some (0x70, f) | .ldS f => some (0x71, f) | .ldR f => some (0x72, f) | .ldC f => some (0x73, f)
  | .ldx f => some (0x74, f) | .pref f => some (0x75, f)
  | .stG f => some (0x80, f) | .stS f => some (0x81, f) | .stR f => some (0x82, f) | .stx f => some (0x83, f)
  | .atomG f => some (0x90, f) | .atomS f => some (0x91, f) | .redG f => some (0x92, f) | .redS f => some (0x93, f)
  | .fenceAcq f => some (0xa0, f) | .fenceRel f => some (0xa1, f) | .fenceAr f => some (0xa2, f)
  | .wait f => some (0xa3, f) | .bar f => some (0xa4, f) | .barClu f => some (0xa5, f) | .barGrid f => some (0xa6, f)
  | .arrive f => some (0xa7, f) | .waitbar f => some (0xa8, f) | .yield f => some (0xa9, f)
  | .cbind f => some (0xaa, f) | .fput f => some (0xab, f) | .fget f => some (0xac, f) | .fgetPeek f => some (0xac, f)
  | .mma f => some (0xb0, f) | .mmv f => some (0xb1, f) | .mqrun f => some (0xb2, f) | .accz f => some (0xb3, f)
  | .accld f => some (0xb4, f) | .accst f => some (0xb5, f) | .pour f => some (0xb6, f) | .pourOut f => some (0xb7, f)
  | .tspawn f => some (0xb8, f) | .gnode f => some (0xb9, f) | .fsopen f => some (0xba, f)
  | .fsclose f => some (0xbb, f) | .fswait f => some (0xbc, f) | .lmsg f => some (0xbd, f)
  | .asym f => some (0xc0, f) | .aset f => some (0xc1, f) | .asetSym f => some (0xc1, f) | .asetMint f => some (0xc1, f)
  | .amov f => some (0xc2, f) | .ald f => some (0xc3, f) | .ast f => some (0xc4, f) | .aadd f => some (0xc5, f)
  | .asub f => some (0xc5, f) | .aneg f => some (0xc6, f) | .ascl f => some (0xc7, f) | .aaddc f => some (0xc8, f)
  | .amul f => some (0xc9, f) | .asqr f => some (0xca, f) | .arcp f => some (0xcb, f) | .asqrt f => some (0xcc, f)
  | .acond f => some (0xcd, f) | .acent f => some (0xce, f) | .arad f => some (0xce, f) | .alo f => some (0xce, f)
  | .ahi f => some (0xce, f) | .ashfl f => some (0xcf, f) | .aredd f => some (0xcf, f)
  | .call f => some (0xd0, f) | .callIndirect f => some (0xd0, f) | .ret f => some (0xd1, f)
  | .retTrap f => some (0xd1, f) | .jmpi f => some (0xd2, f) | .far f => some (0xd3, f)
  | .farIndirect f => some (0xd3, f) | .region f => some (0xd4, f) | .regionIndirect f => some (0xd4, f)
  | .trap f => some (0xe0, f) | .brk f => some (0xe1, f) | .mfs f => some (0xe2, f) | .mts f => some (0xe3, f)
  | .icinv f => some (0xe4, f) | .nop f => some (0xe5, f)
  | .addImm f => some (0xf0, f) | .subImm f => some (0xf1, f) | .mulLoImm f => some (0xf2, f)
  | .andImm f => some (0xf3, f) | .orImm f => some (0xf4, f) | .xorImm f => some (0xf5, f)
  | .shlImm f => some (0xf6, f) | .shrImm f => some (0xf7, f) | .sarImm f => some (0xf8, f)
  | .minImm f => some (0xf9, f) | .maxImm f => some (0xfa, f) | .faddImm f => some (0xfb, f)
  | .fmulImm f => some (0xfc, f)
  | .tree .. | .rep .. | .moviLong .. | .longImmediateForm ..
  | .collectiveComplete .. | .collTimeout .. | .loadReply .. | .storeAck .. | .translationWalk .. | .waitResume ..
  | .barrierOpen .. | .barTimeout .. | .pavaneReleaseStep .. | .waitbarResume .. | .channelResume ..
  | .peerSendAppend .. | .futureResume .. | .mqrunBlock .. | .engineOpStart .. | .engineOpComplete ..
  | .lmsgReply .. | .icinvComplete .. | .timer .. | .activeSetRotate .. | .quadrilleAgeDrain .. | .lqTailWrite ..
  | .lqCtlWrite .. | .launchPacketRead .. | .launchPlace .. | .gridEnd .. | .taskLaunch .. | .copyNodeDispatch ..
  | .nodeFinish .. | .scopeComplete .. | .trapRecordWrite .. | .tqHeadWrite .. | .tqCtlWrite .. | .tqServRelease ..
  | .tqServEndTeam .. | .tqServEndGrid .. | .preReqWrite .. | .preForced .. | .teamSave .. | .rsSaveWrite ..
  | .restorePlace .. | .tlbInvWrite .. | .tlbInvComplete .. | .bankRoleWrite .. | .storeEccCorrected .. | .storeUe ..
  | .cacheUe .. | .leaseExpiry .. | .ageWriteback .. | .partCfgWrite .. | .annCtlWrite .. | .annealTranslate ..
  | .jrnBaseWrite .. | .failureRecovery .. | .powerArbiterStep .. | .pwrStatW1c .. | .thermalSensorRead ..
  | .operatingPointChange .. | .engStatW1c .. | .engNfinRead .. | .engOvfcRead .. | .ladleCounterRead ..
  | .ldTenWrite .. | .ladleMiss .. | .ladleFill .. | .ladleEviction .. | .ladleMessage .. | .done .. | .fwda0 ..
  | .fwda1 .. | .fwd .. | .posth .. | .post .. | .prefLadle .. | .ladleOverrun .. | .ladleFault .. | .monitorBoot ..
  | .firmwareVerify .. | .keyEnrol .. | .keyRevoke .. | .spdmMeasurement .. | .sprueFlitReceive .. | .spruePortFail ..
  | .hostMemRead .. | .hostMemWrite .. | .hostSnoop .. | .mmioUnsupported .. | .registerWrite .. | .packageReset ..
  | .globalApertureAccess .. => none

/-- The rows that are instructions of the ISA; the others are steps of devices, dispatcher and host. -/
def Instr.isIsa : Instr → Bool
  | .tree .. | .rep .. | .moviLong .. | .longImmediateForm .. => true
  | i => i.op.isSome

end Sys2Proof
end

