-- ==== Sys2Proof/Machine/Fields.lean ====
section
/-!
DEFINITION. The operand class of every field of every operation and the decode checks that depend only
on the code (R45 to R62 and the entry of each operation).
-/
namespace Sys2Proof

/-- What the D field of an operation names (R46). -/
inductive DstKind where
  | none
  /-- A 32-bit register; whether a channel, a transient and a uniform register are accepted. -/
  | word (chan tr uniform : Bool)
  /-- A pair; whether a transient and a uniform pair are accepted. -/
  | pair (tr uniform : Bool)
  | pred | affine | tile | chan | limit | lmsg
  deriving DecidableEq, Repr

/-- What a source field of an operation names (R45). -/
inductive SrcKind where
  | zero
  /-- A 32-bit register; whether a channel is accepted. -/
  | word (chan : Bool)
  | pair | pred | affine | tile | limit
  /-- The signed offset of R48. -/
  | offset
  /-- Part of an immediate or of OFF20 (R47, R126). -/
  | imm
  deriving DecidableEq, Repr

/-- Where an operation may stand (R51, R60). -/
inductive Place where
  | any | stem | straight | far
  deriving DecidableEq, Repr

/-- The fields of an operation: the class of each, whether MOD (or the immediate) is acceptable, and the place. -/
structure Shape where
  d : DstKind
  s1 : SrcKind
  s2 : SrcKind
  s3 : SrcKind
  modOk : Bool
  place : Place := .any
  deriving DecidableEq, Repr

/-- The bytes of a type of R50. -/
def typeBytes (t : Nat) : Nat :=
  match t with
  | 0 | 1 => 1
  | 2 | 3 | 8 | 9 => 2
  | 6 | 7 | 11 => 8
  | _ => 4

/-- A type that occupies a pair (R50). -/
def isWide (t : Nat) : Bool := t == 6 || t == 7 || t == 11

/-- No bit of MOD outside the mask is set (R49). -/
def OpF.within (f : OpF) (mask : Nat) : Bool := f.mod.toNat &&& (mask ^^^ 0x1fff) == 0

/-- A source of the width of a type; only a 32-bit one accepts a channel (R143). -/
def srcOf (t : Nat) : SrcKind := if isWide t then .pair else .word true
/-- A source of the width of a type that accepts no channel. -/
def srcPlain (t : Nat) : SrcKind := if isWide t then .pair else .word false
/-- A destination of the width of a type in families 0x0 to 0x5 (R143). -/
def dstOf (t : Nat) : DstKind := if isWide t then .pair true true else .word true true true
/-- A general destination of the width of a type (R174). -/
def dstMem (t : Nat) : DstKind := if isWide t then .pair false false else .word false false false
/-- A 32-bit destination of families 0x0 to 0x5 and 0xF. -/
def dstWord : DstKind := .word true true true

/-- Two-source integer cell (R144). -/
def shape2 (f : OpF) (sat : Bool) (types : List Nat) : Shape :=
  { d := dstOf f.typ, s1 := srcOf f.typ, s2 := srcOf f.typ, s3 := .zero,
    modOk := f.within (if sat then 0x8f else 0x0f) && types.contains f.typ }
/-- One-source integer cell (R144). -/
def shape1 (f : OpF) (sat : Bool) (types : List Nat) : Shape :=
  { shape2 f sat types with s2 := .zero }
/-- Bit-count cell: the result is one register (R148). -/
def shapeCount (f : OpF) : Shape := { shape1 f false [4, 6] with d := dstWord }
/-- Shift cell: the count is a 32-bit register (R144, R146). -/
def shapeShift (f : OpF) (types : List Nat) : Shape := { shape2 f false types with s2 := .word true }

/-- The integer types (R50). -/
def intTypes : List Nat := [0, 1, 2, 3, 4, 5, 6, 7]
/-- The types of atomics, `redux` and `scan` (R163, R182). -/
def atomTypes : List Nat := [4, 5, 6, 7, 10, 11]

/-- Floating-point cell of n sources with its MOD mask (R153). -/
def shapeF (f : OpF) (n : Nat) (mask : Nat) (types : List Nat) : Shape :=
  { d := dstOf f.typ, s1 := srcOf f.typ, s2 := if n ≥ 2 then srcOf f.typ else .zero,
    s3 := if n ≥ 3 then srcOf f.typ else .zero,
    modOk := f.within mask && types.contains f.typ }

/-- Immediate form of family 0xF (R47, R152). -/
def shapeImm (ok : Bool) : Shape :=
  { d := dstWord, s1 := .word true, s2 := .imm, s3 := .imm, modOk := ok }

/-- `cvt` (R159). -/
def shapeCvt (f : OpF) : Shape :=
  let fp := 8 ≤ f.typ && f.typ ≤ 11
  if f.sub ≤ 11 then
    { d := dstOf f.typ, s1 := srcOf f.sub, s2 := .zero, s3 := .zero,
      modOk := f.typ ≤ 11 && !f.bit 8 && !(f.bit 7 && (f.sub > 7 || f.typ > 7)) }
  else if f.sub ≤ 13 then
    { d := dstOf f.typ, s1 := .word true, s2 := .zero, s3 := .zero,
      modOk := fp && (f.sub == 13 || f.bits 8 6 == 0) }
  else
    { d := dstWord, s1 := srcOf f.typ, s2 := .zero, s3 := .zero,
      modOk := fp && (f.sub == 14 || f.bits 8 6 == 0) }

/-- The mask operand of a collective (R163, R164). -/
def maskSrc (f : OpF) : SrcKind := if f.bit 12 then .word false else .zero

/-- The shuffles (R163, R164). -/
def shapeShfl (f : OpF) : Shape :=
  { d := if f.bit 11 then .pair false false else .word true false false,
    s1 := if f.bit 11 then .pair else .word false, s2 := .word false, s3 := maskSrc f,
    modOk := f.within 0x1f00 && f.bits 10 8 ≤ 4, place := .stem }

/-- `redux` and `scan` (R163, R164). -/
def shapeFold (f : OpF) (mask : Nat) : Shape :=
  { d := if isWide f.typ then .pair false false else .word true false false,
    s1 := srcPlain f.typ, s2 := .zero, s3 := maskSrc f,
    modOk := f.within mask && atomTypes.contains f.typ && f.bits 11 8 ≤ 5
      && !(f.bits 11 8 ≥ 3 && f.typ ≥ 10), place := .stem }

/-- A load (R174, R175); whether the address is a pair. -/
def shapeLd (f : OpF) (pair : Bool) (types : List Nat) : Shape :=
  { d := dstMem f.typ, s1 := if pair then .pair else .word false, s2 := .zero, s3 := .offset,
    modOk := f.within 0x18f && types.contains f.typ }
/-- A store (R174, R175). -/
def shapeSt (f : OpF) (pair : Bool) (types : List Nat) : Shape :=
  { shapeLd f pair types with d := .none, s2 := srcOf f.typ }
/-- The types of a load or store (R175). -/
def allTypes : List Nat := [0, 1, 2, 3, 4, 5, 6, 7, 8, 9, 10, 11]
/-- The types of an aperture access (R37). -/
def apertureTypes : List Nat := [4, 5, 6, 10, 11]

/-- A type that an atomic operation accepts (R182). -/
def aopTypeOk (f : OpF) : Bool :=
  atomTypes.contains f.typ && !(3 ≤ f.aop && f.aop ≤ 5 && !(f.typ == 4 || f.typ == 6))

/-- `atom` (R182, R184). -/
def shapeAtom (f : OpF) (pair : Bool) (maxScope : Nat) : Shape :=
  { d := dstMem f.typ, s1 := if pair then .pair else .word false, s2 := srcOf f.typ,
    s3 := if f.aop == 7 then srcOf f.typ else .offset,
    modOk := aopTypeOk f && f.scope ≤ maxScope }
/-- `red` (R186). -/
def shapeRed (f : OpF) (pair : Bool) (maxScope : Nat) : Shape :=
  { d := .none, s1 := if pair then .pair else .word false, s2 := srcOf f.typ, s3 := .offset,
    modOk := aopTypeOk f && f.aop ≤ 5 && !f.bit 9 && f.scope ≤ maxScope }

/-- An operation with no operand field. -/
def shapeNone (ok : Bool) (place : Place := .any) : Shape :=
  { d := .none, s1 := .zero, s2 := .zero, s3 := .zero, modOk := ok, place := place }

/-- `arrive` and `waitbar` (R195, R196). -/
def shapeBarObj (f : OpF) (d : DstKind) : Shape :=
  { d := d, s1 := if f.bit 7 then .word false else .pair, s2 := .word false, s3 := .offset,
    modOk := f.within 0xf0 && f.scope ≤ (if f.bit 7 then 1 else 4) }

/-- An engine instruction on one 32-bit or pair operand S1 (R208). -/
def shapeEng (d : DstKind) (s1 s2 s3 : SrcKind) (ok : Bool) : Shape :=
  { d := d, s1 := s1, s2 := s2, s3 := s3, modOk := ok, place := .stem }

/-- An affine cell (R238). -/
def shapeAff (f : OpF) (s2 : SrcKind) (mask : Nat) : Shape :=
  { d := .affine, s1 := .affine, s2 := s2, s3 := .zero, modOk := f.within mask }

/-- The special values of 64 bits (R28). -/
def specialWide (n : Nat) : Bool := [0x08, 0x09, 0x0c, 0x0d, 0x10, 0x11].contains n

/-- `call` and `region` (R126). -/
def shapeTarget (f : OpF) (d : DstKind) (place : Place) : Shape :=
  if f.bit 0 then { d := d, s1 := .pair, s2 := .zero, s3 := .zero, modOk := f.within 1, place := place }
  else { d := d, s1 := .zero, s2 := .imm, s3 := .imm, modOk := f.within 1, place := place }

/-- The fields of an operation (the rule of each entry); for a step that is no operation, an empty shape. -/
def Instr.shape : Instr → Shape
  | .add f | .sub f | .mulLo f | .div f => shape2 f true intTypes
  | .mulHi f | .rem f | .min f | .max f => shape2 f false intTypes
  | .mad f => { shape2 f true intTypes with s3 := srcOf f.typ }
  | .abs f => shape1 f true [1, 3, 5, 7]
  | .and f | .or f | .xor f | .andn f => shape2 f false [4, 6]
  | .not f | .mov f | .brev f => shape1 f false [4, 6]
  | .shl f | .shr f | .rot f => shapeShift f [4, 6]
  | .sar f => shapeShift f [5, 7]
  | .bfe f => shapeShift f [4, 5, 6, 7]
  | .bfi f => { shapeShift f [4, 6] with s3 := srcOf f.typ }
  | .popc f | .clz f | .ctz f => shapeCount f
  | .sel f => { shape2 f false [4, 6] with s3 := .pred, modOk := f.within 0x20f && (f.typ == 4 || f.typ == 6) }
  | .lea f => { d := .pair true true, s1 := .pair, s2 := .word true, s3 := .zero,
                modOk := f.within 0x1e0f && (f.typ == 4 || f.typ == 5) }
  | .movi f => { d := dstWord, s1 := .zero, s2 := .imm, s3 := .imm, modOk := !f.s2.getLsbD 9 }
  | .cmp f => { d := .pred, s1 := srcOf f.typ, s2 := srcOf f.typ, s3 := .zero,
                modOk := f.within 0x1e0f && f.typ ≤ 7 && f.sub ≤ 5 }
  | .fcmp f => { d := .pred, s1 := srcOf f.typ, s2 := srcOf f.typ, s3 := .zero,
                 modOk := f.within 0x1e0f && 8 ≤ f.typ && f.typ ≤ 11 && f.sub ≤ 13 }
  | .pand f | .por f | .pxor f => { d := .pred, s1 := .pred, s2 := .pred, s3 := .zero, modOk := f.within 3 }
  | .pnot f => { d := .pred, s1 := .pred, s2 := .zero, s3 := .zero, modOk := f.within 0 }
  | .pmov f => { d := .pred, s1 := .pred, s2 := .zero, s3 := .zero, modOk := f.within 1 }
  | .pmovToReg f => { d := dstWord, s1 := .zero, s2 := .zero, s3 := .zero, modOk := f.within 4 }
  | .pmovFromReg f => { d := .none, s1 := .word false, s2 := .zero, s3 := .zero, modOk := f.within 8 }
  | .fadd f | .fsub f => shapeF f 2 0x17f [8, 9, 10]
  | .fmul f | .fdiv f => shapeF f 2 0x7f [8, 9, 10]
  | .ffma f => shapeF f 3 0x7f [8, 9, 10]
  | .fmin f | .fmax f => shapeF f 2 0x4f [8, 9, 10]
  | .fsqrt f => shapeF f 1 0x7f [8, 9, 10]
  | .frcpAp f | .frsqrtAp f | .fsinAp f | .fcosAp f | .fexp2Ap f | .flog2Ap f => shapeF f 1 0x4f [10]
  | .hadd2 f | .hmul2 f => shapeF f 2 0x7f [8, 9]
  | .hfma2 f => shapeF f 3 0x7f [8, 9]
  | .faddF64 f | .fsubF64 f => shapeF f 2 0x17f [11]
  | .fmulF64 f | .fdivF64 f => shapeF f 2 0x7f [11]
  | .ffmaF64 f => shapeF f 3 0x7f [11]
  | .fminF64 f | .fmaxF64 f => shapeF f 2 0x4f [11]
  | .fsqrtF64 f => shapeF f 1 0x7f [11]
  | .frcpApF64 f | .frsqrtApF64 f => shapeF f 1 0x4f [11]
  | .cvt f => shapeCvt f
  | .fmset f => { d := .none, s1 := .word false, s2 := .zero, s3 := .zero, modOk := f.within 7 }
  | .fmget f => { d := dstWord, s1 := .zero, s2 := .zero, s3 := .zero, modOk := f.within 7 }
  | .shflIdx f | .shflUp f | .shflDown f | .shflXor f => shapeShfl f
  | .voteAll f | .voteAny f => { d := .pred, s1 := .pred, s2 := .zero, s3 := maskSrc f,
                                 modOk := f.within 0x1100, place := .stem }
  | .ballot f => { d := .word true false false, s1 := .pred, s2 := .zero, s3 := maskSrc f,
                   modOk := f.within 0x1100, place := .stem }
  | .redux f => shapeFold f 0x1f0f
  | .scan f => shapeFold f 0x1f8f
  | .elect f => { d := .pred, s1 := .zero, s2 := .zero, s3 := maskSrc f, modOk := f.within 0x1000, place := .stem }
  | .ldG f | .ldC f => shapeLd f true allTypes
  | .ldS f | .ldx f => shapeLd f false allTypes
  | .ldR f => shapeLd f false apertureTypes
  | .pref f => { d := .none, s1 := .pair, s2 := .zero, s3 := .offset,
                 modOk := f.within 0x1980 && f.bits 12 11 ≤ 2 }
  | .stG f => shapeSt f true allTypes
  | .stS f | .stx f => shapeSt f false allTypes
  | .stR f => shapeSt f false apertureTypes
  | .atomG f => shapeAtom f true 4
  | .atomS f => shapeAtom f false 1
  | .redG f => shapeRed f true 4
  | .redS f => shapeRed f false 1
  | .fenceAcq f | .fenceRel f | .fenceAr f => shapeNone (f.within 0x70 && f.scope ≤ 4)
  | .wait f => { d := .limit, s1 := .limit, s2 := .limit, s3 := .limit, modOk := f.within 0 }
  | .bar f | .barClu f => shapeNone (f.within 0) .stem
  | .barGrid f => shapeNone (f.within 0x70 && (f.scope == 3 || f.scope == 4)) .stem
  | .arrive f => shapeBarObj f (.word false false false)
  | .waitbar f => shapeBarObj f .none
  | .yield f => shapeNone (f.within 0) .stem
  | .cbind f => { d := .chan, s1 := if f.bits 2 0 == 0 then .zero else .word false, s2 := .zero, s3 := .zero,
                  modOk := f.within 0x1fe7 && f.bits 2 0 ≤ 4
                    && ((f.bits 12 5 != 0) == (f.bits 2 0 == 1 || f.bits 2 0 == 3)) }
  | .fput f => { d := .none, s1 := .word false, s2 := .word true, s3 := .offset, modOk := f.within 0 }
  | .fget f | .fgetPeek f => { d := .word true false false, s1 := .word false, s2 := .zero, s3 := .offset,
                               modOk := f.within 1 }
  | .mma f => shapeEng .none (.word false) .zero .zero (f.within 0x1ff && f.bits 7 0 ≤ 223)
  | .mmv f | .pour f | .pourOut f | .fsclose f | .fswait f => shapeEng .none (.word false) .zero .zero (f.within 0)
  | .mqrun f => shapeEng .none (.word false) (.word false) .zero (f.within 0)
  | .accz f => shapeEng .tile .zero .zero .zero (f.within 0)
  | .accld f => shapeEng .tile (.word false) (.word false) .zero (f.within 0)
  | .accst f => shapeEng .none (.word false) (.word false) .tile (f.within 0)
  | .tspawn f | .gnode f => shapeEng .none .pair .zero .zero (f.within 0)
  | .fsopen f => shapeEng (.word false false true) (.word false) .zero .zero (f.within 0)
  | .lmsg f => shapeEng .lmsg .pair .pair .zero (f.within 0xff)
  | .asym f => shapeEng .none .pair (.word false) .zero (f.within 0)
  | .aset f => { d := .affine, s1 := .pair, s2 := .zero, s3 := .zero, modOk := f.within 3 && f.bits 1 0 == 0 }
  | .asetSym f => { d := .affine, s1 := .pair, s2 := .pair, s3 := .word false, modOk := f.within 3 }
  | .asetMint f => { d := .affine, s1 := .pair, s2 := .pair, s3 := .zero, modOk := f.within 3 }
  | .amov f | .aneg f | .asqr f | .arcp f | .asqrt f => shapeAff f .zero 0
  | .ald f => { d := .affine, s1 := if f.bit 0 then .word false else .pair, s2 := .zero, s3 := .offset,
                modOk := f.within 1 }
  | .ast f => { d := .none, s1 := if f.bit 0 then .word false else .pair, s2 := .affine, s3 := .offset,
                modOk := f.within 1 }
  | .aadd f | .asub f => shapeAff f .affine 1
  | .ascl f | .aaddc f => shapeAff f .pair 0
  | .amul f => shapeAff f .affine 0
  | .acond f => { shapeAff f .zero 0xf with modOk := f.within 0xf && 1 ≤ f.bits 3 0 && f.bits 3 0 ≤ 14 }
  | .acent f | .arad f | .alo f | .ahi f => { d := .pair false false, s1 := .affine, s2 := .zero, s3 := .zero,
                                              modOk := f.within 3 }
  | .ashfl f => { shapeAff f (.word false) 0xf with modOk := f.within 0xf && f.bits 1 0 == 0, place := .stem }
  | .aredd f => { shapeAff f .zero 3 with place := .stem }
  | .call f | .callIndirect f => shapeTarget f (.pair false true) .straight
  | .ret f => { shapeNone (f.within 1) .straight with s1 := .pair }
  | .retTrap f => shapeNone (f.within 1) .straight
  | .jmpi f => { shapeNone (f.within 0) .straight with s1 := .pair }
  | .far f => { d := .none, s1 := .zero, s2 := .imm, s3 := .imm,
                modOk := !f.s2.getLsbD 9 && f.imm32.toNat % 8 == 0, place := .far }
  | .farIndirect f => { d := .none, s1 := .pair, s2 := .imm, s3 := .imm,
                        modOk := !f.s2.getLsbD 9 && f.imm32.toNat == 1, place := .far }
  | .region f | .regionIndirect f => shapeTarget f .none .any
  | .trap f | .brk f => shapeNone (f.within 0xff)
  | .mfs f => { d := if specialWide (f.bits 12 5) then .pair false true else .word true false true,
                s1 := .zero, s2 := .zero, s3 := .zero,
                modOk := f.within 0x1fe7 && f.bits 12 5 ≤ 0x11 && (f.bits 12 5 == 0x11 || f.bits 2 0 == 0) }
  | .mts f => { d := .none, s1 := if f.bits 12 5 == 0x10 then .pair else .word false, s2 := .zero, s3 := .zero,
                modOk := f.within 0x1fe0 && [0x0e, 0x0f, 0x10].contains (f.bits 12 5) }
  | .icinv f => { shapeNone (f.within 0) .straight with s1 := .pair, s2 := .word false }
  | .nop f => shapeNone (f.within 0)
  | .addImm f | .subImm f | .mulLoImm f | .andImm f | .orImm f | .xorImm f
  | .minImm f | .maxImm f | .faddImm f | .fmulImm f => shapeImm (!f.s2.getLsbD 9)
  | .shlImm f | .shrImm f | .sarImm f => shapeImm (!f.s2.getLsbD 9 && f.imm32.toNat ≤ 31)
  | _ => shapeNone true

/-- The register number of a source field (R45). -/
def srcIdx (x : BitVec 10) : Nat := (x.extractLsb' 0 8).toNat
/-- CLS of a source field. -/
def srcCls (x : BitVec 10) : Bool := x.getLsbD 9
/-- POP of a source field. -/
def srcPop (x : BitVec 10) : Bool := x.getLsbD 8

/-- A list with one cause where a condition holds. -/
def causeIf (b : Bool) (c : Cause) : List Cause := if b then [c] else []

/-- The causes of a source field, with the declared counts of general and affine registers (R45, R17, R18). -/
def srcFaults (nG nA : Nat) (k : SrcKind) (x : BitVec 10) : List Cause :=
  let i := srcIdx x
  match k with
  | .offset | .imm => []
  | .zero => causeIf (x != 0) .illField
  | .limit => causeIf (x.toNat > 63) .illField
  | .word chan =>
    if srcCls x then causeIf (!chan) .illField ++ causeIf (chan && i > 31) .illReg
    else causeIf (srcPop x) .illField ++ causeIf (nG ≤ i && i < 224) .illReg
  | .pair => causeIf (srcCls x || srcPop x) .illField
      ++ causeIf (i % 2 == 1 || (nG ≤ i + 1 && i < 224)) .illReg
  | .pred => causeIf (srcCls x || srcPop x) .illField ++ causeIf (i > 31) .illReg
  | .affine => causeIf (srcCls x || srcPop x) .illField ++ causeIf (nA ≤ i) .illReg
  | .tile => causeIf (srcCls x || srcPop x) .illField ++ causeIf (i > 3) .illReg

/-- The causes of the D, DC and TR fields (R46, R23, R17, R18, R234). -/
def dstFaults (nG nA : Nat) (k : DstKind) (f : OpF) : List Cause :=
  let d := f.d.toNat
  match k with
  | .none => causeIf (d != 0 || f.dc || f.tr) .illField
  | .word chan tr uniform =>
    if f.dc then causeIf (!chan || f.tr) .illField ++ causeIf (d ≥ 32) .illReg
    else causeIf (f.tr && (!tr || d ≥ 224)) .illField ++ causeIf (!uniform && d ≥ 224) .illField
      ++ causeIf (nG ≤ d && d < 224) .illReg
  | .pair tr uniform =>
    causeIf (f.dc || (f.tr && (!tr || d ≥ 224)) || (!uniform && d ≥ 224)) .illField
      ++ causeIf (d % 2 == 1 || (nG ≤ d + 1 && d < 224)) .illReg
  | .pred => causeIf (f.dc || f.tr) .illField ++ causeIf (d > 31) .illReg
  | .affine => causeIf (f.dc || f.tr) .illField ++ causeIf (nA ≤ d) .illReg
  | .tile => causeIf (f.dc || f.tr) .illField ++ causeIf (d > 3) .illReg
  | .chan => causeIf (f.dc || f.tr) .illField ++ causeIf (d > 31) .illReg
  | .limit => causeIf (f.dc || f.tr || d > 63) .illField
  | .lmsg => causeIf f.tr .illField
      ++ (if f.dc then causeIf (d ≥ 32) .illReg else causeIf (d % 2 == 1 || nG ≤ d + 2) .illReg)

/-- The channel a source field pops, where its class is a register or a channel (R45, R143). -/
def popOf (k : SrcKind) (x : BitVec 10) : Option Nat :=
  match k with
  | .word true => if srcCls x && srcPop x then some (srcIdx x) else none
  | _ => none

/-- Two fields of one operation pop the same channel (R143). -/
def doublePop (sh : Shape) (f : OpF) : Bool :=
  let p1 := popOf sh.s1 f.s1
  let p2 := popOf sh.s2 f.s2
  let p3 := popOf sh.s3 f.s3
  (p1.isSome && (p1 == p2 || p1 == p3)) || (p2.isSome && p2 == p3)

/-- The causes of one operation with its shape (R61). -/
def shapeFaults (nG nA : Nat) (sh : Shape) (f : OpF) : List Cause :=
  causeIf (!sh.modOk) .illField ++ dstFaults nG nA sh.d f ++ srcFaults nG nA sh.s1 f.s1
    ++ srcFaults nG nA sh.s2 f.s2 ++ srcFaults nG nA sh.s3 f.s3 ++ causeIf (doublePop sh f) .illField

/-- The causes of the operation that an opcode names, its place left aside. -/
def opFaults (nG nA : Nat) (opc : BitVec 8) (f : OpF) : List Cause :=
  match opInstr opc f with
  | none => [.illOpc]
  | some i => shapeFaults nG nA i.shape f

/-- Where an operation may stand; an unassigned opcode stands anywhere. -/
def opPlace (opc : BitVec 8) (f : OpF) : Place :=
  match opInstr opc f with
  | none => .any
  | some i => i.shape.place

/-- The shape of an operation in the long-immediate form, with the replaced field zero, the width in bits
of the replaced operand, and whether the immediate replaces the offset (R54); none where there is no long form. -/
def longShape (opc : BitVec 8) (f : OpF) : Option (Shape × Nat × Bool) :=
  match opInstr opc f with
  | none => none
  | some i =>
    let sh := i.shape
    let o := opc.toNat
    let fam := o / 16
    if fam == 0 || fam == 1 || fam == 3 || fam == 4 then
      match sh.s2 with
      | .pair => some ({ sh with s2 := .zero }, 64, false)
      | .word _ =>
        let byType := fam == 0 || (fam == 1 && o == 0x1a) || (fam == 3 && o < 0x3d)
        some ({ sh with s2 := .zero }, if byType then 8 * typeBytes f.typ else 32, false)
      | _ => none
    else if (0x70 ≤ o && o ≤ 0x74) || (0x80 ≤ o && o ≤ 0x83) || (0x90 ≤ o && o ≤ 0x93) then
      match sh.s3 with
      | .offset => some ({ sh with s3 := .zero }, 64, true)
      | _ => none
    else none

/-- A decode condition: its cause, where it stands (0 a tree header, n + 1 slot n; 1 a straight
instruction), and the tree level of the slot (R62, R118). -/
structure CodeFault where
  cause : Cause
  at_ : Nat
  level : Nat
  deriving DecidableEq, Repr

/-- The rank of a decode cause (R62). -/
def Cause.rank : Cause → Nat
  | .illOpc => 0
  | .illTree => 1
  | .illField => 2
  | .illReg => 3
  | _ => 4

/-- The condition that decides: the first cause in the order of R62, then the lowest slot. -/
def pickFault : List CodeFault → Option CodeFault
  | [] => none
  | x :: xs =>
    match pickFault xs with
    | none => some x
    | some y => if y.cause.rank < x.cause.rank || (y.cause.rank == x.cause.rank && y.at_ < x.at_)
        then some y else some x

/-- Causes as conditions of a straight instruction. -/
def straightAt (cs : List Cause) : List CodeFault := cs.map fun c => { cause := c, at_ := 1, level := 0 }

/-- The level of an arc (R118). DESIGN CHOICE (log 51): ARC 6, which names no arc and raises ILL_TREE (R58), counts as level 2. -/
def arcLevel (arc : Nat) : Nat := if arc == 7 then 0 else if arc ≤ 1 then 1 else 2

/-- The arcs a shape allows (R56). -/
def arcAllowed (sh arc : Nat) : Bool :=
  arc == 7 || (sh ≥ 1 && arc ≤ 1) || (sh ≥ 2 && arc ≤ 3) || (sh ≥ 3 && arc ≤ 5)

/-- The arc that enters leaf field n (R56). -/
def enterArc (sh n : Nat) : Nat :=
  match sh, n with
  | 0, _ => 7
  | 1, n => n
  | 2, 0 => 2
  | 2, 1 => 3
  | 2, _ => 1
  | _, n => n + 2

/-- The kind of a leaf field (R57). -/
def leafKind (l : BitVec 9) : Nat := (l.extractLsb' 7 2).toNat
/-- The signed slot offset of a leaf field (R57). -/
def leafOff (l : BitVec 9) : Int := (l.extractLsb' 0 7).toInt

/-- The leaf fields of a header in order. -/
def TreeHeader.leaves (h : TreeHeader) : List (BitVec 9) := [h.l0, h.l1, h.l2, h.l3]
/-- Leaf field n. -/
def TreeHeader.leaf (h : TreeHeader) (n : Nat) : BitVec 9 := h.leaves.getD n 0

/-- The opcode of `far` (R65). -/
def isFar (t : TreeSlot) : Bool := t.opc == 0xd3

/-- The number of `far` operations on an arc. -/
def farCount (slots : List TreeSlot) (arc : Nat) : Nat :=
  (slots.filter fun t => isFar t && t.arc.toNat == arc).length

/-- The conditions of a tree header (R56, R57, R60). -/
def headerFaults (h : TreeHeader) (slots : List TreeSlot) : List CodeFault :=
  let sh := h.sh.toNat
  let bad (b : Bool) (c : Cause) : List CodeFault := if b then [{ cause := c, at_ := 0, level := 0 }] else []
  bad (sh < 1 && h.t0 != 0) .illField ++ bad (sh < 2 && h.t1 != 0) .illField
    ++ bad (sh < 3 && h.t2 != 0) .illField
    ++ (List.range 4).flatMap fun n =>
      let l := h.leaf n
      if n > sh then bad (l != 0) .illField
      else bad (leafKind l != 1 && l.extractLsb' 0 7 != 0) .illField
        ++ bad (leafKind l == 2 && farCount slots (enterArc sh n) != 1) .illTree

/-- An arc that enters a far leaf (R60). -/
def farArc (h : TreeHeader) (arc : Nat) : Bool :=
  let sh := h.sh.toNat
  (List.range 4).any fun n => n ≤ sh && leafKind (h.leaf n) == 2 && enterArc sh n == arc

/-- The conditions of one operation slot of a tree: arc, order, place and fields (R58 to R61). -/
def slotFaults (nG nA : Nat) (h : TreeHeader) (maxRun n : Nat) (t : TreeSlot) : List CodeFault :=
  let arc := t.arc.toNat
  let place := opPlace t.opc t.f
  let tree := !arcAllowed h.sh.toNat arc || arcLevel arc < maxRun || place == .straight
    || (place == .stem && arc != 7) || (place == .far && !farArc h arc)
  (causeIf tree .illTree ++ opFaults nG nA t.opc t.f).map fun c =>
    { cause := c, at_ := n + 1, level := arcLevel arc }

/-- The conditions of the operation slots from slot n on, with the latest run reached (R59). -/
def slotsFaults (nG nA : Nat) (h : TreeHeader) : Nat → Nat → List TreeSlot → List CodeFault
  | _, _, [] => []
  | maxRun, n, t :: ts => slotFaults nG nA h maxRun n t
      ++ slotsFaults nG nA h (Nat.max maxRun (arcLevel t.arc.toNat)) (n + 1) ts

/-- A field that a step of a repeat prefix may move (R53). -/
def SrcKind.stepOk : SrcKind → Bool
  | .word _ | .pair | .pred => true
  | _ => false
/-- A destination that a step of a repeat prefix may move (R53). -/
def DstKind.stepOk : DstKind → Bool
  | .word .. | .pair .. | .pred => true
  | _ => false
/-- A source field that uses a channel (R53). -/
def usesChan (k : SrcKind) (x : BitVec 10) : Bool :=
  match k with
  | .word _ => srcCls x
  | _ => false

/-- A family that a repeat prefix may repeat (R53). -/
def repFamily (opc : BitVec 8) : Bool :=
  let fam := opc.toNat / 16
  fam ≤ 5 || fam == 7 || fam == 8 || fam == 15

/-- The conditions of a repeat prefix with its operation (R52, R53). -/
def repFaults (p : RepPrefix) (opc : BitVec 8) (f : OpF) : List Cause :=
  match opInstr opc f with
  | none => causeIf (p.cnt == 0 || p.rsv != 0) .illField
  | some i =>
    let sh := i.shape
    causeIf (p.cnt == 0 || p.rsv != 0 || !repFamily opc || f.tr || f.dc
      || usesChan sh.s1 f.s1 || usesChan sh.s2 f.s2 || usesChan sh.s3 f.s3
      || (p.dStep != 0 && !sh.d.stepOk) || (p.s1Step != 0 && !sh.s1.stepOk)
      || (p.s2Step != 0 && !sh.s2.stepOk) || (p.s3Step != 0 && !sh.s3.stepOk)) .illField

/-- The conditions of a long-immediate `movi` (R54, R151). -/
def moviLongFaults (nG nA : Nat) (f : OpF) : List Cause :=
  shapeFaults nG nA { d := .pair false true, s1 := .zero, s2 := .zero, s3 := .zero, modOk := f.mod == 0 } f

/-- The conditions of another long-immediate operation (R54). -/
def longFaults (nG nA : Nat) (opc : BitVec 8) (f : OpF) (imm : DWord) : List Cause :=
  match opInstr opc f, longShape opc f with
  | none, _ => [.illOpc]
  | some _, none => .illField :: causeIf (opPlace opc f == .far) .illTree
  | some _, some (sh, w, off) =>
    shapeFaults nG nA sh f
      ++ causeIf (if off then imm.toNat >>> 47 != 0 && imm.toNat >>> 47 != 0x1ffff else imm.toNat >>> w != 0) .illField

/-- Every decode condition of an instruction that depends only on the code and the declared register
counts (R61, R62). -/
def Instr.codeFaults (nG nA : Nat) : Instr → List CodeFault
  | .tree h slots => headerFaults h slots ++ slotsFaults nG nA h 0 0 slots
  | .rep p opc f => straightAt (causeIf (opPlace opc f == .far) .illTree ++ opFaults nG nA opc f ++ repFaults p opc f)
  | .moviLong f _ => straightAt (moviLongFaults nG nA f)
  | .longImmediateForm opc f imm => straightAt (longFaults nG nA opc f imm)
  | i =>
    match i.op with
    | none => []
    | some (opc, f) => straightAt (causeIf (opPlace opc f == .far) .illTree ++ opFaults nG nA opc f)

/-- The decode condition of an instruction that decides, if any (R62). -/
def Instr.codeFault (nG nA : Nat) (i : Instr) : Option CodeFault := pickFault (i.codeFaults nG nA)

end Sys2Proof
end

