-- ==== Sys2Proof/Config.lean ====
section
/-!
DEFINITION. Values that the spec leaves open. Each is an opaque constant with no body, so no claim can
rest on a value of it (log 5).
-/
namespace Sys2Proof.Config

/-- An undefined result (R10), one for each use. -/
opaque freeValue : Nat → DWord

/-- A choice that the spec calls unpredictable or leaves to the device, one for each use. -/
opaque freeChoice : Nat → Nat

/-- The results of an approximate function (R156) where the spec fixes only a bound and an order: by function, format of 64 bits,
`.ftz`, an interval on which the magnitude of the exact function rises, and a result, the place in that interval from which on the
device gives at least that result; the same on every use, as R156 demands. -/
opaque approx : Nat → Bool → Bool → Nat → Nat → Nat

/-- A byte of a place whose contents the spec leaves open: another package answers with it on a read through the fabric (R290),
or a journal holds it (R402). -/
opaque openByte : Nat → Byte

/-- Whether a path to a package, by its NODE, leaves from a Sprue port: the fabric between the packages is not of this one
(R404). -/
opaque route : Nat → Nat → Bool

end Sys2Proof.Config
end

