-- ==== Sys2Proof/Machine/Num.lean ====
section
/-!
DEFINITION. Numbers: the binary formats, rounding once from an exact value, the narrow family and C16
(R78 to R93). A magnitude is m × 2^e; a sticky bit stands for a nonzero rest below 2^e.
-/
namespace Sys2Proof

/-- The six flags of `%astat` (R32): NV 0, DZ 1, OF 2, UF 3, NX 4, SAT 5. -/
abbrev Flags := BitVec 6
def flNV : Flags := 0x01
def flDZ : Flags := 0x02
def flOF : Flags := 0x04
def flUF : Flags := 0x08
def flNX : Flags := 0x10
def flSAT : Flags := 0x20
/-- A flag where a condition holds. -/
def flagIf (b : Bool) (fl : Flags) : Flags := if b then fl else 0

/-- A binary format: exponent width, fraction width (R78). The bias is 2^(eb-1) - 1. -/
structure Fmt where
  eb : Nat
  mb : Nat
  deriving DecidableEq, Repr

def Fmt.f16 : Fmt := { eb := 5, mb := 10 }
def Fmt.bf16 : Fmt := { eb := 8, mb := 7 }
def Fmt.f32 : Fmt := { eb := 8, mb := 23 }
def Fmt.f64 : Fmt := { eb := 11, mb := 52 }
/-- The format of a floating-point TYPE (R50). -/
def Fmt.ofType (t : Nat) : Fmt := if t == 8 then .f16 else if t == 9 then .bf16 else if t == 11 then .f64 else .f32

def Fmt.bias (f : Fmt) : Nat := 2 ^ (f.eb - 1) - 1
/-- The exponent of the smallest normal. -/
def Fmt.emin (f : Fmt) : Int := 1 - (f.bias : Int)
/-- The exponent of the smallest subnormal. -/
def Fmt.qmin (f : Fmt) : Int := f.emin - f.mb
/-- The bits of +∞. -/
def Fmt.infBits (f : Fmt) : Nat := (2 ^ f.eb - 1) * 2 ^ f.mb
/-- The bits of the canonical NaN (R78). -/
def Fmt.nanBits (f : Fmt) : Nat := f.infBits + 2 ^ (f.mb - 1)
/-- The sign bit as a number. -/
def Fmt.signBit (f : Fmt) : Nat := 2 ^ (f.eb + f.mb)

/-- A number read from a format: NaN (signalling or not), an infinity, or ±m × 2^e. -/
inductive Num where
  | nan (sig : Bool)
  | inf (neg : Bool)
  | fin (neg : Bool) (m : Nat) (e : Int)
  deriving DecidableEq, Repr

def Num.isNan : Num → Bool
  | .nan _ => true
  | _ => false
def Num.isSNan : Num → Bool
  | .nan s => s
  | _ => false
def Num.isInf : Num → Bool
  | .inf _ => true
  | _ => false
def Num.isZero : Num → Bool
  | .fin _ m _ => m == 0
  | _ => false
def Num.neg? : Num → Bool
  | .nan _ => false
  | .inf n => n
  | .fin n _ _ => n
def Num.negate : Num → Num
  | .nan s => .nan s
  | .inf n => .inf !n
  | .fin n m e => .fin (!n) m e

/-- The number that a bit pattern stands for (R78). -/
def Fmt.unpack (f : Fmt) (bits : Nat) : Num :=
  let frac := bits % 2 ^ f.mb
  let ex := bits / 2 ^ f.mb % 2 ^ f.eb
  let s := bits / f.signBit % 2 == 1
  if ex == 2 ^ f.eb - 1 then
    if frac == 0 then .inf s else .nan (frac < 2 ^ (f.mb - 1))
  else if ex == 0 then .fin s frac f.qmin
  else .fin s (frac + 2 ^ f.mb) ((ex : Int) - f.bias - f.mb)

/-- A subnormal pattern of the format. -/
def Fmt.isSubnormal (f : Fmt) (bits : Nat) : Bool :=
  bits / 2 ^ f.mb % 2 ^ f.eb == 0 && bits % 2 ^ f.mb != 0

/-- A source as an operation reads it: under `.ftz` a subnormal is a zero of its sign (R80). -/
def Fmt.read (f : Fmt) (ftz : Bool) (bits : Nat) : Num :=
  match f.unpack bits with
  | .fin s m e => if ftz && f.isSubnormal bits then .fin s 0 e else .fin s m e
  | x => x

/-- A result with its flags. -/
structure Res where
  bits : Nat
  fl : Flags := 0
  deriving DecidableEq, Repr

def Fmt.nan (f : Fmt) (fl : Flags := 0) : Res := { bits := f.nanBits, fl := fl }
def Fmt.signed (f : Fmt) (neg : Bool) (b : Nat) : Nat := if neg then f.signBit + b else b
def Fmt.inf (f : Fmt) (neg : Bool) (fl : Flags := 0) : Res := { bits := f.signed neg f.infBits, fl := fl }
def Fmt.zero (f : Fmt) (neg : Bool) (fl : Flags := 0) : Res := { bits := f.signed neg 0, fl := fl }

/-- Whether a rounding mode (R50: 0 `.rn`, 1 `.rz`, 2 `.rd`, 3 `.ru`) increments a magnitude, from its sign,
whether the kept part is odd, and how the dropped part compares with half a unit. -/
def roundUp (rnd : Nat) (neg odd : Bool) (dropped : Ordering) (inexact : Bool) : Bool :=
  match rnd with
  | 0 => dropped == .gt || (dropped == .eq && odd)
  | 1 => false
  | 2 => inexact && neg
  | _ => inexact && !neg

/-- m × 2^e (with a sticky rest) rounded to a whole number of units 2^q: the count, and whether it is inexact.
Where a sticky rest stands, e must lie below q. -/
def roundAt (rnd : Nat) (neg : Bool) (m : Nat) (e : Int) (sticky : Bool) (q : Int) : Nat × Bool :=
  if q ≤ e then (m * 2 ^ (e - q).toNat, sticky)
  else
    let sh := (q - e).toNat
    let kept := m / 2 ^ sh
    let rest := m % 2 ^ sh
    let inexact := rest != 0 || sticky
    let dropped := match compare (2 * rest) (2 ^ sh) with
      | .eq => if sticky then .gt else .eq
      | o => o
    (if roundUp rnd neg (kept % 2 == 1) dropped inexact then kept + 1 else kept, inexact)

/-- The exponent of the leading bit of m × 2^e, m nonzero. -/
def leadExp (m : Nat) (e : Int) : Int := e + (Nat.log2 m : Int)

/-- The magnitude 2^q × n packed with a sign; n at most 2^(mb+1), in range. -/
def Fmt.pack (f : Fmt) (neg : Bool) (n : Nat) (q : Int) : Nat :=
  if n < 2 ^ f.mb then f.signed neg n
  else f.signed neg (((q + f.mb + f.bias).toNat) * 2 ^ f.mb + (n - 2 ^ f.mb))

/-- The result of an exact magnitude rounded once under R79, R80 and R82; an exact zero keeps the sign. -/
def Fmt.round (f : Fmt) (rnd : Nat) (ftz : Bool) (neg : Bool) (m : Nat) (e : Int) (sticky : Bool := false) : Res :=
  if m == 0 && !sticky then f.zero neg
  else
    let lead := leadExp m e
    let q0 := lead - f.mb
    let q := if q0 < f.qmin then f.qmin else q0
    let (n, inexact) := roundAt rnd neg m e sticky q
    -- a carry out of the significand moves the quantum up by one
    let (n, q) := if n ≥ 2 ^ (f.mb + 1) then (n / 2, q + 1) else (n, q)
    let top := q + f.mb
    if n ≥ 2 ^ f.mb && top > f.bias then
      let toInf := rnd == 0 || (rnd == 2 && neg) || (rnd == 3 && !neg)
      { bits := f.signed neg (if toInf then f.infBits else f.infBits - 1), fl := flOF ||| flNX }
    else
      -- tiny after rounding: below the smallest normal with an unbounded exponent
      let (n', _) := roundAt rnd neg m e sticky q0
      let tiny := lead < f.emin && !(lead == f.emin - 1 && n' == 2 ^ (f.mb + 1))
      if ftz && n != 0 && n < 2 ^ f.mb then f.zero neg (flUF ||| flNX)
      else { bits := f.pack neg n q, fl := flagIf inexact flNX ||| flagIf (tiny && inexact) flUF }

/-- The signed numerator of ±m × 2^e over 2^(-lo), lo ≤ e. -/
def numerAt (neg : Bool) (m : Nat) (e lo : Int) : Int :=
  let n : Int := (m * 2 ^ (e - lo).toNat : Nat)
  if neg then -n else n

/-- The sign of an exact zero sum (R154). -/
def zeroSign (rnd : Nat) (a b : Bool) : Bool := if a == b then a else rnd == 2

/-- The exact sum of two finite numbers, rounded once (R154). -/
def Fmt.addFin (f : Fmt) (rnd : Nat) (ftz : Bool) (na : Bool) (ma : Nat) (ea : Int) (nb : Bool) (mb : Nat)
    (eb : Int) : Res :=
  let lo := if ea ≤ eb then ea else eb
  let s := numerAt na ma ea lo + numerAt nb mb eb lo
  if s == 0 then f.zero (if ma == 0 && mb == 0 then zeroSign rnd na nb else rnd == 2)
  else f.round rnd ftz (decide (s < 0)) s.natAbs lo

/-- NV where a signalling NaN stands (R81). -/
def snanFlag (xs : List Num) : Flags := flagIf (xs.any (·.isSNan)) flNV

/-- a + b (R154). -/
def Fmt.add (f : Fmt) (rnd : Nat) (ftz : Bool) (a b : Num) : Res :=
  match a, b with
  | .nan _, _ | _, .nan _ => f.nan (snanFlag [a, b])
  | .inf x, .inf y => if x == y then f.inf x else f.nan flNV
  | .inf x, _ => f.inf x
  | _, .inf y => f.inf y
  | .fin na ma ea, .fin nb mb eb => f.addFin rnd ftz na ma ea nb mb eb

/-- a × b (R154). -/
def Fmt.mul (f : Fmt) (rnd : Nat) (ftz : Bool) (a b : Num) : Res :=
  match a, b with
  | .nan _, _ | _, .nan _ => f.nan (snanFlag [a, b])
  | .inf x, y | y, .inf x => if y.isZero then f.nan flNV else f.inf (x != y.neg?)
  | .fin na ma ea, .fin nb mb eb => f.round rnd ftz (na != nb) (ma * mb) (ea + eb)

/-- a × b + c, rounded once (R154). -/
def Fmt.fma (f : Fmt) (rnd : Nat) (ftz : Bool) (a b c : Num) : Res :=
  let invalid := (a.isInf && b.isZero) || (a.isZero && b.isInf)
  if invalid then f.nan flNV
  else if a.isNan || b.isNan || c.isNan then f.nan (snanFlag [a, b, c])
  else match a, b, c with
    | .fin na ma ea, .fin nb mb eb, .fin nc mc ec => f.addFin rnd ftz (na != nb) (ma * mb) (ea + eb) nc mc ec
    | .fin .., .fin .., .inf z => f.inf z
    | x, y, .inf z => if (x.neg? != y.neg?) == z then f.inf z else f.nan flNV
    | x, y, _ => f.inf (x.neg? != y.neg?)

/-- A quotient of naturals with enough bits for any format: m × 2^e and the sticky rest; d nonzero. -/
def quotBits (n d : Nat) (bits : Nat) : Nat × Int × Bool :=
  let k := bits + Nat.log2 d + 1
  (n * 2 ^ k / d, -(k : Int), n * 2 ^ k % d != 0)

/-- a ÷ b (R154). -/
def Fmt.div (f : Fmt) (rnd : Nat) (ftz : Bool) (a b : Num) : Res :=
  match a, b with
  | .nan _, _ | _, .nan _ => f.nan (snanFlag [a, b])
  | .inf _, .inf _ => f.nan flNV
  | .inf x, y => f.inf (x != y.neg?)
  | x, .inf y => f.zero (x.neg? != y)
  | .fin na ma ea, .fin nb mb eb =>
    if mb == 0 then (if ma == 0 then f.nan flNV else f.inf (na != nb) flDZ)
    else if ma == 0 then f.zero (na != nb)
    else
      let (q, k, st) := quotBits ma mb (f.mb + 4)
      f.round rnd ftz (na != nb) q (ea - eb + k) st

/-- The integer square root of n, from its bits 2i and below upward (r the part found). -/
def isqrtFrom : Nat → Nat → Nat → Nat
  | 0, n, r => if (r + 1) * (r + 1) ≤ n then r + 1 else r
  | i + 1, n, r =>
    let t := r + 2 ^ (i + 1)
    isqrtFrom i n (if t * t ≤ n then t else r)
/-- The integer square root. -/
def isqrt (n : Nat) : Nat := isqrtFrom (Nat.log2 n / 2 + 1) n 0

/-- √(m × 2^e) as a magnitude with a sticky rest, with at least `bits` bits. -/
def sqrtBits (m : Nat) (e : Int) (bits : Nat) : Nat × Int × Bool :=
  let (m, e) := if e % 2 == 0 then (m, e) else (2 * m, e - 1)
  let k := bits
  let n := m * 4 ^ k
  let r := isqrt n
  (r, e / 2 - k, r * r != n)

/-- √a (R154). -/
def Fmt.sqrt (f : Fmt) (rnd : Nat) (ftz : Bool) (a : Num) : Res :=
  match a with
  | .nan s => f.nan (flagIf s flNV)
  | .inf neg => if neg then f.nan flNV else f.inf false
  | .fin neg m e =>
    if m == 0 then f.zero neg
    else if neg then f.nan flNV
    else
      let (r, q, st) := sqrtBits m e (f.mb + 4)
      f.round rnd ftz false r q st

/-- a < b for numbers that are not NaN; -0 and +0 are equal. -/
def Num.lt (a b : Num) : Bool :=
  match a, b with
  | .nan _, _ | _, .nan _ => false
  | .inf x, .inf y => x && !y
  | .inf x, _ => x
  | _, .inf y => !y
  | .fin na ma ea, .fin nb mb eb =>
    let lo := if ea ≤ eb then ea else eb
    numerAt na ma ea lo < numerAt nb mb eb lo

/-- a = b for numbers that are not NaN; -0 equals +0. -/
def Num.eq (a b : Num) : Bool := !a.isNan && !b.isNan && !a.lt b && !b.lt a

/-- `fmin` (less) and `fmax`: an operand unchanged, NaN treated as missing, -0 below +0 (R155). -/
def Fmt.minMax (f : Fmt) (isMax ftz : Bool) (x y : Nat) : Res :=
  let flush (b : Nat) : Nat := if ftz && f.isSubnormal b then f.signed (b / f.signBit % 2 == 1) 0 else b
  let x := flush x
  let y := flush y
  let a := f.unpack x
  let b := f.unpack y
  let fl := snanFlag [a, b]
  if a.isNan && b.isNan then f.nan fl
  else if a.isNan then { bits := y, fl := fl }
  else if b.isNan then { bits := x, fl := fl }
  else
    let less := a.lt b || (a.eq b && a.neg? && !b.neg?)
    { bits := if less != isMax then x else y, fl := fl }

/-- ±m × 2^e rounded to an integer (R91). -/
def roundInt (rnd : Nat) (neg : Bool) (m : Nat) (e : Int) : Int × Bool :=
  let (n, inexact) := roundAt rnd neg m e false 0
  ((if neg then -(n : Int) else n), inexact)

/-- The smallest value of an integer type of w bits. -/
def intMin (signed : Bool) (w : Nat) : Int := if signed then -(2 ^ (w - 1) : Nat) else 0
/-- The largest value of an integer type of w bits. -/
def intMax (signed : Bool) (w : Nat) : Int := if signed then (2 ^ (w - 1) : Nat) - 1 else (2 ^ w : Nat) - 1
/-- The nearest value of the type, and whether the value was outside (R76). -/
def clampInt (signed : Bool) (w : Nat) (v : Int) : Int × Bool :=
  if v < intMin signed w then (intMin signed w, true)
  else if intMax signed w < v then (intMax signed w, true) else (v, false)

/-- A floating-point number converted to an integer type (R91): the integer and the flags. -/
def toInt (rnd : Nat) (signed : Bool) (w : Nat) (x : Num) : Int × Flags :=
  match x with
  | .nan _ => (0, flNV)
  | .inf neg => (if neg then intMin signed w else intMax signed w, flSAT ||| flNV)
  | .fin neg m e =>
    let (v, inexact) := roundInt rnd neg m e
    let (c, out) := clampInt signed w v
    if out then (c, flSAT ||| flNV) else (c, flagIf inexact flNX)

/-- An integer converted to a floating-point format (R90). -/
def Fmt.ofInt (f : Fmt) (rnd : Nat) (ftz : Bool) (v : Int) : Res := f.round rnd ftz (decide (v < 0)) v.natAbs 0

/-- A number converted to a floating-point format (R90); a NaN becomes canonical, signalling sets NV. -/
def Fmt.ofNum (f : Fmt) (rnd : Nat) (ftz : Bool) (x : Num) : Res :=
  match x with
  | .nan s => f.nan (flagIf s flNV)
  | .inf n => f.inf n
  | .fin n m e => f.round rnd ftz n m e

/-- The fields of a format register (R84). -/
structure Narrow where
  spec : Nat
  sgn : Bool
  e : Nat
  m : Nat
  bias : Nat
  deriving DecidableEq, Repr

/-- The format that a format register value describes (R84). -/
def Narrow.ofWord (w : Word) : Narrow :=
  { spec := (w.extractLsb' 30 2).toNat, sgn := w.getLsbD 29, e := (w.extractLsb' 26 3).toNat,
    m := (w.extractLsb' 23 3).toNat, bias := (w.extractLsb' 17 6).toNat }

/-- The width W of a format (R85). -/
def Narrow.width (n : Narrow) : Nat := (if n.sgn then 1 else 0) + n.e + n.m

/-- A legal format register value (R85). -/
def fmtLegal (w : Word) : Bool :=
  let n := Narrow.ofWord w
  1 ≤ n.width && n.width ≤ 8 && n.spec != 3 && (n.spec != 1 || n.e ≥ 1)
    && (n.spec != 2 || (n.e ≥ 2 && n.m ≥ 1)) && w.toNat % 2 ^ 17 == 0

/-- The number a narrow code stands for (R86). -/
def Narrow.unpack (n : Narrow) (code : Nat) : Num :=
  let c := code % 2 ^ n.width
  if n.e == 0 then
    let v : Int := if n.sgn && c ≥ 2 ^ (n.width - 1) then (c : Int) - (2 ^ n.width : Nat) else c
    .fin (decide (v < 0)) v.natAbs (-(n.bias : Int))
  else
    let mag := c % 2 ^ (n.e + n.m)
    let s := n.sgn && c ≥ 2 ^ (n.e + n.m)
    let ex := mag / 2 ^ n.m
    let fr := mag % 2 ^ n.m
    if n.spec == 1 && mag == 2 ^ (n.e + n.m) - 1 then .nan false
    else if n.spec == 2 && ex == 2 ^ n.e - 1 then (if fr == 0 then .inf s else .nan false)
    else if ex == 0 then .fin s fr (1 - (n.bias : Int) - n.m)
    else .fin s (fr + 2 ^ n.m) ((ex : Int) - n.bias - n.m)

/-- A narrow code with its flags and whether R92 counts it. -/
structure NarrowRes where
  code : Nat
  fl : Flags := 0
  counted : Bool := false
  deriving DecidableEq, Repr

/-- The largest finite magnitude code of a format with E ≥ 1 (R84, R86). -/
def Narrow.maxMag (n : Narrow) : Nat :=
  match n.spec with
  | 1 => 2 ^ (n.e + n.m) - 2
  | 2 => (2 ^ n.e - 1) * 2 ^ n.m - 1
  | _ => 2 ^ (n.e + n.m) - 1

/-- The code of the largest finite magnitude of a sign (R92). -/
def Narrow.maxCode (n : Narrow) (neg : Bool) : Nat :=
  if n.e == 0 then
    if n.sgn then (if neg then 2 ^ (n.width - 1) else 2 ^ (n.width - 1) - 1)
    else (if neg then 0 else 2 ^ n.width - 1)
  else if neg then (if n.sgn then 2 ^ (n.e + n.m) + n.maxMag else 0) else n.maxMag

/-- A finite value rounded on the grid of a format with E = 0 (R92). -/
def Narrow.packInt (n : Narrow) (rnd : Nat) (neg : Bool) (m : Nat) (e : Int) : NarrowRes :=
  let (k, inexact) := roundAt rnd neg m e false (-(n.bias : Int))
  let v : Int := if neg then -(k : Int) else k
  let lo : Int := if n.sgn then -(2 ^ (n.width - 1) : Nat) else 0
  let hi : Int := if n.sgn then (2 ^ (n.width - 1) : Nat) - 1 else (2 ^ n.width : Nat) - 1
  if v < lo || hi < v then { code := n.maxCode neg, fl := flSAT ||| flNX, counted := true }
  else { code := (v % ((2 ^ n.width : Nat) : Int)).toNat, fl := flagIf inexact flNX }

/-- A finite value rounded on the grid of a format with E ≥ 1 (R92). DESIGN CHOICE (log 56): with M = 0 every normal significand is 1,
and of a tie between two normal codes the greater magnitude is taken for even. -/
def Narrow.packFp (n : Narrow) (rnd : Nat) (neg : Bool) (m : Nat) (e : Int) : NarrowRes :=
  let s := if neg && n.sgn then 2 ^ (n.e + n.m) else 0
  if m == 0 then { code := s }
  else
    let emin : Int := 1 - (n.bias : Int)
    let lead := leadExp m e
    let q0 : Int := lead - (n.m : Int)
    let q : Int := if lead < emin then emin - (n.m : Int) else q0
    let (k, inexact) := roundAt rnd neg m e false q
    let (k, q) := if k ≥ 2 ^ (n.m + 1) then (k / 2, q + 1) else (k, q)
    let (k', _) := roundAt rnd neg m e false q0
    let tiny := lead < emin && !(lead == emin - 1 && k' == 2 ^ (n.m + 1))
    let mag := if k < 2 ^ n.m then k else ((q + n.m + n.bias).toNat) * 2 ^ n.m + (k - 2 ^ n.m)
    if mag > n.maxMag then { code := n.maxCode neg, fl := flSAT ||| flNX, counted := true }
    else if neg && !n.sgn && mag != 0 then { code := 0, fl := flSAT ||| flNX, counted := true }
    else { code := (if neg && !n.sgn then 0 else s) + mag,
           fl := flagIf inexact flNX ||| flagIf (tiny && inexact && (!neg || n.sgn)) flUF }

/-- A number converted to a narrow format (R92). -/
def Narrow.pack (n : Narrow) (rnd : Nat) (x : Num) : NarrowRes :=
  match x with
  | .nan sig =>
    if n.spec == 0 then { code := n.maxCode false, fl := flSAT ||| flNV, counted := true }
    else { code := 2 ^ (n.e + n.m) - 1, fl := flagIf sig flNV }
  | .inf neg =>
    if neg && !n.sgn then { code := 0, fl := flSAT, counted := true }
    else if n.spec == 2 then
      { code := (if neg then 2 ^ (n.e + n.m) else 0) + (2 ^ n.e - 1) * 2 ^ n.m }
    else { code := n.maxCode neg, fl := flSAT, counted := true }
  | .fin neg m e => if n.e == 0 then n.packInt rnd neg m e else n.packFp rnd neg m e

/-- The number a C16 element stands for (R87). -/
def c16Num (b : Nat) : Num :=
  let s := b / 2 ^ 15 % 2 == 1
  let x : Nat := b / 2 ^ 7 % 2 ^ 8
  if x == 0 then .fin s 0 0 else .fin s (b % 2 ^ 7 + 2 ^ 7) ((x : Int) - 135)

/-- A number converted to C16 (R160), with its flags. DESIGN CHOICE (log 56): of the tie 2^−128 between 0 and 2^−127, 0 is taken for
even (R90). -/
def toC16 (rnd : Nat) (x : Num) : Res :=
  match x with
  | .nan _ => { bits := 0x7fff, fl := flNV }
  | .inf neg => { bits := if neg then 0xffff else 0x7fff, fl := flSAT }
  | .fin neg m e =>
    let s := if neg then 2 ^ 15 else 0
    if m == 0 then { bits := s }
    else
      let lead := leadExp m e
      -- below 2^-127 the grid is 0 and 2^-127
      if lead < -127 then
        let (k, _) := roundAt rnd neg m e false (-127)
        let (k', _) := roundAt rnd neg m e false (lead - 7)
        let tiny := !(lead == -128 && k' == 2 ^ 8)
        { bits := if k == 0 then s else s + 2 ^ 7, fl := flNX ||| flagIf tiny flUF }
      else
        let (k, inexact) := roundAt rnd neg m e false (lead - 7)
        let (k, lead) := if k ≥ 2 ^ 8 then (2 ^ 7, lead + 1) else (k, lead)
        if lead > 127 then { bits := s + 0x7fff, fl := flSAT ||| flNX }
        else { bits := s + (lead + 128).toNat * 2 ^ 7 + (k - 2 ^ 7), fl := flagIf inexact flNX }

end Sys2Proof
end

