-- ==== Sys2Proof/Machine/Calc.lean ====
section
/-!
DEFINITION. What the lane arithmetic computes from its source values: integers and bits (R75 to R77, R144 to
R152), floating point (R153 to R158), compares (R121, R122), conversions (R159, R160). Nothing here reads state.
-/
namespace Sys2Proof

/-- The result of an operation of a lane with the flags whose conditions it meets. A 32-bit result is the low half. -/
structure Calc where
  val : DWord
  fl : Flags := 0
  deriving DecidableEq, Repr

/-- A floating-point result as a calculation. -/
def Calc.ofRes (r : Res) : Calc := { val := BitVec.ofNat 64 r.bits, fl := r.fl }

/-- The width in bits of a type (R50). -/
def typeBits (t : Nat) : Nat := 8 * typeBytes t
/-- A signed integer type (R50). -/
def typeSigned (t : Nat) : Bool := t == 1 || t == 3 || t == 5 || t == 7

/-- A source read as an integer type: the low bits of the width, signed or not (R75). -/
def readInt (t : Nat) (v : DWord) : Int :=
  let n := v.toNat % 2 ^ typeBits t
  if typeSigned t && n ≥ 2 ^ (typeBits t - 1) then (n : Int) - ((2 ^ typeBits t : Nat) : Int) else n

/-- An integer modulo 2^w read as the type (R76). -/
def wrapInt (t : Nat) (v : Int) : Int := readInt t (BitVec.ofInt 64 v)

/-- An integer of a type as the bits written: extended under R75. -/
def writeInt (t : Nat) (v : Int) : DWord := BitVec.ofInt 64 (wrapInt t v)

/-- The exact result wrapped, or clamped under `.sat` with SAT (R145). -/
def intResult (t : Nat) (sat : Bool) (exact : Int) : Calc :=
  if sat then
    let (c, out) := clampInt (typeSigned t) (typeBits t) exact
    { val := writeInt t c, fl := flagIf out flSAT }
  else { val := writeInt t exact }

/-- SAT of an integer cell (R49). -/
def OpF.sat (f : OpF) : Bool := f.bit 7
/-- FTZ of a floating-point cell (R49). -/
def OpF.ftz (f : OpF) : Bool := f.bit 6
/-- RND (R49). -/
def OpF.rnd (f : OpF) : Nat := f.bits 5 4

/-- A two-source cell whose exact result is a function of the integers (R145). -/
def calcInt (f : OpF) (sat : Bool) (g : Int → Int → Int) (a b : DWord) : Calc :=
  intResult f.typ sat (g (readInt f.typ a) (readInt f.typ b))

def calcAdd (f : OpF) (a b : DWord) : Calc := calcInt f f.sat (· + ·) a b
def calcSub (f : OpF) (a b : DWord) : Calc := calcInt f f.sat (· - ·) a b
def calcMulLo (f : OpF) (a b : DWord) : Calc := calcInt f f.sat (· * ·) a b
/-- Bits [2w-1:w] of the exact product (R144). -/
def calcMulHi (f : OpF) (a b : DWord) : Calc :=
  calcInt f false (fun x y => Int.fdiv (x * y) ((2 ^ typeBits f.typ : Nat) : Int)) a b
def calcMad (f : OpF) (a b c : DWord) : Calc :=
  intResult f.typ f.sat (readInt f.typ a * readInt f.typ b + readInt f.typ c)
/-- The quotient under R77. -/
def calcDiv (f : OpF) (a b : DWord) : Calc :=
  if readInt f.typ b == 0 then { val := writeInt f.typ (-1), fl := flDZ }
  else intResult f.typ f.sat ((readInt f.typ a).tdiv (readInt f.typ b))
/-- The remainder under R77. -/
def calcRem (f : OpF) (a b : DWord) : Calc :=
  if readInt f.typ b == 0 then { val := writeInt f.typ (readInt f.typ a), fl := flDZ }
  else { val := writeInt f.typ ((readInt f.typ a).tmod (readInt f.typ b)) }
def calcMin (f : OpF) (a b : DWord) : Calc := calcInt f false (fun x y => if x ≤ y then x else y) a b
def calcMax (f : OpF) (a b : DWord) : Calc := calcInt f false (fun x y => if x ≤ y then y else x) a b
def calcAbs (f : OpF) (a : DWord) : Calc := intResult f.typ f.sat ((readInt f.typ a).natAbs : Int)
def calcAnd (a b : DWord) : Calc := { val := a &&& b }
def calcOr (a b : DWord) : Calc := { val := a ||| b }
def calcXor (a b : DWord) : Calc := { val := a ^^^ b }
def calcAndn (a b : DWord) : Calc := { val := a &&& ~~~b }
def calcNot (a : DWord) : Calc := { val := ~~~a }
def calcMov (a : DWord) : Calc := { val := a }

/-- A source as a plain number of the width of its type. -/
def readNat (t : Nat) (v : DWord) : Nat := v.toNat % 2 ^ typeBits t

def calcShl (f : OpF) (a n : DWord) : Calc :=
  let w := typeBits f.typ
  let n := n.toNat % 2 ^ 32
  { val := if n < w then BitVec.ofNat 64 (readNat f.typ a * 2 ^ n % 2 ^ w) else 0 }
def calcShr (f : OpF) (a n : DWord) : Calc :=
  let n := n.toNat % 2 ^ 32
  { val := if n < typeBits f.typ then BitVec.ofNat 64 (readNat f.typ a / 2 ^ n) else 0 }
/-- Arithmetic shift right: at or beyond the width every bit is the sign bit (R146). -/
def calcSar (f : OpF) (a n : DWord) : Calc :=
  let n := Nat.min (n.toNat % 2 ^ 32) (typeBits f.typ)
  { val := writeInt f.typ (Int.fdiv (readInt f.typ a) ((2 ^ n : Nat) : Int)) }
def calcRot (f : OpF) (a n : DWord) : Calc :=
  let w := typeBits f.typ
  let n := n.toNat % 2 ^ 32 % w
  let x := readNat f.typ a
  { val := BitVec.ofNat 64 (x * 2 ^ n % 2 ^ w + x / 2 ^ (w - n)) }

/-- The position and length of a bit-field control word (R147). -/
def fieldPos (c : DWord) : Nat := c.toNat % 256
def fieldLen (c : DWord) : Nat := c.toNat / 256 % 256

def calcBfe (f : OpF) (a c : DWord) : Calc :=
  let w := typeBits f.typ
  let len := Nat.min (fieldLen c) w
  let pos := Nat.min (fieldPos c) w
  let x := readNat f.typ a / 2 ^ pos % 2 ^ len
  if len == 0 then { val := 0 }
  else if typeSigned f.typ && x ≥ 2 ^ (len - 1) then { val := writeInt f.typ ((x : Int) - ((2 ^ len : Nat) : Int)) }
  else { val := BitVec.ofNat 64 x }
/-- Bit i of the field goes to bit pos + i while that lies below w (R147). -/
def calcBfi (f : OpF) (a c base : DWord) : Calc :=
  let w := typeBits f.typ
  let pos := fieldPos c
  let mask := (2 ^ (fieldLen c) - 1) * 2 ^ pos % 2 ^ w
  let ins := readNat f.typ a * 2 ^ pos &&& mask
  { val := BitVec.ofNat 64 ((readNat f.typ base &&& (mask ^^^ (2 ^ w - 1))) ||| ins) }

/-- The one bits below bit n. -/
def popBelow : Nat → Nat → Nat
  | 0, _ => 0
  | n + 1, x => (if x.testBit n then 1 else 0) + popBelow n x
/-- The zero bits from bit n-1 downward to the first one bit. -/
def leadZeros : Nat → Nat → Nat
  | 0, _ => 0
  | n + 1, x => if x.testBit n then 0 else 1 + leadZeros n x
/-- The low w bits in reverse order. -/
def revBits : Nat → Nat → Nat
  | 0, _ => 0
  | w + 1, x => (if x.testBit 0 then 2 ^ w else 0) + revBits w (x / 2)

def calcPopc (f : OpF) (a : DWord) : Calc := { val := BitVec.ofNat 64 (popBelow (typeBits f.typ) a.toNat) }
def calcClz (f : OpF) (a : DWord) : Calc := { val := BitVec.ofNat 64 (leadZeros (typeBits f.typ) a.toNat) }
def calcBrev (f : OpF) (a : DWord) : Calc := { val := BitVec.ofNat 64 (revBits (typeBits f.typ) a.toNat) }
def calcCtz (f : OpF) (a : DWord) : Calc :=
  { val := BitVec.ofNat 64 (leadZeros (typeBits f.typ) (revBits (typeBits f.typ) a.toNat)) }
def calcSel (f : OpF) (p : Bool) (a b : DWord) : Calc := { val := if p != f.bit 9 then a else b }
/-- Base plus the shifted index modulo 2^64 (R150). -/
def calcLea (f : OpF) (a i : DWord) : Calc :=
  { val := a + BitVec.ofInt 64 (readInt f.typ i * ((2 ^ f.sub : Nat) : Int)) }

/-- The condition of `cmp` (R121). -/
def calcCmp (f : OpF) (a b : DWord) : Bool :=
  let x := readInt f.typ a
  let y := readInt f.typ b
  match f.sub with
  | 0 => x == y
  | 1 => x != y
  | 2 => x < y
  | 3 => x ≤ y
  | 4 => y < x
  | _ => y ≤ x

/-- The condition of `fcmp` with its flags (R122). -/
def calcFcmp (f : OpF) (a b : DWord) : Bool × Flags :=
  let fmt := Fmt.ofType f.typ
  let x := fmt.unpack (readNat f.typ a)
  let y := fmt.unpack (readNat f.typ b)
  let un := x.isNan || y.isNan
  let lt := x.lt y
  let gt := y.lt x
  let eq := x.eq y
  let r := match f.sub with
    | 0 => eq
    | 1 => !un && !eq
    | 2 => lt
    | 3 => lt || eq
    | 4 => gt
    | 5 => gt || eq
    | 6 => !un
    | 7 => un
    | 8 => un || eq
    | 9 => un || !eq
    | 10 => un || lt
    | 11 => un || lt || eq
    | 12 => un || gt
    | _ => un || gt || eq
  let nv := x.isSNan || y.isSNan || (un && 2 ≤ f.sub && f.sub ≤ 5)
  (r, flagIf nv flNV)

/-- A floating-point source as the cell reads it (R80, R83). -/
def OpF.fp (f : OpF) (v : DWord) : Num := (Fmt.ofType f.typ).read f.ftz (readNat f.typ v)

/-- `fadd`; `fsub` is the same cell with NEG, which negates source 2 (R49, R64). -/
def calcFadd (f : OpF) (a b : DWord) : Calc :=
  let y := f.fp b
  .ofRes ((Fmt.ofType f.typ).add f.rnd f.ftz (f.fp a) (if f.bit 8 then y.negate else y))
def calcFmul (f : OpF) (a b : DWord) : Calc := .ofRes ((Fmt.ofType f.typ).mul f.rnd f.ftz (f.fp a) (f.fp b))
def calcFfma (f : OpF) (a b c : DWord) : Calc :=
  .ofRes ((Fmt.ofType f.typ).fma f.rnd f.ftz (f.fp a) (f.fp b) (f.fp c))
def calcFmin (f : OpF) (a b : DWord) : Calc :=
  .ofRes ((Fmt.ofType f.typ).minMax false f.ftz (readNat f.typ a) (readNat f.typ b))
def calcFmax (f : OpF) (a b : DWord) : Calc :=
  .ofRes ((Fmt.ofType f.typ).minMax true f.ftz (readNat f.typ a) (readNat f.typ b))
def calcFdiv (f : OpF) (a b : DWord) : Calc := .ofRes ((Fmt.ofType f.typ).div f.rnd f.ftz (f.fp a) (f.fp b))
def calcFsqrt (f : OpF) (a : DWord) : Calc := .ofRes ((Fmt.ofType f.typ).sqrt f.rnd f.ftz (f.fp a))

/-- A packed form: each half on its own, the flags joined (R158). -/
def packed (g : DWord → DWord → DWord → Calc) (a b c : DWord) : Calc :=
  let lo (v : DWord) : DWord := (v.setWidth 16).setWidth 64
  let hi (v : DWord) : DWord := ((v >>> 16).setWidth 16).setWidth 64
  let l := g (lo a) (lo b) (lo c)
  let h := g (hi a) (hi b) (hi c)
  { val := h.val <<< 16 ||| l.val, fl := l.fl ||| h.fl }
def calcHadd2 (f : OpF) (a b : DWord) : Calc := packed (fun x y _ => calcFadd f x y) a b 0
def calcHmul2 (f : OpF) (a b : DWord) : Calc := packed (fun x y _ => calcFmul f x y) a b 0
def calcHfma2 (f : OpF) (a b c : DWord) : Calc := packed (calcFfma f) a b c

/-- A conversion with the value of the format register it names (R159, R160). -/
def calcCvt (f : OpF) (fm : Word) (a : DWord) : Calc :=
  let dst := Fmt.ofType f.typ
  if f.sub ≤ 11 then
    if f.sub ≤ 7 && f.typ ≤ 7 then intResult f.typ f.sat (readInt f.sub a)
    else if f.sub ≤ 7 then .ofRes (dst.ofInt f.rnd f.ftz (readInt f.sub a))
    else
      let src := Fmt.ofType f.sub
      if f.typ ≤ 7 then
        -- R80: flushing does not affect conversions to integer types
        let (v, fl) := toInt f.rnd (typeSigned f.typ) (typeBits f.typ) (src.unpack (readNat f.sub a))
        { val := writeInt f.typ v, fl := fl }
      else .ofRes (dst.ofNum f.rnd f.ftz (src.read f.ftz (readNat f.sub a)))
  else if f.sub == 12 then .ofRes { dst.ofNum f.rnd false (c16Num (a.toNat % 2 ^ 16)) with fl := 0 }
  else if f.sub == 13 then .ofRes { dst.ofNum f.rnd false ((Narrow.ofWord fm).unpack a.toNat) with fl := 0 }
  else
    let x := dst.unpack (readNat f.typ a)
    if f.sub == 14 then
      let r := (Narrow.ofWord fm).pack f.rnd x
      { val := BitVec.ofNat 64 r.code, fl := r.fl }
    else .ofRes (toC16 f.rnd x)

/-- The approximate functions (R156). -/
inductive Approx where
  | rcp | rsqrt | sin | cos | exp2 | log2
  deriving DecidableEq, Repr

/-- The number by which the free values tell the functions apart. -/
def Approx.num : Approx → Nat
  | .rcp => 0
  | .rsqrt => 1
  | .sin => 2
  | .cos => 3
  | .exp2 => 4
  | .log2 => 5

/-- A magnitude that is a power of two: its exponent. -/
def powerOfTwo (m : Nat) (e : Int) : Option Int :=
  if m == 2 ^ Nat.log2 m then some (leadExp m e) else none

/-- An inexact approximate result of known bits, flushed under `.ftz`: NX always, UF where it is tiny (R157). -/
def approxRes (f : Fmt) (ftz : Bool) (bits : Nat) : Res :=
  let mag := bits % f.signBit
  let tiny := mag < 2 ^ f.mb
  { bits := if ftz && tiny then bits - mag else bits, fl := flNX ||| flagIf tiny flUF }

/-- ±m·2^e and a number within a distance of d·2^q. -/
def nearBy (a b : Num) (d : Nat) (q : Int) : Bool :=
  match a, b with
  | .fin na ma ea, .fin nb mb eb =>
    let lo := min ea (min eb q)
    decide ((numerAt na ma ea lo - numerAt nb mb eb lo).natAbs ≤ d * 2 ^ (q - lo).toNat)
  | _, _ => false

/-- The exponent of the last place of a magnitude in a format (R156). -/
def Fmt.ulp (f : Fmt) (m : Nat) (e : Int) : Int := max (leadExp m e) f.emin - f.mb

/-- The first and the last magnitude of a format within d·2^q of m·2^e. -/
def Fmt.within (f : Fmt) (m : Nat) (e : Int) (d : Nat) (q : Int) : Nat × Nat :=
  let lo := min e q
  let a := m * 2 ^ (e - lo).toNat
  let b := d * 2 ^ (q - lo).toNat
  ((f.round 3 false false (a - b) lo).bits, (f.round 1 false false (a + b) lo).bits)

/-- A result from lo to hi found bit by bit: it takes a step up where it must, or where it may and the place `key` stands at or past the
free one of that result. It rises with lo, hi and `key`, and for some free places it is any such function (R156). -/
def climb (lo hi key : Nat) (free : Nat → Nat) : Nat → Nat → Nat
  | 0, v => v
  | n + 1, v => climb lo hi key free n (if v + 2 ^ n ≤ lo || (v + 2 ^ n ≤ hi && free (v + 2 ^ n) ≤ key) then v + 2 ^ n else v)

/-- An inexact result near ±m·2^e, for the input at a place of an interval: the device's own where it is a finite number of that sign,
within d·2^q of it, of a magnitude from lo to hi, and never less than that of a place before; or the nearest number (R156). -/
def approxPick (f : Fmt) (ftz neg : Bool) (m : Nat) (e : Int) (d : Nat) (q : Int) (lo hi : Nat) (free : Nat → Nat) (key : Nat) : Res :=
  let (a, b) := f.within m e d q
  let near := (f.round 0 false neg m e true).bits
  let mid := near % f.signBit
  let c := climb (Nat.min (Nat.max lo a) mid) (Nat.max (Nat.min hi b) mid) key free (f.eb + f.mb) 0
  if c < f.infBits && nearBy (f.unpack (f.signed neg c)) (.fin neg m e) d q then approxRes f ftz (f.signed neg c)
  else if mid == f.infBits then f.inf neg (flOF ||| flNX)
  else approxRes f ftz near

/-- The bits of ±2^k or of its subnormal, exact where the format holds it. -/
def Fmt.pow2 (f : Fmt) (neg : Bool) (k : Int) : Nat := (f.round 0 false neg 1 k).bits

/-! Elementary functions, far more exact than R156 asks: fixed-point numbers with 400 or 200 bits behind the point. -/

/-- π/2 with 400 bits behind the point, and ln 2 with 200. -/
def halfPi : Nat := 0x1921fb54442d18469898cc51701b839a252049c1114cf98e804177d4c76273644a29410f31c6809bbdf2a33679a7486366056
def ln2 : Nat := 0xb17217f7d1cf79abc9e3b39803f2f6af40f343267298b62d8a

/-- A power series Σ s^i·x^(2i) / ((a+1)(a+2)⋯(a+2i)) from a term on, where s is −1: sine and cosine of p bits. -/
def altSeries (p y : Nat) : Nat → Nat → Int → Int
  | 0, _, _ => 0
  | n + 1, a, t => t + altSeries p y n (a + 2) (-(t * y / (2 ^ p * ((a + 1) * (a + 2)) : Nat)))
/-- sin and cos of r / 2^400, where r is at most π/4. -/
def sinFix (r : Int) : Int := altSeries 400 (r.natAbs * r.natAbs / 2 ^ 400) 60 1 r
def cosFix (r : Int) : Int := altSeries 400 (r.natAbs * r.natAbs / 2 ^ 400) 60 0 (2 ^ 400)

/-- sin (m·2^e), or with an offset of a quarter turn cos, with 400 bits behind the point (R156: the reduction is exact). -/
def sinAt (m : Nat) (e : Int) (quarter : Nat) : Int :=
  let x := m * 2 ^ (e + 400).toNat
  let k := (x + halfPi / 2) / halfPi
  let r : Int := (x : Int) - (k * halfPi : Nat)
  match (k + quarter) % 4 with
  | 0 => sinFix r
  | 1 => cosFix r
  | 2 => -sinFix r
  | _ => -cosFix r

/-- How many whole quarter turns stand in m·2^e. -/
def quarters (m : Nat) (e : Int) : Nat := m * 2 ^ (e + 400).toNat / halfPi

/-- The place of an input in its interval: by its magnitude, upwards where the magnitude of the function rises with it. -/
def Fmt.place (f : Fmt) (rising : Bool) (m : Nat) (e : Int) : Nat :=
  let c := (f.round 0 false false m e).bits
  if rising then c else f.signBit - c

/-- The least magnitude that sin or cos of a number may have beside those before it in its quarter turn: the unit in the last place
doubles at a power of two, so the bound of R156 alone would allow less than theirs. -/
def sinFloor (f : Fmt) (quarter : Nat) (rising : Bool) (m : Nat) (e : Int) : Nat :=
  let c := (f.round 0 false false m e).bits
  (List.range 4).foldl (fun lo j =>
    match f.unpack (if rising then c - (j + 1) else c + (j + 1)) with
    | .fin _ m' e' =>
      let v := (sinAt m' e' quarter).natAbs
      if m' == 0 || quarters m' e' != quarters m e then lo else Nat.max lo (f.within v (-400) 2 (f.ulp v (-400))).1
    | _ => lo) 0

/-- Σ t·y^i / ((a+1)⋯(a+i)): the exponential of y / 2^p. -/
def expSeries (p y : Nat) : Nat → Nat → Nat → Nat
  | 0, _, _ => 0
  | n + 1, a, t => t + expSeries p y n (a + 1) (t * y / (2 ^ p * (a + 1)))
/-- Σ z^(2i+1) / (2i+1), from a term z on: the inverse hyperbolic tangent. -/
def atanhSeries (p y : Nat) : Nat → Nat → Nat → Nat
  | 0, _, _ => 0
  | n + 1, a, t => t / a + atanhSeries p y n (a + 2) (t * y / 2 ^ p)

/-- log2 of m·2^e with 200 bits behind the point. -/
def log2At (m : Nat) (e : Int) : Int :=
  let b := Nat.log2 m
  let z := (m - 2 ^ b) * 2 ^ 200 / (m + 2 ^ b)
  leadExp m e * 2 ^ 200 + (2 * atanhSeries 200 (z * z / 2 ^ 200) 70 1 z * 2 ^ 200 / ln2 : Nat)

/-- 2^(x − k) with 200 bits behind the point, for x = ±m·2^e and k = ⌊x⌋: a fraction of at most 200 bits, below them it moves no
result. -/
def exp2At (n : Bool) (m : Nat) (e k : Int) : Nat :=
  let d := numerAt n m e (min e 0) - k * 2 ^ (-(min e 0)).toNat
  expSeries 200 (d.toNat * 2 ^ 200 / 2 ^ (-(min e 0)).toNat * ln2 / 2 ^ 200) 60 0 (2 ^ 200)

/-- 1/√(m·2^e) = √(1/(m·2^e)), with many more bits than the format. -/
def rsqrtAt (f : Fmt) (m : Nat) (e : Int) : Nat × Int :=
  let (r, q, _) := match powerOfTwo m e with
    | some k => sqrtBits 1 (-k) (f.mb + 64)
    | none =>
      let (q, k, _) := quotBits 1 m (2 * f.mb + Nat.log2 m + 140)
      sqrtBits q (k - e) 2
  (r, q)

/-- The even exponent of a power of four. -/
def powerOfFour (m : Nat) (e : Int) : Option Int := (powerOfTwo m e).bind fun k => if k % 2 == 0 then some (k / 2) else none

/-- An approximate function on a number that is not NaN and not flushed, with the free places of the device: the exact
results, the special ones, the bound, the sign, magnitude and order rules of R156 and R157 hold whatever they are (log 12). -/
def approxVal (fn : Approx) (f : Fmt) (ftz : Bool) (x : Num) (free : Nat → Nat → Nat) : Res :=
  let all := f.infBits
  match fn, x with
  | _, .nan s => f.nan (flagIf s flNV)
  | .rcp, .inf n => f.zero n
  | .rcp, .fin n m e =>
    if m == 0 then f.inf n flDZ
    else match powerOfTwo m e with
      | some k => if f.emin ≤ -k then (if -k ≤ f.bias then { bits := f.pow2 n (-k) } else f.inf n (flOF ||| flNX))
          else approxPick f ftz n 1 (-k) 1 (f.ulp 1 (-k)) 0 all (free n.toNat) (f.place false m e)
      | none =>
        let (q, k, _) := quotBits 1 m (f.mb + Nat.log2 m + 64)
        -- the reciprocals of the powers of two around it, where they are exact
        let lead := -leadExp m e
        let lo := if f.emin ≤ lead - 1 then f.pow2 false (lead - 1) else 0
        let hi := if f.emin ≤ lead then f.pow2 false lead else all
        approxPick f ftz n q (k - e) 1 (f.ulp q (k - e)) lo hi (free n.toNat) (f.place false m e)
  | .rsqrt, .inf n => if n then f.nan flNV else f.zero false
  | .rsqrt, .fin n m e =>
    if m == 0 then f.inf n flDZ
    else if n then f.nan flNV
    else match powerOfFour m e with
      | some k => { bits := f.pow2 false (-k) }
      | none =>
        let (w, q) := rsqrtAt f m e
        let k := leadExp m e / 2
        approxPick f ftz false w q 2 (f.ulp w q) (f.pow2 false (-k - 1)) (f.pow2 false (-k)) (free 0) (f.place false m e)
  | .sin, .inf _ | .cos, .inf _ => f.nan flNV
  | .sin, .fin n m e =>
    if m == 0 then f.zero n
    else
      let v := sinAt m e 0
      let k := quarters m e
      let rising := k % 2 == 0
      approxPick f ftz (n != decide (v < 0)) v.natAbs (-400) 2 (f.ulp v.natAbs (-400)) (sinFloor f 0 rising m e) (f.pow2 false 0)
        (free (2 * k + n.toNat)) (f.place rising m e)
  | .cos, .fin n m e =>
    if m == 0 then { bits := f.pow2 false 0 }
    else
      let v := sinAt m e 1
      let k := quarters m e
      let rising := k % 2 == 1
      approxPick f ftz (decide (v < 0)) v.natAbs (-400) 2 (f.ulp v.natAbs (-400)) (sinFloor f 1 rising m e) (f.pow2 false 0)
        (free (2 * k + n.toNat)) (f.place rising m e)
  | .exp2, .inf n => if n then f.zero false else f.inf false
  | .exp2, .fin n m e =>
    if m == 0 then { bits := f.pow2 false 0 }
    else
      let (k, frac) := roundInt 2 n m e
      if k > f.bias then f.inf false (flOF ||| flNX)
      -- below the least subnormal, which 2^x is for an integer, nothing greater is given
      else if k < f.qmin - 1 then approxPick f ftz false 1 (f.qmin - 2) 2 f.qmin 0 1 (free n.toNat) (f.place (!n) m e)
      else if !frac && f.qmin ≤ k then
        (if ftz && k < f.emin then f.zero false (flUF ||| flNX) else { bits := f.pow2 false k })
      else
        let lo := if k < f.qmin then 0 else f.pow2 false k
        let hi := if k + 1 > f.bias then f.infBits - 1 else f.pow2 false (k + 1)
        let v := exp2At n m e k
        approxPick f ftz false v (k - 200) 2 (f.ulp v (k - 200)) lo hi (free n.toNat) (f.place (!n) m e)
  | .log2, .inf n => if n then f.nan flNV else f.inf false
  | .log2, .fin n m e =>
    if m == 0 then f.inf true flDZ
    else if n then f.nan flNV
    else match powerOfTwo m e with
      | some k => { bits := (f.ofInt 0 false k).bits }
      | none =>
        let k := leadExp m e
        let a := (f.ofInt 0 false k).bits % f.signBit
        let b := (f.ofInt 0 false (k + 1)).bits % f.signBit
        let v := log2At m e
        -- inside [0.5, 2] the error is at most 2^−22, outside at most 2 ulp
        let (d, q) : Nat × Int := if k == 0 || k == -1 then (1, -22) else (2, f.ulp v.natAbs (-200))
        approxPick f ftz (decide (v < 0)) v.natAbs (-200) d q (Nat.min a b) (Nat.max a b) (free (decide (v < 0)).toNat)
          (f.place (decide (0 ≤ k)) m e)

/-- An approximate function of a lane: its result is one for each function, format, `.ftz` and input (R156). -/
def calcApprox (fn : Approx) (f : OpF) (a : DWord) : Calc :=
  let fmt := Fmt.ofType f.typ
  .ofRes (approxVal fn fmt f.ftz (f.fp a) (Config.approx fn.num (isWide f.typ) f.ftz))

end Sys2Proof
end

