-- ==== Sys2Proof/WellFormed.lean ====
section
/-!
DEFINITION. Well-formed instructions: the instructions that some code encodes and that no decode check
refuses under the largest declared register counts.
-/
namespace Sys2Proof

/-- The instruction is written with the constructor and the slot count that its encoding decodes to. -/
def Instr.canonical : Instr → Bool
  | .tree h slots => slots.length == h.ns.toNat
  | .rep .. => true
  | .moviLong .. => true
  | .longImmediateForm opc _ _ => opc != 0x1b
  | i =>
    match i.op with
    | none => false
    | some (opc, f) => opInstr opc f == some i

/-- Well-formed: canonical, and refused by no check of R61 with 224 general and 8 affine registers. The
rows that are no instruction of the ISA have no encoding and are not well-formed. -/
def Instr.wellFormed (i : Instr) : Bool := i.canonical && (i.codeFaults 224 8).isEmpty

end Sys2Proof
end

