-- ==== Sys2Proof/Decode.lean ====
section
/-!
DEFINITION. The decoder of code slots and the encoder (R42 to R60). Slots are 64-bit words, little-endian.
-/
namespace Sys2Proof

/-- Why no instruction is read from a list of slots. -/
inductive DecodeError where
  /-- The list ends inside the instruction. -/
  | short
  /-- The code raises this cause, and no instruction is formed (R42, R53, R61). -/
  | bad (c : Cause)
  deriving DecidableEq, Repr

/-- The slots of the instruction that begins with this slot (R42). -/
def slotCount (w : DWord) : Nat :=
  if w.getLsbD 63 then 1 + (w.extractLsb' 59 3).toNat
  else if w.extractLsb' 61 2 == 1 || w.extractLsb' 61 2 == 2 then 2 else 1

/-- The fields of an operation slot below its opcode (R44). -/
def parseF (w : DWord) : OpF :=
  { tr := w.getLsbD 52, d := w.extractLsb' 44 8, dc := w.getLsbD 43, s1 := w.extractLsb' 33 10,
    s2 := w.extractLsb' 23 10, s3 := w.extractLsb' 13 10, mod := w.extractLsb' 0 13 }

/-- The opcode of an operation slot (R44). -/
def parseOpc (w : DWord) : BitVec 8 := w.extractLsb' 53 8

/-- An operation slot of a tree (R44, R58). -/
def parseSlot (w : DWord) : TreeSlot := { arc := w.extractLsb' 61 3, opc := parseOpc w, f := parseF w }

/-- A tree header (R55). -/
def parseHeader (w : DWord) : TreeHeader :=
  { rf := w.getLsbD 62, ns := w.extractLsb' 59 3, sh := w.extractLsb' 57 2, t0 := w.extractLsb' 51 6,
    t1 := w.extractLsb' 45 6, t2 := w.extractLsb' 39 6, l0 := w.extractLsb' 30 9, l1 := w.extractLsb' 21 9,
    l2 := w.extractLsb' 12 9, l3 := w.extractLsb' 3 9, hleaf := w.extractLsb' 1 2, hval := w.getLsbD 0 }

/-- A repeat prefix (R52). -/
def parseRep (w : DWord) : RepPrefix :=
  { cnt := w.extractLsb' 55 6, dStep := w.extractLsb' 51 4, s1Step := w.extractLsb' 47 4,
    s2Step := w.extractLsb' 43 4, s3Step := w.extractLsb' 39 4, rsv := w.extractLsb' 0 39 }

/-- The instruction that begins with a slot, read with the slots after it (R42). Total: a list too short
or code with no instruction is named. The field checks of R61 are `Instr.codeFaults`. DESIGN CHOICE (log 55): a repeat prefix before
a slot that is no straight operation, whatever its kind and OPC, is ILL_FIELD (R53), also where R61 and R62 could give ILL_OPC. -/
def decode : List DWord → Except DecodeError Instr
  | [] => .error .short
  | w :: rest =>
    if w.getLsbD 63 then
      let h := parseHeader w
      let ns := h.ns.toNat
      if rest.length < ns then .error .short else .ok (.tree h ((rest.take ns).map parseSlot))
    else
      match (w.extractLsb' 61 2).toNat with
      | 0 =>
        match opInstr (parseOpc w) (parseF w) with
        | some i => .ok i
        | none => .error (.bad .illOpc)
      | 1 =>
        match rest with
        | [] => .error .short
        | w1 :: _ =>
          if w1.extractLsb' 61 3 == 0 then .ok (.rep (parseRep w) (parseOpc w1) (parseF w1))
          else .error (.bad .illField)
      | 2 =>
        match rest with
        | [] => .error .short
        | w1 :: _ =>
          if parseOpc w == 0x1b then .ok (.moviLong (parseF w) w1)
          else .ok (.longImmediateForm (parseOpc w) (parseF w) w1)
      | _ => .error (.bad .illOpc)

/-- An operation slot from its fields (R44). -/
def encodeSlot (arc : BitVec 3) (opc : BitVec 8) (f : OpF) : DWord :=
  arc ++ opc ++ BitVec.ofBool f.tr ++ f.d ++ BitVec.ofBool f.dc ++ f.s1 ++ f.s2 ++ f.s3 ++ f.mod

/-- A tree header from its fields (R55). -/
def encodeHeader (h : TreeHeader) : DWord :=
  1#1 ++ BitVec.ofBool h.rf ++ h.ns ++ h.sh ++ h.t0 ++ h.t1 ++ h.t2 ++ h.l0 ++ h.l1 ++ h.l2 ++ h.l3
    ++ h.hleaf ++ BitVec.ofBool h.hval

/-- A repeat prefix from its fields (R52). -/
def encodeRep (p : RepPrefix) : DWord :=
  1#3 ++ p.cnt ++ p.dStep ++ p.s1Step ++ p.s2Step ++ p.s3Step ++ p.rsv

/-- The slots of an instruction; none for a row that is no instruction of the ISA. -/
def encode : Instr → Option (List DWord)
  | .tree h slots => some (encodeHeader h :: slots.map fun t => encodeSlot t.arc t.opc t.f)
  | .rep p opc f => some [encodeRep p, encodeSlot 0 opc f]
  | .moviLong f imm => some [encodeSlot 2 0x1b f, imm]
  | .longImmediateForm opc f imm => some [encodeSlot 2 opc f, imm]
  | i => i.op.map fun (opc, f) => [encodeSlot 0 opc f]

/-- The slots of an instruction laid out in memory take this many bytes (R42). -/
def Instr.bytes : Instr → Nat
  | .tree _ slots => 8 * (1 + slots.length)
  | .rep .. | .moviLong .. | .longImmediateForm .. => 16
  | _ => 8

/-- A slot from its 8 bytes, the first at the lowest address (R6). -/
def slotOfBytes (b : List Byte) : DWord :=
  (b.take 8).foldr (fun x acc => acc <<< 8 ||| x.setWidth 64) 0

/-- The bytes of a slot, the first at the lowest address (R6). -/
def bytesOfSlot (w : DWord) : List Byte := (List.range 8).map fun i => (w >>> (8 * i)).setWidth 8

/-- The slots in a list of bytes; bytes after the last whole slot are left out. -/
def slotsOfBytes : Nat → List Byte → List DWord
  | 0, _ => []
  | n + 1, b => if b.length < 8 then [] else slotOfBytes b :: slotsOfBytes n (b.drop 8)

/-- The instruction at the front of a list of bytes: decode is total on any bytes. -/
def decodeBytes (b : List Byte) : Except DecodeError Instr := decode (slotsOfBytes 8 b)

/-- The instruction read from bits numbered as the opcode table numbers them: the bits above nbits are
zero, up to the longest instruction, a tree of eight slots (R42). -/
def decodeTableWord (nbits w : Nat) : Option Instr :=
  match decodeBytes ((List.range 64).map fun i => BitVec.ofNat 8 (w % 2 ^ nbits / 2 ^ (8 * i))) with
  | .ok i => some i
  | .error _ => none

end Sys2Proof
end

