-- ==== Sys2Proof/Machine/Table.lean ====
section
/-!
DEFINITION. Sparse data by key: tables of records and memories of bytes. Both are lists of pairs with keys
strictly rising; a memory lists no byte equal to what an unlisted address reads as (0, log 3).
-/
namespace Sys2Proof

/-- Records by key, keys strictly rising. -/
abbrev Table (α : Type) := List (Nat × α)

namespace Table
variable {α : Type}

/-- The record at a key, if listed. -/
def find? (t : Table α) (k : Nat) : Option α :=
  match t with
  | [] => none
  | (j, a) :: r => if j == k then some a else find? r k

/-- The record at a key, or a default. -/
def get (t : Table α) (k : Nat) (d : α) : α := (find? t k).getD d

/-- The table with one record replaced or inserted in order. -/
def set (t : Table α) (k : Nat) (a : α) : Table α :=
  match t with
  | [] => [(k, a)]
  | (j, b) :: r => if k == j then (k, a) :: r else if k < j then (k, a) :: (j, b) :: r else (j, b) :: set r k a

/-- The table without a key. -/
def del (t : Table α) (k : Nat) : Table α := t.filter fun p => p.1 != k

/-- The keys. -/
def keys (t : Table α) : List Nat := t.map (·.1)

/-- Keys strictly rising. -/
def sorted : Table α → Bool
  | [] => true
  | [_] => true
  | (j, _) :: (k, b) :: r => j < k && sorted ((k, b) :: r)

end Table

/-- A memory: bytes by address (Host.Cell), addresses strictly rising, no byte 0 listed. -/
abbrev Memory := List Host.Cell

/-- What a byte that nothing has written reads as (log 3). -/
def unlistedByte : Byte := 0

namespace Memory

/-- One byte. -/
def read (m : Memory) (a : Nat) : Byte :=
  match m with
  | [] => unlistedByte
  | (j, b) :: r => if j == a then b else if a < j then unlistedByte else read r a

/-- One byte written: the value of an unlisted byte removes the entry. -/
def write (m : Memory) (a : Nat) (b : Byte) : Memory :=
  match m with
  | [] => if b == unlistedByte then [] else [(a, b)]
  | (j, x) :: r =>
    if a == j then (if b == unlistedByte then r else (a, b) :: r)
    else if a < j then (if b == unlistedByte then (j, x) :: r else (a, b) :: (j, x) :: r)
    else (j, x) :: write r a b

/-- n bytes from an address as a little-endian number (R6). -/
def readN (m : Memory) (a : Nat) : Nat → Nat
  | 0 => 0
  | n + 1 => (m.read a).toNat + 256 * readN m (a + 1) n

/-- The low n bytes of a number written little-endian (R6). -/
def writeN (m : Memory) (a : Nat) : Nat → Nat → Memory
  | 0, _ => m
  | n + 1, v => writeN (m.write a (BitVec.ofNat 8 v)) (a + 1) n (v / 256)

/-- A list of bytes written from an address. -/
def writeBytes (m : Memory) (a : Nat) : List Byte → Memory
  | [] => m
  | b :: bs => writeBytes (m.write a b) (a + 1) bs

/-- A range set to zero. -/
def zero (m : Memory) (a n : Nat) : Memory := m.filter fun c => !(a ≤ c.1 && c.1 < a + n)

/-- The bytes of n addresses from a on, taken from cells that list none below a. -/
def run : Memory → Nat → Nat → List Byte
  | _, _, 0 => []
  | [], a, n + 1 => unlistedByte :: run [] (a + 1) n
  | (j, b) :: r, a, n + 1 => if j == a then b :: run r (a + 1) n else unlistedByte :: run ((j, b) :: r) (a + 1) n

/-- The n bytes from an address. -/
def slice (m : Memory) (a n : Nat) : List Byte := run (m.dropWhile fun c => c.1 < a) a n

/-- The cells of a list of bytes from an address on. -/
def cells : Nat → List Byte → Memory
  | _, [] => []
  | a, b :: bs => if b == unlistedByte then cells (a + 1) bs else (a, b) :: cells (a + 1) bs

/-- The bytes from an address on replaced by a list. -/
def replace (m : Memory) (a : Nat) (bs : List Byte) : Memory :=
  m.filter (fun c => c.1 < a) ++ cells a bs ++ m.filter fun c => a + bs.length ≤ c.1

/-- The canonical form. -/
def wf : Memory → Bool
  | [] => true
  | [(_, b)] => b != unlistedByte
  | (j, b) :: (k, c) :: r => j < k && b != unlistedByte && wf ((k, c) :: r)

end Memory

end Sys2Proof
end

