-- ==== Sys2Proof/Machine/State.lean ====
section
/-!
DEFINITION. The state of one NM8-1152 package as plain data, the reasons a step can stop, and the state
after reset. Owners and levels follow R11; every field cites the rule that names it. Fields marked MODEL are the
model's own.
-/
namespace Sys2Proof.Machine

/-- Why the machine stops. -/
inductive Fault where
  /-- Raised by a host access to a device physical address the HDM range does not hold (R400). Safe: the
  spec gives the address no memory. -/
  | hdmRange
  deriving DecidableEq, Repr

/-- Why a step has no meaning in a state. -/
inductive Refusal where
  /-- Raised by the dispatch of an instruction without a meaning. Safe. -/
  | notModelled (mnemonic : String)
  /-- Raised by an instruction of the ISA when the issuing core holds no wave that can issue (R316): there is
  no lane to perform it. Safe. -/
  | noWave
  /-- Raised by a step of a device, the dispatcher or the host whose trigger has not occurred: the spec says when
  the step happens and this state is not such a moment. Safe. -/
  | notEnabled
  deriving DecidableEq, Repr

/-- The run states (R12). -/
inductive Run where
  | ready | waiting | parked | yielded | exited
  deriving DecidableEq, Repr

/-- An outstanding load, returning atomic, arrive or register reply: the window words still to be written with their
data (R35, R38, R41). Window words are numbered as the aperture numbers them (R37). -/
structure Load where
  words : List (Nat × Word)
  addr : Nat
  /-- The data cannot be delivered (R179). -/
  poisoned : Bool := false
  /-- An `lmsg` whose reply is not written yet (R235): the number of the message; the data of a word then names the part of
  the reply that it takes. -/
  pending : Option Nat := none
  /-- An ordered atomic (R185). -/
  ordered : Bool := false
  deriving DecidableEq, Repr

/-- An outstanding store, reduction or peer send (R35, R267): the numbers of those of its writes that its die cache performs
later (R268); a peer send keeps the core, the queue, the depth and the word that it appends, and its place among the sends
(R202, R108). -/
structure Store where
  writes : List Nat := []
  send : Option (Nat × Nat × Nat × Word) := none
  seq : Nat := 0
  deriving DecidableEq, Repr

/-- What a lane waits for at its slot (R12, R109). -/
inductive Wait where
  /-- A register that an outstanding load has still to write. -/
  | reply
  /-- A counter limit, an engine queue, a counter at 63, a held buffer or a reply port without room. -/
  | count
  | chanEmpty (q : Nat)
  | chanFull (q : Nat)
  /-- A future slot; whether the lane wants it full, and whether it only peeks (R204, R205). -/
  | future (off : Nat) (full peek : Bool)
  | collective
  | barrier (k : BarKind)
  | waitbar
  | fswait
  /-- A translation (R172). -/
  | walk (va : Nat) (a : Access)
  /-- The walk for the lane ended in this cause (R291). -/
  | walkFault (va : Nat) (c : Cause)
  /-- A line that another core leases or a handler holds (R268, R375). -/
  | line (pa : Nat)
  /-- The package-wide invalidation of `icinv` (R140). -/
  | icinv
  /-- The dispatcher (R233, R311). -/
  | dispatcher
  /-- A lane before it in the order of its slot waits, and the operation acts on what they share (R108, R178, R199). -/
  | turn
  deriving DecidableEq, Repr

/-- The position of a lane inside an instruction (R107, R109, R112, R120). -/
structure Pos where
  /-- The next operation slot of a tree, or the next repetition of a repeated instruction. -/
  slot : Nat := 0
  root : Option Bool := none
  child : Option Bool := none
  /-- The general registers named as destination at the last three path positions, latest first, with the result; no
  result stands for the value in the window (R112). -/
  hist : List (List (Nat × Option Word)) := []
  far : Option Addr := none
  /-- The code of `brk`, with the slot and level of the operation (R137). -/
  brk : Option (BitVec 8 × Nat × Nat) := none
  yield : Bool := false
  /-- The lane takes no leaf: it faulted, trapped, or was absent from the instruction (R62, R117). -/
  stopped : Bool := false
  /-- Arrived at a collective or barrier at the slot (R165, R191). -/
  arrived : Bool := false
  /-- The value of a uniform destination, performed and not yet committed for the slot (R21). -/
  uni : Option DWord := none
  /-- The result of a collective, with its flags, that waits for room in its channel (R430). -/
  held : Option (DWord × BitVec 6) := none
  /-- The values that lanes of the group past the slot of a save brought to its uniform destination (R21, R120). -/
  others : List DWord := []
  /-- The uniform registers of the group as they stood before the slot at which the lane waits (R21). -/
  kpre : Option (Table Word) := none
  wait : Option Wait := none
  deriving DecidableEq, Repr

/-- What the path of a lane had set when it took a user trap, for its return into the instruction at `pc` (R134, R137,
log 51): the target of a `far`, the mark of a `brk` and that of a `yield`. -/
structure Marks where
  pc : Addr
  far : Option Addr
  brk : Option (BitVec 8 × Nat × Nat)
  yield : Bool
  deriving DecidableEq, Repr

/-- A thread by core, team slot, group slot and lane id. -/
structure Lane where
  c : Nat
  t : Nat
  g : Nat
  l : Nat
  deriving DecidableEq, Repr

/-- Where a lane stands when it takes an exception (R118, R132). -/
structure At where
  pc : Addr
  tree : Bool := false
  slot : Nat := 0
  level : Nat := 0
  rep : Nat := 0
  deriving DecidableEq, Repr

/-- What a fault of execution carries (R327). -/
structure FaultInfo where
  cause : Cause
  addr : Nat := 0
  detail : Word := 0
  /-- 0 fetch, 1 read, 2 write, 3 read-write (R327). -/
  access : Nat := 0
  subcause : BitVec 8 := 0
  deriving DecidableEq, Repr

/-- An exception that a lane met in an instruction, with where it stood. -/
structure Note where
  lane : Lane
  at_ : At
  info : FaultInfo
  after : Bool := false
  /-- The region entry that `brk` gives the lane (R137). -/
  entry : Option Addr := none
  deriving DecidableEq, Repr

/-- A thread (R11). -/
structure Thread where
  pc : Addr := 0
  /-- Register base (R15, R279). -/
  rbase : Nat := 0
  rentry : Addr := 0
  rcount : Word := 0
  run : Run := .ready
  /-- Bit n is pn; bit 0 is always 1 (R19). -/
  preds : Word := 1
  /-- The register window by word, in the aperture's numbering (R17, R37). -/
  win : Table Word := []
  astat : BitVec 6 := 0
  /-- Counter L is the number of these (R35). -/
  loads : List Load := []
  /-- Counter S is the number of these (R35). -/
  stores : List Store := []
  hflag : Bool := false
  /-- Set with the handler flag (R132). -/
  marks : Option Marks := none
  /-- ID of the open record that parks the thread (R343). -/
  recId : Word := 0
  /-- TIMER is owed at the next tree boundary (R34). -/
  timerDue : Bool := false
  /-- The release epoch that later global writes carry (R270); 0 for none. -/
  epoch : Nat := 0
  /-- The epoch that its later ordered atomics carry (R259); 0 for none. -/
  ordEpoch : Nat := 0
  /-- Reductions held since the last flush point (R321). -/
  step : Nat := 0
  pos : Pos := {}
  deriving DecidableEq, Repr

/-- The binding of a channel (R24). -/
structure Chan where
  tgt : Word := 0
  depth : BitVec 8 := 0
  kind : BitVec 3 := 0
  deriving DecidableEq, Repr

/-- An entry of an extent table (R295). -/
structure Extent where
  vpage : Nat
  ppage : Nat
  len : Nat
  w : Bool
  r : Bool
  cls : Nat
  rem : Bool
  node : Nat
  deriving DecidableEq, Repr

/-- A collective instance (R165): the operation, its mask, and the arrived lanes with their operands. -/
structure Coll where
  pc : Addr
  slot : Nat
  tree : Bool
  opc : BitVec 8
  f : OpF
  mask : Word
  /-- Lane, first operand (up to 1,024 bits), second operand. -/
  arrived : List (Nat × BitVec 1024 × Word)
  /-- `%clocks` at the first arrival. -/
  first : Nat
  deriving DecidableEq, Repr

/-- The stale record of a group (R190). -/
structure Stale where
  isT : Bool
  addr : Nat
  spc : Bool
  deriving DecidableEq, Repr

/-- What a task group runs for (R310, R313). -/
structure TaskInfo where
  record : Nat
  node : Nat
  scope : Nat
  sgen : Nat
  tileX : Nat
  tileY : Nat
  tileZ : Nat
  deriving DecidableEq, Repr

/-- A matrix operation that is complete, and that lanes of a group have not observed yet: its tile and the A registers that the
group holds for it (R27), and what those lanes may observe of it (R262). -/
structure PastOp where
  /-- One number in all groups of its team. -/
  op : Nat
  tile : Nat
  areg : Nat := 0
  count : Nat := 0
  /-- Where the group issued it and it counted in T: how many operations that count in T the group issued after it (R262). -/
  after : Option Nat := none
  /-- The offset of the future that its signal wrote, and the barrier object at which it arrived (R212). -/
  fut : Option Nat := none
  bar : Option (Bool × Nat) := none
  /-- A lane that had observed it has performed a release since (R250, log 53). -/
  told : Bool := false
  /-- The lanes that have not observed it, and those of them that took the value of the future. -/
  lanes : List Nat
  heard : List Nat := []
  deriving DecidableEq, Repr

/-- A group (R11). -/
structure Group where
  kregs : Table Word := []
  chans : Table Chan := []
  fmts : List Word := []
  symNext : Nat := 0
  symEnd : Nat := 0
  trapen : BitVec 6 := 0
  alarm : DWord := 0
  /-- Counters C and T (R35). -/
  cCount : Nat := 0
  tCount : Nat := 0
  stale : Option Stale := none
  extents : List Extent := []
  /-- Write regions of the group in deterministic mode, first and past-the-end address (R321). -/
  owned : List (Nat × Nat) := []
  task : Option TaskInfo := none
  narrow : Bool := false
  /-- Completed matrix operations that lanes of the group have not observed (R27). -/
  past : List PastOp := []
  colls : List Coll := []
  threads : Table Thread := []
  deriving DecidableEq, Repr

/-- A kernel descriptor (R387). -/
structure Desc where
  entry : Addr := 0
  handler : Addr := 0
  collwait : Nat := 1024
  narrow : Nat := 0
  prio : Nat := 0
  scrb : Nat := 0
  chan : Nat := 0
  acc : BitVec 4 := 0
  team : Nat := 1
  aff : Nat := 0
  regs : Nat := 8
  preload : Nat := 0
  plen : Nat := 0
  fms : List Word := []
  deriving DecidableEq, Repr

/-- A barrier instance of a team (R191, R192): its address and the team's `%clocks` at the first arrival. -/
structure Bar where
  kind : BarKind
  pc : Addr
  tree : Bool
  first : Nat
  deriving DecidableEq, Repr

/-- A FIFO queue of a team: its entries from the head, and the index of the head word (R198). -/
structure Queue where
  head : Nat := 0
  words : List Word := []
  deriving DecidableEq, Repr

/-- A team (R11). -/
structure Team where
  part : Nat
  /-- The key of its grid in the partition. -/
  grid : Nat
  /-- `%grid` (R28). -/
  launch : Word
  /-- `%team`. -/
  index : Nat
  cluster : Nat
  cx : Nat := 0
  cy : Nat := 0
  cw : Nat := 1
  ch : Nat := 1
  desc : Desc := {}
  det : Bool := false
  /-- The banks of each role in ascending order (R279, R280). -/
  regBanks : List Nat := []
  scrBanks : List Nat := []
  fifoBanks : List Nat := []
  tiles : BitVec 4 := 0
  /-- Queues by 64 × physical bank + queue, as TGT names them (R201). -/
  queues : Table Queue := []
  /-- `%clocks` is this plus the time since it was placed (R29). -/
  clkBase : Nat := 0
  placedAt : Nat := 0
  /-- `%clocks` at the pre-emption request; none when `%preq` is 0 (R334, R335). -/
  preqAt : Option Nat := none
  forced : Bool := false
  /-- `%clocks` when the team was saved: nothing of it runs any more (R334, R339). -/
  savedAt : Option Nat := none
  /-- The host ended the team (R331). -/
  ended : Bool := false
  /-- A store, a send or a load of the cluster scratchpad between this team and the other die was performed, and no acquire
  has followed (R250, R273). -/
  heard : Bool := false
  bars : List Bar := []
  /-- Lanes waiting to write or consume future slots, first come first: offset, wants full, group, lane (R204, R205). -/
  futWait : List (Nat × Bool × Nat × Nat) := []
  groups : Table Group := []
  deriving DecidableEq, Repr

/-- A wave (R5): its threads, and the instruction it stands in. -/
structure Wave where
  team : Nat
  /-- Group and lane of each thread, ascending. -/
  lanes : List (Nat × Nat)
  /-- The instruction begun and not complete. -/
  ins : Option Instr := none
  stalled : Bool := false
  /-- In deterministic mode: the core goes on with this wave (R320). -/
  cur : Bool := false
  /-- The pre-emption sample of the instruction begun (R431). -/
  preq : Bool := false
  /-- When the wave stalled, and when it last issued (R316, R317). -/
  since : Nat := 0
  issued : Nat := 0
  /-- Native form: the code range of the translation in which it runs (R390, R392). -/
  native : Option (Nat × Nat) := none
  /-- Exceptions that its lanes met in the instruction begun and that are still to be taken (R115, R118). -/
  notes : List Note := []
  deriving DecidableEq, Repr

/-- A taken bin of the Quadrille (R318); pair is the legacy pair of a paired team (R397). -/
structure Bin where
  team : Nat
  pair : Nat
  pc : Addr
  lanes : List (Nat × Nat)
  filed : Nat
  /-- Every thread of it was filed at a safe point (R392). -/
  safe : Bool := true
  deriving DecidableEq, Repr

/-- The role register of a bank without CEC's host view (R276). -/
structure BankRole where
  cec : BitVec 16 := 0
  retp : Bool := false
  drain : Bool := false
  boot : Bool := false
  team : BitVec 6 := 0
  role : BitVec 3 := 2
  deriving DecidableEq, Repr

/-- The kinds of engine operations (R348). -/
inductive EngKind where
  | mma | mmv | mqrun | accz | accld | accst | pour | pourOut | copy
  deriving DecidableEq, Repr

/-- An operation in an engine queue (R210, R214, R341, R356). -/
structure EngOp where
  kind : EngKind
  team : Nat
  group : Nat
  /-- The offset of the block or descriptor, the address of a copy node, the selector of a run, or the scratchpad
  offset of a tile operation. -/
  addr : Nat
  /-- The block or descriptor as read at issue (R209). -/
  block : BitVec 512 := 0
  /-- The format of GTYPE 0 read at issue (R229). -/
  fm : Word := 0
  tag : Word := 0
  tile : Nat := 0
  /-- Rows word of a tile operation, N of a run. -/
  rows : Nat := 0
  areg : Nat := 0
  reuse : Bool := false
  /-- The A operand of an `mma` with ASRC 0, as the registers or the latch held it at issue (R219, R221). -/
  aRegs : Table Word := []
  fromLatch : Bool := false
  /-- The tile was in use by an operation not complete at issue (R27). -/
  hot : Bool := false
  /-- A register of A was written after issue: its tile values are undefined (R220). -/
  aHot : Bool := false
  begun : Bool := false
  prog : Nat := 0
  /-- Blocks performed by a run (R225). -/
  count : Nat := 0
  ovf : Nat := 0
  nfin : Nat := 0
  /-- All writes are performed: the completion signals remain (R212). -/
  done : Bool := false
  /-- The counter of R35 has fallen; the barrier arrival remains (R212, R215). -/
  signalled : Bool := false
  /-- Elements of the row in hand that are performed (R215). -/
  col : Nat := 0
  /-- The counts of those elements. -/
  rowOvf : Nat := 0
  rowNfin : Nat := 0
  /-- Stopped at a translation fault until its record is released (R215). -/
  stopped : Bool := false
  /-- Stopped at an uncorrectable error for good (R281). -/
  stuck : Bool := false
  /-- How many of the first operations of the other engine's queue were issued before it (R27, R211). -/
  behind : Nat := 0
  /-- The 128-byte lines of weights and bias that an `mmv` has read and needs again, by address / 128 (R353). -/
  lines : Table (List Byte) := []
  /-- The node of a copy node. -/
  node : Nat := 0
  /-- A run waits for, or performs, the block at the queue head. -/
  inBlock : Bool := false
  deriving DecidableEq, Repr

/-- The operand latch (R221). -/
structure Latch where
  team : Nat
  group : Nat
  fmt : Nat
  aRegs : Table Word
  areg : Nat
  deriving DecidableEq, Repr

/-- A translation as a walk read it (R290, R293). -/
structure Xlat where
  part : Nat
  /-- VA[47:16] of the first 64 KiB page. -/
  vpage : Nat
  /-- Pages of 64 KiB: 1 or 32. -/
  size : Nat
  frame : Nat
  rem : Bool
  node : Nat
  cls : Nat
  r : Bool
  w : Bool
  x : Bool
  d : Bool
  deriving DecidableEq, Repr

/-- A line of an instruction cache: the partition, VA / 64, and its 64 bytes (R284). -/
structure CodeLine where
  part : Nat
  line : Nat
  data : BitVec 512
  deriving DecidableEq, Repr

/-- A directory entry that a die keeps: the partition, whether of a mid directory, the bits of the address that index down to
it, and the entry (R289, R293). -/
structure DirEntry where
  part : Nat
  mid : Bool
  at_ : Nat
  entry : Nat
  deriving DecidableEq, Repr

/-- A trap record or event (R326, R327); closed records are dropped. -/
structure Rec where
  id : Word
  cause : Cause
  event : Bool
  user : Bool := false
  subcause : BitVec 8 := 0
  detail : Word := 0
  access : Nat := 0
  addr : Nat := 0
  pc : Addr := 0
  grid : Word := 0
  team : Nat := 0
  core : Nat := 0
  group : Nat := 0
  lane : Nat := 0
  level : Nat := 0
  slot : Nat := 0
  rep : Nat := 0
  region : Word := 0
  /-- The team slot of the record on its core, the key page, and the lanes joined. -/
  teamSlot : Nat := 0
  key : Nat := 0
  lanes : List (Nat × Nat) := []
  /-- The address of the ring slot it stands in, once written (R328). -/
  written : Option Nat := none
  /-- A lane joined after that: the slot is still to be rewritten (R326). -/
  joined : Bool := false
  /-- Stays open until serviced (R330). -/
  isOpen : Bool := true
  /-- When the coalescer formed it (R329). -/
  formed : Nat := 0
  deriving DecidableEq, Repr

/-- A reply port (R201, R235): the channel it is bound to, the entries reserved, the entries held. -/
structure Port where
  bound : Option (Nat × Nat × Nat) := none
  reserved : Nat := 0
  words : List Word := []
  /-- The team slot and group whose channel it was last bound to, and the first message that is owed to it since (R40, log 54). -/
  owner : Option (Nat × Nat) := none
  since : Nat := 0
  deriving DecidableEq, Repr

/-- The reply to an `lmsg` on its way to the requester: its lane, its message and port, and what it delivers (R235). -/
structure Reply where
  team : Nat
  group : Nat
  lane : Nat
  msg : Nat
  port : Option Nat := none
  status : Nat
  value : DWord
  deriving DecidableEq, Repr

/-- A held reduction with its sort key (R321, R337). -/
structure HeldRed where
  team : Nat
  group : Nat
  scope : Nat
  sgen : Nat
  task : Bool
  key : List Nat
  /-- A scratchpad offset, or a physical address with the class of its translation (R287). -/
  scratch : Bool
  addr : Nat
  cls : Nat := 3
  val : DWord
  aop : Nat
  typ : Nat
  /-- The release epoch that its lane carried when it was held (R249, R270). -/
  epoch : Nat := 0
  deriving DecidableEq, Repr

/-- A copy of a line in the L1 of a core, in one way of the banks in ROLE 010, valid before the time at which its lease ends
there (R268, R283, R284). -/
structure L1Line where
  data : BitVec 1024
  ends : Nat
  /-- Bank b holds ways 4b to 4b + 3 of each set. -/
  way : Nat
  used : Nat := 0
  deriving DecidableEq, Repr

/-- A write of global memory by a core that its die cache has still to perform (R268), with the partition of the writer. -/
structure Write where
  id : Nat
  part : Nat
  pa : Nat
  size : Nat
  val : Nat
  cls : Nat
  epoch : Nat
  deriving DecidableEq, Repr

/-- A core (R11). -/
structure Core where
  /-- The banked store (R276). -/
  store : Memory := []
  banks : Table BankRole := []
  retireTh : BitVec 16 := 0x0100
  /-- Accumulator memory (R351). -/
  acc : Memory := []
  teams : Table Team := []
  active : List Wave := []
  pending : List Wave := []
  bins : List Bin := []
  qdAge : BitVec 16 := 0x0100
  /-- The time of the core's last reset: `%corecyc` counts from it (R30). -/
  resetAt : Nat := 0
  evsel : Table Word := []
  evcnt : Table Nat := []
  mq : List EngOp := []
  pq : List EngOp := []
  latch : Option Latch := none
  engNfinSticky : Bool := false
  engOvfSticky : Bool := false
  engMqStop : Bool := false
  engBarStale : Bool := false
  engNfin : Word := 0
  engOvfc : Word := 0
  mmKgrp : BitVec 48 := 0
  peRows : BitVec 48 := 0
  ports : Table Port := []
  replies : List Reply := []
  tlb : List Xlat := []
  /-- The L1 by line, and the accesses counted for the recency of its lines (R283). -/
  l1 : Table L1Line := []
  l1Uses : Nat := 0
  /-- Writes that wait for leases, in the order of their issue (R268). -/
  writes : List Write := []
  /-- The instruction cache, latest line first (R284). -/
  code : List CodeLine := []
  /-- Records formed and not closed, in order of formation (R326). -/
  recs : List Rec := []
  /-- Faults that wait because sixteen records are open (R326). -/
  overflow : List Rec := []
  held : List HeldRed := []
  /-- Words of the banked store with an uncorrectable error, by byte offset / 4 (R281). -/
  badWords : List Nat := []
  deriving DecidableEq, Repr

/-- A line of a die cache (R270 to R274, R282, R287). -/
structure DieLine where
  data : BitVec 1024
  /-- Written bytes not yet at the home. -/
  dirty : BitVec 128 := 0
  /-- The release epoch the line is tagged with. -/
  epoch : Nat := 0
  cls : Nat := 3
  poisoned : Bool := false
  /-- When it was filled or last written, and the bound of its age as LEASE_CTL gave it at the fill (R269, R274). -/
  at_ : Nat
  age : Nat := 65536
  /-- Its place in the order of uses (R288). -/
  used : Nat := 0
  deriving DecidableEq, Repr

/-- A lease on a line (R268). -/
structure Lease where
  line : Nat
  core : Nat
  expiry : Nat
  deriving DecidableEq, Repr

/-- A compute die. -/
structure Die where
  lines : Table DieLine := []
  /-- Accesses counted for the recency of its lines (R288). -/
  uses : Nat := 0
  leases : List Lease := []
  /-- The shared TLB and the cache of directory entries (R293). -/
  tlb : List Xlat := []
  dirs : List DirEntry := []
  epoch : Nat := 0
  /-- Lines that the die wrote at their homes over a record of another die's release: its next acquire takes the record up (R259). -/
  late : List Nat := []
  leaseAge : BitVec 12 := 0x040
  leaseLen : BitVec 16 := 0x0400
  quota : List (BitVec 5) := [16, 16, 16, 16]
  cec : Word := 0
  uec : Word := 0
  deriving DecidableEq, Repr

/-- The kinds of handler invocations (R373). -/
inductive InvKind where
  | miss | fill | evict | message
  deriving DecidableEq, Repr

/-- An invocation of a Ladle core, queued or running (R372 to R380). -/
structure Inv where
  kind : InvKind
  line : Nat
  tenant : Nat
  handler : BitVec 8
  arg0 : DWord := 0
  arg1 : DWord := 0
  hop : Nat := 0
  /-- The requester of a message: core, team slot, group, lane, message number, reply port. -/
  core : Nat := 0
  team : Nat := 0
  group : Nat := 0
  lane : Nat := 0
  msg : Nat := 0
  port : Option Nat := none
  part : Nat := 0
  grid : Word := 0
  teamIx : Nat := 0
  /-- Set when it runs: the held line's copy, whether it is held, writable, the handles and the cycles. -/
  window : BitVec 1024 := 0
  hasWindow : Bool := false
  writable : Bool := false
  fwda0 : DWord := 0
  fwda1 : DWord := 0
  posth : DWord := 0
  /-- Set as it begins: the cycles of its budget and those used (R365, R377), the bounds of its region and the partition
  that its PMP entries 8 and 11 name (R366). -/
  budget : Nat := 0
  cycles : Nat := 0
  lo : Nat := 0
  hi : Nat := 0
  owner : Nat := 16
  /-- The registers x1 to x31 and pc of the Ladle core, its instret counter (R362, R373), and the value that its last
  access read. -/
  xs : Table DWord := []
  pc : DWord := 0
  instret : Nat := 0
  data : DWord := 0
  /-- The class of the line, and whether an evicted line was dirty. -/
  cls : Nat := 3
  dirty : Bool := false
  /-- The window holds a poisoned line (R364). -/
  bad : Bool := false
  /-- The reservation of LR on local SRAM: address and size (R364). -/
  resv : Option (Nat × Nat) := none
  deriving DecidableEq, Repr

/-- A tenant register (R365). -/
structure Tenant where
  en : Bool := false
  ntfy : Bool := false
  part : BitVec 4 := 0
  budget : BitVec 16 := 0x0800
  rsize : BitVec 8 := 0
  rbase : BitVec 8 := 0
  deriving DecidableEq, Repr

/-- The state of a line in an L2 slice (R283, R371). -/
structure SliceLine where
  cls : Nat := 3
  dirty : Bool := false
  used : Nat := 0
  deriving DecidableEq, Repr

/-- An entry of the physical memory protection of a Ladle core: a range from its first to past its last address, what U mode may
do there, and the lock (R362, R366). -/
structure Pmp where
  lo : Nat
  hi : Nat
  r : Bool := false
  w : Bool := false
  x : Bool := false
  lock : Bool := false
  deriving DecidableEq, Repr

/-- An L2 slice with its Ladle core. -/
structure Slice where
  lines : Table SliceLine := []
  uses : Nat := 0
  /-- Lines whose handlers have run and whose triggering access is still to be performed, with whether the fill handler
  changed them (R370, R371). -/
  served : Table Bool := []
  /-- Entries of the queue that a miss needs before the slice handles new misses again; 0 for none (R372). -/
  stall : Nat := 0
  /-- Lines whose fill or trigger has not ended: accesses wait (R370). -/
  busy : List Nat := []
  /-- The release records of a line: die and epoch (R270). -/
  epochs : Table (List (Nat × Nat)) := []
  quota : List (BitVec 5) := [16, 16, 16, 16]
  victims : List Nat := []
  run : Bool := false
  fault : DWord := 0
  tenants : Table Tenant := []
  /-- The counters INV, OVR, FLT, DROP by 4 × tenant + counter (R381). -/
  counters : Table Word := []
  trigs : Table (BitVec 128) := []
  sram : Memory := []
  /-- The PMP entries in use, by number (R366). -/
  pmp : Table Pmp := []
  queue : List Inv := []
  inv : Option Inv := none
  deriving DecidableEq, Repr

/-- An entry of a region list (R306). -/
structure Region where
  base : Nat
  len : Nat
  acc : BitVec 2
  deriving DecidableEq, Repr

/-- A registered node (R311): its record and its region list as read at registration. -/
structure Node where
  addr : Nat
  grid : Nat
  record : BitVec 512
  regl : List Region := []
  ready : Bool := false
  launched : Bool := false
  /-- The work is done; its finish remains (R312). -/
  finished : Bool := false
  /-- Its work was under way when its grid was saved, and goes on from the save area (R334, R403). -/
  inSave : Bool := false
  /-- It is to be registered again, with its PRED as memory holds it (R403). -/
  again : Bool := false
  deriving DecidableEq, Repr

/-- A finish scope (R315). -/
structure Scope where
  gen : BitVec 24 := 0
  parent : BitVec 8 := 0
  grid : Nat := 0
  launch : Word := 0
  members : Nat := 0
  children : Nat := 0
  state : BitVec 2 := 0
  deriving DecidableEq, Repr

/-- An entry of the placement map (R303). -/
structure MapEntry where
  flask : Nat
  x0 : Nat
  y0 : Nat
  w : Nat
  h : Nat
  deriving DecidableEq, Repr

/-- A thread of a saved team as it stood, beyond what its record in the save area holds (R120, R343, log 40): its
instruction and position, a TIMER owed, and its count of held reductions. -/
structure Kept where
  /-- Team index. -/
  team : Nat
  group : Nat
  lane : Nat
  pc : Addr
  /-- Stopped inside a tree, on an arc; the position names the slot or the repetition. -/
  inTree : Bool := false
  arc : Nat := 0
  pos : Pos := {}
  timer : Bool := false
  step : Nat := 0
  marks : Option Marks := none
  /-- Loads whose data cannot be delivered (R179). -/
  owed : List Load := []
  deriving DecidableEq, Repr

/-- What the dispatcher keeps of a grid beside its save area: records of saved teams that are open or not written yet and faults
that wait for one (R326, R328, R338), barrier and collective instances (R192, R338), positions (R120), and held reductions
(R337), all by team index. -/
structure SaveState where
  recs : List (Nat × Rec) := []
  faults : List (Nat × Rec) := []
  bars : List (Nat × Bar) := []
  colls : List (Nat × Nat × Coll) := []
  ops : List (Nat × Nat) := []
  hot : List (Nat × Nat) := []
  past : List (Nat × Nat × PastOp) := []
  futs : List (Nat × Nat × Bool × Nat × Nat) := []
  ends : List (Nat × EngOp) := []
  kept : List Kept := []
  held : List (Nat × HeldRed) := []
  teamsLeft : Nat := 0
  clocks : Nat := 0
  /-- Its save area, and the page ranges invalidated since it was written (R293). -/
  addr : Nat := 0
  cuts : List (Nat × Nat) := []
  deriving DecidableEq, Repr

/-- A grid of a partition, from acceptance to its completion record (R302, R305, R308, R334). -/
structure Grid where
  launch : Word
  packet : BitVec 512
  desc : Desc := {}
  map : List MapEntry := []
  regl : List Region := []
  det : Bool := false
  placed : Bool := false
  /-- All its teams are saved, in the area at this address (R334). -/
  saved : Bool := false
  saveAddr : Nat := 0
  /-- The page ranges invalidated since its area was written: extents read from there lose them (R293). -/
  cuts : List (Nat × Nat) := []
  preReq : Bool := false
  /-- PRE_FORCED was written for the request (R335). -/
  forced : Bool := false
  /-- The host ended the grid or a team of it (R331). -/
  ended : Bool := false
  /-- Records of saved teams that are open or not written yet, and faults that wait for one, by team index (R326, R328,
  R338). -/
  savedRecs : List (Nat × Rec) := []
  savedFaults : List (Nat × Rec) := []
  /-- Barrier and collective instances of saved teams, by team index and group: what counts on at the restore (R192,
  R338). -/
  keptBars : List (Nat × Bar) := []
  keptColls : List (Nat × Nat × Coll) := []
  /-- Operations of saved teams whose writes are all performed, by team index and place in the engine list (R212, R231). -/
  keptOps : List (Nat × Nat) := []
  /-- Their tile operations issued before an operation on the tile was complete, likewise; the completed operations that their lanes
  have not observed, by team index and group (R27); and their lanes that wait for future slots, in order, by team index
  (R204, R205). -/
  keptHot : List (Nat × Nat) := []
  keptPast : List (Nat × Nat × PastOp) := []
  keptFuts : List (Nat × Nat × Bool × Nat × Nat) := []
  /-- Engine operations of ended groups and teams that have their arrival still to make, by team index (R215). -/
  keptEnds : List (Nat × EngOp) := []
  /-- Largest `%clocks` of an ended team (R308). -/
  clocks : Nat := 0
  teamsLeft : Nat := 0
  /-- Service writes held while it is saved: record ID and action (R338). -/
  services : List (Word × Nat) := []
  kept : List Kept := []
  /-- To be restored from its area after a failure or a reset (R403). -/
  resumes : Bool := false
  /-- Its last completed save, from which it was restored (R403). -/
  last : Option SaveState := none
  /-- Held reductions of saved teams, by team index (R337). -/
  savedHeld : List (Nat × HeldRed) := []
  deriving DecidableEq, Repr

/-- A restore checked and waiting for resources (R345). -/
structure Restore where
  grid : Nat
  area : Nat
  map : List MapEntry
  deriving DecidableEq, Repr

/-- A partition with its dispatcher (R289, R293, R301, R328, R333, R367, R393, R402). -/
structure Part where
  ptTop : Word := 0
  tlbInvGo : Bool := false
  tlbInvScope : BitVec 2 := 0
  tlbInvPage : Word := 0
  ldTenV : Bool := false
  ldTen : BitVec 4 := 0
  lqBase : BitVec 36 := 0
  lqLogn : BitVec 4 := 0
  lqEn : Bool := false
  lqTail : BitVec 16 := 0
  lqHead : BitVec 16 := 0
  tqBase : BitVec 36 := 0
  tqVec : BitVec 8 := 0
  tqOvf : Bool := false
  tqLogn : BitVec 4 := 0
  tqEn : Bool := false
  tqTail : BitVec 16 := 0
  tqHead : BitVec 16 := 0
  preReq : Word := 0
  preSave : BitVec 42 := 0
  preDeadline : Word := 0x00010000
  preGrid : Word := 0
  preState : BitVec 4 := 0
  rsSave : BitVec 42 := 0
  rsPmap : BitVec 45 := 0
  annBase : Word := 0
  annLogsz : BitVec 4 := 0
  annEn : Bool := false
  /-- Code ranges with a translation held (R393). -/
  annTrans : List (Nat × Nat) := []
  jrnBase : BitVec 28 := 0
  jrnV : Bool := false
  scopes : Table Scope := []
  nodes : List (Nat × Node) := []
  nextNode : Nat := 1
  nextLaunch : Word := 1
  nextRec : Word := 1
  nextGrid : Nat := 1
  grids : Table Grid := []
  /-- Events of the dispatcher waiting for the trap queue (R309, R312, R334, R335). -/
  events : List Rec := []
  /-- Journalled launches and nodes not retired: launch number and packet, node address (R402). -/
  journal : List (Word × BitVec 512) := []
  journalNodes : List Nat := []
  /-- A restore whose checks are still to be made (R345). -/
  rsCheck : Bool := false
  restore : Option Restore := none
  deriving DecidableEq, Repr

/-- A flask: its Pavane block, operating point and rail (R323, R405). -/
structure Flask where
  gap : BitVec 16 := 0x0020
  step : BitVec 8 := 0x40
  /-- Groups of opened barriers waiting for release: core, team slot, group (R323). -/
  release : List (Nat × Nat × Nat) := []
  point : Nat := 5
  /-- The operating point that the arbiter grants (R407). -/
  granted : Nat := 5
  /-- The time of the next release step. -/
  nextAt : Nat := 0
  deriving DecidableEq, Repr

/-- A key slot (R409). -/
structure KeySlot where
  hash : Option (BitVec 256) := none
  revoked : Bool := false
  deriving DecidableEq, Repr

/-- A Sprue port (R404). -/
structure Sprue where
  up : Bool := true
  expect : Word := 0
  retry : Bool := false
  deriving DecidableEq, Repr

/-- A host access of `size` bytes: a write of bytes, or a read (R275). -/
structure HostReq where
  pa : Nat
  size : Nat
  bytes : Option (List Byte) := none
  deriving DecidableEq, Repr

/-- The package block, trust, links and the host's view (R3, R398 to R410). -/
structure Pkg where
  owner : BitVec 48 := 0
  thermCore : BitVec 11 := 0
  thermTemp : BitVec 12 := 0
  thermTrip : BitVec 12 := 0x6e0
  thermSoft : BitVec 12 := 0x5f0
  pwrCap : BitVec 16 := 4800
  pwrPower : BitVec 16 := 0
  pwrBreach : Bool := false
  capUnmet : Bool := false
  floors : Table (BitVec 16) := []
  effs : Table (BitVec 16) := []
  /-- The share of each partition in watts, as the last step of the arbiter granted it (R407). -/
  shares : Table Nat := []
  /-- A FLOOR_BREACH event was written since the floors or the cap changed (R407). -/
  breachSent : Bool := false
  /-- Defective core sites by 56 × die + site: the logical cores of a die stand on the first 48 others (R1, R3). -/
  defects : List Nat := []
  /-- Slices, Ladle cores, channels and links mapped out after a failure (R403). -/
  failed : List (Nat × Nat) := []
  keys : Table KeySlot := []
  secVersions : Table Nat := []
  /-- The hashes of the images that are loaded: that of a kind under its number, that of the monitor of a slice under 16 and the
  number of the slice (R409, R410). -/
  images : Table (BitVec 256) := []
  /-- Kinds of engines whose image failed verification: they stay in reset (R409). -/
  inReset : List Nat := []
  /-- Key slots under which the identity key is certified; slot 0 at manufacture (R410). -/
  certs : List Nat := [0]
  idCounter : Nat := 0
  ports : Table Sprue := []
  /-- MSI-X messages sent: partition and vector (R328). -/
  msix : List (Nat × Nat) := []
  /-- The data of the last host read, and whether the last window access was unsupported (R399). -/
  hostData : List Byte := []
  /-- Host accesses to HBM that wait for a line which a handler concerns, oldest first (R370, R375). -/
  hostWaits : List HostReq := []
  unsupported : Bool := false
  attested : List (BitVec 256) := []
  deriving DecidableEq, Repr

/-- The state of the package and the model's own fields. -/
structure State where
  /-- Memory at its home: HBM and host memory by physical address; memory of package n at (n + 1) × 2^48 + address
  (R285, R290). -/
  mem : Memory
  /-- Poisoned home lines, by line number (R282). -/
  poison : List Nat
  /-- Runs of lines, first and past the last, that a journal has left and nothing has written since: their bytes are what its entries
  left, whose layout the spec does not give (R402, log 5). -/
  openMem : List (Nat × Nat)
  cores : Table Core
  dies : Table Die
  slices : Table Slice
  parts : Table Part
  flasks : Table Flask
  pkg : Pkg
  /-- MODEL: steps chosen from outside, next first (log 1). -/
  agenda : List Instr
  /-- MODEL: the core whose issue slot acts next, and the cores that follow, Ladle cores as 1,152 + slice (log 1). -/
  turn : Nat
  sched : List Nat
  /-- MODEL: the index of the next free value (log 5). -/
  fresh : Nat
  /-- MODEL: the steps elapsed, read as issue cycles and die-cache cycles (log 6). -/
  now : Nat
  /-- MODEL: the number of the next Ladle message or peer send. -/
  nextMsg : Nat
  deriving DecidableEq, Repr

/-- The key slots after manufacture: slot 0 holds a key (R409, log 4). -/
def Pkg.reset : Pkg := { keys := [(0, { hash := some 0 })] }

/-- The package right after reset (R3, R403; every register at its reset value, log 2 to 4). -/
def State.reset : State where
  mem := []
  poison := []
  openMem := []
  cores := []
  dies := []
  slices := []
  parts := []
  flasks := []
  pkg := Pkg.reset
  agenda := []
  turn := 0
  sched := []
  fresh := 0
  now := 0
  nextMsg := 0

end Sys2Proof.Machine
end

