-- ==== Sys2Proof/Machine/Ops.lean ====
section
/-!
DEFINITION. The named operations over threads, groups and teams, the coalescer and its records (R326,
R327), and taking an exception (R117, R132, R135, R325) with the return from one (R134).
-/
namespace Sys2Proof.Machine

/-- A team slot that holds no team. -/
def Team.none : Team := { part := 0, grid := 0, launch := 0, index := 0, cluster := 0 }

def State.core (s : State) (c : Nat) : Core := s.cores.get c {}
def State.setCore (s : State) (c : Nat) (k : Core) : State := { s with cores := s.cores.set c k }
def State.modCore (s : State) (c : Nat) (f : Core → Core) : State := s.setCore c (f (s.core c))
def State.die (s : State) (d : Nat) : Die := s.dies.get d {}
def State.modDie (s : State) (d : Nat) (f : Die → Die) : State := { s with dies := s.dies.set d (f (s.die d)) }
def State.slice (s : State) (n : Nat) : Slice := s.slices.get n {}
def State.modSlice (s : State) (n : Nat) (f : Slice → Slice) : State := { s with slices := s.slices.set n (f (s.slice n)) }
def State.part (s : State) (p : Nat) : Part := s.parts.get p {}
def State.modPart (s : State) (p : Nat) (f : Part → Part) : State := { s with parts := s.parts.set p (f (s.part p)) }
def State.flask (s : State) (n : Nat) : Flask := s.flasks.get n {}
def State.modFlask (s : State) (n : Nat) (f : Flask → Flask) : State := { s with flasks := s.flasks.set n (f (s.flask n)) }
def State.modPkg (s : State) (f : Pkg → Pkg) : State := { s with pkg := f s.pkg }

def State.team (s : State) (c t : Nat) : Team := (s.core c).teams.get t Team.none
def State.hasTeam (s : State) (c t : Nat) : Bool := ((s.core c).teams.find? t).isSome
def State.setTeam (s : State) (c t : Nat) (k : Team) : State := s.modCore c fun x => { x with teams := x.teams.set t k }
def State.modTeam (s : State) (c t : Nat) (f : Team → Team) : State := s.setTeam c t (f (s.team c t))
def State.group (s : State) (c t g : Nat) : Group := (s.team c t).groups.get g {}
def State.modGroup (s : State) (c t g : Nat) (f : Group → Group) : State :=
  s.modTeam c t fun k => { k with groups := k.groups.set g (f (k.groups.get g {})) }
def State.thread (s : State) (x : Lane) : Thread := (s.group x.c x.t x.g).threads.get x.l {}
def State.modThread (s : State) (x : Lane) (f : Thread → Thread) : State :=
  s.modGroup x.c x.t x.g fun k => { k with threads := k.threads.set x.l (f (k.threads.get x.l {})) }
def State.modPos (s : State) (x : Lane) (f : Pos → Pos) : State :=
  s.modThread x fun th => { th with pos := f th.pos }

/-- The next free value and the state with the next index (R10, log 5). -/
def State.free (s : State) : DWord × State := (Config.freeValue s.fresh, { s with fresh := s.fresh + 1 })
/-- The next free choice below n (n ≥ 1). -/
def State.choose (s : State) (n : Nat) : Nat × State :=
  (Config.freeChoice s.fresh % (if n == 0 then 1 else n), { s with fresh := s.fresh + 1 })

/-- `%clocks` of a team (R29): the time since it was placed, from its saved value. -/
def State.clocks (s : State) (c t : Nat) : Nat :=
  let k := s.team c t
  k.savedAt.getD (k.clkBase + (s.now - k.placedAt))
/-- `%corecyc` (R30). -/
def State.corecyc (s : State) (c : Nat) : Nat := s.now - (s.core c).resetAt

/-- The declared general count of a team (R17). -/
def Team.nG (k : Team) : Nat := k.desc.regs
/-- The declared affine count of a team (R17). -/
def Team.nA (k : Team) : Nat := k.desc.aff
/-- The lanes of a group (R169). -/
def Group.width (k : Group) : Nat := if k.narrow then 16 else 32
/-- Bytes of the team's scratchpad (R280). -/
def Team.scratchSize (k : Team) : Nat := 65536 * k.scrBanks.length
/-- The banked-store byte of a scratchpad offset (R280). -/
def Team.scratchByte (k : Team) (o : Nat) : Nat := 65536 * k.scrBanks.getD (o / 65536) 0 + o % 65536

/-- The logical core number from flask, column and row (R3). -/
def coreNumber (f x y : Nat) : Nat := 96 * f + 12 * y + x
/-- The flask of a logical core (R3). -/
def coreFlask (c : Nat) : Nat := c / 96
/-- The compute die of a logical core: the cope holds columns 0 to 5 (R1, R399). -/
def coreDie (c : Nat) : Nat := 2 * (c / 96) + (if c % 12 < 6 then 0 else 1)
/-- The core of the cluster's team at relative coordinates, seen from a team of it (R173, R303). -/
def clusterCore (c : Nat) (k : Team) (cx cy : Nat) : Nat :=
  coreNumber (c / 96) (c % 12 - k.cx + cx) (c % 96 / 12 - k.cy + cy)
/-- The team of a cluster on one of its cores: same partition, grid and cluster (R303). -/
def State.clusterTeam (s : State) (c : Nat) (k : Team) : Option Nat :=
  (List.find? (fun q : Nat × Team => q.2.part == k.part && q.2.grid == k.grid && q.2.cluster == k.cluster)
    (s.core c).teams).map (·.1)

/-- Event counter n of a core counts a source for a team slot (R408): [16] TF, [15:10] TEAM, [8] EN, [7:0] SRC. -/
def Core.counts (k : Core) (n src t : Nat) : Bool :=
  let e := k.evsel.get n 0
  e.getLsbD 8 && (e.extractLsb' 0 8).toNat == src && (!e.getLsbD 16 || (e.extractLsb' 10 6).toNat == t)
/-- n events of a source for a team slot are counted by every counter that selects it (R408). -/
def Core.count (k : Core) (src t n : Nat) : Core :=
  if k.evsel.isEmpty then k
  else { k with evcnt := (List.range 8).foldl (fun tb i =>
      if k.counts i src t then tb.set i ((tb.get i 0 + n) % 2 ^ 48) else tb) k.evcnt }
def State.count (s : State) (c src t n : Nat) : State :=
  if (s.core c).evsel.isEmpty then s else s.modCore c fun k => k.count src t n

/-- The entry of an operation after a lane has observed it (R262). -/
def PastOp.seenBy (p : PastOp) (l : Nat) : PastOp := { p with lanes := p.lanes.filter (· != l) }
/-- A lane observes the completed operations that a condition picks: what it sees of them is in order from now on (R27). -/
def State.sees (s : State) (x : Lane) (b : PastOp → Bool) : State :=
  if (s.group x.c x.t x.g).past.isEmpty then s
  else s.modGroup x.c x.t x.g fun q => { q with past := (q.past.map fun p => if b p then p.seenBy x.l else p).filter (!·.lanes.isEmpty) }
/-- A `wait` with limit t for T observes the operations of the group whose completion it tells: those after which the group
issued at least t (R262). -/
def State.seesCount (s : State) (x : Lane) (t : Nat) : State := s.sees x fun p => p.after.any fun n => t ≤ n
/-- An acquire observes what the lane took a future of, and what another lane had observed and released (R250, R262, log 53). -/
def State.observe (s : State) (x : Lane) : State := s.sees x fun p => p.told || p.heard.contains x.l
/-- A `waitbar` that passed on an object observes the operations that arrived at it: it performs the acquire (R262). -/
def State.seesBar (s : State) (x : Lane) (spc : Bool) (a : Nat) : State := s.sees x fun p => p.bar == some (spc, a)
/-- A lane took or peeked the value of a future slot (R262). -/
def State.hears (s : State) (x : Lane) (off : Nat) : State :=
  if (s.group x.c x.t x.g).past.isEmpty then s
  else
    let f (p : PastOp) : PastOp := if p.fut == some off then { p with heard := x.l :: p.heard.filter (· != x.l) } else p
    s.modGroup x.c x.t x.g fun q => { q with past := q.past.map f }
/-- A lane has not observed an operation. -/
def Group.unseen (q : Group) (op l : Nat) : Bool := q.past.any fun p => p.op == op && p.lanes.contains l
/-- A release by a lane publishes the operations that it has observed to the threads of its team (R250, log 53). -/
def State.tells (s : State) (x : Lane) : State :=
  if (s.team x.c x.t).groups.all (fun q => q.2.past.isEmpty) then s
  else
    let own := s.group x.c x.t x.g
    let f (p : PastOp) : PastOp := if own.unseen p.op x.l then p else { p with told := true }
    s.modTeam x.c x.t fun k => { k with groups := k.groups.map fun (g, q) => (g, { q with past := q.past.map f }) }

/-! Firmware kinds. -/

/-- The kinds of firmware, in the order in which R409 lists them (log 43). -/
def monitorKind : Nat := 0
def pourKind : Nat := 1
def managerKind : Nat := 2
def arbiterKind : Nat := 3
def dispatcherKind : Nat := 4
/-- The dispatcher stands in reset: nothing that it does happens (R409). -/
def State.dispOff (s : State) : Bool := s.pkg.inReset.contains dispatcherKind

/-! Register windows. -/

/-- A window word as stored (R37's numbering). -/
def Thread.word (th : Thread) (i : Nat) : Word := th.win.get i 0
/-- A window word written: an outstanding load's data for it is stale (R41). -/
def Thread.setWord (th : Thread) (i : Nat) (v : Word) : Thread :=
  { th with win := th.win.set i v,
            loads := th.loads.map fun o => { o with words := o.words.filter fun w => w.1 != i } }
/-- An outstanding load has still to write the word (R38). -/
def Thread.owed (th : Thread) (i : Nat) : Option Load := th.loads.find? fun o => o.words.any fun w => w.1 == i
/-- The window words of affine register n (R37). -/
def affWords (n : Nat) : List Nat := (List.range 32).map fun w => 256 + 32 * n + w
/-- An affine register as stored (R97). -/
def Thread.affReg (th : Thread) (n : Nat) : BitVec 1024 :=
  (affWords n).foldr (fun i acc => acc <<< 32 ||| (th.word i).setWidth 1024) 0
/-- Word w of a 1,024-bit value. -/
def wordOf (v : BitVec 1024) (w : Nat) : Word := (v >>> (32 * w)).setWidth 32
/-- An affine register written. -/
def Thread.setAff (th : Thread) (n : Nat) (v : BitVec 1024) : Thread :=
  (List.range 32).foldl (fun th w => th.setWord (256 + 32 * n + w) (wordOf v w)) th
/-- A predicate (R19). -/
def Thread.pred (th : Thread) (n : Nat) : Bool := n == 0 || th.preds.getLsbD n
/-- A predicate written; p0 is discarded (R19). -/
def Thread.setPred (th : Thread) (n : Nat) (b : Bool) : Thread :=
  if n == 0 then th
  else { th with preds := if b then th.preds ||| (1#32 <<< n) else th.preds &&& ~~~(1#32 <<< n) }

/-! The trap queue and the coalescer. -/

/-- Slots of a ring of 2^LOGN entries. -/
def ringSize (logn : BitVec 4) : Nat := 2 ^ logn.toNat
/-- The address of trap record slot n (R328). -/
def Part.tqAddr (p : Part) (n : Nat) : Nat := p.tqBase.toNat * 4096 + 256 * n

/-- The lanes of group g joined to a record as a mask (R327). -/
def Rec.lmask (r : Rec) (g : Nat) : Nat :=
  r.lanes.foldl (fun acc (h, l) => if h == g then acc ||| 2 ^ l else acc) 0
/-- GMAP (R327). -/
def Rec.gmap (r : Rec) : Nat := r.lanes.foldl (fun acc (h, _) => acc ||| 2 ^ h) 0

/-- A trap record as 2,048 bits (R327). -/
def Rec.bits (r : Rec) : Nat :=
  let base := r.id.toNat + r.cause.code.toNat * 2 ^ 32 + (if r.event then 2 ^ 40 else 0) + (if r.user then 2 ^ 41 else 0)
    + r.access % 4 * 2 ^ 42 + r.subcause.toNat * 2 ^ 48 + r.grid.toNat * 2 ^ 64 + r.team % 2 ^ 32 * 2 ^ 96
    + r.core % 2 ^ 11 * 2 ^ 128 + r.pc.toNat * 2 ^ 192 + r.addr % 2 ^ 48 * 2 ^ 256 + r.detail.toNat * 2 ^ 320
    + r.region.toNat * 2 ^ 352 + r.lane % 32 * 2 ^ 384 + r.slot % 8 * 2 ^ 389 + r.level % 4 * 2 ^ 392
    + r.rep % 64 * 2 ^ 394 + r.group % 32 * 2 ^ 400
  if r.event then base
  else base + r.gmap * 2 ^ 160 + r.lanes.length * 2 ^ 408
    + ((List.range 32).foldl (fun acc g => acc + r.lmask g * 2 ^ (1024 + 32 * g)) 0)

/-- An ID that names a record still open (R327). -/
def State.idOpen (s : State) (id : Word) : Bool :=
  (s.cores.any fun (_, k) => k.recs.any fun r => r.isOpen && r.id == id)
    || s.parts.any fun (_, p) => p.grids.any fun (_, g) => g.savedRecs.any fun r => r.2.id == id

/-- The next record ID of a partition that names no open record: at most n are skipped. -/
def State.freshId (s : State) : Nat → Word → Word
  | 0, id => id
  | n + 1, id => if id == 0 || s.idOpen id then freshId s n (id + 1) else id

/-- Takes the next record ID of a partition (R327). -/
def State.takeId (s : State) (p : Nat) : Word × State :=
  let id := s.freshId 20000 (s.part p).nextRec
  (id, s.modPart p fun k => { k with nextRec := if id + 1 == 0 then 1 else id + 1 })

/-- The key page of a record: the data address for causes 0x20 to 0x29, the target for BAD_TARGET, else the
program counter (R326). -/
def Rec.keyPage (r : Rec) : Nat :=
  (if r.cause.keyedByData || r.cause == .badTarget then r.addr else r.pc.toNat) % 2 ^ 48 / 2 ^ 16

/-- Whether an open record takes a fault (R326): same team, cause and key page. -/
def Rec.takes (r new : Rec) : Bool :=
  r.isOpen && !r.event && r.teamSlot == new.teamSlot && r.cause == new.cause && r.key == new.key

/-- An open record with the lanes of a fault joined; before it is written its access widens too (R326, R327). -/
def Rec.join (r new : Rec) : Rec :=
  { r with lanes := r.lanes ++ new.lanes, access := if r.written.isSome then r.access else r.access ||| new.access,
           joined := r.written.isSome }

/-- Open records of a core; those of kind X count (R326). -/
def Core.openCount (k : Core) : Nat := (k.recs.filter (·.isOpen)).length

/-- The lanes of a record with their record ID set (R343). -/
def State.markRec (s : State) (c : Nat) (r : Rec) (id : Word) : State :=
  r.lanes.foldl (fun s (g, l) => s.modThread { c := c, t := r.teamSlot, g := g, l := l } fun th => { th with recId := id }) s

/-- A fault or event received by the coalescer of a core: it joins an open record, forms one, or waits while
sixteen are open (R326). An event of kind E is never open and never counted; the key of an engine's record is its
engine. -/
def State.coalesce (s : State) (c : Nat) (new : Rec) : State :=
  let new := { new with key := if new.event then new.key else new.keyPage, core := c }
  let k := s.core c
  let p := (s.team c new.teamSlot).part
  match (if new.event then none else k.recs.find? fun r => r.takes new) with
  | some r =>
    let j := r.join new
    let s := s.modCore c fun k => { k with recs := k.recs.map fun q => if q.isOpen && q.id == r.id then j else q }
    (s.markRec c new r.id).count c 0x0f new.teamSlot 1
  | none =>
    if new.isOpen && k.openCount ≥ 16 then s.modCore c fun k => { k with overflow := k.overflow ++ [new] }
    else
      let (id, s) := s.takeId p
      (s.modCore c fun k => { k with recs := k.recs ++ [{ new with id := id, formed := s.now }] }).markRec c new id

/-- Faults that waited are received again, in order, after a record has closed (R326). -/
def State.recoalesce (s : State) (c : Nat) : State :=
  let waiting := (s.core c).overflow
  waiting.foldl (fun s r => s.coalesce c r) (s.modCore c fun k => { k with overflow := [] })

/-- An event of the dispatcher or of another agent, waiting in the partition for its trap queue (R328). -/
def State.event (s : State) (p : Nat) (r : Rec) : State :=
  let (id, s) := s.takeId p
  s.modPart p fun k => { k with events := k.events ++ [{ r with id := id, event := true, isOpen := false }] }

/-! Taking an exception. -/

/-- The ACCESS code of a trap record (R327). -/
def accessCode : Access → Nat
  | .fetch => 0
  | .read => 1
  | .write => 2
  | .readWrite => 3

/-- What an operation of a lane gets: a value, a reason to wait at the slot (R109), or a fault of execution (R117). -/
inductive Got (α : Type) where
  | ok (a : α)
  | wait (w : Wait)
  | fault (i : FaultInfo)

/-- What it waits for, if it does. -/
def Got.waits {α : Type} : Got α → Option Wait
  | .wait w => some w
  | _ => none
/-- Its fault, if it meets one. -/
def Got.faults {α : Type} : Got α → Option FaultInfo
  | .fault i => some i
  | _ => none
/-- Its value, if it has one. -/
def Got.value {α : Type} : Got α → Option α
  | .ok a => some a
  | _ => none
/-- Goes on with a value. -/
def Got.bind {α β : Type} : Got α → (α → Got β) → Got β
  | .ok a, f => f a
  | .wait w, _ => .wait w
  | .fault i, _ => .fault i

/-- A fault where a condition holds. -/
def Got.check (b : Bool) (i : FaultInfo) : Got Unit := if b then .fault i else .ok ()
/-- A wait where a condition holds. -/
def Got.hold (b : Bool) (w : Wait) : Got Unit := if b then .wait w else .ok ()
/-- A value, or a wait where there is none yet. -/
def Got.ofOption {α : Type} (o : Option α) (w : Wait) : Got α :=
  match o with
  | some a => .ok a
  | none => .wait w

/-- The record template of a fault of one lane (R327). -/
def State.recOf (s : State) (x : Lane) (p : At) (i : FaultInfo) (user : Bool) : Rec :=
  let k := s.team x.c x.t
  { id := 0, cause := i.cause, event := false, user := user, subcause := i.subcause, detail := i.detail,
    access := i.access, addr := i.addr, pc := p.pc, grid := k.launch, team := k.index, core := x.c, group := x.g,
    lane := x.l, level := p.level, slot := p.slot, rep := p.rep, region := (s.thread x).rcount, teamSlot := x.t,
    lanes := [(x.g, x.l)] }

/-- A system fault or decode fault: the lane parks at its region entry and the coalescer receives the cause
(R325, R119). Its position in the instruction is given up, and it takes no leaf. -/
def State.park (s : State) (x : Lane) (p : At) (i : FaultInfo) (user : Bool := false) : State :=
  let r := s.recOf x p i user
  let stop (th : Thread) : Thread :=
    { th with run := .parked, pc := th.rentry, pos := { stopped := true },
              loads := if i.cause == .memError then th.loads.filter (!·.poisoned) else th.loads }
  (s.modThread x stop).coalesce x.c r

/-- The first word of a trap frame (R132). -/
def frameWord (p : At) (after : Bool) (c : Cause) : Word :=
  BitVec.ofNat 32 ((if p.tree then 2 ^ 18 else 0) + p.rep % 64 * 2 ^ 12 + (if after then 2 ^ 11 else 0)
    + p.slot % 8 * 2 ^ 8 + c.code.toNat)

/-- A synchronous user trap (R132, R135): the frame goes to the top four declared general registers, the
handler flag is set, and the lane continues at the handler entry. In a handler it is TRAP_NESTED; without a
handler it is a system fault of the same cause. DESIGN CHOICE (log 51): what a `yield`, `brk` or `far` of the path set is kept for
the return. -/
def State.userTrap (s : State) (x : Lane) (p : At) (c : Cause) (detail : Word) (after : Bool) : State :=
  let k := s.team x.c x.t
  if (s.thread x).hflag then
    s.park x p { cause := .trapNested, detail := detail, subcause := c.code } true
  else if k.desc.handler == 0 then s.park x p { cause := c, detail := detail } true
  else
    let n := k.nG
    s.modThread x fun th =>
      let marks : Marks := { pc := p.pc, far := th.pos.far, brk := th.pos.brk, yield := th.pos.yield }
      let th := ((th.setWord (n - 4) (frameWord p after c)).setWord (n - 3) detail)
      let th := (th.setWord (n - 2) (p.pc.setWidth 32)).setWord (n - 1) ((p.pc >>> 32).setWidth 32)
      { th with hflag := true, marks := some marks, pc := k.desc.handler, run := .ready, pos := { stopped := true } }

/-- Taking an exception at an operation (R117, R325): a cause of kind U enters the handler, any other parks the lane. -/
def State.takeException (s : State) (x : Lane) (p : At) (i : FaultInfo) (after : Bool := false) : State :=
  if i.cause.isUser then s.userTrap x p i.cause i.detail after else s.park x p i

/-- The trap frame of a lane as it stands (R132). -/
structure Frame where
  head : Word
  pc : DWord
  deriving DecidableEq, Repr

def Thread.frame (th : Thread) (nG : Nat) : Frame :=
  { head := th.word (nG - 4), pc := th.word (nG - 1) ++ th.word (nG - 2) }
def Frame.tree (f : Frame) : Bool := f.head.getLsbD 18
def Frame.rep (f : Frame) : Nat := (f.head.extractLsb' 12 6).toNat
def Frame.after (f : Frame) : Bool := f.head.getLsbD 11
def Frame.slot (f : Frame) : Nat := (f.head.extractLsb' 8 3).toNat
/-- The fields that `ret.trap` finds well formed (R134, check 3). -/
def Frame.ok (f : Frame) : Bool :=
  f.head.toNat / 2 ^ 19 == 0 && (f.tree || f.slot == 0) && (!f.tree || f.rep == 0)

/-- A computed target that is a slot address (R125). -/
def targetOk (a : DWord) : Bool := a.toNat % 8 == 0 && a.toNat < 2 ^ 48

/-- The path through an arc: the root and child outcomes known on it (R134). -/
def pathOf (arc : Nat) : Option Bool × Option Bool :=
  match arc with
  | 0 => (some true, none)
  | 1 => (some false, none)
  | 2 => (some true, some true)
  | 3 => (some true, some false)
  | 4 => (some false, some true)
  | 5 => (some false, some false)
  | _ => (none, none)

/-- The return from a user trap (R134), all checks passed: the handler flag clears, and the lane stands at the
frame's PC, at the slot or repetition the frame names. ws are the slots fetched at PC, none where nothing is. What the path
had set before the trap stands again where the lane returns into the tree it left. DESIGN CHOICE (log 51): the bypass window is
empty. DESIGN CHOICE (log 55): so it does on whichever path an edited frame puts the lane. -/
def State.returnTrap (s : State) (x : Lane) (fr : Frame) (ws : List DWord) : State :=
  let pc : Addr := fr.pc.setWidth 48
  let w := ws.headD 0
  let after := if fr.after then 1 else 0
  let (pc, pos) : Addr × Pos :=
    if fr.tree then
      let path := pathOf (parseSlot (ws.getD (fr.slot + 1) 0)).arc.toNat
      (pc, { slot := fr.slot + after, root := path.1, child := path.2 })
    else if !ws.isEmpty && w.extractLsb' 61 3 == 1 then
      if fr.rep + after > (parseRep w).cnt.toNat then (pc + 16, {}) else (pc, { slot := fr.rep + after })
    else if fr.after then (pc + BitVec.ofNat 48 (8 * ws.length), {})
    else (pc, {})
  let tree := fr.tree
  s.modThread x fun th =>
    let pos := match th.marks with
      | some m => if tree && m.pc == pc then { pos with far := m.far, brk := m.brk, yield := m.yield } else pos
      | none => pos
    { th with hflag := false, marks := none, pc := pc, run := .ready, pos := { pos with stopped := true } }

/-- The instruction at the frame's PC is one that the frame can resume (R134, check 4). -/
def Frame.fits (f : Frame) (ws : List DWord) : Bool :=
  let w := ws.headD 0
  (!f.tree || (w.getLsbD 63 && (parseHeader w).ns.toNat > f.slot))
    && (f.rep == 0 || (w.extractLsb' 61 3 == 1 && f.rep ≤ (parseRep w).cnt.toNat))

end Sys2Proof.Machine
end

