-- ==== Sys2Proof/Machine/Flags.lean ====
section
/-!
DEFINITION. Recording the arithmetic flags of an operation and deciding the ARITH trap (R32, R33).
-/
namespace Sys2Proof.Machine

/-- The sticky flags of a lane with those of an operation (R32). -/
def State.setFlags (s : State) (x : Lane) (fl : Flags) : State :=
  s.modThread x fun th => { th with astat := th.astat ||| fl }

/-- The lowest bit set of a flag word. -/
def lowestFlag (fl : Flags) : Nat := ((List.range 6).find? fun n => fl.getLsbD n).getD 0

/-- The trap of an operation that meets enabled conditions: its DETAIL is the lowest enabled one (R33). -/
def State.arith (s : State) (x : Lane) (fl : Flags) : Option FaultInfo :=
  let en := fl &&& (s.group x.c x.t x.g).trapen
  if en == 0 then none else some { cause := .arith, detail := BitVec.ofNat 32 (lowestFlag en) }

end Sys2Proof.Machine
end

