-- ==== Sys2Proof/Machine/Mem.lean ====
section
/-!
DEFINITION. Global memory: homes and slices (R285, R286), die caches with their byte masks and release epochs
(R270 to R274), leases (R268), atomics at the home (R183), poison (R282) and the lines a Ladle handler holds (R370,
R375). An access that must wait for a line answers none.
-/
namespace Sys2Proof.Machine

/-- The line of a physical address (R283). -/
def lineOf (pa : Nat) : Nat := pa / 128
/-- HBM of this package (R285). -/
def isHbm (pa : Nat) : Bool := pa < 2 ^ 40
/-- Host memory (R285). -/
def isHost (pa : Nat) : Bool := 2 ^ 46 ≤ pa && pa < 2 ^ 47
/-- Memory of another package by its key (R290). -/
def isRemote (pa : Nat) : Bool := 2 ^ 48 ≤ pa
/-- The home slice of an HBM address (R286). -/
def homeSlice (pa : Nat) : Nat :=
  24 * ((pa / 2 ^ 7 % 16) ^^^ (pa / 2 ^ 23 % 16)) + pa / 2 ^ 11 % 2 ^ 29 % 24
/-- Where the release records of a line stand: its home slice, or the host's agent, numbered 384 (R275). -/
def homeOf (pa : Nat) : Nat := if isHbm pa then homeSlice pa else 384

/-- The quota of a class in a die cache or a slice: a value above 16 is read as 16 (R287). -/
def quotaOf (q : List (BitVec 5)) (cls : Nat) : Nat := Nat.min 16 (q.getD cls 16).toNat
/-- The class of a line: host memory is class 11 (R287). -/
def classOf (pa cls : Nat) : Nat := if isHost pa then 3 else cls

/-- The trigger entry that decides for a line (R369). -/
def Slice.trigger (k : Slice) (line : Nat) : Option (BitVec 128) :=
  (List.range 32).findSome? fun e =>
    let t := k.trigs.get e 0
    if t.getLsbD 127 && (t.extractLsb' 0 41).toNat ≤ line && line ≤ (t.extractLsb' 41 41).toNat then some t else none
/-- The tenant of a trigger entry. -/
def trigTenant (t : BitVec 128) : Nat := (t.extractLsb' 85 4).toNat
/-- The entry of a line, where its tenant may run and the core runs (R369, R383). -/
def Slice.liveTrigger (k : Slice) (line : Nat) : Option (BitVec 128) :=
  match k.trigger line with
  | some t => if k.run && (k.tenants.get (trigTenant t) {}).en then some t else none
  | none => none
/-- A miss of the line raises a miss or fill handler (R370). -/
def Slice.missTriggers (k : Slice) (line : Nat) : Bool :=
  match k.liveTrigger line with
  | some t => t.getLsbD 82 || t.getLsbD 83
  | none => false
/-- The running invocation holds the line (R375). -/
def Slice.holds (k : Slice) (line : Nat) : Bool :=
  match k.inv with
  | some i => i.line == line && i.hasWindow && (i.kind != .message || i.writable)
  | none => false

/-- Who accesses a line at its home: an agent whose miss raises a handler, a walker or the unit that makes ready a message's
hold, which raises none, or a handler that runs for a line (R264, R370). -/
inductive Asker where
  | access
  | walker
  | handler (line : Nat)
  deriving DecidableEq, Repr

/-- No handler stands between an access and the line: none is owed for it, its eviction has ended, and none holds it (R264,
R370, R375). -/
def Slice.clear (k : Slice) (line : Nat) : Bool := !k.busy.contains line && !k.victims.contains line && !k.holds line
/-- The line is in the slice, or its handlers have run and it comes with the next access. -/
def Slice.present (k : Slice) (line : Nat) : Bool := (k.lines.find? line).isSome || (k.served.find? line).isSome
/-- A trigger that found the queue full stalls new misses until room appears (R372). -/
def Slice.stalled (k : Slice) : Bool := k.stall != 0 && k.queue.length + k.stall > 64
/-- An access may be performed at the home of the line now (R264, R370, R372, R375). -/
def State.homeFree (s : State) (pa : Nat) (who : Asker := .access) : Bool :=
  !isHbm pa ||
    (let k := s.slice (homeSlice pa)
     let line := lineOf pa
     (who == .handler line || k.clear line) && (who != .access || k.present line || (!k.missTriggers line && !k.stalled)))

/-! Which line leaves a full set (R288). -/

/-- A line of a set: its number, its class, its last use, and whether it may leave. -/
structure Way where
  line : Nat
  cls : Nat
  used : Nat
  free : Bool := true

/-- The least recently used of the lines that may leave. -/
def lru (ws : List Way) : Option Way :=
  (ws.filter (·.free)).foldl (fun best w => match best with
    | none => some w
    | some b => if w.used < b.used then some w else some b) none
/-- The lines of a class. -/
def classCount (ws : List Way) (cls : Nat) : Nat := (ws.filter fun w => w.cls == cls).length
/-- The line that makes room for one of a class among `ways` ways, by the first rule that applies (R288): none where a way is
free; no answer where every line that could leave is held. -/
def makeWay (quota : List (BitVec 5)) (ws : List Way) (ways cls : Nat) : Option (Option Nat) :=
  let own := ws.filter fun w => w.cls == cls
  let crowded := ws.filter fun w => classCount ws w.cls > quotaOf quota w.cls
  let leave (w : Option Way) : Option (Option Nat) := w.map fun w => some w.line
  if classCount ws cls ≥ quotaOf quota cls then leave ((lru own).or (lru ws))
  else if ws.length < ways then some none
  else leave ((lru crowded).or (lru ws))

/-! Lines of a slice. -/

/-- The set of a line in its slice: lines of one slice count by PA[39:11] / 24 (R283, R286, log 14). -/
def sliceSet (line : Nat) : Nat := line / 16 / 24 % 1024
/-- The lines of a set of a slice; one that an invocation holds does not leave (R375). -/
def Slice.ways (k : Slice) (set : Nat) : List Way :=
  (k.lines.filter fun (n, _) => sliceSet n == set).map fun (n, l) => { line := n, cls := l.cls, used := l.used, free := !k.holds n }

/-- A trigger goes ahead of every message, behind the triggers before it (R372). -/
def Slice.pushTrigger (k : Slice) (is : List Inv) : Slice :=
  { k with queue := k.queue.filter (fun j => j.kind != InvKind.message) ++ is ++ k.queue.filter fun j => j.kind == InvKind.message }
/-- A trigger's invocation (R369, R370). -/
def trigInv (t : BitVec 128) (kind : InvKind) (line : Nat) (l : SliceLine) : Inv :=
  { kind := kind, line := line, tenant := trigTenant t,
    handler := match kind with
      | .miss => t.extractLsb' 96 8
      | .fill => t.extractLsb' 104 8
      | _ => t.extractLsb' 112 8,
    cls := l.cls, dirty := l.dirty }
/-- A line leaves its slice; where its eviction is registered it goes to the victim buffer and the handler is queued, as soon
as both have room (R370). -/
def State.evictLine (s : State) (n line : Nat) : Option State :=
  let k := s.slice n
  let l := k.lines.get line {}
  let gone (k : Slice) : Slice := { k with lines := k.lines.del line }
  match k.liveTrigger line with
  | some t =>
    if !t.getLsbD 84 then some (s.modSlice n gone)
    else if k.victims.length ≥ 8 || k.queue.length ≥ 64 then none
    else some (s.modSlice n fun k => { gone (k.pushTrigger [trigInv t .evict line l]) with victims := line :: k.victims })
  | none => some (s.modSlice n gone)

/-- A line placed in its slice, most recently used, dirty after a write or a change by its fill handler (R283, R371). -/
def Slice.place (k : Slice) (line cls : Nat) (write : Bool) : Slice :=
  let l := k.lines.get line { cls := cls }
  { k with lines := k.lines.set line { l with dirty := l.dirty || write || k.served.get line false, used := k.uses },
           uses := k.uses + 1, served := k.served.del line }
/-- An access at the home: the line stands in its slice, and another leaves where its set is full; a class without ways is
not allocated (R283, R288). -/
def State.touch (s : State) (pa cls : Nat) (write : Bool) : Option State :=
  if !isHbm pa then some s
  else
    let n := homeSlice pa
    let line := lineOf pa
    let k := s.slice n
    if (k.lines.find? line).isSome then some (s.modSlice n (·.place line cls write))
    else if quotaOf k.quota cls == 0 then some (s.modSlice n fun k => { k with served := k.served.del line })
    else
      match makeWay k.quota (k.ways (sliceSet line)) 16 cls with
      | none => none
      | some none => some (s.modSlice n (·.place line cls write))
      | some (some v) => (s.evictLine n v).map fun s => s.modSlice n (·.place line cls write)

/-! Lines as 1,024 bits. -/

/-- n bytes of a line from an offset. -/
def lineBytes (data : BitVec 1024) (off n : Nat) : Nat := data.toNat / 2 ^ (8 * off) % 2 ^ (8 * n)
/-- n bytes of a line written. -/
def lineSet (data : BitVec 1024) (off n v : Nat) : BitVec 1024 :=
  let mask : BitVec 1024 := BitVec.ofNat 1024 ((2 ^ (8 * n) - 1) * 2 ^ (8 * off))
  (data &&& ~~~mask) ||| (BitVec.ofNat 1024 (v * 2 ^ (8 * off)) &&& mask)
/-- The byte mask of n bytes from an offset. -/
def maskOf (off n : Nat) : BitVec 128 := BitVec.ofNat 128 ((2 ^ n - 1) * 2 ^ off)
/-- The bytes of a mask merged into memory (R271). -/
def mergeBytes (m : Memory) (line : Nat) (data : BitVec 1024) (mask : BitVec 128) : Memory :=
  (List.range 128).foldl
    (fun m i => if mask.getLsbD i then m.write (128 * line + i) ((data >>> (8 * i)).setWidth 8) else m) m
/-- The bytes of a mask of one line over another. -/
def mergeLine (old new : BitVec 1024) (mask : BitVec 128) : BitVec 1024 :=
  (List.range 128).foldl (fun acc i => if mask.getLsbD i then lineSet acc i 1 (lineBytes new i 1) else acc) old

/-- A line of a die cache replaced. -/
def State.setLine (s : State) (d line : Nat) (l : DieLine) : State :=
  s.modDie d fun k => { k with lines := k.lines.set line l }
/-- The release records of a line without those of die d. -/
def Slice.epochsBut (k : Slice) (line d : Nat) : List (Nat × Nat) := (k.epochs.get line []).filter fun x => x.1 != d
/-- The release records of a line replaced. -/
def State.setEpochs (s : State) (n line : Nat) (es : List (Nat × Nat)) : State :=
  s.modSlice n fun k => { k with epochs := k.epochs.set line es }

/-- A write of a line that carries a release epoch of die d: the slice keeps the latest epoch of each die (R270). -/
def State.record (s : State) (pa d epoch : Nat) : State :=
  if epoch == 0 || isRemote pa then s
  else
    let k := s.slice (homeOf pa)
    let old := ((k.epochs.get (lineOf pa) []).find? fun x => x.1 == d).elim 0 (·.2)
    s.setEpochs (homeOf pa) (lineOf pa) ((d, Nat.max old epoch) :: k.epochsBut (lineOf pa) d)

/-- Bytes of a place whose contents the spec leaves open (R290, R402, log 5). -/
def State.openBytes (s : State) : Nat → Nat × State
  | 0 => (0, s)
  | n + 1 =>
    let b := (Config.openByte s.fresh).toNat
    let (v, s) := State.openBytes { s with fresh := s.fresh + 1 } n
    (b + 256 * v, s)

/-- A journal of a partition stands at the address: its entries have no layout in the spec, and they are written at any time (R402). -/
def State.journalAt (s : State) (pa : Nat) : Bool :=
  s.parts.any fun (_, q) => q.jrnV && q.jrnBase.toNat * 2 ^ 20 ≤ pa && pa < q.jrnBase.toNat * 2 ^ 20 + 2 ^ 24
/-- A line that a journal has left and nothing has accessed since. -/
def State.openLine (s : State) (line : Nat) : Bool := s.openMem.any fun (lo, hi) => lo ≤ line && line < hi
/-- What the address holds is, or was left by, a journal (R402). -/
def State.inJournal (s : State) (pa : Nat) : Bool := s.journalAt pa || s.openLine (lineOf pa)
/-- Runs of lines without one of them. -/
def cutLine (rs : List (Nat × Nat)) (line : Nat) : List (Nat × Nat) :=
  rs.flatMap fun (lo, hi) =>
    if line < lo || hi ≤ line then [(lo, hi)] else [(lo, line), (line + 1, hi)].filter fun q => q.1 < q.2
/-- A line that a journal has left holds some bytes for good once it is accessed (R402, log 5). -/
def State.settleLine (s : State) (line : Nat) : State :=
  if !s.openLine line then s
  else
    let (v, s) := s.openBytes 128
    { s with mem := s.mem.writeN (128 * line) 128 v, openMem := cutLine s.openMem line }
/-- The same for each line of n bytes. -/
def State.settleBytes (s : State) (pa n : Nat) : State :=
  if s.openMem.isEmpty then s
  else (List.range (lineOf (pa + n - 1) + 1 - lineOf pa)).foldl (fun s i => s.settleLine (lineOf pa + i)) s
/-- n bytes within a line as its home holds them. -/
def State.homeBytes (s : State) (pa n : Nat) : Nat × State :=
  if s.journalAt pa then s.openBytes n
  else
    let s := s.settleLine (lineOf pa)
    (s.mem.readN pa n, s)

/-- Die d has written at the home of a line whose record names another die (R253, R259). -/
def State.wroteOver (s : State) (d line : Nat) : State :=
  if (s.die d).late.contains line || ((s.slice (homeOf (128 * line))).epochsBut line d).isEmpty then s
  else s.modDie d fun k => { k with late := line :: k.late }

/-- A dirty line of a die cache written back; none while a handler concerns it, or while its slice has no room (R271, R274,
R375). Poison travels with it; a write-back of every byte clears the poison at the home (R282). -/
def State.writeBack (s : State) (d line : Nat) : Option State :=
  match (s.die d).lines.find? line with
  | none => some s
  | some l =>
    if l.dirty == 0 then some s
    else if !s.homeFree (128 * line) then none
    else
      let s := s.settleLine line
      let poison := if l.poisoned then (if s.poison.contains line then s.poison else line :: s.poison)
        else if l.dirty == maskOf 0 128 then s.poison.filter (· != line) else s.poison
      (({ s with mem := mergeBytes s.mem line l.data l.dirty, poison := poison } : State).touch (128 * line) l.cls true).map
        fun s => (s.setLine d line { l with dirty := 0, epoch := 0 }).wroteOver d line

/-- Several lines written back. -/
def State.writeBackAll (s : State) (d : Nat) : List Nat → Option State
  | [] => some s
  | l :: ls =>
    match s.writeBack d l with
    | none => none
    | some s => s.writeBackAll d ls

/-- The dirty lines of a die tagged with an epoch up to e (R271). -/
def Die.tagged (k : Die) (e : Nat) : List Nat :=
  (k.lines.filter fun (_, l) => l.dirty != 0 && l.epoch != 0 && l.epoch ≤ e).map (·.1)

/-- Write-backs that a line's record demands of other dies, performed one record after another. -/
def State.recallFrom (s : State) (n line d : Nat) : List (Nat × Nat) → Option State
  | [] => some s
  | (d', e) :: es =>
    if d' == d then s.recallFrom n line d es
    else
      match s.writeBackAll d' ((s.die d').tagged e) with
      | none => none
      | some s =>
        (s.setEpochs n line ((s.slice n).epochsBut line d')).recallFrom n line d es

/-- The home serves a read or an atomic of a line for die d: every other die that its record names first writes back
what it tagged (R271). A requester without a die is numbered 32. -/
def State.recall (s : State) (pa d : Nat) : Option State :=
  let n := homeOf pa
  match (s.slice n).epochs.get (lineOf pa) [] with
  | [] => some s
  | es => s.recallFrom n (lineOf pa) d es

/-- n bytes read at the home, with the poison of the line (R271, R282). -/
def State.homeRead (s : State) (pa n d cls : Nat) (who : Asker := .access) : Option (Nat × Bool × State) :=
  if !s.homeFree pa who then none
  else
    match s.recall pa d with
    | none => none
    | some s => (s.touch pa cls false).map fun t =>
        let (v, t) := t.homeBytes pa n
        (v, s.poison.contains (lineOf pa), t)

/-- n bytes written at the home, no cache holding them (R275, R400). A write that covers a whole line clears its
poison (R282). -/
def State.homeWrite (s : State) (pa n v cls : Nat) (who : Asker := .access) : Option State :=
  if !s.homeFree pa who then none
  else
    let s := s.settleBytes pa n
    ({ s with mem := s.mem.writeN pa n v,
              poison := if n ≥ 128 then s.poison.filter fun l => !(128 * l ≥ pa && 128 * l + 128 ≤ pa + n) else s.poison
      } : State).touch pa cls true

/-! The die cache and the L1. -/

/-- The bound of R274 in die-cache cycles. -/
def Die.ageBound (k : Die) : Nat := 1024 * Nat.max 1 k.leaseAge.toNat
/-- The lines of a set of a die cache, of 16,384 sets (R283, log 14). -/
def Die.ways (k : Die) (set : Nat) : List Way :=
  (k.lines.filter fun (n, _) => n % 16384 == set).map fun (n, l) => { line := n, cls := l.cls, used := l.used }

/-- Room for a line of a class in a die cache: a dirty victim is written back before it is replaced (R288). -/
def State.makeRoom (s : State) (d line cls : Nat) : Option State :=
  let k := s.die d
  match makeWay k.quota (k.ways (line % 16384)) 16 cls with
  | none => none
  | some none => some s
  | some (some v) => (s.writeBack d v).map fun s => s.modDie d fun k => { k with lines := k.lines.del v }

/-- An L1 without a line. -/
def Core.dropCopy (k : Core) (line : Nat) : Core := { k with l1 := k.l1.del line }
/-- The L1 copies of a line leave the cores of a die, with their leases: its die cache reads the line anew (log 34). -/
def State.dropL1Copies (s : State) (d line : Nat) : State :=
  if (s.die d).leases.all fun a => a.line != line then s
  else
    let s := s.modDie d fun k => { k with leases := k.leases.filter fun a => a.line != line }
    { s with cores := s.cores.map fun (c, k) => (c, if coreDie c == d then k.dropCopy line else k) }

/-- A line most recently used in its die cache. -/
def State.useLine (s : State) (d line : Nat) (l : DieLine) : DieLine × State :=
  let l := { l with used := (s.die d).uses }
  (l, s.modDie d fun k => { k with lines := k.lines.set line l, uses := k.uses + 1 })

/-- A line brought into a die cache (R271, R284, R288); none while it cannot be served, or while a handler concerns it. -/
def State.fill (s : State) (d pa cls : Nat) : Option (DieLine × State) :=
  let line := lineOf pa
  if !s.homeFree pa .walker then none
  else
    match (s.die d).lines.find? line with
    | some l => some (s.useLine d line l)
    | none =>
      let keep := quotaOf (s.die d).quota cls != 0
      (if keep then s.makeRoom d line cls else some s).bind fun s =>
      (s.homeRead (128 * line) 128 d cls).map fun (v, bad, s) =>
        let s := s.dropL1Copies d line
        let l : DieLine :=
          { data := BitVec.ofNat 1024 v, cls := cls, poisoned := bad, at_ := s.now, age := (s.die d).ageBound }
        if keep then s.useLine d line l else (l, s)

/-- The NODE of an address of another package (R290). -/
def nodeOf (pa : Nat) : Nat := pa / 2 ^ 48 - 1
/-- No path to the package of an address remains: a port has failed, and every port from which a path to its NODE leaves
(R404). -/
def State.noPath (s : State) (pa : Nat) : Bool :=
  let up (n : Nat) : Bool := (s.pkg.ports.get n {}).up
  (List.range 32).any (fun n => !up n) && (List.range 32).all fun n => !(up n && Config.route (nodeOf pa) n)

/-- No other core of the die holds a lease on the line that has not run out (R268). -/
def State.leasesOver (s : State) (c line : Nat) : Bool :=
  (s.die (coreDie c)).leases.all fun a => a.line != line || a.core == c || a.expiry ≤ s.now
/-- A write of a core to the line waits to be performed (R268). -/
def Core.owes (k : Core) (line : Nat) : Bool := k.writes.any fun w => lineOf w.pa == line
/-- A write of a core of the die to the line waits: no lease is granted on it (R268). -/
def State.storePending (s : State) (d line : Nat) : Bool := s.cores.any fun (j, k) => coreDie j == d && k.owes line

/-- n bytes of a value written over m bytes of another that starts at `pa`. -/
def patch (pa m v : Nat) (w : Write) : Nat :=
  (List.range w.size).foldl (fun acc i =>
    let o := w.pa + i - pa
    if pa ≤ w.pa + i && o < m then acc - acc / 256 ^ o % 256 * 256 ^ o + w.val / 256 ^ i % 256 * 256 ^ o else acc) v

/-- The copy of a line that an L1 may use (R268). -/
def State.copyOf (s : State) (c line : Nat) : Option L1Line :=
  match (s.core c).l1.find? line with
  | some y => if s.now < y.ends then some y else none
  | none => none

/-- The banks in the role of L1 ways, none of them draining (R276, R277). -/
def Core.l1Banks (k : Core) : List Nat :=
  (List.range 32).filter fun b => (k.banks.get b {}).role == 2 && !(k.banks.get b {}).drain

/-- Banks leave the L1 ways: their copies are invalid and the leases of those are dropped (R277). -/
def State.leaveL1 (s : State) (c : Nat) (bs : List Nat) : State :=
  let gone (y : L1Line) : Bool := bs.contains (y.way / 4)
  let k := s.core c
  if k.l1.all fun (_, y) => !gone y then s
  else
    (s.modDie (coreDie c) fun d => { d with leases := d.leases.filter fun x => !(x.core == c && (k.l1.find? x.line).any gone) }).modCore c
      fun k => { k with l1 := k.l1.filter fun (_, y) => !gone y }

/-- The way that takes a line of an L1 set: a free one, or that of the least recently used copy, which leaves (R283). -/
def State.l1Way (s : State) (c line : Nat) : Option (Nat × Option Nat) :=
  let k := s.core c
  let set := (k.l1.filter fun (n, y) => n % 128 == line % 128 && n != line && s.now < y.ends)
  let free := k.l1Banks.findSome? fun b => (List.range 4).findSome? fun i =>
    if set.any fun (_, y) => y.way == 4 * b + i then none else some (4 * b + i)
  match free with
  | some w => some (w, none)
  | none =>
    match lru (set.map fun (n, y) => { line := n, cls := 0, used := y.used }) with
    | some v => some ((k.l1.get v.line { data := 0, ends := 0, way := 0 }).way, some v.line)
    | none => none

/-- A lease on a line granted to a core at a load, and the copy that its L1 holds under it, 16 cycles shorter (R268, R284,
log 6). -/
def State.grant (s : State) (c line : Nat) (l : DieLine) : State :=
  let d := coreDie c
  if l.poisoned || s.storePending d line then s
  else
    match s.l1Way c line with
    | none => s
    | some (way, out) =>
      let len := Nat.max 256 (s.die d).leaseLen.toNat
      let lease : Lease := { line := line, core := c, expiry := s.now + len }
      let s := s.modDie d fun k => { k with leases := lease :: k.leases.filter fun x => !(x.line == line && x.core == c) }
      s.modCore c fun k =>
        let l1 := out.elim k.l1 k.l1.del
        { k with l1 := l1.set line { data := l.data, ends := s.now + len - 16, way := way, used := k.l1Uses }, l1Uses := k.l1Uses + 1 }

/-- n bytes within a line read by an agent of core c through its die cache: the value and whether it is poisoned (R271, R282,
R284). An agent that looks in no buffer of stores waits for those of its core. -/
def State.loadBytes (s : State) (c pa n cls : Nat) : Option (Nat × Bool × State) :=
  if isRemote pa then
    let (v, s) := s.openBytes n
    some (v, s.noPath pa, s)
  else if (s.core c).owes (lineOf pa) then none
  else (s.fill (coreDie c) pa (classOf pa cls)).map fun (l, s) => (lineBytes l.data (pa % 128) n, l.poisoned, s)

/-- n bytes within a line read by a lane of core c: from the copy of its L1 where it may use one, else from the die cache,
under its core's own stores; `cached` tells a load that reads and fills the L1 (R268, R284). -/
def State.laneLoad (s : State) (c pa n cls : Nat) (cached : Bool) : Option (Nat × Bool × State) :=
  let line := lineOf pa
  if isRemote pa then s.loadBytes c pa n cls
  else
    match (if cached && s.homeFree pa .walker then s.copyOf c line else none) with
    | some y => some (lineBytes y.data (pa % 128) n, false, s.modCore c fun k =>
        { k with l1 := k.l1.set line { y with used := k.l1Uses }, l1Uses := k.l1Uses + 1 })
    | none => (s.fill (coreDie c) pa (classOf pa cls)).map fun (l, s) =>
        let v := (s.core c).writes.foldl (patch pa n) (lineBytes l.data (pa % 128) n)
        (v, l.poisoned, if cached then s.grant c line l else s)

/-- n bytes within a line written at the die cache of d, where the line becomes dirty; with a release epoch, or where the
class has no ways, at the home, after the other bytes that the die has written there (R245, R270, R288). A write of a whole
line ends its poison (R282). -/
def State.performWrite (s : State) (d pa n v cls epoch : Nat) : Option State :=
  let line := lineOf pa
  let put (l : DieLine) : DieLine :=
    { l with data := lineSet l.data (pa % 128) n v, poisoned := l.poisoned && n < 128, at_ := s.now }
  if !s.homeFree pa .walker then none
  else if epoch != 0 || quotaOf (s.die d).quota cls == 0 then
    (s.writeBack d line).bind fun s => (s.homeWrite pa n v cls).map fun s =>
      let s := match (s.die d).lines.find? line with
        | none => s
        | some l => s.setLine d line { put l with at_ := l.at_ }
      (s.record pa d epoch).wroteOver d line
  else
    (s.fill d pa cls).map fun (l, s) => s.setLine d line { put l with dirty := l.dirty ||| maskOf (pa % 128) n }

/-- The L1 copy of the storing core takes the new value at once (R268, R284). -/
def State.copyWrite (s : State) (c pa n v : Nat) : State :=
  match (s.core c).l1.find? (lineOf pa) with
  | none => s
  | some y => s.modCore c fun k => { k with l1 := k.l1.set (lineOf pa) { y with data := lineSet y.data (pa % 128) n v } }

/-- n bytes within a line written by an agent of core c that waits until no lease and no earlier write of the core stands in
the way (R267, R268). -/
def State.storeBytes (s : State) (c pa n v cls epoch : Nat) : Option State :=
  if isRemote pa then some (if s.noPath pa then s else { s with mem := s.mem.writeN pa n v })
  else if !s.leasesOver c (lineOf pa) || (s.core c).owes (lineOf pa) then none
  else (s.performWrite (coreDie c) pa n v (classOf pa cls) epoch).map fun s => s.copyWrite c pa n v

/-- A store of a lane (R267, R268): performed at once, or accepted and performed by the die cache once no lease and no earlier
write of the core to the line stands in the way; the numbers of the writes still to be performed. -/
def State.laneStore (s : State) (c part pa n v cls epoch : Nat) : Option (List Nat × State) :=
  if isRemote pa || (s.leasesOver c (lineOf pa) && !(s.core c).owes (lineOf pa)) then
    (s.storeBytes c pa n v cls epoch).map fun s => ([], s)
  else
    let w : Write := { id := s.nextMsg, part := part, pa := pa, size := n, val := v, cls := classOf pa cls, epoch := epoch }
    let s := (s.copyWrite c pa n v).modCore c fun k => { k with writes := k.writes ++ [w] }
    some ([w.id], { s with nextMsg := s.nextMsg + 1 })

/-- The writes of a core that can be performed are, each line's in the order of their issue (R268); `wait` holds the lines
with an earlier write that cannot. -/
def State.drainWrites (s : State) (c : Nat) : List Write → List Nat → State
  | [], _ => s
  | w :: ws, wait =>
    let line := lineOf w.pa
    if wait.contains line || !s.leasesOver c line then s.drainWrites c ws (line :: wait)
    else
      match s.performWrite (coreDie c) w.pa w.size w.val w.cls w.epoch with
      | none => s.drainWrites c ws (line :: wait)
      | some s => (s.modCore c fun k => { k with writes := k.writes.filter fun x => x.id != w.id }).drainWrites c ws wait

/-- A line removed from the L1 of a core and from its die cache, written back when dirty (R272). -/
def State.expel (s : State) (c pa : Nat) : Option State :=
  let d := coreDie c
  (s.writeBack d (lineOf pa)).map fun s =>
    (s.modDie d fun k => { k with lines := k.lines.del (lineOf pa), leases := k.leases.filter fun x => x.line != lineOf pa }).modCore c
      (·.dropCopy (lineOf pa))

/-- One indivisible read-modify-write at the home: the old value, its poison, and the state after the new value is
written, with its release epoch; nothing is written to a poisoned line (R183, R179, R270). The line leaves its die cache
first, which takes the leases of other cores to have run out, as a store does (R268, R272, log 34). -/
def State.atomicAt (s : State) (c pa n cls epoch : Nat) (g : Nat → Nat) : Option (Nat × Bool × State) :=
  if isRemote pa then
    let (v, s) := s.openBytes n
    some (v, s.noPath pa, if s.noPath pa then s else { s with mem := s.mem.writeN pa n (g v) })
  else if !s.leasesOver c (lineOf pa) || (s.core c).owes (lineOf pa) then none
  else
    let cls := classOf pa cls
    match s.expel c pa with
    | none => none
    | some s =>
      match s.homeRead pa n (coreDie c) cls with
      | none => none
      | some (v, true, s) => some (v, true, s)
      | some (v, bad, s) =>
        match s.homeWrite pa n (g v) cls with
        | none => none
        | some s => some (v, bad, s.record pa (coreDie c) epoch)

/-- A release at `.pkg` by an agent of die d: a new epoch tags every dirty line of the die (R270). -/
def State.releasePkg (s : State) (d : Nat) : Nat × State :=
  let k := s.die d
  let e := k.epoch + 1
  let tag (l : DieLine) : DieLine := if l.dirty != 0 && l.epoch == 0 then { l with epoch := e } else l
  (e, s.modDie d fun k => { k with epoch := e, lines := k.lines.map fun (n, l) => (n, tag l) })

/-- A release at `.sys`: every dirty line of the die is written back (R275). -/
def State.releaseSys (s : State) (d : Nat) : Option State := s.writeBackAll d ((s.die d).lines.map (·.1))

/-- The bytes of a dirty line that its die did not write, read again from the home (R272, R253). -/
def State.refresh (s : State) (d : Nat) : List Nat → Option State
  | [] => some s
  | line :: ls =>
    match (s.die d).lines.find? line with
    | none => s.refresh d ls
    | some l =>
      match s.homeRead (128 * line) 128 d l.cls .walker with
      | none => none
      | some (v, bad, s) =>
        let l := { l with data := mergeLine (BitVec.ofNat 1024 v) l.data l.dirty,
                          poisoned := l.poisoned || (bad && l.dirty != maskOf 0 128) }
        ((s.dropL1Copies d line).setLine d line l).refresh d ls

/-- Every L1 of a die without copies and leases. -/
def State.dropL1s (s : State) (d : Nat) : State :=
  let s := s.modDie d fun k => { k with leases := [] }
  { s with cores := s.cores.map fun (c, k) => (c, if coreDie c == d then { k with l1 := [] } else k) }

/-- The records over which a die has written are taken up (R253, R259). -/
def State.takeLate (s : State) (d : Nat) : List Nat → Option State
  | [] => some (s.modDie d fun k => { k with late := [] })
  | line :: ls => (s.recall (128 * line) d).bind fun s => s.takeLate d ls

/-- An acquire at `.pkg` or wider by a lane of core c: the L1s of its die drop their leases, for what a core of the die acquired holds
for the others after an acquire within the die (R253, log 44), and the clean bytes of its die cache are absent (R272). -/
def State.acquirePkg (s : State) (c : Nat) : Option State :=
  let d := coreDie c
  (s.takeLate d (s.die d).late).bind fun s =>
  let s := (s.dropL1s d).modDie d fun k => { k with lines := k.lines.filter fun (_, l) => l.dirty != 0 }
  s.refresh d ((s.die d).lines.map (·.1))

/-- Every line that a release of another die tagged written back (R250, log 44). -/
def State.settleDies (s : State) (d : Nat) : List Nat → Option State
  | [] => some s
  | d' :: ds =>
    if d' == d then s.settleDies d ds
    else (s.writeBackAll d' ((s.die d').tagged (s.die d').epoch)).bind fun s => s.settleDies d ds

/-- An acquire by core c after an event that synchronises with it and that no line of memory carries: a barrier, a launch, a
scope, a message between the dies of a cluster. What was released before is at its home first (R250, log 44). -/
def State.joinPkg (s : State) (c : Nat) : Option State :=
  (s.settleDies (coreDie c) (s.dies.map (·.1))).bind (·.acquirePkg c)

end Sys2Proof.Machine
end

