-- ==== Sys2Proof/Machine/Xlat.lean ====
section
/-!
DEFINITION. Address translation: the page table and its walker (R289 to R292), the TLB of a core (R293), the
extent table of a task (R295, R297), and the fetch of code (R125, R298).
-/
namespace Sys2Proof.Machine

/-- The permissions that an access needs: read, write, execute (R292). -/
structure Need where
  r : Bool := false
  w : Bool := false
  x : Bool := false
  /-- The walk sets D (R291, R296). -/
  dirty : Bool := false
  deriving DecidableEq, Repr

/-- The permissions of an access kind (R292). -/
def Need.of : Access → Need
  | .fetch => { x := true }
  | .read => { r := true }
  | .write => { w := true, dirty := true }
  | .readWrite => { r := true, w := true, dirty := true }

/-- What a walk ends in: a translation, a cause, or a line that is not served yet (R291). -/
inductive Walk where
  | ok (x : Xlat) (s : State)
  | fault (c : Cause) (s : State)
  | blocked

/-- Bits [hi:lo] of an entry. -/
def entryBits (e hi lo : Nat) : Nat := e / 2 ^ lo % 2 ^ (hi - lo + 1)

/-- The permissions of a translation suffice; code of another package is never fetched (R292). -/
def Xlat.grants (x : Xlat) (n : Need) : Bool := (!n.r || x.r) && (!n.w || x.w) && (!n.x || (x.x && !x.rem))

/-- The leaf entry read at an address (R290, R291): its conditions in order, then A and D set at its home. -/
def State.leafEntry (s : State) (p d va pa : Nat) (big : Bool) (n : Need) : Walk :=
  match s.homeRead pa 8 d 3 .walker with
  | none => .blocked
  | some (_, true, s) => .fault .memError s
  | some (e, false, s) =>
    let rem := entryBits e 63 63 == 1
    let frame := entryBits e 47 16
    let top := if big then frame + 32 else frame + 1
    let x : Xlat :=
      { part := p, vpage := if big then va / 2 ^ 21 * 32 else va / 2 ^ 16, size := if big then 32 else 1,
        frame := frame, rem := rem, node := entryBits e 62 51, cls := entryBits e 11 10,
        r := entryBits e 2 2 == 1, w := entryBits e 3 3 == 1, x := entryBits e 4 4 == 1, d := entryBits e 9 9 == 1 }
    let bad := entryBits e 50 48 != 0 || entryBits e 15 12 != 0 || entryBits e 7 5 != 0 || entryBits e 1 1 != 0
      || (!rem && entryBits e 62 51 != 0) || (big && frame % 32 != 0)
      || (!rem && !(top ≤ 2 ^ 24 || (2 ^ 30 ≤ frame && top ≤ 2 ^ 31)))
    if e % 2 == 0 then .fault .pageFault s
    else if bad then .fault .pteBad s
    else if !x.grants n then .fault .permFault s
    else if entryBits e 8 8 == 1 && (x.d || !n.dirty) then .ok x s
    else
      let v := e / 256 % 256 ||| (if n.dirty then 3 else 1)
      .ok { x with d := x.d || n.dirty } { s with mem := s.mem.writeN (pa + 1) 1 v }

/-- A directory entry that a die keeps (R293). -/
def Die.dir (k : Die) (p : Nat) (mid : Bool) (a : Nat) : Option Nat :=
  (k.dirs.find? fun x => x.part == p && x.mid == mid && x.at_ == a).map (·.entry)
/-- A directory entry read for a walk of die d: the one that the die keeps, or the one at its home, with its poison (R282, R289,
R291, R293). -/
def State.dirEntry (s : State) (d p : Nat) (mid : Bool) (a pa : Nat) : Option (Nat × Bool × State) :=
  match (s.die d).dir p mid a with
  | some e => some (e, false, s)
  | none => s.homeRead pa 8 d 3 .walker
/-- A die keeps a valid entry (R293); agents that stand on no compute die keep none. -/
def State.keepDir (s : State) (d p : Nat) (mid : Bool) (a e : Nat) : State :=
  if d ≥ 24 || ((s.die d).dir p mid a).isSome then s
  else s.modDie d fun k => { k with dirs := { part := p, mid := mid, at_ := a, entry := e } :: k.dirs }

/-- A walk of the page table of a partition for an address, by a walker of die d (R289 to R291); a poisoned entry delivers
MEM_ERROR (R282). -/
def State.walkTable (s : State) (p d va : Nat) (n : Need) : Walk :=
  let top := (s.part p).ptTop.toNat
  if top ≥ 2 ^ 24 then .fault .pteBad s
  else
    match s.dirEntry d p false (va / 2 ^ 35) (top * 2 ^ 16 + 8 * (va / 2 ^ 35 % 2 ^ 13)) with
    | none => .blocked
    | some (e, bad, s) =>
      if bad then .fault .memError s
      else if e % 2 == 0 then .fault .pageFault s
      else if entryBits e 63 48 != 0 || entryBits e 14 1 != 0 || entryBits e 47 40 != 0 then .fault .pteBad s
      else
        let s := s.keepDir d p false (va / 2 ^ 35) e
        match s.dirEntry d p true (va / 2 ^ 23) (entryBits e 47 15 * 2 ^ 15 + 8 * (va / 2 ^ 23 % 2 ^ 12)) with
        | none => .blocked
        | some (e, bad, s) =>
          if bad then .fault .memError s
          else if e % 2 == 0 then .fault .pageFault s
          else if entryBits e 63 48 != 0 || entryBits e 9 3 != 0 || entryBits e 2 1 ≥ 2 || entryBits e 47 40 != 0 then
            .fault .pteBad s
          else
            let s := s.keepDir d p true (va / 2 ^ 23) e
            let table := entryBits e 47 10 * 2 ^ 10
            if entryBits e 2 1 == 0 then s.leafEntry p d va (table + 8 * (va / 2 ^ 16 % 2 ^ 7)) false n
            else s.leafEntry p d va (table + 8 * (va / 2 ^ 21 % 4)) true n

/-- The key of a physical address of this package or of package `node` (State.mem). -/
def keyOf (rem : Bool) (node pa : Nat) : Nat := if rem then (node + 1) * 2 ^ 48 + pa else pa

/-- The physical address of an address in the page of a translation (R290). -/
def Xlat.pa (x : Xlat) (va : Nat) : Nat := keyOf x.rem x.node (x.frame * 2 ^ 16 + (va - x.vpage * 2 ^ 16))
/-- A translation covers an address of its partition. -/
def Xlat.covers (x : Xlat) (p va : Nat) : Bool :=
  x.part == p && x.vpage ≤ va / 2 ^ 16 && va / 2 ^ 16 < x.vpage + x.size

/-- The translation that a TLB holds for an access; a first write walks again to set D (R291, R293). -/
def tlbHit (ys : List Xlat) (p va : Nat) (n : Need) : Option Xlat :=
  ys.find? fun x => x.covers p va && x.grants n && (!(n.w || n.dirty) || x.d)
/-- A TLB of n entries with a translation first (R293). -/
def tlbHold (ys : List Xlat) (x : Xlat) (n : Nat) : List Xlat :=
  (x :: ys.filter fun y => !(y.part == x.part && y.vpage == x.vpage && y.size == x.size)).take n
/-- The TLB of a core, of 64 entries (R293). -/
def Core.hit (k : Core) (p va : Nat) (n : Need) : Option Xlat := tlbHit k.tlb p va n
def Core.hold (k : Core) (x : Xlat) : Core := { k with tlb := tlbHold k.tlb x 64 }

/-- A translation for an agent of die d: from the shared TLB of the die, of 4,096 entries, or by a walk that enters it there
(R293). -/
def State.walk (s : State) (p d va : Nat) (n : Need) : Walk :=
  match tlbHit (s.die d).tlb p va n with
  | some y => .ok y s
  | none =>
    match s.walkTable p d va n with
    | .ok y s => .ok y (if d ≥ 24 then s else s.modDie d fun k => { k with tlb := tlbHold k.tlb y 4096 })
    | r => r

/-- The pages of an invalidation, first and past-the-end (R293). -/
def Part.invRange (q : Part) : Nat × Nat :=
  let page := q.tlbInvPage.toNat
  match q.tlbInvScope.toNat with
  | 0 => (page, page + 1)
  | 1 => (page / 32 * 32, page / 32 * 32 + 32)
  | _ => (0, 2 ^ 32)

/-- An extent translates an access (R295, R297). -/
def Extent.covers (e : Extent) (va : Nat) (n : Need) : Bool :=
  e.vpage ≤ va / 2 ^ 16 && va / 2 ^ 16 < e.vpage + e.len && (!n.r || e.r) && (!n.w || e.w) && !n.x
def Extent.pa (e : Extent) (va : Nat) : Nat :=
  keyOf e.rem e.node (e.ppage * 2 ^ 16 + (va - e.vpage * 2 ^ 16))

/-- An extent without the pages of a range: what lies before it, or what lies after it (R293, log 42). -/
def Extent.without (e : Extent) (lo hi : Nat) : Option Extent :=
  let last := e.vpage + e.len
  if hi ≤ e.vpage || last ≤ lo then some e
  else if e.vpage < lo then some { e with len := lo - e.vpage }
  else if hi < last then some { e with vpage := hi, ppage := e.ppage + (hi - e.vpage), len := last - hi }
  else none

/-- Extents without the pages of several ranges. -/
def cutAll (es : List Extent) (cuts : List (Nat × Nat)) : List Extent :=
  cuts.foldl (fun es (lo, hi) => es.filterMap fun e => e.without lo hi) es

/-- The fault of a translation (R298, R327). -/
def xlatFault (c : Cause) (va : Nat) (a : Access) : FaultInfo := { cause := c, addr := va, access := accessCode a }

/-- A global or constant address of a lane translated (R170, R172, R297): its physical address and class. The lane
waits for a walk on a miss, and the fault of a walk made for it arises here. -/
def State.translate (s : State) (x : Lane) (va : Nat) (a : Access) : Got (Nat × Nat) :=
  let n := Need.of a
  match (s.group x.c x.t x.g).extents.find? fun e => e.covers va n with
  | some e => .ok (e.pa va, e.cls)
  | none =>
    match (s.core x.c).hit (s.team x.c x.t).part va n with
    | some y => .ok (y.pa va, y.cls)
    | none =>
      match (s.thread x).pos.wait with
      | some (.walkFault v c) =>
        if v / 2 ^ 16 == va / 2 ^ 16 then .fault (xlatFault c va a) else .wait (.walk va a)
      | _ => .wait (.walk va a)

/-- An access of a lane that an extent translates is counted (R297, R408, log 6). -/
def State.counted (s : State) (x : Lane) (va : Nat) (a : Access) : State :=
  if (s.group x.c x.t x.g).extents.any fun e => e.covers va (Need.of a) then s.count x.c 0x0d x.t 1 else s

/-- A translation made at once, for an agent of core c that walks for itself: code fetch, engines (R172, R215). -/
def State.translateNow (s : State) (c p va : Nat) (a : Access) (es : List Extent) : Walk :=
  let n := Need.of a
  match es.find? fun e => e.covers va n with
  | some e => .ok { part := p, vpage := e.vpage, size := e.len, frame := e.ppage, rem := e.rem, node := e.node,
                    cls := e.cls, r := e.r, w := e.w, x := false, d := true } s
  | none =>
    match (s.core c).hit p va n with
    | some y => .ok y s
    | none =>
      match s.walk p (coreDie c) va n with
      | .ok y s => .ok y (s.modCore c fun k => k.hold y)
      | r => r

/-- What the fetch of one slot ends in. -/
inductive FetchSlot where
  | ok (w : DWord) (s : State)
  | fault (c : Cause) (s : State)
  | blocked

/-- What the fetch of the slots of an instruction ends in: the slots, a fault at an address, or a line that is not served
yet. -/
inductive FetchWords where
  | ok (ws : List DWord) (s : State)
  | fault (va : Nat) (c : Cause) (s : State)
  | blocked

/-- What a fetch of code ends in. -/
inductive Fetch where
  | ok (i : Instr) (s : State)
  /-- A fault at an address with its underlying cause (R125, R298). -/
  | fault (va : Nat) (c : Cause) (s : State)
  /-- No instruction is formed, and this cause stops the lanes (R42, R61). -/
  | bad (c : Cause) (s : State)
  /-- A line is not served yet. -/
  | blocked

/-- The line of an instruction cache for an address of a partition (R284). -/
def CodeLine.at? (ls : List CodeLine) (p va : Nat) : Option CodeLine := ls.find? fun l => l.part == p && l.line == va / 64
/-- The 8 bytes of a line at an address. -/
def CodeLine.slot (l : CodeLine) (va : Nat) : DWord := (l.data >>> (8 * (va % 64))).setWidth 64
/-- The instruction cache with a line filled, 8 lines in each of 128 sets (R284, log 9). -/
def Core.fillCode (k : Core) (l : CodeLine) : Core :=
  let set (x : CodeLine) : Bool := x.line % 128 == l.line % 128
  { k with code := l :: ((k.code.filter set).take 7 ++ k.code.filter fun x => !set x) }
/-- An instruction cache without the lines of an address range of a partition (R140, R293). -/
def Core.dropLines (k : Core) (p lo hi : Nat) : Core :=
  { k with code := k.code.filter fun x => !(x.part == p && lo < 64 * x.line + 64 && 64 * x.line < hi) }

/-- One slot of code from the instruction cache, which is filled through the die cache (R284, R298). -/
def State.fetchSlot (s : State) (c p va : Nat) : FetchSlot :=
  match s.translateNow c p va .fetch [] with
  | .fault k s => .fault k s
  | .blocked => .blocked
  | .ok x s =>
    match CodeLine.at? (s.core c).code p va with
    | some l => .ok (l.slot va) s
    | none =>
      match s.loadBytes c (x.pa va / 64 * 64) 64 x.cls with
      | none => .blocked
      | some (v, bad, s) =>
        if bad then .fault .memError s
        else
          let l : CodeLine := { part := p, line := va / 64, data := BitVec.ofNat 512 v }
          .ok (l.slot va) (s.modCore c (·.fillCode l))

/-- n more slots fetched after those in hand. -/
def State.fetchMore (s : State) (c p va : Nat) : Nat → List DWord → FetchWords
  | 0, ws => .ok ws s
  | n + 1, ws =>
    match s.fetchSlot c p (va + 8 * ws.length) with
    | .ok w s => s.fetchMore c p va n (ws ++ [w])
    | .fault k s => .fault (va + 8 * ws.length) k s
    | .blocked => .blocked

/-- The slots of the instruction at an address: its first slot says how many follow (R42). -/
def State.fetchWords (s : State) (c p va : Nat) : FetchWords :=
  match s.fetchSlot c p va with
  | .ok w s => s.fetchMore c p va (slotCount w - 1) [w]
  | .fault k s => .fault va k s
  | .blocked => .blocked

/-- The instruction at an address. -/
def State.fetch (s : State) (c p va : Nat) : Fetch :=
  match s.fetchWords c p va with
  | .blocked => .blocked
  | .fault a k s => .fault a k s
  | .ok ws s =>
    match decode ws with
    | .ok i => .ok i s
    | .error (.bad k) => .bad k s
    | .error .short => .bad .illOpc s

/-- The fault of a fetch (R125, R282): FETCH_FAULT with its underlying cause, or MEM_ERROR for a poisoned line. -/
def fetchFault (va : Nat) (c : Cause) : FaultInfo :=
  if c == .memError then { cause := .memError, addr := va } else { cause := .fetchFault, addr := va, subcause := c.code }

end Sys2Proof.Machine
end

