-- ==== Sys2Proof/Machine/Operands.lean ====
section
/-!
DEFINITION. The operand forms of a lane: registers with the bypass (R38, R112), uniform registers (R21),
predicates, channels (R198 to R202, R430), futures (R203 to R207), scratchpad (R36, R170) and the register aperture
(R37); and the writing of a destination (R46).
-/
namespace Sys2Proof.Machine

/-- The operation that a slot performs, and where it stands. -/
structure Env where
  f : OpF
  sh : Shape
  /-- The operation slot of a tree, or the repetition. -/
  slot : Nat
  level : Nat := 0
  tree : Bool := false
  rep : Bool := false
  pc : Addr
  /-- The address of the instruction after the one that holds the operation (R126). -/
  next : Addr
  /-- The pre-emption sample (R431). -/
  preq : Bool := false
  /-- The immediate of the long form in the place of S2, or of the offset (R54). -/
  imm2 : Option DWord := none
  immOff : Option DWord := none
  /-- The state before the slot: what uniform registers read (R21). -/
  pre : State

/-- Where a lane stands at the operation (R118, R132). -/
def Env.at_ (e : Env) : At :=
  { pc := e.pc, tree := e.tree, slot := if e.tree then e.slot else 0, level := e.level, rep := if e.rep then e.slot else 0 }

/-- What an operation does in one lane: it is performed, waits at the slot, or faults; a fault keeps the state
that the operation leaves, and says whether the lane would resume after it. -/
inductive Out where
  | done (s : State)
  | wait (w : Wait)
  | fault (i : FaultInfo) (after : Bool) (s : State)

/-- The outcome of a lane from what it got; a fault leaves s as it is. -/
def Got.out (g : Got State) (s : State) : Out :=
  match g with
  | .ok s' => .done s'
  | .wait w => .wait w
  | .fault i => .fault i false s

/-- The meaning of an operation in one lane. -/
abbrev LaneSem := Env → Lane → State → Out

/-! Scratchpad. -/

/-- n bytes of a team's scratchpad (R280). -/
def scratchGet (m : Memory) (k : Team) (o : Nat) : Nat → Nat
  | 0 => 0
  | n + 1 => (m.read (k.scratchByte o)).toNat + 256 * scratchGet m k (o + 1) n
/-- The scratchpad offset of a word of the banked store, where it stands in a scratchpad bank of the team (R280). -/
def Team.scratchOff (k : Team) (w : Nat) : Option Nat := (k.scrBanks.idxOf? (w / 16384)).map fun i => 65536 * i + 4 * (w % 16384)
/-- A word of the banked store has a byte in a range of the team's scratchpad. -/
def Team.meets (k : Team) (o n w : Nat) : Bool := (k.scratchOff w).any fun a => a < o + n && o < a + 4
/-- A range of the team's scratchpad holds the whole word: a write of it corrects the word (R281). -/
def Team.covers (k : Team) (o n w : Nat) : Bool := (k.scratchOff w).any fun a => o ≤ a && a + 4 ≤ o + n

/-- n bytes of a team's scratchpad written. -/
def scratchPut (m : Memory) (k : Team) (o : Nat) : Nat → Nat → Memory
  | 0, _ => m
  | n + 1, v => scratchPut (m.write (k.scratchByte o) (BitVec.ofNat 8 v)) k (o + 1) n (v / 256)
def State.scratchRead (s : State) (c t o n : Nat) : Nat := scratchGet (s.core c).store (s.team c t) o n
def State.scratchWrite (s : State) (c t o n v : Nat) : State :=
  let k := s.team c t
  s.modCore c fun q => { q with store := scratchPut q.store k o n v,
                                badWords := q.badWords.filter fun w => !k.covers o n w }
/-- A word of the range has an uncorrectable error (R281). -/
def State.scratchBad (s : State) (c t o n : Nat) : Bool := (s.core c).badWords.any ((s.team c t).meets o n)

/-! Registers. -/

/-- The byte of a window word in the banked store (R279). -/
def windowByte (nG i : Nat) : Nat := if i < 256 then 4 * i else 4 * nG + 4 * (i - 256)
/-- The owner's window word has an uncorrectable error (R281). -/
def State.windowBad (s : State) (x : Lane) (i : Nat) : Bool :=
  (s.core x.c).badWords.contains (((s.thread x).rbase + windowByte (s.team x.c x.t).nG i) / 4)

/-- The A registers of an operation: how many (R219). -/
def aCount (block : BitVec 512) : Nat := if (block.extractLsb' 256 3).toNat == 3 then 64 else 32
/-- A register that an `mma` reads as A, and whose completion the lane has not observed: it reads as an undefined value (R27,
R220). -/
def State.hotA (s : State) (x : Lane) (i : Nat) : Bool :=
  ((s.core x.c).mq.any fun o => o.kind == .mma && o.team == x.t && o.group == x.g && !o.block.getLsbD 259 && !o.fromLatch
    && o.areg ≤ i && i < o.areg + aCount o.block)
  || (s.group x.c x.t x.g).past.any fun p => p.areg ≤ i && i < p.areg + p.count && p.lanes.contains x.l
/-- A register of A written before the completion: the tile values are undefined (R220). -/
def State.touchA (s : State) (x : Lane) (i : Nat) : State :=
  if !s.hotA x i then s
  else s.modCore x.c fun k => { k with mq := k.mq.map fun o =>
    if o.kind == .mma && o.team == x.t && o.group == x.g && !o.block.getLsbD 259 && !o.fromLatch
      && o.areg ≤ i && i < o.areg + aCount o.block then { o with aHot := true } else o }

/-- A window word as a lane reads it: it waits for an outstanding reply; an undeliverable one is MEM_ERROR and an
uncorrectable error STORE_UE (R38, R179, R281). -/
def State.readWord (s : State) (x : Lane) (i : Nat) : Got Word :=
  match (s.thread x).owed i with
  | some o => if o.poisoned then .fault { cause := .memError, addr := o.addr, access := 1 } else .wait .reply
  | none =>
    if s.windowBad x i then .fault { cause := .storeUe, access := 1 }
    else if s.hotA x i then .ok ((Config.freeValue (s.fresh + i)).setWidth 32)
    else .ok ((s.thread x).word i)

/-- The result that the bypass network holds for a register: the latest of the last three path positions whose
destination it is (R112). -/
def bypass (hist : List (List (Nat × Option Word))) (i : Nat) : Option (Option Word) :=
  (hist.take 3).findSome? fun l => (l.find? fun e => e.1 == i).map (·.2)

/-- A uniform register of a group (R21). -/
def Group.k (g : Group) (i : Nat) : Word := g.kregs.get i 0

/-- A 32-bit register operand by its field value (R17). -/
def readReg (e : Env) (x : Lane) (s : State) (i : Nat) : Got Word :=
  if i ≥ 224 then .ok (((s.thread x).pos.kpre.getD (e.pre.group x.c x.t x.g).kregs).get (i - 224) 0)
  else
    match bypass ((s.thread x).pos.hist.drop 1) i with
    | some (some v) => .ok v
    | _ => s.readWord x i

/-- A pair (R18). -/
def readPair (e : Env) (x : Lane) (s : State) (i : Nat) : Got DWord :=
  (readReg e x s i).bind fun lo => (readReg e x s (i + 1)).bind fun hi => .ok (hi ++ lo)

/-- Affine register n as stored, once every word of it has arrived (R38, R97). -/
def readAff (x : Lane) (s : State) (n : Nat) : Got (BitVec 1024) :=
  (affWords n).foldr (fun i acc => acc.bind fun v => (s.readWord x i).bind fun w =>
    .ok (v <<< 32 ||| w.setWidth 1024)) (.ok 0)

/-! Futures. -/

/-- The 8 bytes of a future slot (R203). -/
def State.future (s : State) (x : Lane) (off : Nat) : Nat := s.scratchRead x.c x.t off 8
def futFull (v : Nat) : Bool := v.testBit 63
/-- A slot as the core writes it: bits [61:32] are 0 (R203). -/
def futPack (full overrun : Bool) (v : Nat) : Nat :=
  (if full then 2 ^ 63 else 0) + (if overrun then 2 ^ 62 else 0) + v % 2 ^ 32
/-- A value put into an empty slot: VALUE and FULL, OVERRUN kept (R204). -/
def futPut (v : Nat) (w : Word) : Nat := futPack true (v.testBit 62) w.toNat
/-- FULL cleared (R205). -/
def futTake (v : Nat) : Nat := futPack false (v.testBit 62) v
/-- A write by an engine or a handler: dropped with OVERRUN on a full slot (R206). -/
def futPost (v : Nat) (w : Word) : Nat := if futFull v then futPack true true v else futPut v w

/-- The lane may be served now: no other lane began to wait for the same service of the slot earlier (R204, R205). -/
def State.futTurn (s : State) (x : Lane) (off : Nat) (full : Bool) : Bool :=
  let ws := (s.team x.c x.t).futWait.filter fun (o, f, g, l) => o == off && f == full
    && (s.thread { x with g := g, l := l }).pos.wait == some (.future off full false)
  match ws with
  | [] => true
  | (_, _, g, l) :: _ => g == x.g && l == x.l

/-- The FULL bit of a future slot is read from a word in error (R281). -/
def slotBad (x : Lane) (s : State) (off : Nat) : Got Unit :=
  .check (s.scratchBad x.c x.t off 8) { cause := .storeUe, addr := off, access := 1 }

/-- A lane writes a value to a future slot, or waits (R204). -/
def futurePut (x : Lane) (s : State) (off : Nat) (w : Word) : Got State :=
  (slotBad x s off).bind fun _ =>
  let v := s.future x off
  if futFull v || !s.futTurn x off false then .wait (.future off false false)
  else .ok (s.scratchWrite x.c x.t off 8 (futPut v w))

/-- The value that a lane takes from a future slot, or peeks (R205). -/
def futureGet (x : Lane) (s : State) (off : Nat) (peek : Bool) : Got Word :=
  (slotBad x s off).bind fun _ =>
  let v := s.future x off
  if !futFull v || (!peek && !s.futTurn x off true) then .wait (.future off true peek)
  else .ok (BitVec.ofNat 32 v)

/-! Channels. -/

def State.chan (s : State) (x : Lane) (q : Nat) : Chan := (s.group x.c x.t x.g).chans.get q {}
/-- A queue of a team. -/
def Team.queue (k : Team) (key : Nat) : Queue := k.queues.get key {}
/-- n words removed from the head (R198). -/
def Queue.drop (q : Queue) (n : Nat) : Queue := { head := (q.head + n) % 256, words := q.words.drop n }
/-- A word appended. -/
def Queue.push (q : Queue) (w : Word) : Queue := { q with words := q.words ++ [w] }
def State.modQueue (s : State) (c t key : Nat) (f : Queue → Queue) : State :=
  s.modTeam c t fun k => { k with queues := k.queues.set key (f (k.queue key)) }
/-- The word of the banked store that holds entry i of a queue (R198). -/
def Team.entryWord (k : Team) (key i : Nat) : Nat := 256 * key + ((k.queue key).head + i) % 256
/-- A word appended to a queue of a team: its place in the bank holds the word, without an error (R198, R281). -/
def State.pushQueue (s : State) (c t key : Nat) (w : Word) : State :=
  let at_ := (s.team c t).entryWord key ((s.team c t).queue key).words.length
  (s.modQueue c t key (·.push w)).modCore c fun k => { k with badWords := k.badWords.filter fun b => b != at_ }

/-- The entry that a peek or a pop of a channel reads (R199, R200, R203). -/
def chanHead (x : Lane) (s : State) (q : Nat) (pop : Bool) : Got Word :=
  let ch := s.chan x q
  match ch.kind.toNat with
  | 0 => .fault { cause := .chanUnbound }
  | 1 =>
    let k := (s.team x.c x.t).queue ch.tgt.toNat
    match k.words with
    | [] => .wait (.chanEmpty q)
    | w :: _ => if (s.core x.c).badWords.contains ((s.team x.c x.t).entryWord ch.tgt.toNat 0)
        then .fault { cause := .storeUe, access := 1 } else .ok w
  | 2 => futureGet x s (8 * ch.tgt.toNat) (!pop)
  | 3 => match ((s.core x.c).ports.get ch.tgt.toNat {}).words with
    | [] => .wait (.chanEmpty q)
    | w :: _ => .ok w
  | _ => .fault { cause := .chanDir }

/-- The effect of a pop, after the reads of its operation (R143). -/
def popChan (x : Lane) (s : State) (q : Nat) : State :=
  let ch := s.chan x q
  match ch.kind.toNat with
  | 1 => s.modQueue x.c x.t ch.tgt.toNat (·.drop 1)
  | 2 => (s.hears x (8 * ch.tgt.toNat)).scratchWrite x.c x.t (8 * ch.tgt.toNat) 8 (futTake (s.future x (8 * ch.tgt.toNat)))
  | 3 => s.modCore x.c fun k =>
      let p := k.ports.get ch.tgt.toNat {}
      { k with ports := k.ports.set ch.tgt.toNat { p with words := p.words.drop 1 } }
  | _ => s

/-- A group of a cluster's team that a peer binding names (R202): its team slot on the core. -/
def State.peerTeam (s : State) (x : Lane) (core : Nat) : Option Nat := s.clusterTeam core (s.team x.c x.t)

/-- A send can be performed: room in the queue, an empty future slot, a peer that is there and room in S (R430, R200,
R202). -/
def sendReady (x : Lane) (s : State) (q : Nat) : Got Unit :=
  let ch := s.chan x q
  match ch.kind.toNat with
  | 0 => .fault { cause := .chanUnbound }
  | 1 => .hold ((Nat.min 255 ch.depth.toNat) ≤ ((s.team x.c x.t).queue ch.tgt.toNat).words.length) (.chanFull q)
  | 2 => (slotBad x s (8 * ch.tgt.toNat)).bind fun _ =>
      .hold (futFull (s.future x (8 * ch.tgt.toNat)) || !s.futTurn x (8 * ch.tgt.toNat) false) (.future (8 * ch.tgt.toNat) false false)
  | 3 => .fault { cause := .chanDir }
  | _ =>
    let core := ch.tgt.toNat / 1024
    match s.peerTeam x core with
    | none => .fault { cause := .chanBind }
    | some t =>
      let y : Lane := { c := core, t := t, g := ch.tgt.toNat / 32 % 32, l := 0 }
      if ((s.team core t).groups.find? y.g).isNone || (s.chan y (ch.tgt.toNat % 32)).kind != 1 then .fault { cause := .chanBind }
      else .hold ((s.thread x).stores.length ≥ 63) .count

/-- A send, once it is ready: appended, put, or outstanding towards the peer (R200, R202, R204). -/
def sendChan (x : Lane) (s : State) (q : Nat) (w : Word) : State :=
  let ch := s.chan x q
  match ch.kind.toNat with
  | 1 => s.pushQueue x.c x.t ch.tgt.toNat w
  | 2 => s.scratchWrite x.c x.t (8 * ch.tgt.toNat) 8 (futPut (s.future x (8 * ch.tgt.toNat)) w)
  | 4 =>
    let core := ch.tgt.toNat / 1024
    match s.peerTeam x core with
    | none => s
    | some t =>
      let far := s.chan { c := core, t := t, g := ch.tgt.toNat / 32 % 32, l := 0 } (ch.tgt.toNat % 32)
      let o : Store := { send := some (core, far.tgt.toNat, Nat.min 255 far.depth.toNat, w), seq := s.nextMsg }
      { s with nextMsg := s.nextMsg + 1 }.modThread x fun th => { th with stores := th.stores ++ [o] }
  | _ => s

/-! Sources and destination. -/

/-- The source values of an operation and the channels it pops. -/
structure Src where
  a : DWord := 0
  b : DWord := 0
  c : DWord := 0
  pops : List Nat := []
  deriving DecidableEq, Repr

/-- One source field (R45, R143): its value, and the channel it pops. -/
def readSrc (e : Env) (x : Lane) (s : State) (k : SrcKind) (fld : BitVec 10) : Got (DWord × List Nat) :=
  let i := srcIdx fld
  match k with
  | .word _ =>
    if srcCls fld then (chanHead x s i (srcPop fld)).bind fun w => .ok (w.setWidth 64, if srcPop fld then [i] else [])
    else (readReg e x s i).bind fun w => .ok (w.setWidth 64, [])
  | .pair => (readPair e x s i).bind fun v => .ok (v, [])
  | .pred => .ok (if (s.thread x).pred i then 1 else 0, [])
  | _ => .ok (0, [])

/-- The sources of an operation, all read before any pop (R143); a long immediate stands for S2 (R54). -/
def readSrcs (e : Env) (x : Lane) (s : State) : Got Src :=
  (readSrc e x s e.sh.s1 e.f.s1).bind fun (a, p1) =>
  (match e.imm2 with
    | some v => Got.ok (v, [])
    | none => readSrc e x s e.sh.s2 e.f.s2).bind fun (b, p2) =>
  (readSrc e x s e.sh.s3 e.f.s3).bind fun (c, p3) => .ok { a := a, b := b, c := c, pops := p1 ++ p2 ++ p3 }

/-- The pops of an operation. -/
def State.popAll (s : State) (x : Lane) (qs : List Nat) : State := qs.foldl (popChan x) s

/-- The send of an operation with DC = 1 can be performed (R430). -/
def dstReady (e : Env) (x : Lane) (s : State) : Got Unit :=
  match e.sh.d with
  | .word .. => if e.f.dc then sendReady x s e.f.d.toNat else .ok ()
  | _ => .ok ()

/-- The operation of a lane takes the next position of its path (R112). -/
def State.enter (s : State) (x : Lane) : State := s.modPos x fun p => { p with hist := [] :: p.hist.take 3 }
/-- The destinations of the operation in hand, for the bypass (R112). -/
def State.note (s : State) (x : Lane) (ds : List (Nat × Option Word)) : State :=
  s.modPos x fun p => { p with hist := match p.hist with
    | [] => [ds]
    | h :: t => (h ++ ds) :: t }

/-- A general register written, unless the result is transient (R23, R41, R112). -/
def State.putReg (s : State) (x : Lane) (tr : Bool) (i : Nat) (w : Word) : State :=
  let s := s.note x [(i, some w)]
  if tr then s else (s.touchA x i).modThread x (·.setWord i w)

/-- An affine register written. -/
def State.putAff (s : State) (x : Lane) (n : Nat) (v : BitVec 1024) : State := s.modThread x (·.setAff n v)

/-- The result of an operation written to its destination; a uniform destination is committed once every lane of
the slot is done (R21, R46). -/
def writeDst (e : Env) (x : Lane) (v : DWord) (s : State) : State :=
  let d := e.f.d.toNat
  let lo : Word := v.setWidth 32
  let hi : Word := (v >>> 32).setWidth 32
  match e.sh.d with
  | .word .. =>
    if e.f.dc then sendChan x s d lo
    else if d ≥ 224 then s.modPos x fun p => { p with uni := some v }
    else s.putReg x e.f.tr d lo
  | .pair .. =>
    if d ≥ 224 then s.modPos x fun p => { p with uni := some v }
    else (s.putReg x e.f.tr d lo).putReg x e.f.tr (d + 1) hi
  | .pred => s.modThread x (·.setPred d (v != 0))
  | _ => s

/-- A lane that performs an operation whose result is calculated from its sources (R117, R33). -/
def calcLane (g : Env → Lane → State → Src → Calc) : LaneSem := fun e x s =>
  match (dstReady e x s).bind fun _ => readSrcs e x s with
  | .wait w => .wait w
  | .fault i => .fault i false s
  | .ok v =>
    let r := g e x s v
    let s := s.setFlags x r.fl
    match s.arith x r.fl with
    | some i => .fault i false s
    | none => .done (writeDst e x r.val (s.popAll x v.pops))

/-- The register windows' aperture words of an access: none where an offset maps nothing (R37). -/
def apertureWords (nG nA off n : Nat) : Option (List Nat) :=
  if off % n != 0 then none
  else
    let ws := (List.range (n / 4)).map fun i => off / 4 + i
    if ws.all fun w => w < nG || (256 ≤ w && w < 256 + 32 * nA) then some ws else none

/-- The signed offset of R48 in units, or the long immediate of R54. -/
def Env.offset (e : Env) (unit : Nat) : Int :=
  match e.immOff with
  | some v => v.toInt
  | none => e.f.s3.toInt * unit

/-- An address of a pair, modulo 2^64 (R170). -/
def Env.addr64 (e : Env) (base : DWord) (unit : Nat) : Nat := (base + BitVec.ofInt 64 (e.offset unit)).toNat
/-- An address of a single register, modulo 2^32 (R170). -/
def Env.addr32 (e : Env) (base : DWord) (unit : Nat) : Nat :=
  (base.setWidth 32 + BitVec.ofInt 32 (e.offset unit)).toNat

/-- A global address in range and aligned (R170, R171). -/
def checkGlobal (va align : Nat) (a : Access) : Got Unit :=
  if va ≥ 2 ^ 48 then .fault { cause := .addrNoncanon, addr := va, access := accessCode a }
  else if va % align != 0 then .fault { cause := .misalign, addr := va, access := accessCode a }
  else .ok ()

/-- A scratchpad offset in range and aligned (R170, R171). -/
def checkScratch (k : Team) (o n align : Nat) (a : Access) : Got Unit :=
  if o ≥ k.scratchSize || (o % align == 0 && o + n > k.scratchSize) then
    .fault { cause := .scratchRange, addr := o, access := accessCode a }
  else if o % align != 0 then .fault { cause := .misalign, addr := o, access := accessCode a }
  else .ok ()

end Sys2Proof.Machine
end

