-- ==== Sys2Proof/Machine/Life.lean ====
section
/-!
DEFINITION. Waves, sub-waves and the Quadrille (R113 to R115, R316 to R318), and the end of threads, groups and
teams (R12, R111).
-/
namespace Sys2Proof.Machine

/-! Waves. -/

/-- The lanes of a wave as threads of its core. -/
def Wave.at_ (w : Wave) (c : Nat) : List Lane := w.lanes.map fun (g, l) => { c := c, t := w.team, g := g, l := l }
/-- A wave is named by its team and its first thread: no thread is in two waves. -/
def Wave.is (w v : Wave) : Bool := w.team == v.team && w.lanes.head? == v.lanes.head?
/-- Every resident wave of a core. -/
def Core.waves (k : Core) : List Wave := k.active ++ k.pending
/-- A wave replaced by others in its place. -/
def Core.swap (k : Core) (w : Wave) (ws : List Wave) : Core :=
  let f (v : Wave) : List Wave := if v.is w then ws else [v]
  { k with active := k.active.flatMap f, pending := k.pending.flatMap f }

/-- A wave of a team whose save is forced stands at a tree boundary: it begins no instruction (R335). -/
def Core.keeps (k : Core) (w : Wave) : Bool := w.ins.isNone && (k.teams.get w.team Team.none).forced
/-- Such waves leave the active set. -/
def Core.stepBack (k : Core) : Core :=
  if k.active.any k.keeps then
    { k with active := k.active.filter fun w => !k.keeps w, pending := k.pending ++ k.active.filter k.keeps }
  else k

/-- Free places of the active set go to the first pending waves that are not stalled (R316, R317). -/
def Core.refillN (k : Core) : Nat → Core
  | 0 => k
  | n + 1 =>
    if k.active.length ≥ 8 then k
    else
      match k.pending.find? fun w => !w.stalled && !k.keeps w with
      | none => k
      | some w => Core.refillN { k with active := k.active ++ [w], pending := k.pending.filter fun v => !v.is w } n
def Core.refill (k : Core) : Core := k.stepBack.refillN 8

/-- The form in which a wave goes on at an address: native while it stays in its translation (R392). -/
def formOn (f : Option (Nat × Nat)) (pc : Addr) : Option (Nat × Nat) := f.filter fun r => r.1 ≤ pc.toNat && pc.toNat < r.2
/-- The form that a wave takes at a safe point (R392). -/
def Part.formAt (q : Part) (pc : Addr) : Option (Nat × Nat) :=
  if q.annEn then q.annTrans.find? fun r => r.1 ≤ pc.toNat && pc.toNat < r.2 else none

/-- Threads that join the tail of the pending set as one wave (R113); a free place of the active set goes to it (R316). -/
def State.addWave (s : State) (c t : Nat) (lanes : List (Nat × Nat)) (form : Option (Nat × Nat) := none) : State :=
  if lanes.isEmpty then s
  else s.modCore c fun k =>
    ({ k with pending := k.pending ++ [{ team := t, lanes := lanes, issued := s.now, since := s.now, native := form }] } : Core).refill

/-- The same at a safe point of the wave (R392). -/
def State.addSafe (s : State) (c t : Nat) (lanes : List (Nat × Nat)) : State :=
  match lanes with
  | [] => s
  | (g, l) :: _ =>
    s.addWave c t lanes ((s.part (s.team c t).part).formAt (s.thread { c := c, t := t, g := g, l := l }).pc)

/-- Threads by (group, lane), ascending. -/
def threadBefore (a b : Nat × Nat) : Bool := a.1 < b.1 || (a.1 == b.1 && a.2 < b.2)
/-- One thread inserted in order. -/
def insertThread (a : Nat × Nat) : List (Nat × Nat) → List (Nat × Nat)
  | [] => [a]
  | b :: r => if threadBefore a b then a :: b :: r else b :: insertThread a r
def sortThreads (xs : List (Nat × Nat)) : List (Nat × Nat) := xs.foldl (fun acc a => insertThread a acc) []

/-- The order of R108 and R199: lane id, ties to the lower group. -/
def laneBefore (a b : Lane) : Bool := a.l < b.l || (a.l == b.l && a.g < b.g)
def insertLane (a : Lane) : List Lane → List Lane
  | [] => [a]
  | b :: r => if laneBefore a b then a :: b :: r else b :: insertLane a r
def sortLanes (xs : List Lane) : List Lane := xs.foldl (fun acc a => insertLane a acc) []

/-- The legacy pair of a group in a paired team (R397). -/
def Team.pair (k : Team) (g : Nat) : Nat := if k.desc.narrow == 2 then g / 2 else if k.desc.narrow == 1 then g else 0

/-- A bin drained: its threads form one wave at the tail of the pending set (R318). -/
def State.drainBin (s : State) (c : Nat) (b : Bin) : State :=
  let s := s.modCore c fun k =>
    { k with bins := k.bins.filter fun x => !(x.team == b.team && x.pair == b.pair && x.pc == b.pc) }
  if b.safe then s.addSafe c b.team (sortThreads b.lanes) else s.addWave c b.team (sortThreads b.lanes)

/-- The bin whose oldest thread was filed earliest. -/
def oldestBin : List Bin → Option Bin
  | [] => none
  | b :: r =>
    match oldestBin r with
    | none => some b
    | some x => if x.filed < b.filed then some x else some b

/-- One thread filed under an address (R318), at a safe point of the code or not (R392). -/
def State.fileOne (s : State) (c t : Nat) (pc : Addr) (x : Nat × Nat) (safe : Bool := true) : State :=
  let pair := (s.team c t).pair x.1
  let same (b : Bin) : Bool := b.team == t && b.pair == pair && b.pc == pc
  match (s.core c).bins.find? same with
  | some b =>
    let b := { b with lanes := b.lanes ++ [x], safe := b.safe && safe }
    if b.lanes.length ≥ 32 then s.drainBin c b
    else s.modCore c fun k => { k with bins := k.bins.map fun y => if same y then b else y }
  | none =>
    let s := if (s.core c).bins.length ≥ 64 then
        match oldestBin (s.core c).bins with
        | some b => (s.drainBin c b).count c 0x08 b.team 1
        | none => s
      else s
    s.modCore c fun k =>
      { k with bins := k.bins ++ [{ team := t, pair := pair, pc := pc, lanes := [x], filed := s.now, safe := safe }] }

/-- Threads filed in ascending order, each under its program counter (R114, R115). -/
def State.file (s : State) (c t : Nat) (xs : List (Nat × Nat)) : State :=
  (sortThreads xs).foldl (fun s x =>
    (s.fileOne c t (s.thread { c := c, t := t, g := x.1, l := x.2 }).pc x).count c 0x06 t 1) s

/-! The end of threads, groups and teams. -/

/-- A thread exits (R111): what it issued goes on, and its register contents cannot be read. -/
def State.exitThread (s : State) (x : Lane) : State :=
  s.modThread x fun th => { th with run := .exited, win := [], loads := [], timerDue := false, pos := {} }

/-- Banks returned to the L1 ways, or retired (R277, R281). -/
def Core.freeBanks (k : Core) (bs : List Nat) : Core :=
  { k with banks := bs.foldl (fun t b =>
      let r := t.get b {}
      t.set b { r with role := if r.retp then 0 else 2, team := 0, retp := false }) k.banks }

/-- Every team of the cluster of a team, as core and team slot (R303). -/
def State.clusterTeams (s : State) (c t : Nat) : List (Nat × Nat) :=
  let k := s.team c t
  (List.range (k.cw * k.ch)).filterMap fun i =>
    let d := clusterCore c k (i % k.cw) (i / k.cw)
    (s.clusterTeam d k).map fun u => (d, u)

/-- A team whose groups have all ended (R12). -/
def Team.over (k : Team) : Bool := k.groups.isEmpty

/-- Scratchpad banks of a cluster are released once every team of it has ended (R173). -/
def State.freeCluster (s : State) (c t : Nat) : State :=
  let ts := s.clusterTeams c t
  if ts.all fun (d, u) => (s.team d u).over then
    ts.foldl (fun s (d, u) =>
      let bs := (s.team d u).scrBanks
      (s.modCore d (·.freeBanks bs)).modTeam d u fun k => { k with scrBanks := [] }) s
  else s

/-- Operations leave the matrix queue: those of the Pour queue that wait for operations issued before them count the ones that
stay (R211). -/
def Core.keepMatrix (k : Core) (keep : EngOp → Bool) : Core :=
  { k with mq := k.mq.filter keep, pq := k.pq.map fun o => { o with behind := ((k.mq.take o.behind).filter keep).length } }

/-- Operations leave the Pour queue, likewise (R27). -/
def Core.keepPour (k : Core) (keep : EngOp → Bool) : Core :=
  { k with pq := k.pq.filter keep, mq := k.mq.map fun o => { o with behind := ((k.pq.take o.behind).filter keep).length } }

/-- Of an ended team stay its copy nodes, and the operations whose counter has fallen and that have their arrival still to make
(R215). -/
def EngOp.outlives (o : EngOp) : Bool := o.kind == .copy || (o.done && o.signalled)
/-- The reply ports that groups of a team slot hold lose what an earlier occupant left: the binding, the entries, the room
reserved, and the replies still owed to it (R40, log 54). -/
def Core.clearPorts (k : Core) (t now : Nat) (mine : Nat → Bool) : Core :=
  { k with ports := k.ports.map fun (n, p) =>
      (n, if p.owner.any fun (u, g) => u == t && mine g then { since := Nat.max now p.since } else p) }

/-- A team ends (R12): its tiles and its register and FIFO banks are released, and its grid counts it. -/
def State.endTeam (s : State) (c t : Nat) : State :=
  let k := s.team c t
  let time := s.clocks c t
  let s := s.modCore c fun q =>
    let stays (o : EngOp) : Bool := o.team != t || (o.outlives && (o.kind == .copy || !k.ended))
    let q := (((q.freeBanks (k.regBanks ++ k.fifoBanks)).keepMatrix stays).keepPour stays).clearPorts t s.nextMsg fun _ => true
    ({ q with
    bins := q.bins.filter fun b => b.team != t,
    active := q.active.filter fun w => w.team != t, pending := q.pending.filter fun w => w.team != t } : Core).refill
  let s := s.modTeam c t fun k => { k with regBanks := [], fifoBanks := [], tiles := 0, queues := [] }
  let count (g : Grid) : Grid := { g with teamsLeft := g.teamsLeft - 1, clocks := Nat.max g.clocks time }
  (s.modPart k.part fun p => { p with grids := match p.grids.find? k.grid with
    | none => p.grids
    | some g => p.grids.set k.grid (count g) }).freeCluster c t

/-- Every thread of a group has exited. -/
def Group.done (g : Group) : Bool := g.threads.all fun (_, th) => th.run == .exited

/-- Nothing that a group issued keeps it: C and T at 0, every peer send appended, and for a task every store
acknowledged (R12, R202, R266). -/
def Group.quiet (g : Group) : Bool :=
  g.cCount == 0 && g.tCount == 0 &&
    g.threads.all fun (_, th) => if g.task.isSome then th.stores.isEmpty else th.stores.all (·.send.isNone)

/-- A group ends when its threads have exited and nothing keeps it: its state is released; a task is finished, and the
last group ends the team (R12, R221, R235, R266). -/
def State.settle (s : State) (c t g : Nat) : State :=
  match (s.team c t).groups.find? g with
  | none => s
  | some q =>
    if !(q.done && q.quiet) then s
    else
      let k := s.team c t
      let s := s.modTeam c t fun k => { k with groups := k.groups.del g, futWait := k.futWait.filter fun w => w.2.2.1 != g }
      let s := s.modCore c fun k => { k with
        latch := match k.latch with
          | some l => if l.team == t && l.group == g then none else some l
          | none => none }
      let s := s.modCore c (·.clearPorts t s.nextMsg (· == g))
      let s := match q.task with
        | none => s
        | some i =>
          let mark (q : Nat × Node) : Nat × Node := if q.1 == i.node then (q.1, { q.2 with finished := true }) else q
          s.modPart k.part fun p => { p with nodes := p.nodes.map mark }
      if (s.team c t).over then s.endTeam c t else s

/-- A thread exits and its group may end. -/
def State.leave (s : State) (x : Lane) : State := (s.exitThread x).settle x.c x.t x.g

/-- The program counter that the first of some threads holds. -/
def State.headPc (s : State) (c t : Nat) (ls : List (Nat × Nat)) : Addr :=
  match ls with
  | (g, l) :: _ => (s.thread { c := c, t := t, g := g, l := l }).pc
  | [] => 0

/-- An exception of a lane outside the issue of its wave (R165, R192): where it stood, and what it met. -/
abbrev OutFault := Lane × At × FaultInfo

/-- The lanes of a wave that took an exception outside its issue leave it, those that are Ready as one sub-wave (R115). -/
def State.leaveWave (s : State) (c : Nat) (w : Wave) (xs : List OutFault) : State :=
  let gone (y : Nat × Nat) : Bool := xs.any fun q => q.1 == { c := c, t := w.team, g := y.1, l := y.2 }
  let out := w.lanes.filter gone
  if out.isEmpty then s
  else
    let stay := w.lanes.filter fun y => !gone y
    let ready := out.filter fun (g, l) => (s.thread { c := c, t := w.team, g := g, l := l }).run == .ready
    let s := out.foldl (fun s (g, l) => s.modPos { c := c, t := w.team, g := g, l := l } fun p => { p with stopped := false }) s
    let s := s.modCore c fun k => k.swap w (if stay.isEmpty then [] else [{ w with lanes := stay, stalled := false }])
    (s.addWave c w.team ready (formOn w.native (s.headPc c w.team ready))).modCore c (·.refill)

/-- A user trap that a lane meets outside the issue of its wave is taken with those that the wave meets (R115): the wave looks at its
slot again. -/
def State.noteOut (s : State) (c : Nat) (q : OutFault) : State :=
  let f (w : Wave) : Wave :=
    if w.team == q.1.t && w.lanes.contains (q.1.g, q.1.l) then
      { w with stalled := false, notes := w.notes ++ [{ lane := q.1, at_ := q.2.1, info := q.2.2 }] }
    else w
  let s := s.modPos q.1 fun p => { p with stopped := true, wait := none }
  s.modCore c fun k => ({ k with active := k.active.map f, pending := k.pending.map f } : Core).refill

/-- Exceptions met by waiting lanes of a core, in order: a lane that parks leaves its wave (R115). -/
def State.exceptAll (s : State) (c : Nat) (xs : List OutFault) : State :=
  let user := xs.filter fun q => q.2.2.cause.isUser
  let xs := xs.filter fun q => !q.2.2.cause.isUser
  let ws := (s.core c).waves
  let s := xs.foldl (fun s (x, p, i) => s.takeException x p i) s
  let s := ws.foldl (fun s w => s.leaveWave c w xs) s
  user.foldl (fun s q => s.noteOut c q) s

/-- Every stalled wave that holds the lane looks at its slot again. -/
def State.wake (s : State) (x : Lane) : State :=
  let f (w : Wave) : Wave :=
    if w.team == x.t && w.lanes.contains (x.g, x.l) then { w with stalled := false } else w
  s.modCore x.c fun k => ({ k with active := k.active.map f, pending := k.pending.map f } : Core).refill

end Sys2Proof.Machine
end

