-- ==== Sys2Proof/Machine/Issue.lean ====
section
/-!
DEFINITION. The issue of one instruction by one wave: the choice of the wave (R316, R320), the decode conditions
(R62), lane paths (R107, R108), slots and waiting (R109), uniform destinations (R21), exceptions in their order
(R117, R118), and what the threads do when the instruction is complete (R110 to R115, R137, R142).
-/
namespace Sys2Proof.Machine

/-- The outcome of an instruction or a step. -/
abbrev Result := Host.Outcome State Fault Refusal

/-- The faults of a slot, in the order in which its lanes met them; whether the lane would resume after it. -/
abbrev Faults := List (Lane × FaultInfo × Bool)

/-- The meaning of an operation for the lanes that perform its slot. -/
abbrev SlotSem := Env → List Lane → State → State × Faults

/-- One operation of an instruction body. -/
structure SlotRun where
  f : OpF
  sh : Shape
  arc : Nat := 7
  imm2 : Option DWord := none
  immOff : Option DWord := none
  /-- A repetition whose index leaves its class: ILL_REG (R53). -/
  bad : Bool := false
  /-- A switch point also where it does not wait: `waitbar` or `fswait` (R320). -/
  point : Bool := false
  sem : SlotSem

/-- The operations of an instruction in slot order, with the header of a tree. -/
structure Body where
  header : Option TreeHeader := none
  rep : Bool := false
  slots : List SlotRun

/-! Lanes of a slot. -/

/-- A lane has performed its operation. -/
def markDone (e : Env) (x : Lane) (s : State) : State :=
  let hot := (s.core x.c).mq.any (·.kind == .mma)
  let s := if hot then { s with fresh := s.fresh + 512 } else s
  let s := s.modThread x fun th => { th with
    run := .ready, pos := { th.pos with slot := e.slot + 1, wait := none, arrived := false, kpre := none } }
  let s := s.count x.c 0x03 x.t 1
  if (s.team x.c x.t).futWait.isEmpty then s
  else s.modTeam x.c x.t fun k => { k with futWait := k.futWait.filter fun w => !(w.2.2.1 == x.g && w.2.2.2 == x.l) }

/-- A lane waits at its slot (R109), and keeps the uniform registers as they stood before the slot (R21); a lane that waits
for a future slot takes its turn (R204, R205). DESIGN CHOICE (log 55): a waiting `.peek` takes none, so it keeps no later consumer
back. -/
def markWait (e : Env) (x : Lane) (w : Wait) (s : State) : State :=
  let before := (e.pre.group x.c x.t x.g).kregs
  let s := s.modThread x fun th => { th with
    run := .waiting, pos := { th.pos with slot := e.slot, wait := some w, kpre := th.pos.kpre.or (some before) } }
  match w with
  | .future off full false =>
    s.modTeam x.c x.t fun k =>
      { k with futWait := if k.futWait.contains (off, full, x.g, x.l) then k.futWait
                          else k.futWait ++ [(off, full, x.g, x.l)] }
  | _ => s

/-- The channels that an operation names. -/
def opChans (sh : Shape) (f : OpF) : List Nat :=
  let src (k : SrcKind) (v : BitVec 10) : List Nat := match k with
    | .word true => if srcCls v then [srcIdx v] else []
    | _ => []
  (match sh.d with
    | .word .. | .lmsg => if f.dc then [f.d.toNat] else []
    | _ => []) ++ src sh.s1 f.s1 ++ src sh.s2 f.s2 ++ src sh.s3 f.s3

/-- The channels of an operation as a lane's group binds them. -/
def Env.bindings (e : Env) (x : Lane) (s : State) : List (BitVec 3 × Word) :=
  (opChans e.sh e.f).map fun q => ((s.chan x q).kind, (s.chan x q).tgt)

/-- Where the access of a lane begins, in the space of its operation: from the base in S1 (R170, R48). -/
def Env.place (e : Env) (x : Lane) (s : State) : Got Nat :=
  let unit := match e.sh.s3 with
    | .offset => typeBytes e.f.typ
    | _ => 0
  (readSrc e x (s.enter x) e.sh.s1 e.f.s1).bind fun (v, _) =>
  match e.sh.s1 with
  | .pair => (s.translate x (e.addr64 v unit) .write).bind fun (pa, _) => .ok pa
  | _ => .ok (e.addr32 v unit)
/-- Two lanes meet at a location: the accesses of one slot are of one size, at most 8 bytes beside a channel (R178, R204); a lane
whose access is still to be translated may meet any. -/
def Env.meet (e : Env) (x y : Lane) (s : State) : Bool :=
  match e.sh.s1, e.place y s, e.place x s with
  | .word true, _, _ | .zero, _, _ => false
  | _, .ok a, .ok b => a < b + 8 && b < a + 8
  | _, .wait _, _ | _, _, .wait _ => true
  | _, _, _ => false
/-- A lane y that waits at the slot keeps a lane x after it in the order of R108 from performing: until what y awaits has
come its own effects are still to stand before those of x (R178, R199, R200, R204). Where that comes from another thread it keeps
back the lanes that use a queue which it uses or access what it accesses, and so does a lane that is itself kept back (log 51). -/
def holdsBack (e : Env) (s : State) (x y : Lane) : Bool :=
  match (s.thread y).pos.wait with
  | none => false
  | some .reply | some .count | some (.walk _ _) | some (.walkFault _ _) | some (.line _) => true
  | some _ => ((e.bindings y s).any fun b => (e.bindings x s).contains b) || e.meet x y s

/-- A lane that is kept back waits for its turn: of what it is to do it begins the walk that it needs, and a walk that has ended
for it in a fault stands until then (R172, R291). -/
def keepBack (e : Env) (x : Lane) (o : Out) (s : State) : State :=
  match o, (s.thread x).pos.wait with
  | _, some (.walkFault _ _) => s
  | .wait (.walk va a), _ => markWait e x (.walk va a) s
  | _, _ => markWait e x .turn s

/-- One lane of a slot in its turn; a lane that faults keeps back no other. -/
def laneStep (sem : LaneSem) (e : Env) (lanes : List Lane) (acc : State × Faults) (x : Lane) : State × Faults :=
  let (s, fs) := acc
  let before := (lanes.takeWhile (· != x)).filter fun y => fs.all fun q => q.1 != y
  let out := sem e x (s.enter x)
  if before.any (holdsBack e s x) then (keepBack e x out s, fs)
  else
    match out with
    | .done s' => (markDone e x s', fs)
    | .wait w => (markWait e x w s, fs)
    | .fault i a s' => (s', fs ++ [(x, i, a)])

/-- An operation performed lane by lane, in the order of R108. -/
def lanewise (sem : LaneSem) : SlotSem := fun e lanes s => lanes.foldl (laneStep sem e lanes) (s, [])

/-- The lanes of a slot by group, in the order of their first lanes. -/
def byGroup : List Lane → List (List Lane)
  | [] => []
  | x :: xs =>
    let rest := byGroup xs
    match rest.find? fun g => g.any fun y => y.g == x.g with
    | none => [x] :: rest
    | some _ => (rest.filter fun g => g.any fun y => y.g == x.g).map (x :: ·) ++ rest.filter fun g => g.all fun y => y.g != x.g

/-- An operation performed once per group instance. -/
def groupwise (sem : SlotSem) : SlotSem := fun e lanes s =>
  (byGroup lanes).foldl (fun (s, fs) g =>
    let (s, fs') := sem e g s
    (s, fs ++ fs')) (s, [])

/-- Every lane of a list raises one cause. -/
def faultAll (lanes : List Lane) (i : FaultInfo) : Faults := lanes.map fun x => (x, i, false)
/-- Every lane of a list performs an effect of its operation. -/
def performAll (e : Env) (lanes : List Lane) (s : State) (f : Lane → State → State) : State :=
  lanes.foldl (fun s x => markDone e x (f x (s.enter x))) s
/-- Every lane of a list has performed its operation. -/
def doneAll (e : Env) (lanes : List Lane) (s : State) : State := performAll e lanes s fun _ s => s
/-- Every lane of a list waits at its slot. -/
def waitAll (e : Env) (lanes : List Lane) (w : Wait) (s : State) : State :=
  lanes.foldl (fun s x => markWait e x w s) s

/-! Uniform destinations. -/

/-- A uniform register or pair of a group written (R21). -/
def State.setK (s : State) (x : Lane) (pair : Bool) (d : Nat) (v : DWord) : State :=
  s.modGroup x.c x.t x.g fun g =>
    let k := g.kregs.set (d - 224) (v.setWidth 32)
    { g with kregs := if pair then k.set (d - 223) ((v >>> 32).setWidth 32) else k }

/-- The destination of an operation is a pair. -/
def Env.pairDst (e : Env) : Bool :=
  match e.sh.d with
  | .pair .. => true
  | _ => false
/-- The lanes of one group that have brought values to a uniform destination, none of them waiting: they agree, with the
values that a save had past the slot (R120), also where those had gone to lanes that have stopped since, and the group is written once no lane of the slot waits, or they raise NONUNIFORM
(R21). DESIGN CHOICE (log 16): what an operation that ends in NONUNIFORM popped stays popped. -/
def commitGroup (e : Env) (held : Bool) (gone g : List Lane) (s : State) : State × Faults :=
  let left := (gone.filter fun y => g.any fun x => x.g == y.g).flatMap fun x => (s.thread x).pos.others
  let vs := (g.map fun x => (s.thread x).pos.uni.getD 0) ++ (g.flatMap fun x => (s.thread x).pos.others) ++ left
  let s' := g.foldl (fun s x => s.modPos x fun p => { p with uni := none, others := [] }) s
  match g, vs with
  | x :: _, v :: rest =>
    if !rest.all (· == v) then (s', faultAll g { cause := .nonuniform })
    else if held then (if left.isEmpty then s else s.modPos x fun p => { p with others := p.others ++ left }, [])
    else (s'.setK x e.pairDst e.f.d.toNat v, [])
  | _, _ => (s, [])

/-- The values that a save had past the slot, of a group no lane of which is left to perform it: the group is written where they
agree (R21, R120). -/
def commitGone (e : Env) (g : List Lane) (s : State) : State :=
  match g, g.flatMap fun x => (s.thread x).pos.others with
  | x :: _, v :: rest => if rest.all (· == v) then s.setK x e.pairDst e.f.d.toNat v else s
  | _, _ => s

/-- The values of a uniform destination, group by group (R21); gone are the lanes that have stopped at the slot. -/
def commitUniform (e : Env) (gone all : List Lane) (s : State) : State × Faults :=
  let waiting := all.filter fun x => (s.thread x).pos.wait.isSome
  let mine := all.filter fun x => (s.thread x).pos.uni.isSome
  let left := gone.filter fun x => !(s.thread x).pos.others.isEmpty && (waiting ++ mine).all fun y => y.g != x.g
  let s := (byGroup left).foldl (fun s g => commitGone e g s) s
  (byGroup mine).foldl (fun (s, fs) g =>
    if g.any fun x => waiting.any fun y => y.g == x.g then (s, fs)
    else
      let (s, us) := commitGroup e (!waiting.isEmpty) gone g s
      (s, fs ++ us)) (s, [])

/-! Exceptions of an instruction. -/

/-- The order of R118, then of repetitions, then of groups. -/
def At.key (p : At) (x : Lane) : Nat := (((p.level * 8 + p.slot) * 64 + p.rep) * 32 + x.l) * 64 + x.g
def Note.key (n : Note) : Nat := n.at_.key n.lane
def insertNote (a : Note) : List Note → List Note
  | [] => [a]
  | b :: r => if a.key < b.key then a :: b :: r else b :: insertNote a r
def sortNotes (ns : List Note) : List Note := ns.foldl (fun acc a => insertNote a acc) []

/-- The lane performs nothing more of the instruction (R117). -/
def State.halt (s : State) (x : Lane) : State := s.modPos x fun p => { p with stopped := true, wait := none }
def State.haltAll (s : State) (xs : List Lane) : State := xs.foldl (fun s x => s.halt x) s

/-- One exception taken; after `brk` the lane enters its region first (R137). -/
def State.takeNote (s : State) (n : Note) : State :=
  match n.entry with
  | some a => (s.modThread n.lane fun th => { th with rentry := a, rcount := th.rcount + 1 }).park n.lane n.at_ n.info
  | none => s.takeException n.lane n.at_ n.info n.after

/-- The exceptions that the lanes of a wave met, taken in the order of R118. -/
def State.takeNotes (s : State) (ns : List Note) : State := (sortNotes ns).foldl (fun s n => s.takeNote n) s

/-! Paths. -/

/-- A test of a header in a lane (R55). -/
def testOf (t : BitVec 6) (th : Thread) : Bool := th.pred (t.extractLsb' 0 5).toNat != t.getLsbD 5

/-- The tests of a path evaluated as far as a level needs them (R107). -/
def evalTests (h : TreeHeader) (level : Nat) (th : Thread) : Pos :=
  let p := th.pos
  let p := if level ≥ 1 && p.root.isNone && h.sh != 0 then { p with root := some (testOf h.t0 th) } else p
  if level ≥ 2 && p.child.isNone then
    match p.root with
    | some true => if h.sh.toNat ≥ 2 then { p with child := some (testOf h.t1 th) } else p
    | some false => if h.sh.toNat == 3 then { p with child := some (testOf h.t2 th) } else p
    | none => p
  else p

/-- An arc stands on the path of a lane (R58). -/
def onArc (p : Pos) (arc : Nat) : Bool :=
  match arc with
  | 7 => true
  | 0 => p.root == some true
  | 1 => p.root == some false
  | 2 => p.root == some true && p.child == some true
  | 3 => p.root == some true && p.child == some false
  | 4 => p.root == some false && p.child == some true
  | 5 => p.root == some false && p.child == some false
  | _ => false

/-- The leaf field at the end of a path (R56). -/
def leafAt (h : TreeHeader) (p : Pos) : BitVec 9 :=
  let n := match h.sh.toNat with
    | 0 => 0
    | 1 => if p.root == some true then 0 else 1
    | 2 => if p.root == some false then 2 else if p.child == some true then 0 else 1
    | _ => if p.root == some true then (if p.child == some true then 0 else 1)
        else if p.child == some true then 2 else 3
  h.leaf n

/-- A lane of the wave that still performs the instruction. -/
def State.live (s : State) (x : Lane) : Bool := !(s.thread x).pos.stopped

/-- What the slots of an instruction share. -/
structure Ctx where
  pc : Addr
  next : Addr
  preq : Bool

/-- The faults of a slot as exceptions of their lanes. -/
def Env.notes (e : Env) (fs : Faults) : List Note := fs.map fun (x, i, after) => { lane := x, at_ := e.at_, info := i, after := after }
/-- A lane of the wave waits at a slot. -/
def State.waits (s : State) (lanes : List Lane) : Bool := lanes.any fun x => s.live x && (s.thread x).pos.wait.isSome

/-- The operation slots from number n on (R108): each is performed by the live lanes whose path holds its arc and that
have not performed it; with the exceptions that the lanes meet. The wave stops at a slot at which a lane waits (R109). -/
def runSlots (c : Ctx) (h : Option TreeHeader) (rep : Bool) (lanes : List Lane) :
    List SlotRun → Nat → State → State × List Note
  | [], _, s => (s, [])
  | r :: rs, n, s =>
    let level := arcLevel r.arc
    let e : Env := { f := r.f, sh := r.sh, slot := n, level := if rep then 0 else level, tree := h.isSome, rep := rep,
                     pc := c.pc, next := c.next, preq := c.preq, imm2 := r.imm2, immOff := r.immOff, pre := s }
    let here := lanes.filter fun x => s.live x && (s.thread x).pos.slot ≤ n
    if r.bad then (s.haltAll here, e.notes (faultAll here { cause := .illReg }))
    else
      let s := match h with
        | none => s
        | some h => here.foldl (fun s x => s.modThread x fun th => { th with pos := evalTests h level th }) s
      let on := here.filter fun x => onArc (s.thread x).pos r.arc
      let s := here.foldl (fun s x => if on.contains x then s else s.modPos x fun p => { p with slot := n + 1 }) s
      if on.isEmpty then runSlots c h rep lanes rs (n + 1) s
      else
        let (s, fs) := r.sem { e with pre := s } on s
        let s := s.haltAll (fs.map (·.1))
        let (s, us) := commitUniform e (fs.map (·.1)) (lanes.filter s.live) s
        let s := s.haltAll (us.map (·.1))
        let ns := e.notes (fs ++ us)
        if s.waits lanes then (s, ns)
        else
          let (s, ms) := runSlots c h rep lanes rs (n + 1) s
          (s, ns ++ ms)

/-! Completion. -/

/-- The successor of a lane that has performed its path: none for an exit (R110). DESIGN CHOICE (log 55): a lane whose frame was edited
past a `far` that it never performed goes to the next instruction, or to the target that it kept of another (R134). -/
def State.successor (s : State) (h : Option TreeHeader) (c : Ctx) (x : Lane) : Option Addr :=
  let th := s.thread x
  match h with
  | none => some (th.pos.far.getD c.next)
  | some h =>
    let l := leafAt h (evalTests h 2 th)
    match leafKind l with
    | 0 => some c.next
    | 1 => some (c.next + BitVec.ofInt 48 (8 * leafOff l))
    | 2 => some (th.pos.far.getD c.next)
    | _ => none

/-- The marks of `brk` on the lanes that have performed their path: each parks at its successor, unless its leaf is an exit
(R137). -/
def State.brkNotes (s : State) (h : Option TreeHeader) (c : Ctx) (lanes : List Lane) : List Note :=
  (lanes.filter s.live).filterMap fun x =>
    match (s.thread x).pos.brk, s.successor h c x with
    | some (n, slot, level), some a =>
      some { lane := x, at_ := { pc := c.pc, tree := h.isSome, slot := slot, level := level },
             info := { cause := .brk, detail := n.setWidth 32 }, entry := some a }
    | _, _ => none

/-- One lane that has performed its path: it exits, stops at a `yield`, or stands at its successor (R110, R142). DESIGN CHOICE (log
51): a lane that performed both `brk` and `yield` parks. DESIGN CHOICE (log 55): a lane whose `yield` saw the sample 1 is stopped at
it (R142), also where it takes its leaf at a save inside the instruction, for which R120 says Ready. -/
def State.finishLane (s : State) (h : Option TreeHeader) (c : Ctx) (x : Lane) : State :=
  let th := s.thread x
  match s.successor h c x with
  | none => s.leave x
  | some a =>
    if th.pos.yield && c.preq then s.modThread x fun th => { th with pc := a, run := .yielded, pos := {} }
    else s.modThread x fun th => { th with pc := a, pos := {} }

/-- Threads with equal program counters together, in the order of their first threads (R113). -/
def State.partition (s : State) (c t : Nat) : List (Nat × Nat) → List (List (Nat × Nat))
  | [] => []
  | x :: xs =>
    let pc (y : Nat × Nat) : Addr := (s.thread { c := c, t := t, g := y.1, l := y.2 }).pc
    let rest := State.partition s c t xs
    match rest.find? fun g => g.any fun y => pc y == pc x with
    | none => [x] :: rest
    | some _ => (rest.filter fun g => g.any fun y => pc y == pc x).map (x :: ·)
        ++ rest.filter fun g => g.all fun y => pc y != pc x

/-- The threads stopped in the instruction leave the wave, but for those with an exception still to take: those that entered the
handler together as one sub-wave, one that returned from a trap as its own (R115, R134). -/
def State.dropStopped (s : State) (c : Nat) (w : Wave) : State × Wave :=
  let out := w.lanes.filter fun (g, l) => !s.live { c := c, t := w.team, g := g, l := l }
    && w.notes.all fun n => n.lane != { c := c, t := w.team, g := g, l := l }
  let ready := out.filter fun (g, l) => (s.thread { c := c, t := w.team, g := g, l := l }).run == .ready
  let hand := ready.filter fun (g, l) => (s.thread { c := c, t := w.team, g := g, l := l }).hflag
  let ret := ready.filter fun (g, l) => !(s.thread { c := c, t := w.team, g := g, l := l }).hflag
  let s := out.foldl (fun s (g, l) => s.modPos { c := c, t := w.team, g := g, l := l } fun p => { p with stopped := false }) s
  let v := { w with lanes := w.lanes.filter fun x => !out.contains x }
  let s := s.modCore c fun k => k.swap w [v]
  let s := s.addWave c w.team hand (formOn w.native (s.headPc c w.team hand))
  (ret.foldl (fun s x => s.addWave c w.team [x] (formOn w.native (s.headPc c w.team [x]))) s, v)

/-- The program counter of a wave: that of its first thread. -/
def State.wavePc (s : State) (c : Nat) (w : Wave) : Addr := s.headPc c w.team w.lanes

/-- Waits that stall a core in deterministic mode with its wave: no switch point (R320). -/
def Wait.blocks : Wait → Bool
  | .reply | .count | .walk _ _ | .walkFault _ _ | .line _ | .icinv | .dispatcher => true
  | _ => false

/-- The wave stands at a slot: a lane of it waits there. A lane that performed something since it began to stall begins its
stall anew (R317). -/
def State.stallWave (s : State) (c : Nat) (w : Wave) (i : Instr) (preq moved : Bool) : State :=
  let (s, v) := s.dropStopped c w
  let hold := v.lanes.any fun (g, l) => (s.thread { c := c, t := w.team, g := g, l := l }).pos.wait.any Wait.blocks
  let u := { v with ins := some i, stalled := true, preq := preq, since := if moved then s.now else w.since,
                    issued := s.now, cur := hold }
  (s.modCore c fun k => k.swap v (if v.lanes.isEmpty then [] else [u])).modCore c (·.refill)

/-- The instruction is complete for every live lane of the wave, and it took its exceptions; point says that a lane performed a
`waitbar` or `fswait` (R320). -/
def State.completeWave (s : State) (c : Nat) (w : Wave) (h : Option TreeHeader) (x : Ctx) (point : Bool) : State :=
  let yielded := w.lanes.any fun (g, l) => (s.thread { c := c, t := w.team, g := g, l := l }).pos.yield
  let lanes := (w.at_ c).filter s.live
  let goOn := lanes.filter fun y => (s.successor h x y).isSome
  let s := (sortLanes lanes).foldl (fun s y => s.finishLane h x y) s
  let on := (goOn.filter fun y => (s.thread y).run == .ready).map fun y => (y.g, y.l)
  let (s, v) := s.dropStopped c w
  let filed := match h with
    | some h => h.rf
    | none => false
  if filed then ((s.modCore c fun k => k.swap v []).file c w.team on).modCore c (·.refill)
  else
    match s.partition c w.team (sortThreads on) with
    | [] => (s.modCore c fun k => k.swap v []).modCore c (·.refill)
    | p :: ps =>
      let det := (s.team c w.team).det
      let at_ (q : List (Nat × Nat)) : Addr := s.headPc c w.team q
      let u : Wave := { v with lanes := p, ins := none, stalled := false, preq := false, issued := s.now,
                               native := formOn v.native (at_ p),
                               cur := det && ps.isEmpty && !yielded && !point && v.lanes.length == w.lanes.length }
      let s := s.modCore c fun k => k.swap v [u]
      let s := ps.foldl (fun s q => s.addWave c w.team q (formOn v.native (at_ q))) s
      let s := if ps.isEmpty then s else s.count c 0x05 w.team 1
      let s := if yielded && !x.preq then
          s.modCore c fun k => { k.swap u [] with pending := (k.swap u []).pending ++ [u] }
        else s
      s.modCore c (·.refill)

/-! Issue. -/

/-- The core runs its waves in deterministic mode (R320). -/
def Core.det (k : Core) : Bool := k.teams.any fun (_, t) => t.det && !t.over

/-- The first wave of a list by an order. -/
def bestWave (before : Wave → Wave → Bool) : List Wave → Option Wave
  | [] => none
  | w :: ws =>
    match bestWave before ws with
    | none => some w
    | some v => if before v w then some v else some w

/-- The least key of a wave (R320). -/
def waveBefore (v w : Wave) : Bool :=
  v.team < w.team || (v.team == w.team && match v.lanes.head?, w.lanes.head? with
    | some a, some b => threadBefore a b
    | _, _ => false)

/-- The wave that issues next on a core: of the active waves that are not stalled the one of highest priority hint,
among equals the one that issued least recently (R316); in deterministic mode the wave in hand until a switch
point, then the Ready wave of least index (R320). A forced save holds the waves of its team at tree boundaries (R335). -/
def State.issuer (s : State) (c : Nat) : Option Wave :=
  let k := s.core c
  if k.det then
    match k.waves.find? fun w => w.cur && !k.keeps w with
    | some w => if w.stalled then none else some w
    | none => bestWave waveBefore (k.waves.filter fun w => !w.stalled && !k.keeps w)
  else
    let prio (w : Wave) : Nat := (s.team c w.team).desc.prio
    bestWave (fun v w => prio w < prio v || (prio w == prio v && v.issued < w.issued)) (k.active.filter fun w => !w.stalled && !k.keeps w)

/-- The condition of one lane: a tile that its team was not granted, then a channel that is not bound (R62): its cause,
the slot and its level. -/
def State.laneFault (s : State) (x : Lane) (b : Body) : Option (Cause × Nat × Nat) :=
  let tiles (r : SlotRun) : List Nat :=
    (match r.sh.d with
      | .tile => [r.f.d.toNat]
      | _ => []) ++ (match r.sh.s3 with
      | .tile => [srcIdx r.f.s3]
      | _ => [])
  let granted := (s.team x.c x.t).tiles
  let n := b.slots.zipIdx
  match n.find? fun (r, _) => (tiles r).any fun t => !granted.getLsbD t with
  | some (r, i) => some (.illReg, i, arcLevel r.arc)
  | none =>
    match n.find? fun (r, _) => (opChans r.sh r.f).any fun q => (s.chan x q).kind == 0 with
    | some (r, i) => some (.chanUnbound, i, arcLevel r.arc)
    | none => none

/-- The condition of the whole instruction that stops one lane, with its slot and level: the first in the order of R62, and
among conditions of one cause that of the lowest slot; the header of a tree counts before slot 0. -/
def State.decodeFault (s : State) (x : Lane) (i : Instr) (b : Body) : Option (Cause × Nat × Nat) :=
  let k := s.team x.c x.t
  match i.codeFault k.nG k.nA with
  | none => s.laneFault x b
  | some cf =>
    let own := some (cf.cause, if cf.at_ == 0 then 7 else cf.at_ - 1, cf.level)
    match s.laneFault x b with
    | some (.illReg, n, l) => if cf.cause == .illReg && n + 1 < cf.at_ then some (.illReg, n, l) else own
    | _ => own

/-- The decode conditions as exceptions of the lanes that they stop (R62, R118). -/
def State.decodeNotes (s : State) (lanes : List Lane) (pc : Addr) (i : Instr) (b : Body) : List Note :=
  lanes.filterMap fun y => (s.decodeFault y i b).map fun (cause, n, level) =>
    { lane := y, at_ := { pc := pc, tree := b.header.isSome, slot := if b.header.isSome then n else 0, level := level },
      info := { cause := cause } }

/-- TIMER taken by the threads that owe it, as the wave begins an instruction (R34, R133). -/
def State.takeTimers (s : State) (lanes : List Lane) (pc : Addr) : State :=
  lanes.foldl (fun s x =>
    let th := s.thread x
    if th.timerDue && th.pos.slot == 0 && th.pos.root.isNone && th.pos.wait.isNone then
      (s.modThread x fun th => { th with timerDue := false }).takeException x { pc := pc } { cause := .timer }
    else s) s

/-- Where a lane would meet an exception at slot n. -/
def Body.keyAt (b : Body) (n : Nat) (x : Lane) : Nat :=
  let level := match b.slots[n]? with
    | some r => if b.rep then 0 else arcLevel r.arc
    | none => 0
  At.key { pc := 0, slot := if b.header.isSome then n else 0, level := level, rep := if b.rep then n else 0 } x
/-- An arrived lane at a collective or a barrier, which waits for other threads, handlers and parked ones included (R116, R165). -/
def Wait.gathers : Wait → Bool
  | .collective | .barrier _ => true
  | _ => false
/-- The least key, in the order of R118, of an exception that a lane of a stalled wave can still meet: at the slot where it waits, or
at a slot after it. -/
def State.nextKey (s : State) (b : Body) (lanes : List Lane) : Nat :=
  let at_ := lanes.filter fun x => s.live x && (s.thread x).pos.wait.any fun w => !w.gathers
  let slot := ((lanes.filter fun x => s.live x && (s.thread x).pos.wait.isSome).map fun x => (s.thread x).pos.slot).foldl Nat.max 0
  let later := ((List.range b.slots.length).filter (slot < ·)).map fun n => b.keyAt n { c := 0, t := 0, g := 0, l := 0 }
  ((at_.map fun x => b.keyAt (s.thread x).pos.slot x) ++ later).foldl Nat.min (2 ^ 32)
/-- An exception is taken while the wave stalls: a fault that parks once none can come before it in the order of R118; a user trap
where a lane waits for other threads to arrive, the one in the handler perhaps among them, and else with every other entrant of
the instruction at its end (R115, R116, log 51). -/
def State.ripe (s : State) (b : Body) (lanes : List Lane) (n : Note) : Bool :=
  if n.info.cause.isUser && n.entry.isNone then lanes.any fun x => s.live x && (s.thread x).pos.wait.any Wait.gathers
  else n.key < s.nextKey b lanes
/-- A lane of the wave performed an operation that is a switch point (R320). -/
def State.passed (s : State) (b : Body) (lanes : List Lane) : Bool :=
  b.slots.any fun r => r.point && lanes.any fun x => s.live x && onArc (s.thread x).pos r.arc

/-- A wave issues an instruction, or goes on with it at the slot where it stopped. DESIGN CHOICE (log 55): the decode conditions (R62)
are looked at again, on the whole instruction and the bindings as they then stand, where a lane comes into it from a frame or a save
area. -/
def State.issueWave (s : State) (c : Nat) (w : Wave) (i : Instr) (b : Body) : State :=
  let pc := s.wavePc c w
  let fresh := w.ins.isNone
  let preq := if fresh then (s.team c w.team).preqAt.isSome else w.preq
  let x : Ctx := { pc := pc, next := pc + BitVec.ofNat 48 i.bytes, preq := preq }
  let lanes := sortLanes (w.at_ c)
  let s := if fresh then
      ((s.count c 0x02 w.team 1).count c 0x04 w.team lanes.length).takeTimers lanes pc
    else s
  let here := lanes.filter s.live
  let ds := if fresh then s.decodeNotes here pc i b else []
  let before := here.map fun y => (s.thread y).pos.slot
  let (s, ns) := runSlots x b.header b.rep here b.slots 0 (s.haltAll (ds.map (·.lane)))
  let notes := (if fresh then [] else w.notes) ++ ds ++ ns
  if s.waits here then
    let moved := fresh || before != here.map fun y => (s.thread y).pos.slot
    let w' := { w with notes := notes.filter fun n => !s.ripe b here n }
    (s.takeNotes (notes.filter (s.ripe b here))).stallWave c w' i preq moved
  else (s.takeNotes (notes ++ s.brkNotes b.header x here)).completeWave c { w with notes := [] } b.header x (s.passed b here)

/-- The issue slot of the core in turn performs an instruction: the next wave of the core begins it, or goes on with it
(R316). Without such a wave there is no lane to perform it. -/
def issue (i : Instr) (b : Nat → Body) (s : State) : Result :=
  match s.issuer s.turn with
  | none => .refused .noWave
  | some w =>
    if w.ins.isSome && w.ins != some i then .refused .noWave
    else .next (s.issueWave s.turn w i (b (s.team s.turn w.team).nG))

/-- A switch point also where it does not wait (R320). -/
def switches (i : Instr) : Bool :=
  match i with
  | .waitbar _ | .fswait _ => true
  | _ => false

/-- A straight instruction of one operation. -/
def issueOp (i : Instr) (f : OpF) (sem : SlotSem) (s : State) : Result :=
  issue i (fun _ => { slots := [{ f := f, sh := i.shape, point := switches i, sem := sem }] }) s

end Sys2Proof.Machine
end

