-- ==== Sys2Proof/Machine/Float.lean ====
section
/-!
DEFINITION. Floating-point instructions (R153 to R158), conversions (R159, R160) and format registers (R161, R162).
-/
namespace Sys2Proof.Machine

/-- R154: addition. -/
def semFadd : SlotSem := lanewise (calcLane fun e _ _ v => calcFadd e.f v.a v.b)
def execFadd (f : OpF) (s : State) : Result := issueOp (.fadd f) f semFadd s

/-- R64: subtraction, `fadd` with NEG. -/
def semFsub : SlotSem := lanewise (calcLane fun e _ _ v => calcFadd e.f v.a v.b)
def execFsub (f : OpF) (s : State) : Result := issueOp (.fsub f) f semFsub s

/-- R154: multiplication. -/
def semFmul : SlotSem := lanewise (calcLane fun e _ _ v => calcFmul e.f v.a v.b)
def execFmul (f : OpF) (s : State) : Result := issueOp (.fmul f) f semFmul s

/-- R154: fused multiply-add. -/
def semFfma : SlotSem := lanewise (calcLane fun e _ _ v => calcFfma e.f v.a v.b v.c)
def execFfma (f : OpF) (s : State) : Result := issueOp (.ffma f) f semFfma s

/-- R155: minimum. -/
def semFmin : SlotSem := lanewise (calcLane fun e _ _ v => calcFmin e.f v.a v.b)
def execFmin (f : OpF) (s : State) : Result := issueOp (.fmin f) f semFmin s

/-- R155: maximum. -/
def semFmax : SlotSem := lanewise (calcLane fun e _ _ v => calcFmax e.f v.a v.b)
def execFmax (f : OpF) (s : State) : Result := issueOp (.fmax f) f semFmax s

/-- R154: division. -/
def semFdiv : SlotSem := lanewise (calcLane fun e _ _ v => calcFdiv e.f v.a v.b)
def execFdiv (f : OpF) (s : State) : Result := issueOp (.fdiv f) f semFdiv s

/-- R154: square root. -/
def semFsqrt : SlotSem := lanewise (calcLane fun e _ _ v => calcFsqrt e.f v.a)
def execFsqrt (f : OpF) (s : State) : Result := issueOp (.fsqrt f) f semFsqrt s

/-- R156: approximate reciprocal. -/
def semFrcpAp : SlotSem := lanewise (calcLane fun e _ _ v => calcApprox .rcp e.f v.a)
def execFrcpAp (f : OpF) (s : State) : Result := issueOp (.frcpAp f) f semFrcpAp s

/-- R156: approximate reciprocal square root. -/
def semFrsqrtAp : SlotSem := lanewise (calcLane fun e _ _ v => calcApprox .rsqrt e.f v.a)
def execFrsqrtAp (f : OpF) (s : State) : Result := issueOp (.frsqrtAp f) f semFrsqrtAp s

/-- R154: addition on FP64. -/
def semFaddF64 : SlotSem := lanewise (calcLane fun e _ _ v => calcFadd e.f v.a v.b)
def execFaddF64 (f : OpF) (s : State) : Result := issueOp (.faddF64 f) f semFaddF64 s

/-- R64: subtraction, `fadd` with NEG on FP64. -/
def semFsubF64 : SlotSem := lanewise (calcLane fun e _ _ v => calcFadd e.f v.a v.b)
def execFsubF64 (f : OpF) (s : State) : Result := issueOp (.fsubF64 f) f semFsubF64 s

/-- R154: multiplication on FP64. -/
def semFmulF64 : SlotSem := lanewise (calcLane fun e _ _ v => calcFmul e.f v.a v.b)
def execFmulF64 (f : OpF) (s : State) : Result := issueOp (.fmulF64 f) f semFmulF64 s

/-- R154: fused multiply-add on FP64. -/
def semFfmaF64 : SlotSem := lanewise (calcLane fun e _ _ v => calcFfma e.f v.a v.b v.c)
def execFfmaF64 (f : OpF) (s : State) : Result := issueOp (.ffmaF64 f) f semFfmaF64 s

/-- R155: minimum on FP64. -/
def semFminF64 : SlotSem := lanewise (calcLane fun e _ _ v => calcFmin e.f v.a v.b)
def execFminF64 (f : OpF) (s : State) : Result := issueOp (.fminF64 f) f semFminF64 s

/-- R155: maximum on FP64. -/
def semFmaxF64 : SlotSem := lanewise (calcLane fun e _ _ v => calcFmax e.f v.a v.b)
def execFmaxF64 (f : OpF) (s : State) : Result := issueOp (.fmaxF64 f) f semFmaxF64 s

/-- R154: division on FP64. -/
def semFdivF64 : SlotSem := lanewise (calcLane fun e _ _ v => calcFdiv e.f v.a v.b)
def execFdivF64 (f : OpF) (s : State) : Result := issueOp (.fdivF64 f) f semFdivF64 s

/-- R154: square root on FP64. -/
def semFsqrtF64 : SlotSem := lanewise (calcLane fun e _ _ v => calcFsqrt e.f v.a)
def execFsqrtF64 (f : OpF) (s : State) : Result := issueOp (.fsqrtF64 f) f semFsqrtF64 s

/-- R156: approximate reciprocal on FP64. -/
def semFrcpApF64 : SlotSem := lanewise (calcLane fun e _ _ v => calcApprox .rcp e.f v.a)
def execFrcpApF64 (f : OpF) (s : State) : Result := issueOp (.frcpApF64 f) f semFrcpApF64 s

/-- R156: approximate reciprocal square root on FP64. -/
def semFrsqrtApF64 : SlotSem := lanewise (calcLane fun e _ _ v => calcApprox .rsqrt e.f v.a)
def execFrsqrtApF64 (f : OpF) (s : State) : Result := issueOp (.frsqrtApF64 f) f semFrsqrtApF64 s

/-- R156: an approximate function. -/
def semFsinAp : SlotSem := lanewise (calcLane fun e _ _ v => calcApprox .sin e.f v.a)
def execFsinAp (f : OpF) (s : State) : Result := issueOp (.fsinAp f) f semFsinAp s

/-- R156: an approximate function. -/
def semFcosAp : SlotSem := lanewise (calcLane fun e _ _ v => calcApprox .cos e.f v.a)
def execFcosAp (f : OpF) (s : State) : Result := issueOp (.fcosAp f) f semFcosAp s

/-- R156: an approximate function. -/
def semFexp2Ap : SlotSem := lanewise (calcLane fun e _ _ v => calcApprox .exp2 e.f v.a)
def execFexp2Ap (f : OpF) (s : State) : Result := issueOp (.fexp2Ap f) f semFexp2Ap s

/-- R156: an approximate function. -/
def semFlog2Ap : SlotSem := lanewise (calcLane fun e _ _ v => calcApprox .log2 e.f v.a)
def execFlog2Ap (f : OpF) (s : State) : Result := issueOp (.flog2Ap f) f semFlog2Ap s

/-- R158: two 16-bit halves. -/
def semHadd2 : SlotSem := lanewise (calcLane fun e _ _ v => calcHadd2 e.f v.a v.b)
def execHadd2 (f : OpF) (s : State) : Result := issueOp (.hadd2 f) f semHadd2 s

/-- R158: two 16-bit halves. -/
def semHmul2 : SlotSem := lanewise (calcLane fun e _ _ v => calcHmul2 e.f v.a v.b)
def execHmul2 (f : OpF) (s : State) : Result := issueOp (.hmul2 f) f semHmul2 s

/-- R158: two 16-bit halves. -/
def semHfma2 : SlotSem := lanewise (calcLane fun e _ _ v => calcHfma2 e.f v.a v.b v.c)
def execHfma2 (f : OpF) (s : State) : Result := issueOp (.hfma2 f) f semHfma2 s

/-- A format register of a group (R26). -/
def Group.fm (g : Group) (n : Nat) : Word := g.fmts.getD n 0x23800000

/-- R159, R160: a conversion; it names a format register in MOD[8:6]. -/
def semCvt : SlotSem := lanewise (calcLane fun e x s v => calcCvt e.f ((s.group x.c x.t x.g).fm (e.f.bits 8 6)) v.a)
def execCvt (f : OpF) (s : State) : Result := issueOp (.cvt f) f semCvt s

/-- R161: a format register read. -/
def semFmget : SlotSem := lanewise (calcLane fun e x s _ => { val := ((s.group x.c x.t x.g).fm (e.f.bits 2 0)).setWidth 64 })
def execFmget (f : OpF) (s : State) : Result := issueOp (.fmget f) f semFmget s

/-- The value of a source that each lane of an instance holds, at its own place of its path (R112); reads of one register
or pair, never of a channel. -/
def readEach (e : Env) (s : State) (k : SrcKind) (fld : BitVec 10) (lanes : List Lane) : List (Lane × Got DWord) :=
  lanes.map fun x => (x, (readSrc e x (s.enter x) k fld).bind fun v => .ok v.1)

/-- An instance of lanes acts on what each of them got: a lane that met a fault stops, the others wait as long as one of
them does, and then go on together (R117, R208). -/
def withEach {α : Type} (e : Env) (s : State) (rs : List (Lane × Got α)) (k : List (Lane × α) → State → State × Faults) :
    State × Faults :=
  let fs : Faults := rs.filterMap fun (x, g) => g.faults.map fun i => (x, i, false)
  let rest := rs.filter fun (_, g) => g.faults.isNone
  match rest.findSome? fun (_, g) => g.waits with
  | some w => (waitAll e (rest.map (·.1)) w s, fs)
  | none =>
    let (s, gs) := k (rest.filterMap fun (x, g) => g.value.map fun v => (x, v)) s
    (s, fs ++ gs)

/-- Lanes that hold one value go on with it; where they differ each raises NONUNIFORM (R21, R208). -/
def ifUniform {α : Type} [BEq α] (ls : List (Lane × α)) (s : State) (k : Lane → List Lane → α → State × Faults) :
    State × Faults :=
  match ls with
  | [] => (s, [])
  | (x, v) :: rest =>
    if rest.all fun q => q.2 == v then k x (ls.map (·.1)) v else (s, faultAll (ls.map (·.1)) { cause := .nonuniform })

/-- What an instance of lanes does with what it got: it waits, it faults, or it goes on (R208). -/
def withGot {α : Type} (e : Env) (lanes : List Lane) (s : State) (g : Got α) (k : α → State × Faults) : State × Faults :=
  match g with
  | .ok a => k a
  | .wait w => (waitAll e lanes w s, [])
  | .fault i => (s, faultAll lanes i)

/-- R162: a format register written per group: uniform, then legal. -/
def semFmset : SlotSem := groupwise fun e lanes s =>
  withEach e s (readEach e s e.sh.s1 e.f.s1 lanes) fun ls s => ifUniform ls s fun x lanes v =>
    if !fmtLegal (v.setWidth 32) then (s, faultAll lanes { cause := .fmtIllegal })
    else
      let s := s.modGroup x.c x.t x.g fun g =>
        { g with fmts := ((List.range 8).map g.fm).set (e.f.bits 2 0) (v.setWidth 32) }
      (doneAll e lanes s, [])
def execFmset (f : OpF) (s : State) : Result := issueOp (.fmset f) f semFmset s

end Sys2Proof.Machine
end

