-- ==== Sys2Proof/Machine/Integer.lean ====
section
/-!
DEFINITION. Integer and bit instructions (R144 to R152) and their immediate forms.
-/
namespace Sys2Proof.Machine

/-- R145: a + b. -/
def semAdd : SlotSem := lanewise (calcLane fun e _ _ v => calcAdd e.f v.a v.b)
def execAdd (f : OpF) (s : State) : Result := issueOp (.add f) f semAdd s

/-- R145: a − b. -/
def semSub : SlotSem := lanewise (calcLane fun e _ _ v => calcSub e.f v.a v.b)
def execSub (f : OpF) (s : State) : Result := issueOp (.sub f) f semSub s

/-- R145: a × b, low half. -/
def semMulLo : SlotSem := lanewise (calcLane fun e _ _ v => calcMulLo e.f v.a v.b)
def execMulLo (f : OpF) (s : State) : Result := issueOp (.mulLo f) f semMulLo s

/-- R144: bits [2w−1:w] of the product. -/
def semMulHi : SlotSem := lanewise (calcLane fun e _ _ v => calcMulHi e.f v.a v.b)
def execMulHi (f : OpF) (s : State) : Result := issueOp (.mulHi f) f semMulHi s

/-- R145: a × b + c formed exactly. -/
def semMad : SlotSem := lanewise (calcLane fun e _ _ v => calcMad e.f v.a v.b v.c)
def execMad (f : OpF) (s : State) : Result := issueOp (.mad f) f semMad s

/-- R77: the quotient. -/
def semDiv : SlotSem := lanewise (calcLane fun e _ _ v => calcDiv e.f v.a v.b)
def execDiv (f : OpF) (s : State) : Result := issueOp (.div f) f semDiv s

/-- R77: the remainder. -/
def semRem : SlotSem := lanewise (calcLane fun e _ _ v => calcRem e.f v.a v.b)
def execRem (f : OpF) (s : State) : Result := issueOp (.rem f) f semRem s

/-- R144: the smaller. -/
def semMin : SlotSem := lanewise (calcLane fun e _ _ v => calcMin e.f v.a v.b)
def execMin (f : OpF) (s : State) : Result := issueOp (.min f) f semMin s

/-- R144: the larger. -/
def semMax : SlotSem := lanewise (calcLane fun e _ _ v => calcMax e.f v.a v.b)
def execMax (f : OpF) (s : State) : Result := issueOp (.max f) f semMax s

/-- R145: the absolute value. -/
def semAbs : SlotSem := lanewise (calcLane fun e _ _ v => calcAbs e.f v.a)
def execAbs (f : OpF) (s : State) : Result := issueOp (.abs f) f semAbs s

/-- R144: bitwise and. -/
def semAnd : SlotSem := lanewise (calcLane fun _ _ _ v => calcAnd v.a v.b)
def execAnd (f : OpF) (s : State) : Result := issueOp (.and f) f semAnd s

/-- R144: bitwise or. -/
def semOr : SlotSem := lanewise (calcLane fun _ _ _ v => calcOr v.a v.b)
def execOr (f : OpF) (s : State) : Result := issueOp (.or f) f semOr s

/-- R144: bitwise exclusive or. -/
def semXor : SlotSem := lanewise (calcLane fun _ _ _ v => calcXor v.a v.b)
def execXor (f : OpF) (s : State) : Result := issueOp (.xor f) f semXor s

/-- R144: a and not b. -/
def semAndn : SlotSem := lanewise (calcLane fun _ _ _ v => calcAndn v.a v.b)
def execAndn (f : OpF) (s : State) : Result := issueOp (.andn f) f semAndn s

/-- R144: bitwise complement. -/
def semNot : SlotSem := lanewise (calcLane fun _ _ _ v => calcNot v.a)
def execNot (f : OpF) (s : State) : Result := issueOp (.not f) f semNot s

/-- R145: a copied unchanged. -/
def semMov : SlotSem := lanewise (calcLane fun _ _ _ v => calcMov v.a)
def execMov (f : OpF) (s : State) : Result := issueOp (.mov f) f semMov s

/-- R146: shift left. -/
def semShl : SlotSem := lanewise (calcLane fun e _ _ v => calcShl e.f v.a v.b)
def execShl (f : OpF) (s : State) : Result := issueOp (.shl f) f semShl s

/-- R146: logical shift right. -/
def semShr : SlotSem := lanewise (calcLane fun e _ _ v => calcShr e.f v.a v.b)
def execShr (f : OpF) (s : State) : Result := issueOp (.shr f) f semShr s

/-- R146: arithmetic shift right. -/
def semSar : SlotSem := lanewise (calcLane fun e _ _ v => calcSar e.f v.a v.b)
def execSar (f : OpF) (s : State) : Result := issueOp (.sar f) f semSar s

/-- R146: rotate left. -/
def semRot : SlotSem := lanewise (calcLane fun e _ _ v => calcRot e.f v.a v.b)
def execRot (f : OpF) (s : State) : Result := issueOp (.rot f) f semRot s

/-- R147: a bit field extracted. -/
def semBfe : SlotSem := lanewise (calcLane fun e _ _ v => calcBfe e.f v.a v.b)
def execBfe (f : OpF) (s : State) : Result := issueOp (.bfe f) f semBfe s

/-- R147: a bit field inserted. -/
def semBfi : SlotSem := lanewise (calcLane fun e _ _ v => calcBfi e.f v.a v.b v.c)
def execBfi (f : OpF) (s : State) : Result := issueOp (.bfi f) f semBfi s

/-- R148: one bits. -/
def semPopc : SlotSem := lanewise (calcLane fun e _ _ v => calcPopc e.f v.a)
def execPopc (f : OpF) (s : State) : Result := issueOp (.popc f) f semPopc s

/-- R148: leading zeros. -/
def semClz : SlotSem := lanewise (calcLane fun e _ _ v => calcClz e.f v.a)
def execClz (f : OpF) (s : State) : Result := issueOp (.clz f) f semClz s

/-- R148: trailing zeros. -/
def semCtz : SlotSem := lanewise (calcLane fun e _ _ v => calcCtz e.f v.a)
def execCtz (f : OpF) (s : State) : Result := issueOp (.ctz f) f semCtz s

/-- R148: bits reversed. -/
def semBrev : SlotSem := lanewise (calcLane fun e _ _ v => calcBrev e.f v.a)
def execBrev (f : OpF) (s : State) : Result := issueOp (.brev f) f semBrev s

/-- R149: one of two sources by a predicate. -/
def semSel : SlotSem := lanewise (calcLane fun e _ _ v => calcSel e.f (v.c != 0) v.a v.b)
def execSel (f : OpF) (s : State) : Result := issueOp (.sel f) f semSel s

/-- R151: the 32-bit immediate. -/
def semMovi : SlotSem := lanewise (calcLane fun e _ _ _ => { val := e.f.imm32.setWidth 64 })
def execMovi (f : OpF) (s : State) : Result := issueOp (.movi f) f semMovi s

/-- R150: base plus shifted index. -/
def semLea : SlotSem := lanewise (calcLane fun e _ _ v => calcLea e.f v.a v.b)
def execLea (f : OpF) (s : State) : Result := issueOp (.lea f) f semLea s

/-- R54, R151: the 64-bit immediate, to a pair. -/
def semMoviLong : SlotSem := lanewise (calcLane fun e _ _ _ => { val := e.immOff.getD 0 })
/-- The fields of the long form of `movi` (R151). -/
def moviLongShape : Shape := { d := .pair false true, s1 := .zero, s2 := .zero, s3 := .zero, modOk := true }
def execMoviLong (f : OpF) (imm : DWord) (s : State) : Result :=
  issue (.moviLong f imm) (fun _ => { slots := [{ f := f, sh := moviLongShape, immOff := some imm, sem := semMoviLong }] }) s

/-- The fields of the cell that an immediate form stands for, with its TYPE (R152). -/
def immCell (f : OpF) (typ : Nat) : OpF := { f with s2 := 0, s3 := 0, mod := BitVec.ofNat 13 typ }
/-- The immediate of a form as a 64-bit source. -/
def immOf (f : OpF) : DWord := f.imm32.setWidth 64

/-- R152: `add.u32` with the immediate. -/
def semAddImm : SlotSem := lanewise (calcLane fun e _ _ v => calcAdd (immCell e.f 4) v.a (immOf e.f))
def execAddImm (f : OpF) (s : State) : Result := issueOp (.addImm f) f semAddImm s

/-- R152: `sub.u32` with the immediate. -/
def semSubImm : SlotSem := lanewise (calcLane fun e _ _ v => calcSub (immCell e.f 4) v.a (immOf e.f))
def execSubImm (f : OpF) (s : State) : Result := issueOp (.subImm f) f semSubImm s

/-- R152: `mul.lo.u32` with the immediate. -/
def semMulLoImm : SlotSem := lanewise (calcLane fun e _ _ v => calcMulLo (immCell e.f 4) v.a (immOf e.f))
def execMulLoImm (f : OpF) (s : State) : Result := issueOp (.mulLoImm f) f semMulLoImm s

/-- R152: `and` with the immediate. -/
def semAndImm : SlotSem := lanewise (calcLane fun e _ _ v => calcAnd v.a (immOf e.f))
def execAndImm (f : OpF) (s : State) : Result := issueOp (.andImm f) f semAndImm s

/-- R152: `or` with the immediate. -/
def semOrImm : SlotSem := lanewise (calcLane fun e _ _ v => calcOr v.a (immOf e.f))
def execOrImm (f : OpF) (s : State) : Result := issueOp (.orImm f) f semOrImm s

/-- R152: `xor` with the immediate. -/
def semXorImm : SlotSem := lanewise (calcLane fun e _ _ v => calcXor v.a (immOf e.f))
def execXorImm (f : OpF) (s : State) : Result := issueOp (.xorImm f) f semXorImm s

/-- R152: `shl.u32` with the immediate. -/
def semShlImm : SlotSem := lanewise (calcLane fun e _ _ v => calcShl (immCell e.f 4) v.a (immOf e.f))
def execShlImm (f : OpF) (s : State) : Result := issueOp (.shlImm f) f semShlImm s

/-- R152: `shr.u32` with the immediate. -/
def semShrImm : SlotSem := lanewise (calcLane fun e _ _ v => calcShr (immCell e.f 4) v.a (immOf e.f))
def execShrImm (f : OpF) (s : State) : Result := issueOp (.shrImm f) f semShrImm s

/-- R152: `sar.s32` with the immediate. -/
def semSarImm : SlotSem := lanewise (calcLane fun e _ _ v => calcSar (immCell e.f 5) v.a (immOf e.f))
def execSarImm (f : OpF) (s : State) : Result := issueOp (.sarImm f) f semSarImm s

/-- R152: `min.s32` with the immediate. -/
def semMinImm : SlotSem := lanewise (calcLane fun e _ _ v => calcMin (immCell e.f 5) v.a (immOf e.f))
def execMinImm (f : OpF) (s : State) : Result := issueOp (.minImm f) f semMinImm s

/-- R152: `max.s32` with the immediate. -/
def semMaxImm : SlotSem := lanewise (calcLane fun e _ _ v => calcMax (immCell e.f 5) v.a (immOf e.f))
def execMaxImm (f : OpF) (s : State) : Result := issueOp (.maxImm f) f semMaxImm s

/-- R152: `fadd.f32.rn` with the immediate. -/
def semFaddImm : SlotSem := lanewise (calcLane fun e _ _ v => calcFadd (immCell e.f 10) v.a (immOf e.f))
def execFaddImm (f : OpF) (s : State) : Result := issueOp (.faddImm f) f semFaddImm s

/-- R152: `fmul.f32.rn` with the immediate. -/
def semFmulImm : SlotSem := lanewise (calcLane fun e _ _ v => calcFmul (immCell e.f 10) v.a (immOf e.f))
def execFmulImm (f : OpF) (s : State) : Result := issueOp (.fmulImm f) f semFmulImm s

end Sys2Proof.Machine
end

