-- ==== Sys2Proof/Machine/Affine.lean ====
section
/-!
DEFINITION. Affine values: reading an operand (R99), exact parts (R100 to R104), the readouts (R105) and
the canonical form (R98). Exact values are dyadic, n × 2^e; quotients and roots are rounded once from them.
-/
namespace Sys2Proof

/-- An affine register (R97). -/
abbrev AffReg := BitVec 1024

/-- An exact dyadic value n × 2^e. -/
structure Dy where
  n : Int
  e : Int
  deriving DecidableEq, Repr

namespace Dy
def zero : Dy := { n := 0, e := 0 }
def isZero (x : Dy) : Bool := x.n == 0
/-- The numerator at a lower exponent. -/
def at_ (x : Dy) (lo : Int) : Int := x.n * ((2 ^ (x.e - lo).toNat : Nat) : Int)
def low (x y : Dy) : Int := if x.e ≤ y.e then x.e else y.e
def add (x y : Dy) : Dy := { n := x.at_ (low x y) + y.at_ (low x y), e := low x y }
def neg (x : Dy) : Dy := { n := -x.n, e := x.e }
def sub (x y : Dy) : Dy := x.add y.neg
def mul (x y : Dy) : Dy := { n := x.n * y.n, e := x.e + y.e }
def abs (x : Dy) : Dy := { n := x.n.natAbs, e := x.e }
def half (x : Dy) : Dy := { n := x.n, e := x.e - 1 }
def twice (x : Dy) : Dy := { n := x.n, e := x.e + 1 }
def lt (x y : Dy) : Bool := x.at_ (low x y) < y.at_ (low x y)
def le (x y : Dy) : Bool := x.at_ (low x y) ≤ y.at_ (low x y)
def sum (xs : List Dy) : Dy := xs.foldl add zero
end Dy

/-- The finite value of a pattern, or none for a NaN or an infinity. -/
def Fmt.dy (f : Fmt) (bits : Nat) : Option Dy :=
  match f.unpack bits with
  | .fin s m e => some { n := if s then -(m : Int) else m, e := e }
  | _ => none

/-- A dyadic value rounded once: the bits, or none where it overflows. DESIGN CHOICE (log 13): an exact zero is +0, also as the result
of `alo` or `ahi` (R105). -/
def Fmt.roundDy (f : Fmt) (rnd : Nat) (x : Dy) : Option Nat :=
  let r := f.round rnd false (decide (x.n < 0)) x.n.natAbs x.e
  if x.n == 0 then some 0 else if r.fl &&& flOF != 0 then none else some r.bits

/-- The value of bits known to be finite. -/
def Fmt.dyOf (f : Fmt) (bits : Nat) : Dy := (f.dy bits).getD Dy.zero

/-- An affine value that is not U: centre, radius and the terms in ascending symbol (R97). -/
structure AffVal where
  cen : Dy
  rad : Dy
  terms : List (Nat × Dy)
  deriving DecidableEq, Repr

/-- Adds a coefficient to the term of a symbol, keeping ascending order. -/
def addTerm (s : Nat) (c : Dy) : List (Nat × Dy) → List (Nat × Dy)
  | [] => [(s, c)]
  | (t, d) :: r => if s == t then (t, d.add c) :: r else if s < t then (s, c) :: (t, d) :: r
      else (t, d) :: addTerm s c r

/-- Two term lists combined symbol by symbol. -/
def mergeTerms (xs ys : List (Nat × Dy)) : List (Nat × Dy) := ys.foldl (fun acc (s, c) => addTerm s c acc) xs

/-- Bits [hi:lo] of an affine register as a number. -/
def affBits (r : AffReg) (hi lo : Nat) : Nat := r.toNat / 2 ^ lo % 2 ^ (hi - lo + 1)

/-- The raw centre bits. -/
def affCenBits (r : AffReg) : Nat := affBits r 63 0

/-- The term n of a register as its symbol and coefficient bits. -/
def affTerm (r : AffReg) (n : Nat) : Nat × Nat := (affBits r (64 * n + 191) (64 * n + 172), affBits r (64 * n + 159) (64 * n + 128))

/-- An operand as R99 reads it; none for U. A term of symbol 0 is empty whatever its coefficient (log 8). -/
def affRead (r : AffReg) : Option AffVal :=
  match Fmt.f64.dy (affCenBits r), Fmt.f64.dy (affBits r 127 64) with
  | some c, some d =>
    let raw := ((List.range 14).map (affTerm r)).filter fun (s, _) => s != 0
    if raw.any fun (_, b) => (Fmt.f32.dy b).isNone then none
    else
      let ts := raw.foldl (fun acc (s, b) => addTerm s (Fmt.f32.dyOf b) acc) []
      some { cen := c, rad := d.abs, terms := ts.filter fun (_, v) => !v.isZero }
  | _, _ => none

/-- The unbounded value U (R98). -/
def affU : AffReg := BitVec.ofNat 1024 (Fmt.f64.infBits * 2 ^ 64)

/-- A register from its centre and radius bits and its terms as bits, ascending (R98). -/
def affPack (cen rad : Nat) (terms : List (Nat × Nat)) : AffReg :=
  let body := (terms.zipIdx).foldl (fun acc (t, i) => acc + (t.1 * 2 ^ 44 + t.2) * 2 ^ (128 + 64 * i)) 0
  BitVec.ofNat 1024 (cen + rad * 2 ^ 64 + body)

/-- T(x): the radius and the magnitudes of the terms (R102). -/
def AffVal.total (x : AffVal) : Dy := (Dy.sum (x.terms.map fun (_, c) => c.abs)).add x.rad

/-- The exact parts of a result: centre, coefficients, radius part, the bound B that a minted symbol
carries, and the symbols of the operands. -/
structure AffParts where
  cen : Dy
  terms : List (Nat × Dy)
  rad : Dy
  b : Dy := Dy.zero
  syms : List Nat
  deriving DecidableEq, Repr

/-- A term after rounding: symbol, bits and magnitude. -/
abbrev RTerm := Nat × Nat × Dy

/-- Whether a rounded term comes before another in the order of R101: larger magnitude, then lower symbol. -/
def termBefore (x y : RTerm) : Bool := y.2.2.lt x.2.2 || (!x.2.2.lt y.2.2 && x.1 < y.1)

/-- Inserts by the order of R101. -/
def insertTerm (x : RTerm) : List RTerm → List RTerm
  | [] => [x]
  | y :: r => if termBefore x y then x :: y :: r else y :: insertTerm x r

/-- The terms in the order of R101. -/
def byMagnitude (ts : List RTerm) : List RTerm := ts.foldl (fun acc t => insertTerm t acc) []

/-- Inserts by ascending symbol. -/
def insertSym (x : RTerm) : List RTerm → List RTerm
  | [] => [x]
  | y :: r => if x.1 < y.1 then x :: y :: r else y :: insertSym x r

/-- Rounds each coefficient to nearest FP32: the terms kept and the sum of the errors; none on overflow (R100). -/
def roundTerms : List (Nat × Dy) → Option (List RTerm × Dy)
  | [] => some ([], Dy.zero)
  | (s, c) :: r =>
    match Fmt.f32.roundDy 0 c, roundTerms r with
    | some b, some (ts, err) =>
      let v := Fmt.f32.dyOf b
      let err := err.add (c.sub v).abs
      some (if v.isZero then ts else (s, b, v.abs) :: ts, err)
    | _, _ => none

/-- The result of exact parts with the symbol minted for B, if one is (R100 to R102). DESIGN CHOICE (log 51): where the symbol taken
is one of an operand's and adding B to the radius part overflows FP64, the result is U and the symbol stays taken. -/
def affFinish (p : AffParts) (sym : Option Nat) : AffReg :=
  match Fmt.f64.roundDy 0 p.cen, roundTerms p.terms with
  | some cb, some (ts, err) =>
    let cenErr := (p.cen.sub (Fmt.f64.dyOf cb)).abs
    let minted : Option (List RTerm × Dy) :=
      match sym with
      | none => some (ts, p.rad)
      | some s =>
        if p.syms.contains s then some (ts, p.rad.add p.b)
        else match Fmt.f32.roundDy 3 p.b with
          | some b => some (ts ++ [(s, b, Fmt.f32.dyOf b)], p.rad)
          | none => none
    match minted with
    | none => affU
    | some (all, rad) =>
      let sorted := byMagnitude all
      let folded := Dy.sum ((sorted.drop 14).map fun t => t.2.2)
      let kept := (sorted.take 14).foldl (fun acc t => insertSym t acc) []
      match Fmt.f64.roundDy 3 (((rad.add err).add cenErr).add folded) with
      | some rb => affPack cb rb (kept.map fun t => (t.1, t.2.1))
      | none => affU
  | _, _ => affU

/-- Whether a result mints: B > 0 and the result is not U (R102, R103). DESIGN CHOICE (log 51): it is decided with a symbol that no
operand has, so B beyond FP32 gives U and takes no symbol whichever symbol is next. -/
def affMints (p : Option AffParts) : Bool :=
  match p with
  | none => false
  | some p => !p.b.isZero && affFinish p (some (2 ^ 20)) != affU

/-- The result of an operation with the symbol taken, if one is: U where the parts are none or B overflows. -/
def affResult (p : Option AffParts) (sym : Option Nat) : AffReg :=
  match p with
  | none => affU
  | some q => if !q.b.isZero && !affMints p then affU else affFinish q (if q.b.isZero then none else sym)

/-- The symbols of an operand's terms. -/
def AffVal.syms (x : AffVal) : List Nat := x.terms.map (·.1)

/-- A value as its own exact parts (R241). -/
def AffVal.parts (x : AffVal) : AffParts := { cen := x.cen, terms := x.terms, rad := x.rad, syms := x.syms }

def affAddParts (x y : Option AffVal) : Option AffParts :=
  match x, y with
  | some x, some y => some { cen := x.cen.add y.cen, terms := mergeTerms x.terms y.terms, rad := x.rad.add y.rad, syms := [] }
  | _, _ => none
def affNegVal (x : AffVal) : AffVal :=
  { cen := x.cen.neg, rad := x.rad, terms := x.terms.map fun (s, c) => (s, c.neg) }
def affSubParts (x y : Option AffVal) : Option AffParts := affAddParts x (y.map affNegVal)
def affNegParts (x : Option AffVal) : Option AffParts := x.map fun x => (affNegVal x).parts
/-- `ascl` by an FP64 scalar; a NaN or infinite scalar makes the result U (R100). -/
def affSclParts (x : Option AffVal) (l : DWord) : Option AffParts :=
  match x, Fmt.f64.dy l.toNat with
  | some x, some l => some { cen := l.mul x.cen, terms := x.terms.map fun (s, c) => (s, l.mul c), rad := l.abs.mul x.rad, syms := [] }
  | _, _ => none
/-- `aaddc` of an FP64 constant (R100). -/
def affAddcParts (x : Option AffVal) (k : DWord) : Option AffParts :=
  match x, Fmt.f64.dy k.toNat with
  | some x, some k => some { x.parts with cen := x.cen.add k }
  | _, _ => none
/-- `amul` (R102). -/
def affMulParts (x y : Option AffVal) : Option AffParts :=
  match x, y with
  | some x, some y =>
    let sc (k : Dy) (ts : List (Nat × Dy)) := ts.map fun (s, c) => (s, k.mul c)
    some { cen := x.cen.mul y.cen, terms := mergeTerms (sc x.cen y.terms) (sc y.cen x.terms),
           rad := (x.cen.abs.mul y.rad).add (y.cen.abs.mul x.rad), b := x.total.mul y.total, syms := x.syms ++ y.syms }
  | _, _ => none
/-- `asqr` (R102). -/
def affSqrParts (x : Option AffVal) : Option AffParts :=
  x.map fun x =>
    let h := (x.total.mul x.total).half
    { cen := (x.cen.mul x.cen).add h, terms := x.terms.map fun (s, c) => (s, (x.cen.mul c).twice),
      rad := (x.cen.abs.mul x.rad).twice, b := h, syms := x.syms }

/-- The enclosure of a value, each end rounded outward to FP64: the bits (R105). -/
def AffVal.loBits (x : AffVal) : Option Nat := Fmt.f64.roundDy 2 (x.cen.sub x.total)
def AffVal.hiBits (x : AffVal) : Option Nat := Fmt.f64.roundDy 3 (x.cen.add x.total)

/-- The linear part of `arcp` and `asqrt` from α, ζ and δ (R102). -/
def affLinear (x : AffVal) (alpha zeta delta : Dy) : AffParts :=
  { cen := zeta.add (alpha.mul x.cen), terms := x.terms.map fun (s, c) => (s, alpha.mul c),
    rad := alpha.abs.mul x.rad, b := delta, syms := x.syms }

/-- n / d × 2^e rounded once to FP64; none on overflow. d is nonzero. -/
def roundQuot (rnd : Nat) (n d : Int) (e : Int) : Option Nat :=
  if n == 0 then some 0
  else
    let neg := decide (n < 0) != decide (d < 0)
    let (q, k, st) := quotBits n.natAbs d.natAbs 60
    let r := Fmt.f64.round rnd false neg q (k + e) st
    if r.fl &&& flOF != 0 && rnd != 1 then none else some r.bits

/-- The larger of two finite non-negative FP64 patterns; none where one overflowed. -/
def maxBits (a b : Option Nat) : Option Nat :=
  match a, b with
  | some x, some y => some (Nat.max x y)
  | _, _ => none

/-- `arcp` (R102): α = -1/u² toward zero, ζ the midpoint of g to nearest, δ upward, g(t) = 1/t - α t. -/
def affRcpParts (x : Option AffVal) : Option AffParts :=
  match x with
  | none => none
  | some x =>
    match x.loBits, x.hiBits with
    | some lb, some hb =>
      let lo := Fmt.f64.dyOf lb
      let hi := Fmt.f64.dyOf hb
      if lo.le Dy.zero && Dy.zero.le hi then none
      else
        let u := if lo.abs.lt hi.abs then hi else lo
        match roundQuot 1 (-1) (u.n * u.n) (-(2 * u.e)) with
        | none => none
        | some ab =>
          let al := Fmt.f64.dyOf ab
          -- both ends over one exponent
          let a := Dy.low lo hi
          let l := lo.at_ a
          let h := hi.at_ a
          let one : Dy := { n := 1, e := -a }
          -- (1/lo + 1/hi)/2 - α (lo + hi)/2 over the denominator l h
          let mid := ({ n := l + h, e := 0 : Dy }.mul (one.sub (al.mul { n := l * h, e := a }))).half
          match roundQuot 0 mid.n (l * h) mid.e with
          | none => none
          | some zb =>
            let z := Fmt.f64.dyOf zb
            let dist (t : Int) : Option Nat :=
              let v := one.sub (((al.mul { n := t, e := a }).add z).mul { n := t, e := 0 })
              roundQuot 3 v.n.natAbs t.natAbs v.e
            (maxBits (dist l) (dist h)).map fun db => affLinear x al z (Fmt.f64.dyOf db)
    | _, _ => none

/-- The grid on which the parts of `asqrt` are whole: 2^(-sqrtGrid). -/
def sqrtGrid : Nat := 2400

/-- t × 4^sqrtGrid for a non-negative dyadic. -/
def gridSquare (t : Dy) : Nat := (t.at_ (-(2 * sqrtGrid : Nat))).natAbs
/-- A dyadic on the grid. -/
def onGrid (t : Dy) : Int := t.at_ (-(sqrtGrid : Nat))

/-- √A ≥ c - √B for naturals, c an integer. -/
def rootSumGe (a b : Nat) (c : Int) : Bool :=
  if c ≤ 0 then true
  else
    let t := c * c - a - b
    t ≤ 0 || t * t ≤ 4 * a * b

/-- √A + √B = c. -/
def rootSumEq (a b : Nat) (c : Int) : Bool :=
  let t := c * c - a - b
  0 ≤ c && 0 ≤ t && t * t == 4 * a * b

/-- |√A - d| on the grid as a magnitude with a sticky rest. -/
def rootDist (a : Nat) (d : Int) : Nat × Bool :=
  let s : Int := isqrt a
  let st := isqrt a * isqrt a != a
  if d ≤ s then ((s - d).toNat, st)
  else if st then ((d - s - 1).toNat, true) else ((d - s).toNat, false)

/-- A grid magnitude rounded to FP64; none on overflow. -/
def roundGrid (rnd : Nat) (m : Nat) (e : Int) (st : Bool) : Option Nat :=
  let r := Fmt.f64.round rnd false false m e st
  if m == 0 && !st then some 0 else if r.fl &&& flOF != 0 then none else some r.bits

/-- `asqrt` (R102): α = 1/(2√hi) toward zero, ζ the midpoint of g to nearest, δ upward, g(t) = √t - α t. -/
def affSqrtParts (x : Option AffVal) : Option AffParts :=
  match x with
  | none => none
  | some x =>
    match x.loBits, x.hiBits with
    | some lb, some hb =>
      let lo := Fmt.f64.dyOf lb
      let hi := Fmt.f64.dyOf hb
      if lo.lt Dy.zero then none
      else if hi.isZero then some { cen := Dy.zero, terms := [], rad := Dy.zero, syms := [] }
      else
        let (q, k, st1) := quotBits 1 (4 * hi.n.natAbs) 120
        let (r, z, st2) := sqrtBits q (k - hi.e) 4
        let al := Fmt.f64.dyOf (Fmt.f64.round 1 false false r z (st1 || st2)).bits
        let a := gridSquare lo
        let b := gridSquare hi
        let rest := onGrid (al.mul (lo.add hi))
        let s : Int := (isqrt a + isqrt b : Nat)
        let c := if rootSumGe a b (s + 1) then s + 1 else s
        match roundGrid 0 (c - rest).toNat (-(sqrtGrid : Int) - 1) (!rootSumEq a b c) with
        | none => none
        | some zb =>
          let zeta := Fmt.f64.dyOf zb
          let dist (t : Dy) (sq : Nat) : Option Nat :=
            let (m, st) := rootDist sq (onGrid ((al.mul t).add zeta))
            -- a sticky rest above the last grid point is rounded up by the mode
            roundGrid 3 (if m == 0 && st then 1 else m) (-(sqrtGrid : Int)) (st && m != 0)
          (maxBits (dist lo a) (dist hi b)).map fun db => affLinear x al zeta (Fmt.f64.dyOf db)
    | _, _ => none

/-- `acond` to at most n terms (R104). DESIGN CHOICE (log 51): where the symbol minted is one of x's, the sum goes to the radius, as
R102 has it for the non-linear operations. -/
def affCondParts (x : Option AffVal) (n : Nat) : Option AffParts :=
  x.map fun x =>
    if x.terms.length ≤ n then x.parts
    else
      let sorted := byMagnitude (x.terms.map fun (s, c) => (s, 0, c.abs))
      let keep := (sorted.take (n - 1)).map (·.1)
      { cen := x.cen, terms := x.terms.filter fun (s, _) => keep.contains s, rad := x.rad,
        b := Dy.sum ((sorted.drop (n - 1)).map fun t => t.2.2), syms := x.syms }

/-- A result that carries the centre of its operand as it stands, the sign of a zero too (R104, R241, R242, log 13). -/
def affCarry (r res : AffReg) : AffReg :=
  if res == affU then affU else res - BitVec.ofNat 1024 (affCenBits res) + BitVec.ofNat 1024 (affCenBits r)

/-- `amov`: the canonical form of an operand (R241); what `ashfl`, and `aredd` of one member, deliver (R242). -/
def affMov (r : AffReg) : AffReg := affCarry r (affResult ((affRead r).map AffVal.parts) none)
/-- `aadd` of two registers (R100), also one step of `aredd` (R242). -/
def affAdd (x y : AffReg) : AffReg := affResult (affAddParts (affRead x) (affRead y)) none

/-- The readouts (R105): the FP64 bits. -/
def affCent (r : AffReg) : Nat :=
  match affRead r with
  | some _ => affCenBits r
  | none => 0
def affRad (r : AffReg) : Nat :=
  match affRead r with
  | some x => (Fmt.f64.roundDy 3 x.total).getD Fmt.f64.infBits
  | none => Fmt.f64.infBits
def affLo (r : AffReg) : Nat :=
  match affRead r with
  | some x => x.loBits.getD (Fmt.f64.signed true Fmt.f64.infBits)
  | none => Fmt.f64.signed true Fmt.f64.infBits
def affHi (r : AffReg) : Nat :=
  match affRead r with
  | some x => x.hiBits.getD Fmt.f64.infBits
  | none => Fmt.f64.infBits

/-- |h| rounded toward +∞ to FP32; none on overflow (R240). -/
def affCoef (h : DWord) : Option Nat := (Fmt.f64.dy h.toNat).bind fun d => Fmt.f32.roundDy 3 d.abs

/-- `aset` with the symbol its form gives the half-width: none leaves it in the radius (form 01 with symbol 0) (R240). -/
def affSetSym (c h : DWord) (sym : Nat) : AffReg :=
  match Fmt.f64.dy c.toNat, Fmt.f64.dy h.toNat with
  | some _, some hv =>
    if sym == 0 then affPack c.toNat (h.toNat % 2 ^ 63) []
    else if hv.isZero then affPack c.toNat 0 []
    else match affCoef h with
      | some b => affPack c.toNat 0 [(sym, b)]
      | none => affU
  | _, _ => affU
/-- `aset` from a centre alone (R240). -/
def affSet (c : DWord) : AffReg := if (Fmt.f64.dy c.toNat).isSome then affPack c.toNat 0 [] else affU
/-- Whether `aset.mint` mints: h nonzero and the result not U (R240, R103). -/
def affSetMints (c h : DWord) : Bool :=
  match Fmt.f64.dy c.toNat, Fmt.f64.dy h.toNat with
  | some _, some hv => !hv.isZero && (affCoef h).isSome
  | _, _ => false

end Sys2Proof
end

