-- ==== Sys2Proof/Machine/Collective.lean ====
section
/-!
DEFINITION. Lane collectives: arrival, membership and completion (R165), shuffles (R166), votes (R167), folds (R168), the
affine collectives (R242) and the timeout.
-/
namespace Sys2Proof.Machine

/-- An arrived member: its lane, its first operand and its second. -/
abbrev Member := Nat × BitVec 1024 × Word

/-- The segment width of a shuffle (R163); a narrow group reads SEG 0 as SEG 1 (R169). -/
def segWidth (seg width : Nat) : Nat := Nat.min width (32 / 2 ^ seg)

/-- The source lane of a shuffle, where it is defined (R166). -/
def shuffleSrc (mode s lane n : Nat) : Option Nat :=
  let base := lane - lane % s
  match mode with
  | 0 => if n < s then some (base + n) else none
  | 1 => if n ≤ lane - base then some (lane - n) else none
  | 2 => if lane + n < base + s then some (lane + n) else none
  | _ => if n < s then some (lane ^^^ n) else none

/-- A shuffle: the value of the source lane where that is a present member, else the own value (R166). -/
def shuffle (mode s : Nat) (ms : List Member) (m : Member) : BitVec 1024 :=
  match (shuffleSrc mode s m.1 m.2.2.toNat).bind fun l => ms.find? fun q => q.1 == l with
  | some q => q.2.1
  | none => m.2.1

/-- One step of a fold, with its flags (R168). -/
def foldStep (op typ : Nat) (a b : DWord) : Calc :=
  let f : OpF := { OpF.zero with mod := BitVec.ofNat 13 typ }
  match op with
  | 0 => if typ ≥ 10 then calcFadd f a b else calcAdd f a b
  | 1 => if typ ≥ 10 then calcFmin f a b else calcMin f a b
  | 2 => if typ ≥ 10 then calcFmax f a b else calcMax f a b
  | 3 => calcAnd a b
  | 4 => calcOr a b
  | _ => calcXor a b

/-- A fold from its first value, no step for one value (R168). -/
def foldVals (op typ : Nat) : List DWord → Calc
  | [] => { val := 0 }
  | v :: vs => vs.foldl (fun acc b => let r := foldStep op typ acc.val b; { val := r.val, fl := acc.fl ||| r.fl }) { val := v }

/-- The identity that position 0 of an exclusive scan receives (R168). -/
def foldIdentity (op typ : Nat) : DWord :=
  let fmt := Fmt.ofType typ
  match op with
  | 0 => if typ ≥ 10 then BitVec.ofNat 64 fmt.signBit else 0
  | 1 => if typ ≥ 10 then BitVec.ofNat 64 fmt.infBits else BitVec.ofInt 64 (intMax (typeSigned typ) (typeBits typ))
  | 2 => if typ ≥ 10 then BitVec.ofNat 64 (fmt.signBit + fmt.infBits)
      else BitVec.ofInt 64 (intMin (typeSigned typ) (typeBits typ))
  | 3 => BitVec.ofNat 64 (2 ^ typeBits typ - 1)
  | _ => 0

/-- The low 64 bits of an operand. -/
def Member.val (m : Member) : DWord := m.2.1.setWidth 64

/-- The affine sum of the members in ascending lane id (R242). -/
def affSum : List Member → BitVec 1024
  | [] => 0
  | m :: ms => ms.foldl (fun acc q => affAdd acc q.2.1) m.2.1

/-- What a member of an instance receives, with the flags of its own fold (R166 to R168, R242). The present members stand
in ascending lane id. -/
def collResult (opc : BitVec 8) (f : OpF) (width : Nat) (ms : List Member) (m : Member) : BitVec 1024 × Flags :=
  let vals := ms.map Member.val
  let test (q : Member) : Bool := (q.val != 0) != f.bit 8
  let out (c : Calc) : BitVec 1024 × Flags := (c.val.setWidth 1024, c.fl)
  match opc.toNat with
  | 0x60 | 0x61 | 0x62 | 0x63 => (shuffle (opc.toNat - 0x60) (segWidth (f.bits 10 8) width) ms m, 0)
  | 0x64 => (if ms.all test then 1 else 0, 0)
  | 0x65 => (if ms.any test then 1 else 0, 0)
  | 0x66 => (ms.foldl (fun acc q => if test q then acc ||| 1#1024 <<< q.1 else acc) 0, 0)
  | 0x67 => out (foldVals (f.bits 11 8) f.typ vals)
  | 0x68 =>
    let upTo := (ms.filter fun q => if f.bit 7 then q.1 < m.1 else q.1 ≤ m.1).map Member.val
    if upTo.isEmpty then ((foldIdentity (f.bits 11 8) f.typ).setWidth 1024, 0) else out (foldVals (f.bits 11 8) f.typ upTo)
  | 0x69 => (if (ms.head?.map (·.1)) == some m.1 then 1 else 0, 0)
  | _ => if f.bits 1 0 == 0 then (affMov (shuffle (f.bits 3 2) width ms m), 0)
      else match ms with
        | [_] => (affMov (affSum ms), 0)
        | _ => (affSum ms, 0)

/-- The present members of a mask (R165): not exited, not disabled. -/
def Group.presentIn (g : Group) (mask : Word) : List Nat :=
  (g.threads.filter fun (l, th) => mask.getLsbD l && th.run != .exited).map (·.1)
/-- Every present member has arrived (R165). -/
def Group.collReady (g : Group) (k : Coll) : Bool :=
  (g.presentIn k.mask).all fun l => k.arrived.any fun m => m.1 == l

/-- The operation that an instance performs. -/
def Coll.shape (k : Coll) : Shape :=
  match opInstr k.opc k.f with
  | some i => i.shape
  | none => shapeNone true
/-- The environment of an instance's operation. -/
def Coll.env (k : Coll) (s : State) : Env :=
  { f := k.f, sh := k.shape, slot := k.slot, tree := k.tree, pc := k.pc, next := k.pc, pre := s }

/-- Members in ascending lane id. -/
def insertMember (m : Member) : List Member → List Member
  | [] => [m]
  | q :: r => if m.1 < q.1 then m :: q :: r else q :: insertMember m r

/-- A result that a lane receives: its flags, an ARITH trap (R168), else its destination. -/
def State.receive (s : State) (e : Env) (x : Lane) (r : BitVec 1024 × Flags) : State × Option FaultInfo :=
  let s := s.setFlags x r.2
  match s.arith x r.2 with
  | some i => (s, some i)
  | none =>
    let s := match e.sh.d with
      | .affine => s.putAff x e.f.d.toNat r.1
      | _ => writeDst e x (r.1.setWidth 64) s
    ((markDone e x s).wake x, none)

/-- A result delivered to an arrived lane: where its channel is full the lane keeps it and waits, with no flag set and
nothing raised (R430). -/
def State.deliver (s : State) (e : Env) (x : Lane) (r : BitVec 1024 × Flags) : State × Option FaultInfo :=
  match dstReady e x s with
  | .ok _ => s.receive e x r
  | .wait w => (s.modPos x fun p => { p with held := some (r.1.setWidth 64, r.2), wait := some w }, none)
  | .fault i => (s, some i)

/-- Results delivered in ascending lane id, with the exceptions that lanes met. -/
def State.deliverAll (s : State) (e : Env) : List (Lane × (BitVec 1024 × Flags)) → State × List (Lane × FaultInfo)
  | [] => (s, [])
  | (x, r) :: rest =>
    let (s, i) := s.deliver e x r
    let (s, is) := s.deliverAll e rest
    (s, (i.map fun i => (x, i)).toList ++ is)

/-- An instance completes: results over its present members, each to its lane in ascending lane id (R165). The exceptions of
the lanes at hand are theirs to take; those of lanes in other waves are taken there. -/
def State.completeColl (s : State) (c t g : Nat) (k : Coll) (own : List Lane) : State × Faults :=
  let q := s.group c t g
  let ms := (k.arrived.filter fun m => (q.presentIn k.mask).contains m.1).foldl (fun acc m => insertMember m acc) []
  let s := s.modGroup c t g fun q => { q with colls := q.colls.filter fun j => !(j.pc == k.pc && j.slot == k.slot) }
  let e := k.env s
  let (s, is) := s.deliverAll e (ms.map fun m => ({ c := c, t := t, g := g, l := m.1 }, collResult k.opc k.f q.width ms m))
  let out := (is.filter fun y => !own.contains y.1).map fun y => (y.1, e.at_, y.2)
  (if out.isEmpty then s else s.exceptAll c out, (is.filter fun y => own.contains y.1).map fun y => (y.1, y.2, false))

/-- The operands that a lane brings to an instance. -/
def collOperands (e : Env) (x : Lane) (s : State) : Got (BitVec 1024 × Word) :=
  (match e.sh.s1 with
    | .affine => readAff x s (srcIdx e.f.s1)
    | k => (readSrc e x s k e.f.s1).bind fun (v, _) => Got.ok (v.setWidth 1024)).bind fun a =>
  (readSrc e x s e.sh.s2 e.f.s2).bind fun (b, _) => .ok (a, b.setWidth 32)

/-- One lane arrives: a mask other than the instance's is NONUNIFORM, a lane outside it COLL_MASK (R165). -/
def arriveLane (opc : BitVec 8) (e : Env) (mask : Word) (x : Lane) (s : State) : Got State :=
  let g := s.group x.c x.t x.g
  let old := g.colls.find? fun k => k.pc == e.pc && k.slot == e.slot
  (Got.check (old.any fun k => k.mask != mask && !k.arrived.isEmpty) { cause := .nonuniform }).bind fun _ =>
  (Got.check (!mask.getLsbD x.l) { cause := .collMask }).bind fun _ =>
  (collOperands e x (s.enter x)).bind fun (a, b) =>
  let k : Coll := old.getD { pc := e.pc, slot := e.slot, tree := e.tree, opc := opc, f := e.f, mask := mask, arrived := [],
                             first := s.clocks x.c x.t }
  let k := { k with mask := mask, arrived := k.arrived ++ [(x.l, a, b)] }
  let s := s.modGroup x.c x.t x.g fun g =>
    { g with colls := k :: g.colls.filter fun j => !(j.pc == e.pc && j.slot == e.slot) }
  .ok ((markWait e x .collective (s.enter x)).modPos x fun p => { p with arrived := true })

/-- The mask that each lane brings: all lanes of the group, or its register without the bits that a narrow group ignores
(R163, R165, R169). DESIGN CHOICE (log 51): the ignored bits do not count where masks are compared. -/
def collMasks (e : Env) (lanes : List Lane) (s : State) : List (Lane × Got Word) :=
  let width (x : Lane) : Word := if (s.group x.c x.t x.g).narrow then 0xffff else 0xffffffff
  match e.sh.s3 with
  | .word _ => (readEach e s e.sh.s3 e.f.s3 lanes).map fun (x, g) => (x, g.bind fun v => .ok (v.setWidth 32 &&& width x))
  | _ => lanes.map fun x => (x, .ok (width x))

/-- A lane that holds its result receives it once its channel has room (R430). -/
def State.receiveHeld (s : State) (e : Env) (x : Lane) : State × Faults :=
  match (s.thread x).pos.held, dstReady e x s with
  | some (v, fl), .ok _ =>
    let (s, i) := (s.modPos x fun p => { p with held := none }).receive e x (v.setWidth 1024, fl)
    (s, (i.map fun i => (x, i, false)).toList)
  | _, _ => (s, [])

/-- Lanes arrive one after another. -/
def arriveAll (opc : BitVec 8) (e : Env) (mask : Word) (lanes : List Lane) (s : State) : State × Faults :=
  lanes.foldl (fun (s, fs) x =>
    match arriveLane opc e mask x s with
    | .ok s' => (s', fs)
    | .wait w => (markWait e x w s, fs)
    | .fault i => (s, fs ++ [(x, i, false)])) (s, [])

/-- The instance of a group at the slot completes where every present member has arrived. -/
def State.completeHere (s : State) (e : Env) (lanes : List Lane) : State × Faults :=
  match lanes with
  | [] => (s, [])
  | x :: _ =>
    let g := s.group x.c x.t x.g
    match g.colls.find? fun k => k.pc == e.pc && k.slot == e.slot with
    | some k => if g.collReady k then s.completeColl x.c x.t x.g k lanes else (s, [])
    | none => (s, [])

/-- The lanes whose destination can take a result; the others wait there, or fault, before anything else of the operation
(R430). -/
def roomFirst (e : Env) (lanes : List Lane) (s : State) : List Lane × State × Faults :=
  lanes.foldl (fun (ls, s, fs) x =>
    match dstReady e x s with
    | .ok _ => (ls ++ [x], s, fs)
    | .wait w => (ls, markWait e x w s, fs)
    | .fault i => (ls, s, fs ++ [(x, i, false)])) (([] : List Lane), s, ([] : Faults))

/-- A collective (R165): lanes that have not arrived do, and the instance completes when every present member has. -/
def collective (opc : BitVec 8) : SlotSem := groupwise fun e lanes s =>
  let old := lanes.filter fun x => (s.thread x).pos.arrived
  let new := lanes.filter fun x => !(s.thread x).pos.arrived
  let (s, f1) := old.foldl (fun (s, fs) x => let (s, gs) := s.receiveHeld e x; (s, fs ++ gs)) (s, ([] : Faults))
  let (new, s, f0) := roomFirst e new s
  let (s, f2) := withEach e s (collMasks e new s) fun ls s => ifUniform ls s fun _ lanes mask => arriveAll opc e mask lanes s
  let (s, f3) := s.completeHere e lanes
  (s, f1 ++ f0 ++ f2 ++ f3)

/-- R166: a shuffle by index. -/
def semShflIdx : SlotSem := collective 0x60
def execShflIdx (f : OpF) (s : State) : Result := issueOp (.shflIdx f) f semShflIdx s
/-- R166: a shuffle from a lower lane. -/
def semShflUp : SlotSem := collective 0x61
def execShflUp (f : OpF) (s : State) : Result := issueOp (.shflUp f) f semShflUp s
/-- R166: a shuffle from a higher lane. -/
def semShflDown : SlotSem := collective 0x62
def execShflDown (f : OpF) (s : State) : Result := issueOp (.shflDown f) f semShflDown s
/-- R166: a shuffle by exclusive or. -/
def semShflXor : SlotSem := collective 0x63
def execShflXor (f : OpF) (s : State) : Result := issueOp (.shflXor f) f semShflXor s
/-- R167: true in every present member. -/
def semVoteAll : SlotSem := collective 0x64
def execVoteAll (f : OpF) (s : State) : Result := issueOp (.voteAll f) f semVoteAll s
/-- R167: true in any present member. -/
def semVoteAny : SlotSem := collective 0x65
def execVoteAny (f : OpF) (s : State) : Result := issueOp (.voteAny f) f semVoteAny s
/-- R167: the word of members whose predicate is true. -/
def semBallot : SlotSem := collective 0x66
def execBallot (f : OpF) (s : State) : Result := issueOp (.ballot f) f semBallot s
/-- R168: a fold over the present members. -/
def semRedux : SlotSem := collective 0x67
def execRedux (f : OpF) (s : State) : Result := issueOp (.redux f) f semRedux s
/-- R168: a prefix fold. -/
def semScan : SlotSem := collective 0x68
def execScan (f : OpF) (s : State) : Result := issueOp (.scan f) f semScan s
/-- R167: the present member of lowest lane id. -/
def semElect : SlotSem := collective 0x69
def execElect (f : OpF) (s : State) : Result := issueOp (.elect f) f semElect s
/-- R242: the affine shuffle. -/
def semAshfl : SlotSem := collective 0xcf
def execAshfl (f : OpF) (s : State) : Result := issueOp (.ashfl f) f semAshfl s
/-- R242: the affine sum. -/
def semAredd : SlotSem := collective 0xcf
def execAredd (f : OpF) (s : State) : Result := issueOp (.aredd f) f semAredd s

/-- The instance of a group at an address that is complete (R165). -/
def Group.collAt (g : Group) (pc : Addr) (p : Coll → Bool) : Option Coll := g.colls.find? fun k => k.pc == pc && p k

/-- R165: an instance completes once every present member has arrived, as when a member exits. -/
def execCollectiveComplete (c t g : Nat) (pc : Addr) (s : State) : Result :=
  let q := s.group c t g
  match q.collAt pc q.collReady with
  | none => .refused .notEnabled
  | some k => .next (s.completeColl c t g k []).1

/-- The limit of collectives and barriers in `%clocks` (R74, R165, R192). -/
def Team.limit (k : Team) : Nat := k.desc.collwait * 1024

/-- R165: an instance older than the limit raises COLL_TIMEOUT in its arrived lanes. -/
def execCollTimeout (c t g : Nat) (pc : Addr) (s : State) : Result :=
  let q := s.group c t g
  match q.collAt pc fun k => !k.arrived.isEmpty && !q.collReady k && k.first + (s.team c t).limit ≤ s.clocks c t with
  | none => .refused .notEnabled
  | some k =>
    let s := s.modGroup c t g fun q => { q with colls := q.colls.filter fun j => !(j.pc == k.pc && j.slot == k.slot) }
    let ls := (k.arrived.foldl (fun acc m => insertMember m acc) []).map fun m => ({ c := c, t := t, g := g, l := m.1 } : Lane)
    .next (s.exceptAll c (ls.map fun x => (x, (k.env s).at_, { cause := .collTimeout })))

end Sys2Proof.Machine
end

