-- ==== Sys2Proof/Machine/Memory.lean ====
section
/-!
DEFINITION. Loads, stores, atomics, reductions and prefetch (R170 to R187), the register aperture (R176), the cluster
scratchpad (R173), raw affine moves (R241), and the replies and acknowledgements of what is outstanding (R35, R267).
-/
namespace Sys2Proof.Machine

/-- A lane may issue one more operation that counts in L or in S (R35). -/
def roomL (x : Lane) (s : State) : Got Unit := .hold ((s.thread x).loads.length ≥ 63) .count
def roomS (x : Lane) (s : State) : Got Unit := .hold ((s.thread x).stores.length ≥ 63) .count

/-- The columns of a cluster lie on both dies of its flask (R273). -/
def spansDies (c : Nat) (k : Team) : Bool :=
  let x0 := c % 12 - k.cx
  x0 < 6 && x0 + k.cw > 6
/-- A scope whose release and acquire reach beyond one die (R268, R270, R273). -/
def wideScope (c : Nat) (k : Team) (scope : Nat) : Bool := scope ≥ 3 || (scope == 2 && spansDies c k)

/-- The acknowledgement of a store may come: its die cache has performed its writes (R267, R268); a peer send is acknowledged by
its append. -/
def State.ackReady (s : State) (c : Nat) (o : Store) : Bool :=
  o.send.isNone && o.writes.all fun n => (s.core c).writes.all fun w => w.id != n

/-- A write of a lane of core c is acknowledged at a scope (R267): a peer send once it is appended; a global store for the
core's own group or team as soon as the die cache has accepted it, for wider scopes once it is performed there (R268). -/
def State.ackedAt (s : State) (c scope : Nat) (o : Store) : Bool := o.send.isNone && (scope ≤ 1 || s.ackReady c o)

/-- The release of a lane at a scope (R249, R267, R270, R275): it waits until its earlier writes are acknowledged there, and
beyond its team for those of its core, which it may have read; at a wide one a new release epoch begins, and at `.sys` the
dirty lines of the die are written back (log 14). -/
def State.release (s : State) (x : Lane) (scope : Nat) : Got State :=
  if !(s.thread x).stores.all (s.ackedAt x.c scope) || (scope ≥ 2 && !(s.core x.c).writes.isEmpty) then .wait .count
  else
    let s := s.tells x
    if !wideScope x.c (s.team x.c x.t) scope then .ok s
    else
      let (e, s) := s.releasePkg (coreDie x.c)
      let s := s.modThread x fun th => { th with epoch := e }
      if scope == 4 then .ofOption (s.releaseSys (coreDie x.c)) (.line 0) else .ok s

/-- A team heard from a core of the other die of its flask without a line of memory (R250, R273). -/
def State.hear (s : State) (c t from_ : Nat) : State :=
  if coreDie c == coreDie from_ then s else s.modTeam c t fun k => { k with heard := true }
/-- The acquire of a lane at a scope (R249, R268, R272); what a message from the other die released is at its home first
(R250, log 44). -/
def State.acquire (s : State) (x : Lane) (scope : Nat) : Got State :=
  let k := s.team x.c x.t
  let s := s.observe x
  if !wideScope x.c k scope then .ok s
  else if k.heard then .ofOption ((s.modTeam x.c x.t fun k => { k with heard := false }).joinPkg x.c) (.line 0)
  else .ofOption (s.acquirePkg x.c) (.line 0)
/-- The acquire of a lane that departs from a barrier or returns from a scope (R249, R250). -/
def State.rejoin (s : State) (x : Lane) (scope : Nat) : Got State :=
  let s := s.observe x
  if wideScope x.c (s.team x.c x.t) scope then .ofOption (s.joinPkg x.c) (.line 0) else .ok s

/-- The value of a load as its destination holds it (R75, R83, R175). -/
def loadValue (typ v : Nat) : DWord :=
  if typ ≤ 7 then writeInt typ (readInt typ (BitVec.ofNat 64 v)) else BitVec.ofNat 64 v

/-- The window words of a destination of a type, with their data. -/
def loadWords (d typ : Nat) (v : DWord) : List (Nat × Word) :=
  if isWide typ then [(d, v.setWidth 32), (d + 1, (v >>> 32).setWidth 32)] else [(d, v.setWidth 32)]

/-- A load issued: it counts in L, and its words are owed to the lane in place of any earlier data for them (R35, R38,
R41). -/
def State.issueLoad (s : State) (x : Lane) (o : Load) : State :=
  let ds := o.words.map (·.1)
  let s := ds.foldl (fun s i => s.touchA x i) s
  let s := s.note x ((ds.filter (· < 256)).map fun i => (i, none))
  let cut (p : Load) : Load := { p with words := p.words.filter fun w => !ds.contains w.1 }
  s.modThread x fun th => { th with loads := th.loads.map cut ++ [o] }

/-- A store issued: it counts in S (R35). -/
def State.issueStore (s : State) (x : Lane) (o : Store) : State :=
  s.modThread x fun th => { th with stores := th.stores ++ [o] }

/-- The target of a cluster address word: core, team slot and offset (R173). -/
def clusterTarget (e : Env) (x : Lane) (s : State) (word : DWord) (n : Nat) (a : Access) : Got (Nat × Nat × Nat) :=
  let k := s.team x.c x.t
  let w := word.toNat % 2 ^ 32
  let cx := w / 2 ^ 28
  let cy := w / 2 ^ 24 % 16
  let bad (c : Cause) : FaultInfo := { cause := c, addr := w, access := accessCode a }
  if cx ≥ k.cw || cy ≥ k.ch || w / 2 ^ 21 % 8 != 0 then .fault (bad .clusterRange)
  else
    let core := clusterCore x.c k cx cy
    match s.clusterTeam core k with
    | none => .fault (bad .clusterRange)
    | some t =>
      let eff : Int := (w % 2 ^ 21 : Nat) + e.offset n
      if eff < 0 || eff ≥ ((s.team core t).scratchSize : Int) then .fault (bad .scratchRange)
      else if eff.toNat % n != 0 then .fault (bad .misalign)
      else .ok (core, t, eff.toNat)

/-- The scratchpad word of a target is read: an uncorrectable error is STORE_UE (R281). -/
def readScratch (s : State) (c t o n : Nat) : Got Nat :=
  if s.scratchBad c t o n then .fault { cause := .storeUe, addr := o, access := 1 } else .ok (s.scratchRead c t o n)

/-! Loads. -/

/-- R175, R177: a load from global memory, or through the constant space. -/
def loadGlobal (const : Bool) : LaneSem := fun e x s =>
  ((roomL x s).bind fun _ => (readSrcs e x s).bind fun v =>
    let n := typeBytes e.f.typ
    let va := e.addr64 v.a n
    (checkGlobal va n .read).bind fun _ => (s.translate x va .read).bind fun (pa, cls) =>
    match s.laneLoad x.c pa n cls (!const && e.f.bits 8 7 != 3) with
    | none => .wait (.line pa)
    | some (w, bad, s) =>
      .ok ((s.counted x va .read).issueLoad x
        { words := loadWords e.f.d.toNat e.f.typ (loadValue e.f.typ w), addr := va, poisoned := bad })).out s

/-- R175: a load from the team's scratchpad. -/
def loadScratch : LaneSem := fun e x s =>
  ((roomL x s).bind fun _ => (readSrcs e x s).bind fun v =>
    let n := typeBytes e.f.typ
    let o := e.addr32 v.a n
    (checkScratch (s.team x.c x.t) o n n .read).bind fun _ => (readScratch s x.c x.t o n).bind fun w =>
    .ok (s.issueLoad x { words := loadWords e.f.d.toNat e.f.typ (loadValue e.f.typ w), addr := o })).out s

/-- R173: a load from the scratchpad of a team of the cluster. -/
def loadCluster : LaneSem := fun e x s =>
  ((roomL x s).bind fun _ => (readSrcs e x s).bind fun v =>
    let n := typeBytes e.f.typ
    (clusterTarget e x s v.a n .read).bind fun (c, t, o) => (readScratch s c t o n).bind fun w =>
    .ok ((s.hear x.c x.t c).issueLoad x
      { words := loadWords e.f.d.toNat e.f.typ (loadValue e.f.typ w), addr := v.a.toNat })).out s

/-- Window words read as one value, the first lowest (R176). -/
def readWords (x : Lane) (s : State) : List Nat → Got Nat
  | [] => .ok 0
  | i :: is => (s.readWord x i).bind fun lo => (readWords x s is).bind fun hi => .ok (lo.toNat + 2 ^ 32 * hi)

/-- The aperture words of an access (R37). -/
def apertureAt (e : Env) (x : Lane) (s : State) (base : DWord) (a : Access) : Got (List Nat) :=
  let n := typeBytes e.f.typ
  let o := e.addr32 base n
  match apertureWords (s.team x.c x.t).nG (s.team x.c x.t).nA o n with
  | some ws => .ok ws
  | none => .fault { cause := .apertureRange, addr := o, access := accessCode a }

/-- R176: a read of the register aperture, performed at its path position. -/
def loadAperture : LaneSem := fun e x s =>
  ((readSrcs e x s).bind fun v => (apertureAt e x s v.a .read).bind fun ws => (readWords x s ws).bind fun w =>
    .ok (writeDst e x (BitVec.ofNat 64 w) s)).out s

def semLdG : SlotSem := lanewise (loadGlobal false)
/-- R175: `ld.g`. -/
def execLdG (f : OpF) (s : State) : Result := issueOp (.ldG f) f semLdG s
def semLdS : SlotSem := lanewise loadScratch
/-- R175: `ld.s`. -/
def execLdS (f : OpF) (s : State) : Result := issueOp (.ldS f) f semLdS s
def semLdR : SlotSem := lanewise loadAperture
/-- R176: `ld.r`. -/
def execLdR (f : OpF) (s : State) : Result := issueOp (.ldR f) f semLdR s
def semLdC : SlotSem := lanewise (loadGlobal true)
/-- R177: `ld.c`. -/
def execLdC (f : OpF) (s : State) : Result := issueOp (.ldC f) f semLdC s
def semLdx : SlotSem := lanewise loadCluster
/-- R173: `ldx`. -/
def execLdx (f : OpF) (s : State) : Result := issueOp (.ldx f) f semLdx s
/-- R180: a prefetch reads its address and changes no visible state. -/
def semPref : SlotSem := lanewise fun e x s => ((readSrcs e x s).bind fun _ => .ok s).out s
def execPref (f : OpF) (s : State) : Result := issueOp (.pref f) f semPref s

/-! Stores. -/

/-- The range lies in a write region of the group (R321). -/
def Group.owns (g : Group) (va n : Nat) : Bool := g.owned.any fun (a, z) => a ≤ va && va + n ≤ z
/-- The ownership check of deterministic mode (R187). -/
def checkOwner (x : Lane) (s : State) (va n : Nat) : Got Unit :=
  Got.check ((s.team x.c x.t).det && !(s.group x.c x.t x.g).owns va n) { cause := .detOwner, addr := va, access := 2 }

/-- A path remains to the home of a store (R404, R179). -/
def checkPath (s : State) (pa va : Nat) (a : Access) : Got Unit :=
  Got.check (isRemote pa && s.noPath pa) { cause := .memError, addr := va, access := accessCode a }

/-- R175: a store to global memory. -/
def storeGlobal : LaneSem := fun e x s =>
  ((roomS x s).bind fun _ => (readSrcs e x s).bind fun v =>
    let n := typeBytes e.f.typ
    let va := e.addr64 v.a n
    (checkGlobal va n .write).bind fun _ => (checkOwner x s va n).bind fun _ =>
    (s.translate x va .write).bind fun (pa, cls) => (checkPath s pa va .write).bind fun _ =>
    (Got.ofOption (s.laneStore x.c (s.team x.c x.t).part pa n (v.b.toNat % 2 ^ (8 * n)) cls (s.thread x).epoch) (.line pa)).bind
      fun (ws, s) => .ok (((s.counted x va .write).popAll x v.pops).issueStore x { writes := ws })).out s

/-- R175: a store to the team's scratchpad. -/
def storeScratch : LaneSem := fun e x s =>
  ((roomS x s).bind fun _ => (readSrcs e x s).bind fun v =>
    let n := typeBytes e.f.typ
    let o := e.addr32 v.a n
    (checkScratch (s.team x.c x.t) o n n .write).bind fun _ =>
    .ok (((s.scratchWrite x.c x.t o n v.b.toNat).popAll x v.pops).issueStore x {})).out s

/-- R173: a store to the scratchpad of a team of the cluster. -/
def storeCluster : LaneSem := fun e x s =>
  ((roomS x s).bind fun _ => (readSrcs e x s).bind fun v =>
    let n := typeBytes e.f.typ
    (clusterTarget e x s v.a n .write).bind fun (c, t, o) =>
    .ok ((((s.scratchWrite c t o n v.b.toNat).hear c t x.c).popAll x v.pops).issueStore x {})).out s

/-- Window words written with the parts of a value, the first lowest (R37); a later read of the path sees them, before any
earlier result in the bypass network (R38). -/
def writeWords (x : Lane) (s : State) (v : Nat) : List Nat → State
  | [] => s
  | i :: is => writeWords x (((s.note x [(i, none)]).touchA x i).modThread x (·.setWord i (BitVec.ofNat 32 v))) (v / 2 ^ 32) is

/-- R176: a write of the register aperture, performed at its path position. -/
def storeAperture : LaneSem := fun e x s =>
  ((readSrcs e x s).bind fun v => (apertureAt e x s v.a .write).bind fun ws =>
    .ok (writeWords x (s.popAll x v.pops) v.b.toNat ws)).out s

def semStG : SlotSem := lanewise storeGlobal
/-- R175: `st.g`. -/
def execStG (f : OpF) (s : State) : Result := issueOp (.stG f) f semStG s
def semStS : SlotSem := lanewise storeScratch
/-- R175: `st.s`. -/
def execStS (f : OpF) (s : State) : Result := issueOp (.stS f) f semStS s
def semStR : SlotSem := lanewise storeAperture
/-- R176: `st.r`. -/
def execStR (f : OpF) (s : State) : Result := issueOp (.stR f) f semStR s
def semStx : SlotSem := lanewise storeCluster
/-- R173: `stx`. -/
def execStx (f : OpF) (s : State) : Result := issueOp (.stx f) f semStx s

/-! Atomics and reductions. -/

/-- The new value of a read-modify-write (R182, R183). -/
def rmw (aop typ old : Nat) (b c : DWord) : Nat :=
  let w := 2 ^ typeBits typ
  match aop with
  | 6 => b.toNat % w
  | 7 => if old == b.toNat % w then c.toNat % w else old
  | _ => (foldStep aop typ (BitVec.ofNat 64 old) b).val.toNat % w

/-- The scope of the release and acquire of an atomic (R184, R249). -/
def OpF.atomScope (f : OpF) : Nat := f.scope

/-- The offset of an atomic: none under `cas` (R182). -/
def atomUnit (f : OpF) : Nat := if f.aop == 7 then 0 else typeBytes f.typ

/-- An ordered atomic leaves the core once the earlier stores of its lane are performed, and carries the epoch of the ordered
atomic before it (R185, R259). -/
def orderedReady (e : Env) (x : Lane) (s : State) : Got Unit :=
  .hold (e.f.bit 9 && !((s.thread x).stores.all (s.ackedAt x.c 3) && (s.core x.c).writes.isEmpty)) .count
/-- The epoch of an atomic of a lane (R259, R270). -/
def atomEpoch (e : Env) (th : Thread) : Nat := if e.f.bit 9 then Nat.max th.epoch th.ordEpoch else th.epoch
/-- After an ordered atomic: what its die has written is tagged for the next one (R259). -/
def State.afterOrdered (s : State) (e : Env) (x : Lane) : State :=
  if !e.f.bit 9 then s
  else
    let (n, s) := s.releasePkg (coreDie x.c)
    s.modThread x fun th => { th with ordEpoch := n }

/-- How an operation reads its sources. -/
abbrev Reads := Env → Lane → State → Got Src

/-- R183: an atomic on global memory, performed at its home. -/
def atomGlobal (reads : Reads := readSrcs) : LaneSem := fun e x s =>
  ((roomL x s).bind fun _ => (reads e x s).bind fun v =>
    let n := typeBytes e.f.typ
    let va := e.addr64 v.a (atomUnit e.f)
    (checkGlobal va n .readWrite).bind fun _ => (checkOwner x s va n).bind fun _ =>
    (Got.check (s.team x.c x.t).det { cause := .detAtomic, addr := va, access := 3 }).bind fun _ =>
    (s.translate x va .readWrite).bind fun (pa, cls) =>
    (orderedReady e x s).bind fun _ => (s.release x e.f.scope).bind fun s =>
    match s.atomicAt x.c pa n cls (atomEpoch e (s.thread x)) fun old => rmw e.f.aop e.f.typ old v.b v.c with
    | none => .wait (.line pa)
    | some (w, bad, s) =>
      ((s.afterOrdered e x).acquire x e.f.scope).bind fun s =>
      .ok (((s.counted x va .readWrite).popAll x v.pops).issueLoad x
        { words := loadWords e.f.d.toNat e.f.typ (BitVec.ofNat 64 w), addr := va, poisoned := bad, ordered := e.f.bit 9 })).out s

/-- R183: an atomic in a scratchpad bank. -/
def atomScratch (reads : Reads := readSrcs) : LaneSem := fun e x s =>
  ((roomL x s).bind fun _ => (reads e x s).bind fun v =>
    let n := typeBytes e.f.typ
    let o := e.addr32 v.a (atomUnit e.f)
    (checkScratch (s.team x.c x.t) o n n .readWrite).bind fun _ => (readScratch s x.c x.t o n).bind fun w =>
    (s.release x e.f.scope).bind fun s =>
    ((s.scratchWrite x.c x.t o n (rmw e.f.aop e.f.typ w v.b v.c)).acquire x e.f.scope).bind fun s =>
    .ok ((s.popAll x v.pops).issueLoad x { words := loadWords e.f.d.toNat e.f.typ (BitVec.ofNat 64 w), addr := o,
                                           ordered := e.f.bit 9 })).out s

/-- The sort key of a held reduction (R321). -/
def heldKey (x : Lane) (s : State) : List Nat :=
  let g := s.group x.c x.t x.g
  let step := (s.thread x).step
  match g.task with
  | none => [0, (s.team x.c x.t).index, 0, 0, 0, x.g, step, x.l]
  | some i => [1, i.tileZ, i.tileY, i.tileX, i.record, x.g, step, x.l]

/-- A reduction held in the core's buffer until the next flush point, after its release: it counts as acknowledged at once, and its
write carries the epoch of its lane (R187, R249, R270, R321, R337). -/
def holdRed (e : Env) (x : Lane) (s : State) (scratch : Bool) (addr cls : Nat) (v : DWord) : Got State :=
  (Got.hold ((s.core x.c).held.length ≥ 4096) .count).bind fun _ => (s.release x e.f.scope).bind fun s =>
  let g := s.group x.c x.t x.g
  let r : HeldRed :=
    { team := x.t, group := x.g, scope := (g.task.map (·.scope)).getD 0, sgen := (g.task.map (·.sgen)).getD 0,
      task := g.task.isSome, key := heldKey x s, scratch := scratch, addr := addr, cls := cls, val := v, aop := e.f.aop, typ := e.f.typ,
      epoch := (s.thread x).epoch }
  .ok ((s.modCore x.c fun k => { k with held := k.held ++ [r] }).modThread x fun th => { th with step := th.step + 1 })

/-- R186: a reduction to global memory. -/
def redGlobal (reads : Reads := readSrcs) : LaneSem := fun e x s =>
  ((roomS x s).bind fun _ => (reads e x s).bind fun v =>
    let n := typeBytes e.f.typ
    let va := e.addr64 v.a n
    (checkGlobal va n .readWrite).bind fun _ => (checkOwner x s va n).bind fun _ =>
    (s.translate x va .readWrite).bind fun (pa, cls) => (checkPath s pa va .readWrite).bind fun _ =>
    if (s.team x.c x.t).det then (holdRed e x s false pa cls v.b).bind fun s => .ok ((s.counted x va .readWrite).popAll x v.pops)
    else
      (s.release x e.f.scope).bind fun s =>
      match s.atomicAt x.c pa n cls (s.thread x).epoch fun old => rmw e.f.aop e.f.typ old v.b 0 with
      | none => .wait (.line pa)
      | some (_, _, s) => .ok (((s.counted x va .readWrite).popAll x v.pops).issueStore x {})).out s

/-- R186: a reduction to scratchpad. -/
def redScratch (reads : Reads := readSrcs) : LaneSem := fun e x s =>
  ((roomS x s).bind fun _ => (reads e x s).bind fun v =>
    let n := typeBytes e.f.typ
    let o := e.addr32 v.a n
    (checkScratch (s.team x.c x.t) o n n .readWrite).bind fun _ =>
    if (s.team x.c x.t).det then (holdRed e x s true o 3 v.b).bind fun s => .ok (s.popAll x v.pops)
    else
      (readScratch s x.c x.t o n).bind fun w => (s.release x e.f.scope).bind fun s =>
      .ok (((s.scratchWrite x.c x.t o n (rmw e.f.aop e.f.typ w v.b 0)).popAll x v.pops).issueStore x {})).out s

/-- Lanes in an order that nothing fixes (log 5). -/
def State.shuffle (s : State) : List Lane → List Lane × State
  | [] => ([], s)
  | x :: xs =>
    let (ys, s) := s.shuffle xs
    if ys.isEmpty then ([x], s)
    else
      let (n, s) := s.choose (ys.length + 1)
      (ys.take n ++ x :: ys.drop n, s)

/-- What each lane of a slot reads, where the lanes perform in the order of R108: the heads that its channels have in its turn
(R199). -/
def laneReads (sem : LaneSem) (e : Env) (lanes : List Lane) (s : State) : List (Lane × Src) :=
  (lanes.foldl (fun (acc, got) x =>
    (laneStep sem e lanes acc x, match readSrcs e x (acc.1.enter x) with
      | .ok v => (x, v) :: got
      | _ => got)) ((s, ([] : Faults)), ([] : List (Lane × Src)))).2

/-- A read-modify-write of several lanes: they read their sources in the order of R108, and those that perform reach their
locations in an order that is unpredictable (R10, R183, R186). Where the order chosen would make a lane wait, it is that of R108. -/
def anyOrder (sem : Reads → LaneSem) : SlotSem := fun e lanes s =>
  let plain := lanewise (sem readSrcs) e lanes s
  let done := lanes.filter fun x => (plain.1.thread x).pos.wait.isNone && plain.2.all fun q => q.1 != x
  if done.length ≤ 1 then plain
  else
    let reads := laneReads (sem readSrcs) e lanes s
    let given : Reads := fun _ x _ => Got.ofOption ((reads.find? fun q => q.1 == x).map (·.2)) .turn
    let (order, t) := s.shuffle done
    let (t, fs) := order.foldl (laneStep (sem given) e []) (t, [])
    if !fs.isEmpty || order.any fun x => (t.thread x).pos.wait.isSome then plain
    else (lanes.filter fun x => !done.contains x).foldl (laneStep (sem readSrcs) e lanes) (t, [])

/-- The lanes of a reduction: outside deterministic mode those in a floating-point format arrive in an unpredictable order; in
another one no order of arrival shows (R186). -/
def redOrder (sem : Reads → LaneSem) : SlotSem := fun e lanes s =>
  if e.f.typ ≥ 10 && lanes.all fun x => !(s.team x.c x.t).det then anyOrder sem e lanes s else lanewise (sem readSrcs) e lanes s

def semAtomG : SlotSem := anyOrder fun r => atomGlobal r
/-- R183: `atom` on global memory. -/
def execAtomG (f : OpF) (s : State) : Result := issueOp (.atomG f) f semAtomG s
def semAtomS : SlotSem := anyOrder fun r => atomScratch r
/-- R183: `atom` on scratchpad. -/
def execAtomS (f : OpF) (s : State) : Result := issueOp (.atomS f) f semAtomS s
def semRedG : SlotSem := redOrder fun r => redGlobal r
/-- R186: `red` on global memory. -/
def execRedG (f : OpF) (s : State) : Result := issueOp (.redG f) f semRedG s
def semRedS : SlotSem := redOrder fun r => redScratch r
/-- R186: `red` on scratchpad. -/
def execRedS (f : OpF) (s : State) : Result := issueOp (.redS f) f semRedS s

/-! Raw affine moves. -/

/-- A range of global memory read 8 bytes at a time, each translated (R241). -/
def readRange (x : Lane) (va : Nat) : Nat → State → Got (Nat × Bool × State)
  | 0, s => .ok (0, false, s)
  | n + 1, s =>
    (s.translate x va .read).bind fun (pa, cls) =>
    match s.laneLoad x.c pa 8 cls true with
    | none => .wait (.line pa)
    | some (v, bad, s) => (readRange x (va + 8) n s).bind fun (w, b, s) => .ok (v + 2 ^ 64 * w, bad || b, s)

/-- Every 8 bytes of a range translate for an access: no byte is touched before. -/
def rangeOk (x : Lane) (s : State) (va : Nat) (a : Access) : Nat → Got Unit
  | 0 => .ok ()
  | n + 1 => (s.translate x va a).bind fun _ => rangeOk x s (va + 8) a n

/-- A range of global memory written 8 bytes at a time, with the writes still to be performed. -/
def writeRange (x : Lane) (va v : Nat) : Nat → State → Got (List Nat × State)
  | 0, s => .ok ([], s)
  | n + 1, s =>
    (s.translate x va .write).bind fun (pa, cls) => (checkPath s pa va .write).bind fun _ =>
    (Got.ofOption (s.laneStore x.c (s.team x.c x.t).part pa 8 (v % 2 ^ 64) cls (s.thread x).epoch) (.line pa)).bind fun (ws, s) =>
    (writeRange x (va + 8) (v / 2 ^ 64) n s).bind fun (vs, s) => .ok (ws ++ vs, s)

/-- The 128 bytes from an address lie below 2^48 (R36, R241). -/
def checkWide (va : Nat) (a : Access) : Got Unit :=
  if va + 128 > 2 ^ 48 then .fault { cause := .addrNoncanon, addr := va, access := accessCode a } else checkGlobal va 8 a

/-- R241: the 128 raw bytes of an affine register loaded. -/
def semAld : SlotSem := lanewise fun e x s =>
  ((roomL x s).bind fun _ => (readSrcs e x s).bind fun v =>
    let words (w : Nat) : List (Nat × Word) :=
      (List.range 32).map fun i => (256 + 32 * e.f.d.toNat + i, BitVec.ofNat 32 (w / 2 ^ (32 * i)))
    if e.f.bit 0 then
      let o := e.addr32 v.a 128
      (checkScratch (s.team x.c x.t) o 128 8 .read).bind fun _ => (readScratch s x.c x.t o 128).bind fun w =>
      .ok (s.issueLoad x { words := words w, addr := o })
    else
      let va := e.addr64 v.a 128
      (checkWide va .read).bind fun _ => (rangeOk x s va .read 16).bind fun _ =>
      (readRange x va 16 s).bind fun (w, bad, s) =>
      .ok ((s.counted x va .read).issueLoad x { words := words w, addr := va, poisoned := bad })).out s
def execAld (f : OpF) (s : State) : Result := issueOp (.ald f) f semAld s

/-- R241: the 128 raw bytes of an affine register stored. -/
def semAst : SlotSem := lanewise fun e x s =>
  ((roomS x s).bind fun _ => (readSrcs e x s).bind fun v => (readAff x s (srcIdx e.f.s2)).bind fun r =>
    if e.f.bit 0 then
      let o := e.addr32 v.a 128
      (checkScratch (s.team x.c x.t) o 128 8 .write).bind fun _ =>
      .ok ((s.scratchWrite x.c x.t o 128 r.toNat).issueStore x {})
    else
      let va := e.addr64 v.a 128
      (checkWide va .write).bind fun _ => (checkOwner x s va 128).bind fun _ => (rangeOk x s va .write 16).bind fun _ =>
      (writeRange x va r.toNat 16 s).bind fun (ws, s) => .ok ((s.counted x va .write).issueStore x { writes := ws })).out s
def execAst (f : OpF) (s : State) : Result := issueOp (.ast f) f semAst s

/-! Replies and acknowledgements. -/

/-- A load's data can be delivered now: it is no message without its reply, and it is not poisoned (R179, R235). -/
def Load.ready (o : Load) : Bool := o.pending.isNone && !o.poisoned

/-- R35: the data of a load, returning atomic or arrive is written to its destination, and L falls by one. -/
def execLoadReply (c t g l i : Nat) (s : State) : Result :=
  let x : Lane := { c := c, t := t, g := g, l := l }
  match (s.thread x).loads[i]? with
  | none => .refused .notEnabled
  | some o =>
    if !o.ready then .refused .notEnabled
    else
      let s := o.words.foldl (fun s w => s.touchA x w.1) s
      let put (th : Thread) : Thread :=
        { th with win := o.words.foldl (fun w p => w.set p.1 p.2) th.win, loads := th.loads.eraseIdx i }
      .next ((s.modThread x put).wake x)

/-- R267: a store or reduction is acknowledged, and S falls by one. -/
def execStoreAck (c t g l i : Nat) (s : State) : Result :=
  let x : Lane := { c := c, t := t, g := g, l := l }
  match (s.thread x).stores[i]? with
  | none => .refused .notEnabled
  | some o =>
    if !s.ackReady c o then .refused .notEnabled
    else .next (((s.modThread x fun th => { th with stores := th.stores.eraseIdx i }).wake x).settle c t g)

/-- R202: a peer send is appended to the target queue, in the order of the group's sends to it, and S falls by one
(R108, log 46). -/
def execPeerSendAppend (c t g l i : Nat) (s : State) : Result :=
  let x : Lane := { c := c, t := t, g := g, l := l }
  match (s.thread x).stores[i]? with
  | none => .refused .notEnabled
  | some o =>
    match o.send with
    | none => .refused .notEnabled
    | some (core, key, depth, w) =>
      let before := (s.group c t g).threads.any fun (_, th) => th.stores.any fun p => match p.send with
        | some (d, q, _, _) => d == core && q == key && p.seq < o.seq
        | none => false
      let done (s : State) : State :=
        ((s.modThread x fun th => { th with stores := th.stores.eraseIdx i }).wake x).settle c t g
      match s.clusterTeam core (s.team c t) with
      | none => .next (done s)
      | some u =>
        if before || ((s.team core u).queue key).words.length ≥ depth then .refused .notEnabled
        else if (s.team core u).over then .next (done s)
        else .next (done ((s.pushQueue core u key w).hear core u c))

/-- The lane waits for a walk of a page for an access. -/
def waitsWalk (th : Thread) (va : Nat) (a : Access) : Bool :=
  match th.pos.wait with
  | some (.walk v b) => v / 2 ^ 16 == va / 2 ^ 16 && b == a
  | _ => false

/-- The lanes of a core that wait for the walk of a page for one kind of access. -/
def State.walkers (s : State) (c va : Nat) (a : Access) : List Lane :=
  (s.core c).teams.flatMap fun (t, k) => k.groups.flatMap fun (g, q) => q.threads.filterMap fun (l, th) =>
    if waitsWalk th va a then some { c := c, t := t, g := g, l := l } else none

/-- What a walk finds for one kind of access reaches the lanes of a partition that wait for it: the translation is held, or they get
its cause; none while a line is not served. -/
def State.walkFor (s : State) (c p va : Nat) (a : Access) : Option State :=
  match (s.walkers c va a).filter fun y => (s.team c y.t).part == p with
  | [] => some s
  | ls =>
    match s.walk p (coreDie c) va (Need.of a) with
    | .blocked => none
    | .ok y s => some (ls.foldl (fun s z => s.wake z) (s.modCore c fun k => k.hold y))
    | .fault k s => some (ls.foldl (fun s z => (s.modPos z fun q => { q with wait := some (.walkFault va k) }).wake z) s)

/-- R291: a page-table walk for a missing translation completes. The lanes that miss the page share it, whatever they do there, and
each has its permissions checked (R292, R293). -/
def execTranslationWalk (c : Nat) (va : Addr) (a : Access) (s : State) : Result :=
  match s.walkers c va.toNat a with
  | [] => .refused .notEnabled
  | x :: _ =>
    let p := (s.team c x.t).part
    match s.walkFor c p va.toNat a with
    | none => .refused .notEnabled
    | some s => .next (([.read, .write, .readWrite].filter (· != a)).foldl (fun s b => (s.walkFor c p va.toNat b).getD s) s)

end Sys2Proof.Machine
end

