-- ==== Sys2Proof/Machine/Sync.lean ====
section
/-!
DEFINITION. Synchronisation: fences and `wait` (R188 to R190), barriers with their opening, timeout and release (R191,
R192, R322, R323), barrier objects (R193 to R196), `yield` (R142), channel binding (R201) and futures (R203 to R205).
-/
namespace Sys2Proof.Machine

/-! Fences and counters. -/

/-- At most n loads of the lane are outstanding; one whose data cannot be delivered is MEM_ERROR where it stands in the
way (R179, R189). -/
def waitLoads (x : Lane) (s : State) (n : Nat) : Got Unit :=
  let ls := (s.thread x).loads
  match ls.filter (·.poisoned) with
  | o :: os => if os.length + 1 > n then .fault { cause := .memError, addr := o.addr, access := 1 }
      else .hold (ls.length > n) .count
  | [] => .hold (ls.length > n) .count

/-- Every earlier load of the lane has returned (R188); one whose data cannot be delivered has, and is reported at a read or
a `wait` alone (R179). -/
def loadsBack (x : Lane) (s : State) : Got Unit := .hold ((s.thread x).loads.any fun o => !o.poisoned) .count
/-- `fence.rel` of a lane at a scope (R188). -/
def relLane (x : Lane) (scope : Nat) (s : State) : Got State := (loadsBack x s).bind fun _ => s.release x scope
/-- `fence.acq` of a lane at a scope (R188). -/
def acqLane (x : Lane) (scope : Nat) (s : State) : Got State := (loadsBack x s).bind fun _ => s.acquire x scope

def semFenceAcq : SlotSem := lanewise fun e x s => (acqLane x e.f.scope s).out s
/-- R188: `fence.acq`. -/
def execFenceAcq (f : OpF) (s : State) : Result := issueOp (.fenceAcq f) f semFenceAcq s
def semFenceRel : SlotSem := lanewise fun e x s => (relLane x e.f.scope s).out s
/-- R188: `fence.rel`. -/
def execFenceRel (f : OpF) (s : State) : Result := issueOp (.fenceRel f) f semFenceRel s
def semFenceAr : SlotSem := lanewise fun e x s => ((relLane x e.f.scope s).bind fun s => acqLane x e.f.scope s).out s
/-- R188: `fence.ar`. -/
def execFenceAr (f : OpF) (s : State) : Result := issueOp (.fenceAr f) f semFenceAr s

/-- The stale record of a group constrains a `wait` (R190). -/
def staleWait (f : OpF) (g : Group) : Option Stale :=
  match g.stale with
  | some r => if (if r.isT then f.s3.toNat else f.s2.toNat) < 63 then some r else none
  | none => none

/-- R189: `wait` in one lane. -/
def waitLane : LaneSem := fun e x s =>
  let g := s.group x.c x.t x.g
  (match staleWait e.f g with
    | some r => Got.fault { cause := .barStale, addr := r.addr }
    | none => (waitLoads x s e.f.d.toNat).bind fun _ =>
        (Got.hold ((s.thread x).stores.length > e.f.s1.toNat || g.cCount > e.f.s2.toNat || g.tCount > e.f.s3.toNat) .count).bind
          fun _ => .ok (if e.f.s3.toNat < 63 then s.seesCount x e.f.s3.toNat else s)).out s

/-- R189, R190: the lanes of the slot wait, and a stale record that stopped them is cleared. -/
def semWait : SlotSem := groupwise fun e lanes s =>
  match lanes with
  | [] => (s, [])
  | x :: _ =>
    let hit := (staleWait e.f (s.group x.c x.t x.g)).isSome
    let (s, fs) := lanewise waitLane e lanes s
    (if hit then s.modGroup x.c x.t x.g fun g => { g with stale := none } else s, fs)
def execWait (f : OpF) (s : State) : Result := issueOp (.wait f) f semWait s

/-! Held reductions. -/

/-- Keys compared field by field from the left (R321). -/
def keyBefore : List Nat → List Nat → Bool
  | [], [] => false
  | [], _ :: _ => true
  | _ :: _, [] => false
  | a :: as, b :: bs => a < b || (a == b && keyBefore as bs)

/-- One element inserted by its key, after its equals. -/
def insertKey {α : Type} (key : α → List Nat) (a : α) : List α → List α
  | [] => [a]
  | b :: r => if keyBefore (key a) (key b) then a :: b :: r else b :: insertKey key a r
def sortKey {α : Type} (key : α → List Nat) (xs : List α) : List α := xs.foldl (fun acc a => insertKey key a acc) []

/-- The record of a held reduction that finds its word in error: its lane has gone on, so the record has no lane, as that of an engine
operation has none (R281, log 34). -/
def State.heldUe (s : State) (c : Nat) (r : HeldRed) : State :=
  let k := s.team c r.team
  s.coalesce c { id := 0, cause := .storeUe, event := true, access := accessCode .readWrite, addr := r.addr, grid := k.launch,
                 team := k.index, core := c, group := r.group, teamSlot := r.team, isOpen := false }

/-- A held reduction of core c performed at its location (R260, R322). -/
def State.applyHeld (s : State) (c : Nat) (r : HeldRed) : Option State :=
  let n := typeBytes r.typ
  if r.scratch then
    if r.addr + n > (s.team c r.team).scratchSize then some s
    else if s.scratchBad c r.team r.addr n then some (s.heldUe c r)
    else some (s.scratchWrite c r.team r.addr n (rmw r.aop r.typ (s.scratchRead c r.team r.addr n) r.val 0))
  else (s.atomicAt c r.addr n r.cls r.epoch fun old => rmw r.aop r.typ old r.val 0).map (·.2.2)

/-- Held reductions performed in order. -/
def State.applyAll (s : State) : List (Nat × HeldRed) → Option State
  | [] => some s
  | (c, r) :: rs =>
    match s.applyHeld c r with
    | none => none
    | some s => s.applyAll rs

/-- The held reductions that a flush point covers, by core. -/
def State.heldBy (s : State) (p : Nat → HeldRed → Bool) : List (Nat × HeldRed) :=
  s.cores.flatMap fun (c, k) => (k.held.filter (p c)).map fun r => (c, r)

/-- The order in which the reductions of several cores reach their homes, each core's own in order: unpredictable between
cores (R322, log 5). -/
def State.merge (s : State) : Nat → List (List (Nat × HeldRed)) → List (Nat × HeldRed) × State
  | 0, _ => ([], s)
  | n + 1, qs =>
    match qs.filter fun q => !q.isEmpty with
    | [] => ([], s)
    | [q] => (q, s)
    | qs =>
      let (i, s) := s.choose qs.length
      let (rest, s) := State.merge s n (qs.zipIdx.map fun (q, j) => if j == i then q.drop 1 else q)
      ((qs.getD i []).take 1 ++ rest, s)

/-- A group in its slot is the one that held a reduction: a launch group, or the task group of its record and tile (R321). -/
def Group.holder (q : Group) (r : HeldRed) : Bool :=
  match q.task with
  | none => !r.task
  | some i => r.task && r.key.take 5 == [1, i.tileZ, i.tileY, i.tileX, i.record]
/-- The lanes of a group count their held reductions from zero (R321). -/
def Group.restep (q : Group) : Group := { q with threads := q.threads.map fun (l, th) => (l, { th with step := 0 }) }

/-- A flush point (R322): the covered reductions leave the buffers and are performed, in key order over all cores where
the homes sort them, else in each core's key order. The step of their lanes starts again (R321). -/
def State.flush (s : State) (p : Nat → HeldRed → Bool) (homes : Bool) : Option State :=
  let all := s.heldBy p
  if all.isEmpty then some s
  else
    let sorted := sortKey (fun q : Nat × HeldRed => q.2.key) all
    let (order, s) := if homes then (sorted, s)
      else s.merge all.length (s.cores.map fun (c, _) => sorted.filter fun q => q.1 == c)
    let hits (c t g : Nat) (q : Group) : Bool := all.any fun (d, r) => d == c && r.team == t && r.group == g && q.holder r
    let groups (c t : Nat) (gs : Table Group) : Table Group :=
      gs.map fun (g, q) => (g, if hits c t g q then q.restep else q)
    let core (c : Nat) (k : Core) : Core :=
      let teams := k.teams.map fun (t, m) => (t, { m with groups := groups c t m.groups })
      { k with held := k.held.filter fun r => !p c r, teams := teams }
    let s := { s with cores := s.cores.map fun (c, k) => (c, core c k) }
    s.applyAll order

/-! Barriers. -/

/-- The scope of a barrier's fences (R191). -/
def barScope (k : BarKind) (f : OpF) : Nat :=
  match k with
  | .team => 1
  | .cluster => 2
  | .grid => f.scope

/-- The teams of a grid, as core and team slot. -/
def State.gridTeams (s : State) (p g : Nat) : List (Nat × Nat) :=
  s.cores.flatMap fun (c, k) => k.teams.filterMap fun (t, m) => if m.part == p && m.grid == g then some (c, t) else none

/-- The teams whose launch groups take part in a barrier of a team (R191). -/
def State.barTeams (s : State) (c t : Nat) (k : BarKind) : List (Nat × Nat) :=
  match k with
  | .team => [(c, t)]
  | .cluster => s.clusterTeams c t
  | .grid => s.gridTeams (s.team c t).part (s.team c t).grid

/-- The threads of a team that take part: those of its launch groups that have not exited (R191, R314). -/
def State.barLanes (s : State) (c t : Nat) : List Lane :=
  (s.team c t).groups.flatMap fun (g, q) =>
    if q.task.isSome then []
    else q.threads.filterMap fun (l, th) => if th.run == .exited then none else some { c := c, t := t, g := g, l := l }

/-- A thread has arrived at a barrier of a kind and waits. -/
def State.atBar (s : State) (k : BarKind) (x : Lane) : Bool :=
  (s.thread x).pos.arrived && (s.thread x).pos.wait == some (.barrier k)

/-- An instance begins in every team that takes part and has none of its kind (R192). -/
def State.openBar (s : State) (c t : Nat) (k : BarKind) (pc : Addr) (tree : Bool) : State :=
  (s.barTeams c t k).foldl (fun s (d, u) =>
    if (s.team d u).bars.any fun b => b.kind == k then s
    else
      let now := s.clocks d u
      s.modTeam d u fun m => { m with bars := { kind := k, pc := pc, tree := tree, first := now } :: m.bars }) s

/-- One thread arrives at a barrier: the release first, then the arrival (R191, R192, R314). -/
def arriveBar (k : BarKind) (e : Env) (x : Lane) (s : State) : Got State :=
  (Got.check (s.group x.c x.t x.g).task.isSome { cause := .taskBar }).bind fun _ =>
  (relLane x (barScope k e.f) s).bind fun s =>
  (Got.check ((s.barTeams x.c x.t k).any fun (d, u) => (s.team d u).bars.any fun b => b.kind == k && b.pc != e.pc)
    { cause := .barMismatch }).bind fun _ =>
  .ok (((markWait e x (.barrier k) s).modPos x fun p => { p with arrived := true }).openBar x.c x.t k e.pc e.tree)

/-- R191: a barrier: lanes that have not arrived do, and every lane waits until it is released. -/
def semBarrier (k : BarKind) : SlotSem := fun e lanes s =>
  lanes.foldl (fun (s, fs) x =>
    if (s.thread x).pos.wait == some (.barrier k) then (s, fs)
    else
      match arriveBar k e x s with
      | .ok s' => (s', fs)
      | .wait w => (markWait e x w s, fs)
      | .fault i => (s, fs ++ [(x, i, false)])) (s, [])

def semBar : SlotSem := semBarrier .team
/-- R191: `bar`. -/
def execBar (f : OpF) (s : State) : Result := issueOp (.bar f) f semBar s
def semBarClu : SlotSem := semBarrier .cluster
/-- R191: `bar.clu`. -/
def execBarClu (f : OpF) (s : State) : Result := issueOp (.barClu f) f semBarClu s
def semBarGrid : SlotSem := semBarrier .grid
/-- R191: `bar.grid`. -/
def execBarGrid (f : OpF) (s : State) : Result := issueOp (.barGrid f) f semBarGrid s

/-- Every participant that has not exited has arrived at one address, one waits, and no team of them is saved: such a
barrier opens at restore (R191, R192, R338). -/
def State.barReady (s : State) (c t : Nat) (k : BarKind) : Bool :=
  let ts := s.barTeams c t k
  let ls := ts.flatMap fun (d, u) => s.barLanes d u
  let pc : Option Addr := ls.head?.map fun x => (s.thread x).pc
  !ls.isEmpty && ls.all (fun x => s.atBar k x && some (s.thread x).pc == pc) && ts.all fun (d, u) => (s.team d u).savedAt.isNone

/-- The flush of a barrier in deterministic mode (R322). -/
def State.flushBar (s : State) (c t : Nat) (k : BarKind) : Option State :=
  if !(s.team c t).det then some s
  else
    let ts := s.barTeams c t k
    s.flush (fun d r => !r.task && ts.contains (d, r.team)) (k == .grid)

/-- The groups of opened barriers of one flask that wait for release, in the order of R323. -/
def State.releaseOrder (s : State) (fl : Nat) (ts : List (Nat × Nat)) : List (Nat × Nat × Nat) :=
  let gs := (ts.filter fun (d, _) => coreFlask d == fl).flatMap fun (d, u) =>
    ((s.team d u).groups.filter fun (_, q) => q.task.isNone).map fun (g, _) => (d, u, g)
  sortKey (fun (d, u, g) => [(s.team d u).cluster, d, (s.team d u).index, g]) gs

/-- R191, R323: the barrier of a team opens; its groups wait for the Pavane controllers. -/
def execBarrierOpen (c t : Nat) (k : BarKind) (s : State) : Result :=
  if !((s.team c t).bars.any fun b => b.kind == k) || !s.barReady c t k then .refused .notEnabled
  else
    match s.flushBar c t k with
    | none => .refused .notEnabled
    | some s =>
      let ts := s.barTeams c t k
      let s := ts.foldl (fun s (d, u) =>
        let s := (s.barLanes d u).foldl (fun s x => s.modPos x fun p => { p with arrived := false }) s
        s.modTeam d u fun m => { m with bars := m.bars.filter fun b => b.kind != k }) s
      .next ((ts.map fun (d, _) => coreFlask d).eraseDups.foldl (fun s fl =>
        let gs := s.releaseOrder fl ts
        s.modFlask fl fun q => { q with release := q.release ++ gs, nextAt := if q.release.isEmpty then s.now else q.nextAt }) s)

/-- The barrier at which a thread waits to be released. -/
def Thread.opened (th : Thread) : Option BarKind :=
  match th.pos.wait with
  | some (.barrier k) => if th.pos.arrived then none else some k
  | _ => none

/-- The threads of a released group perform their acquire and become Ready (R191, R323). -/
def State.depart (s : State) (c t g : Nat) : Option State :=
  (s.group c t g).threads.foldl (fun acc (l, th) =>
    match acc, th.opened with
    | some s, some k =>
      let x : Lane := { c := c, t := t, g := g, l := l }
      match s.rejoin x (barScope k { OpF.zero with mod := 0x30 }) with
      | .ok s =>
        let go (th : Thread) : Thread := { th with run := .ready, pos := { th.pos with
          slot := th.pos.slot + 1, wait := none, hist := [] :: th.pos.hist.take 3 } }
        some (((s.modThread x go).wake x).count c 0x03 t 1)
      | _ => none
    | acc, _ => acc) (some s)

/-- R323: a release step of a Pavane controller. -/
def execPavaneReleaseStep (fl : Nat) (s : State) : Result :=
  let q := s.flask fl
  if q.release.isEmpty || s.now < q.nextAt then .refused .notEnabled
  else
    let n := if q.gap == 0 then q.release.length else Nat.max 1 q.step.toNat
    let s' := (q.release.take n).foldl (fun acc (d, u, g) => acc.bind fun s => s.depart d u g) (some s)
    match s' with
    | none => .refused .notEnabled
    | some s => .next (s.modFlask fl fun q => { q with release := q.release.drop n, nextAt := s.now + q.gap.toNat })

/-- The instance of a team is forgotten, and that of every team of it once no thread waits there (R192, log 51). -/
def State.dropBar (s : State) (c t : Nat) (k : BarKind) : State :=
  let drop (s : State) (q : Nat × Nat) : State := s.modTeam q.1 q.2 fun m => { m with bars := m.bars.filter fun b => b.kind != k }
  let s := drop s (c, t)
  let ts := s.barTeams c t k
  if (ts.flatMap fun (d, u) => s.barLanes d u).any (s.atBar k) then s else ts.foldl drop s

/-- R192: a team whose count at a barrier instance has reached its limit withdraws its arrivals. -/
def execBarTimeout (c t : Nat) (k : BarKind) (s : State) : Result :=
  match (s.team c t).bars.find? fun b => b.kind == k with
  | none => .refused .notEnabled
  | some b =>
    if k == .grid || s.barReady c t k || s.clocks c t < b.first + (s.team c t).limit then .refused .notEnabled
    else
      let ls := sortLanes ((s.barLanes c t).filter (s.atBar k))
      let xs := ls.map fun x =>
        (x, ({ pc := b.pc, tree := b.tree, slot := if b.tree then (s.thread x).pos.slot else 0 } : At), ({ cause := .barTimeout } : FaultInfo))
      .next ((s.exceptAll c xs).dropBar c t k)

/-! Barrier objects. -/

/-- The object after an arrival with a tag; none when the arrival is dropped (R193, R194). -/
def arrival (tag : Word) (o : Nat) : Option Nat :=
  let word (i : Nat) : Nat := o / 2 ^ (32 * i) % 2 ^ 32
  let expect := word 1
  if expect == 0 || word 0 != tag.toNat then none
  else
    let r := (if word 2 == 0 || word 2 > expect then expect else word 2) - 1
    let (remain, phase) := if r == 0 then (expect, (word 3 + 1) % 2 ^ 32) else (r, word 3)
    some (word 0 + 2 ^ 32 * expect + 2 ^ 64 * remain + 2 ^ 96 * phase)

/-- What an access to a barrier object answers: its 128 bits, whether they are poisoned, and the state after. -/
abbrev ObjAt := Got (Nat × Bool × State)

/-- A barrier object in scratchpad or global memory, at its address, as a read-modify-write performs it (R183, R194). -/
def objectRmw (x : Lane) (s : State) (spc : Bool) (a : Nat) (owner : Bool) (g : Nat → Nat) : ObjAt :=
  if spc then
    (checkScratch (s.team x.c x.t) a 16 16 .readWrite).bind fun _ => (readScratch s x.c x.t a 16).bind fun v =>
    .ok (v, false, if g v == v then s else s.scratchWrite x.c x.t a 16 (g v))
  else
    (checkGlobal a 16 .readWrite).bind fun _ =>
    (if owner then checkOwner x s a 16 else .ok ()).bind fun _ => (s.translate x a .readWrite).bind fun (pa, cls) =>
    (Got.ofOption (s.atomicAt x.c pa 16 cls (if owner then (s.thread x).epoch else 0) g) (.line pa)).bind fun (v, bad, s) =>
    .ok (v, bad, s.counted x a .readWrite)

/-- The address of the object that an operation names (R195). -/
def objectAddr (e : Env) (base : DWord) : Nat := if e.f.bit 7 then e.addr32 base 16 else e.addr64 base 16

/-- R195: a release, then one arrival; D gets the phase before it. -/
def semArrive : SlotSem := lanewise fun e x s =>
  ((roomL x s).bind fun _ => (readSrcs e x s).bind fun v =>
    let a := objectAddr e v.a
    let tag : Word := v.b.setWidth 32
    (relLane x e.f.scope s).bind fun s =>
    (objectRmw x s (e.f.bit 7) a true fun o => (arrival tag o).getD o).bind fun (o, bad, s) =>
    if !bad && (arrival tag o).isNone then .fault { cause := .barStale, addr := a }
    else .ok (s.issueLoad x { words := [(e.f.d.toNat, BitVec.ofNat 32 (o / 2 ^ 96))], addr := a, poisoned := bad })).out s
def execArrive (f : OpF) (s : State) : Result := issueOp (.arrive f) f semArrive s

/-- The stale record of a group names an object (R190, R196). -/
def Group.staleAt (g : Group) (spc : Bool) (a : Nat) : Bool := g.stale.any fun r => r.spc == spc && r.addr == a

/-- R196: `waitbar` in one lane. DESIGN CHOICE (log 55): a PHASE different from the token is looked at before an EXPECT of 0. -/
def waitbarLane : LaneSem := fun e x s =>
  ((readSrcs e x s).bind fun v =>
    let a := objectAddr e v.a
    (Got.check ((s.group x.c x.t x.g).staleAt (e.f.bit 7) a) { cause := .barStale, addr := a }).bind fun _ =>
    (objectRmw x s (e.f.bit 7) a false id).bind fun (o, bad, s') =>
    if bad then .fault { cause := .memError, addr := a, access := 1 }
    else if o / 2 ^ 96 != v.b.toNat % 2 ^ 32 then acqLane x e.f.scope (s'.seesBar x (e.f.bit 7) a)
    else if o / 2 ^ 32 % 2 ^ 32 == 0 then .fault { cause := .barStale, addr := a }
    else .wait .waitbar).out s

/-- R196, R190: a stale record that a `waitbar` met is cleared once the lanes of the slot have parked. -/
def semWaitbar : SlotSem := groupwise fun e lanes s =>
  let (s, fs) := lanewise waitbarLane e lanes s
  match lanes with
  | [] => (s, fs)
  | x :: _ =>
    let met := fs.any fun (_, i, _) => i.cause == .barStale && (s.group x.c x.t x.g).staleAt (e.f.bit 7) i.addr
    (if met then s.modGroup x.c x.t x.g fun g => { g with stale := none } else s, fs)
def execWaitbar (f : OpF) (s : State) : Result := issueOp (.waitbar f) f semWaitbar s

/-! Yield, channels and futures. -/

/-- R142: the wave gives way once the instruction is complete. -/
def semYield : SlotSem := lanewise fun _ x s => .done (s.modPos x fun p => { p with yield := true })
def execYield (f : OpF) (s : State) : Result := issueOp (.yield f) f semYield s

/-- What a binding stores for a value of S1: TGT and DEPTH; none for a value outside the limits (R201). -/
def bindTarget (s : State) (x : Lane) (q kind depth v : Nat) : Option (Nat × Nat) :=
  let k := s.team x.c x.t
  match kind with
  | 0 => some (0, 0)
  | 1 => if v < 512 && v / 64 < k.fifoBanks.length then some (64 * k.fifoBanks.getD (v / 64) 0 + v % 64, depth) else none
  | 2 => if v % 8 == 0 && v + 8 ≤ k.scratchSize then some (v / 8, 1) else none
  | 3 =>
    match ((s.core x.c).ports.get v {}).bound with
    | none => if v < 64 then some (v, depth) else none
    | some b => if v < 64 && b == (x.t, x.g, q) then some (v, depth) else none
  | _ =>
    let cx := v / 2 ^ 10 % 16
    let cy := v / 2 ^ 14 % 8
    if v < 2 ^ 17 && cx < k.cw && cy < k.ch then some (1024 * clusterCore x.c k cx cy + v % 2 ^ 10, 0) else none

/-- A reply port bound to a channel: it keeps its entries where it was bound last for a group of the same team, and holds nothing of
another (R40, R201, log 54). -/
def Port.bind (p : Port) (now t g q : Nat) : Port :=
  let p : Port := if p.owner.all fun o => o.1 == t then p else { since := Nat.max now p.since }
  { p with bound := some (t, g, q), owner := some (t, g) }

/-- A channel of a group bound; the reply port that it leaves is free (R201). -/
def State.bindChan (s : State) (x : Lane) (q kind tgt depth : Nat) : State :=
  let free (p : Nat × Port) : Nat × Port := if p.2.bound == some (x.t, x.g, q) then (p.1, { p.2 with bound := none }) else p
  let s := s.modCore x.c fun k => { k with ports := k.ports.map free }
  let s := if kind == 3 then s.modCore x.c fun k =>
      { k with ports := k.ports.set tgt ((k.ports.get tgt {}).bind s.nextMsg x.t x.g q) }
    else s
  s.modGroup x.c x.t x.g fun g =>
    { g with chans := g.chans.set q { tgt := BitVec.ofNat 32 tgt, depth := BitVec.ofNat 8 depth, kind := BitVec.ofNat 3 kind } }

/-- R201: a channel bound in each represented group. -/
def semCbind : SlotSem := groupwise fun e lanes s =>
  withEach e s (readEach e s e.sh.s1 e.f.s1 lanes) fun ls s => ifUniform ls s fun x lanes v =>
    match bindTarget s x e.f.d.toNat (e.f.bits 2 0) (e.f.bits 12 5) (v.toNat % 2 ^ 32) with
    | none => (s, faultAll lanes { cause := .chanBind })
    | some (tgt, depth) => (doneAll e lanes (s.bindChan x e.f.d.toNat (e.f.bits 2 0) tgt depth), [])
def execCbind (f : OpF) (s : State) : Result := issueOp (.cbind f) f semCbind s

/-- R204: a value written to an empty future slot. -/
def semFput : SlotSem := lanewise fun e x s =>
  ((readSrcs e x s).bind fun v =>
    let o := e.addr32 v.a 8
    (checkScratch (s.team x.c x.t) o 8 8 .write).bind fun _ =>
    (futurePut x s o (v.b.setWidth 32)).bind fun s => .ok (s.popAll x v.pops)).out s
def execFput (f : OpF) (s : State) : Result := issueOp (.fput f) f semFput s

/-- R205, R430: a future's value read; consumed unless it is a peek. -/
def fgetLane (peek : Bool) : LaneSem := fun e x s =>
  ((dstReady e x s).bind fun _ => (readSrcs e x s).bind fun v =>
    let o := e.addr32 v.a 8
    (checkScratch (s.team x.c x.t) o 8 8 .read).bind fun _ => (futureGet x s o peek).bind fun w =>
    let s := s.hears x o
    let s := if peek then s else s.scratchWrite x.c x.t o 8 (futTake (s.future x o))
    .ok (writeDst e x (w.setWidth 64) s)).out s
def semFget : SlotSem := lanewise (fgetLane false)
def execFget (f : OpF) (s : State) : Result := issueOp (.fget f) f semFget s
def semFgetPeek : SlotSem := lanewise (fgetLane true)
def execFgetPeek (f : OpF) (s : State) : Result := issueOp (.fgetPeek f) f semFgetPeek s

end Sys2Proof.Machine
end

