-- ==== Sys2Proof/Machine/AffineOps.lean ====
section
/-!
DEFINITION. The affine instructions (R237 to R241): symbol windows and minting (R103, R239), writing, arithmetic and
readouts. The affine collectives stand with the collectives (R242), the raw moves with memory (R241).
-/
namespace Sys2Proof.Machine

/-- An affine operand as R99 reads it. -/
def affOperand (x : Lane) (s : State) (fld : BitVec 10) : Got (Option AffVal) :=
  (readAff x s (srcIdx fld)).bind fun r => .ok (affRead r)

/-- An operation that writes an affine register and mints nothing (R237). -/
def affLane (g : Env → Lane → State → Got AffReg) : SlotSem := lanewise fun e x s =>
  ((g e x s).bind fun r => .ok (s.putAff x e.f.d.toNat r)).out s

/-- What a lane brings to a minting operation: whether it needs a symbol, and its result with the symbol it takes. -/
abbrev Mint := Bool × (Option Nat → AffReg)

/-- The minting of a result from its exact parts (R102, R103). -/
def Mint.of (p : Option AffParts) : Mint := (affMints p, affResult p)

/-- The lanes of a group write their results in ascending lane id; those that need a symbol take the next one, or none
does where the window holds too few (R103). -/
def mintAll (e : Env) (room : Bool) (lack : Nat) : List (Lane × Mint) → Nat → State → State × Faults
  | [], _, s => (s, [])
  | (x, m) :: rest, n, s =>
    if m.1 && !room then
      let (s, fs) := mintAll e room lack rest n s
      (s, (x, { cause := .affWindow, detail := BitVec.ofNat 32 lack }, false) :: fs)
    else
      let s := doneAll e [x] (s.putAff x e.f.d.toNat (m.2 (if m.1 then some n else none)))
      mintAll e room lack rest (if m.1 then n + 1 else n) s

/-- A minting operation, performed for the lanes of each group together (R103). -/
def minting (prep : Env → Lane → State → Got Mint) : SlotSem := groupwise fun e lanes s =>
  withEach e s (lanes.map fun x => (x, prep e x (s.enter x))) fun ms s =>
  match ms with
  | [] => (s, [])
  | (x, _) :: _ =>
    let need := (ms.filter fun m => m.2.1).length
    let g := s.group x.c x.t x.g
    let room := g.symNext + need ≤ g.symEnd
    let (s, fs) := mintAll e room (need - (g.symEnd - g.symNext)) ms g.symNext s
    (if room then s.modGroup x.c x.t x.g fun g => { g with symNext := g.symNext + need } else s, fs)

/-! The window. -/

/-- What each lane of a group instance holds in its two uniform operands (R208). -/
def operandPairs (e : Env) (lanes : List Lane) (s : State) (k2 : SrcKind) : List (Lane × Got (DWord × DWord)) :=
  lanes.map fun x =>
    let r (k : SrcKind) (f : BitVec 10) : Got DWord := (readSrc e x (s.enter x) k f).bind fun v => .ok v.1
    (x, (r e.sh.s1 e.f.s1).bind fun a => (r k2 e.f.s2).bind fun b => .ok (a, b))

/-- An instruction performed once per group instance with uniform operands: by the lane of lowest lane id, for every lane of
it (R208). -/
def instanceOp (act : Env → Lane → List Lane → State → DWord × DWord → State × Faults) : SlotSem := groupwise fun e lanes s =>
  withEach e s (operandPairs e lanes s e.sh.s2) fun ls s => ifUniform ls s fun x lanes v => act e x lanes s v

/-- The allocator's step (R239): its next word, or none where symbols run out. -/
def allocNext (w n : Nat) : Option Nat := if w / 2 ^ 20 != 0 || w == 0 || w + n > 0xfffff then none else some (w + n)

/-- R239: a block of symbols from the allocator word becomes the window of the group. -/
def semAsym : SlotSem := instanceOp fun e x lanes s (a, b) =>
  let n := b.toNat % 2 ^ 32
  let got : Got (Nat × State) :=
    (checkGlobal a.toNat 8 .readWrite).bind fun _ => (checkOwner x s a.toNat 8).bind fun _ =>
    (s.translate x a.toNat .readWrite).bind fun (pa, cls) =>
    (Got.ofOption (s.atomicAt x.c pa 8 cls (s.thread x).epoch fun w => (allocNext w n).getD w) (.line pa)).bind fun (w, bad, s') =>
    if bad then .fault { cause := .memError, addr := a.toNat, access := 1 }
    else match allocNext w n with
      | none => .fault { cause := .affExhaust }
      | some z => .ok (w, (s'.counted x a.toNat .readWrite).modGroup x.c x.t x.g fun g => { g with symNext := w, symEnd := z })
  withGot e lanes s got fun (_, s) => (doneAll e lanes s, [])
def execAsym (f : OpF) (s : State) : Result := issueOp (.asym f) f semAsym s

/-! Fresh values. -/

def semAset : SlotSem := affLane fun e x s => (readSrcs e x s).bind fun v => .ok (affSet v.a)
/-- R240: a centre alone. -/
def execAset (f : OpF) (s : State) : Result := issueOp (.aset f) f semAset s
def semAsetSym : SlotSem := affLane fun e x s =>
  (readSrcs e x s).bind fun v => .ok (affSetSym v.a v.b (v.c.toNat % 2 ^ 20))
/-- R240: a half-width on a named symbol. -/
def execAsetSym (f : OpF) (s : State) : Result := issueOp (.asetSym f) f semAsetSym s
def semAsetMint : SlotSem := minting fun e x s => (readSrcs e x s).bind fun v =>
  let form (sym : Option Nat) : AffReg :=
    match sym with
    | some n => affSetSym v.a v.b n
    | none => if (Fmt.f64.dy v.b.toNat).any (·.isZero) then affSet v.a else affU
  .ok (affSetMints v.a v.b, form)
/-- R240: a half-width on a minted symbol. -/
def execAsetMint (f : OpF) (s : State) : Result := issueOp (.asetMint f) f semAsetMint s

/-! Arithmetic. -/

/-- A one-operand operation on an affine register. -/
def affOne (g : Option AffVal → AffReg) : SlotSem := affLane fun e x s =>
  (affOperand x s e.f.s1).bind fun v => .ok (g v)
/-- A two-operand operation on affine registers. -/
def affTwo (g : Option AffVal → Option AffVal → AffReg) : SlotSem := affLane fun e x s =>
  (affOperand x s e.f.s1).bind fun a => (affOperand x s e.f.s2).bind fun b => .ok (g a b)
/-- An operation on an affine register and a scalar. -/
def affScalar (g : Option AffVal → DWord → AffReg) : SlotSem := affLane fun e x s =>
  (affOperand x s e.f.s1).bind fun a => (readSrc e x s e.sh.s2 e.f.s2).bind fun (k, _) => .ok (g a k)

def semAmov : SlotSem := affLane fun e x s => (readAff x s (srcIdx e.f.s1)).bind fun r => .ok (affMov r)
/-- R241: the canonical form of an operand. -/
def execAmov (f : OpF) (s : State) : Result := issueOp (.amov f) f semAmov s
def semAadd : SlotSem := affTwo fun a b => affResult (affAddParts a b) none
/-- R100: addition. -/
def execAadd (f : OpF) (s : State) : Result := issueOp (.aadd f) f semAadd s
def semAsub : SlotSem := affTwo fun a b => affResult (affSubParts a b) none
/-- R100: subtraction. -/
def execAsub (f : OpF) (s : State) : Result := issueOp (.asub f) f semAsub s
def semAneg : SlotSem := affOne fun v => affResult (affNegParts v) none
/-- R100: negation. -/
def execAneg (f : OpF) (s : State) : Result := issueOp (.aneg f) f semAneg s
def semAscl : SlotSem := affScalar fun a k => affResult (affSclParts a k) none
/-- R100: scaling. -/
def execAscl (f : OpF) (s : State) : Result := issueOp (.ascl f) f semAscl s
def semAaddc : SlotSem := affScalar fun a k => affResult (affAddcParts a k) none
/-- R100: a constant added. -/
def execAaddc (f : OpF) (s : State) : Result := issueOp (.aaddc f) f semAaddc s

/-- A minting operation of one operand. -/
def mintOne (g : Env → Option AffVal → Option AffParts) : SlotSem := minting fun e x s =>
  (affOperand x s e.f.s1).bind fun v => .ok (Mint.of (g e v))

def semAmul : SlotSem := minting fun e x s =>
  (affOperand x s e.f.s1).bind fun a => (affOperand x s e.f.s2).bind fun b => .ok (Mint.of (affMulParts a b))
/-- R102: multiplication. -/
def execAmul (f : OpF) (s : State) : Result := issueOp (.amul f) f semAmul s
def semAsqr : SlotSem := mintOne fun _ v => affSqrParts v
/-- R102: the square. -/
def execAsqr (f : OpF) (s : State) : Result := issueOp (.asqr f) f semAsqr s
def semArcp : SlotSem := mintOne fun _ v => affRcpParts v
/-- R102: the reciprocal. -/
def execArcp (f : OpF) (s : State) : Result := issueOp (.arcp f) f semArcp s
def semAsqrt : SlotSem := mintOne fun _ v => affSqrtParts v
/-- R102: the square root. -/
def execAsqrt (f : OpF) (s : State) : Result := issueOp (.asqrt f) f semAsqrt s
def semAcond : SlotSem := minting fun e x s => (readAff x s (srcIdx e.f.s1)).bind fun r =>
  let p := affCondParts (affRead r) (e.f.bits 3 0)
  .ok (affMints p, fun sym => affCarry r (affResult p sym))
/-- R104: at most n terms. -/
def execAcond (f : OpF) (s : State) : Result := issueOp (.acond f) f semAcond s

/-! Readouts. -/

/-- A readout of an affine register to a general pair (R105). -/
def affOut (g : AffReg → Nat) : SlotSem := lanewise fun e x s =>
  ((readAff x s (srcIdx e.f.s1)).bind fun r => .ok (writeDst e x (BitVec.ofNat 64 (g r)) s)).out s

def semAcent : SlotSem := affOut affCent
/-- R105: the centre. -/
def execAcent (f : OpF) (s : State) : Result := issueOp (.acent f) f semAcent s
def semArad : SlotSem := affOut affRad
/-- R105: the total radius. -/
def execArad (f : OpF) (s : State) : Result := issueOp (.arad f) f semArad s
def semAlo : SlotSem := affOut affLo
/-- R105: the lower bound. -/
def execAlo (f : OpF) (s : State) : Result := issueOp (.alo f) f semAlo s
def semAhi : SlotSem := affOut affHi
/-- R105: the upper bound. -/
def execAhi (f : OpF) (s : State) : Result := issueOp (.ahi f) f semAhi s

end Sys2Proof.Machine
end

