-- ==== Sys2Proof/Machine/Control.lean ====
section
/-!
DEFINITION. Control instructions (R125 to R131), the return from a user trap (R134) and the system instructions
(R136 to R141), with the TIMER trap (R34) and the end of an instruction-stream invalidation (R140, R394).
-/
namespace Sys2Proof.Machine

/-! Control. -/

/-- OFF20 in bits [32:13] (R126). -/
def off20 (f : OpF) : Int := ((f.s2 ++ f.s3 : BitVec 20)).toInt
/-- The relative target of `call` and `region` (R126). -/
def Env.relative (e : Env) : DWord := e.next.setWidth 64 + BitVec.ofInt 64 (8 * off20 e.f)
/-- A computed target that passes R125. -/
def goodTarget (a : DWord) : Got Addr :=
  if targetOk a then .ok (a.setWidth 48) else .fault { cause := .badTarget, addr := a.toNat }
/-- The target that a pair of a lane names (R126). -/
def pairTarget (e : Env) (x : Lane) (s : State) : Got Addr := (readSrcs e x s).bind fun v => goodTarget v.a

/-- The lane continues at a target once the instruction is complete. -/
def State.jump (s : State) (x : Lane) (a : Addr) : State := s.modPos x fun p => { p with far := some a }
/-- `call`: the link, then the jump (R127). -/
def callTo (e : Env) (x : Lane) (s : State) (a : Got Addr) : Out :=
  (a.bind fun a => .ok ((writeDst e x (e.next.setWidth 64) s).jump x a)).out s

def semCall : SlotSem := lanewise fun e x s => callTo e x s (goodTarget e.relative)
/-- R127: a call to a relative target. -/
def execCall (f : OpF) (s : State) : Result := issueOp (.call f) f semCall s
def semCallIndirect : SlotSem := lanewise fun e x s => callTo e x s (pairTarget e x s)
/-- R127: a call to a target held in a pair. -/
def execCallIndirect (f : OpF) (s : State) : Result := issueOp (.callIndirect f) f semCallIndirect s

def semRet : SlotSem := lanewise fun e x s => ((pairTarget e x s).bind fun a => .ok (s.jump x a)).out s
/-- R128: a jump to the address in a pair. -/
def execRet (f : OpF) (s : State) : Result := issueOp (.ret f) f semRet s
def semJmpi : SlotSem := lanewise fun e x s => ((pairTarget e x s).bind fun a => .ok (s.jump x a)).out s
/-- R129: a jump to the address in a pair. -/
def execJmpi (f : OpF) (s : State) : Result := issueOp (.jmpi f) f semJmpi s

def semFar : SlotSem := lanewise fun e x s =>
  ((goodTarget (e.next.setWidth 64 + e.f.imm32.signExtend 64)).bind fun a => .ok (s.jump x a)).out s
/-- R130: a relative target of a far leaf. -/
def execFar (f : OpF) (s : State) : Result := issueOp (.far f) f semFar s
def semFarIndirect : SlotSem := lanewise fun e x s => ((pairTarget e x s).bind fun a => .ok (s.jump x a)).out s
/-- R130: a far leaf's target from a pair. -/
def execFarIndirect (f : OpF) (s : State) : Result := issueOp (.farIndirect f) f semFarIndirect s

/-- A region entered: its entry, and one more in its count (R16, R131). -/
def State.enterRegion (s : State) (x : Lane) (a : Addr) : State :=
  s.modThread x fun th => { th with rentry := a, rcount := th.rcount + 1 }
def semRegion : SlotSem := lanewise fun e x s => ((goodTarget e.relative).bind fun a => .ok (s.enterRegion x a)).out s
/-- R131: a region with a relative entry. -/
def execRegion (f : OpF) (s : State) : Result := issueOp (.region f) f semRegion s
def semRegionIndirect : SlotSem := lanewise fun e x s => ((pairTarget e x s).bind fun a => .ok (s.enterRegion x a)).out s
/-- R131: a region whose entry a pair holds. -/
def execRegionIndirect (f : OpF) (s : State) : Result := issueOp (.regionIndirect f) f semRegionIndirect s

/-! The return from a user trap. -/

/-- The checks of a return in their order, with the slots fetched at the frame's PC where the frame needs them (R134). -/
def returnCheck (x : Lane) (s : State) : Got (Frame × List DWord × State) :=
  let th := s.thread x
  let n := (s.team x.c x.t).nG
  if !th.hflag then .fault { cause := .trapFrame }
  else
    (s.readWord x (n - 4)).bind fun head => (s.readWord x (n - 2)).bind fun lo => (s.readWord x (n - 1)).bind fun hi =>
    let fr : Frame := { head := head, pc := hi ++ lo }
    (goodTarget fr.pc).bind fun _ =>
    (Got.check (!fr.ok) { cause := .trapFrame }).bind fun _ =>
    if !(fr.tree || fr.rep != 0 || fr.after) then .ok (fr, [], s)
    else
      match s.fetchWords x.c (s.team x.c x.t).part fr.pc.toNat with
      | .blocked => .wait (.line 0)
      | .fault _ c _ => .fault (fetchFault fr.pc.toNat c)
      | .ok ws s => if fr.fits ws then .ok (fr, ws, s) else .fault { cause := .trapFrame }

/-- R134: each lane returns from its handler and goes on as a sub-wave of its own. -/
def semRetTrap : SlotSem := fun e lanes s =>
  lanes.foldl (fun (s, fs) x =>
    match returnCheck x s with
    | .wait w => (markWait e x w s, fs)
    | .fault i => (s, fs ++ [(x, i, false)])
    | .ok (fr, ws, s') => ((s'.returnTrap x fr ws).count x.c 0x03 x.t 1, fs)) (s, [])
def execRetTrap (f : OpF) (s : State) : Result := issueOp (.retTrap f) f semRetTrap s

/-! System instructions. -/

def semTrap : SlotSem := lanewise fun e _ s =>
  .fault { cause := .trap, detail := BitVec.ofNat 32 (e.f.bits 7 0) } true s
/-- R136: the user trap TRAP with code n. -/
def execTrap (f : OpF) (s : State) : Result := issueOp (.trap f) f semTrap s

/-- R137: the mark of a lane. DESIGN CHOICE (log 51): of two `brk` on one path the later one gives n. -/
def semBrk : SlotSem := lanewise fun e x s =>
  .done (s.modPos x fun p => { p with brk := some (BitVec.ofNat 8 (e.f.bits 7 0), e.at_.slot, e.at_.level) })
/-- R137: the lane parks at its successor once its path is complete. -/
def execBrk (f : OpF) (s : State) : Result := issueOp (.brk f) f semBrk s

/-- The sources of the event counters that depend on timing which the model leaves out (R408, log 6). -/
def timedSource (src : Nat) : Bool := (0x09 ≤ src && src ≤ 0x0c) || src == 0x0e || src == 0x41 || src == 0x43 || src == 0x45
/-- Event counter n of a core: free while it counts a source that depends on timing (R408). -/
def State.counter (s : State) (c n : Nat) : Nat :=
  let k := s.core c
  let e := k.evsel.get n 0
  if e.getLsbD 8 && timedSource (e.extractLsb' 0 8).toNat then (Config.freeValue s.fresh).toNat % 2 ^ 48 else k.evcnt.get n 0

/-- The value of a special register (R28 to R34, R138). -/
def special (e : Env) (x : Lane) (s : State) : Nat :=
  let k := s.team x.c x.t
  let g := s.group x.c x.t x.g
  let th := s.thread x
  match e.f.bits 12 5 with
  | 0x00 => x.l
  | 0x01 => x.g
  | 0x02 => k.index
  | 0x03 => x.c
  | 0x04 => k.cx
  | 0x05 => k.cy
  | 0x06 => k.cw + 256 * k.ch
  | 0x07 => k.launch.toNat
  | 0x08 => s.clocks x.c x.t
  | 0x09 => s.corecyc x.c
  | 0x0a => if e.preq then 1 else 0
  | 0x0b => th.rcount.toNat
  | 0x0c => th.rentry.toNat
  | 0x0d => g.symNext + 2 ^ 20 * g.symEnd
  | 0x0e => th.astat.toNat
  | 0x0f => g.trapen.toNat
  | 0x10 => g.alarm.toNat
  | _ => s.counter x.c (e.f.bits 2 0)

def semMfs : SlotSem := lanewise fun e x s =>
  match calcLane (fun e x s _ => { val := BitVec.ofNat 64 (special e x s) }) e x s with
  | .done s => .done { s with fresh := s.fresh + 1 }
  | r => r
/-- R138: a special value read. -/
def execMfs (f : OpF) (s : State) : Result := issueOp (.mfs f) f semMfs s

/-- `mts %astat` in one lane (R32, R139). -/
def mtsAstat : LaneSem := fun e x s =>
  ((readSrcs e x s).bind fun v =>
    (Got.check (v.a.toNat ≥ 64) { cause := .illField }).bind fun _ =>
    .ok (s.modThread x fun th => { th with astat := v.a.setWidth 6 })).out s

/-- `mts %trapen` or `%alarm` for the lanes of a group: reserved bits first, then uniformity (R21, R139). -/
def mtsGroup (e : Env) (lanes : List Lane) (s : State) : State × Faults :=
  let trapen := e.f.bits 12 5 == 0x0f
  let got := (readEach e s e.sh.s1 e.f.s1 lanes).map fun (x, g) =>
    (x, g.bind fun v => (Got.check (trapen && v.toNat ≥ 64) { cause := .illField }).bind fun _ => .ok v)
  withEach e s got fun ls s => ifUniform ls s fun x lanes v =>
    let s := s.modGroup x.c x.t x.g fun g => if trapen then { g with trapen := v.setWidth 6 } else { g with alarm := v }
    (doneAll e lanes s, [])

/-- R139: a special value written. -/
def semMts : SlotSem := fun e lanes s =>
  if e.f.bits 12 5 == 0x0e then lanewise mtsAstat e lanes s else groupwise mtsGroup e lanes s
def execMts (f : OpF) (s : State) : Result := issueOp (.mts f) f semMts s

/-- The translations over code in a range are discarded (R140, R393). -/
def Part.dropCode (p : Part) (lo hi : Nat) : Part :=
  { p with annTrans := p.annTrans.filter fun (b, e) => !(lo < e && b < hi) }

/-- One lane of `icinv`: its stores are acknowledged, the translations over its range are discarded, and it waits
(R140). -/
def icinvLane (e : Env) (x : Lane) (s : State) : Got State :=
  (readSrcs e x s).bind fun v =>
  let n := v.b.toNat % 2 ^ 32
  (Got.check (v.a.toNat ≥ 2 ^ 48) { cause := .addrNoncanon, addr := v.a.toNat }).bind fun _ =>
  (relLane x 3 s).bind fun s =>
  let lo := v.a.toNat / 64 * 64
  let hi := (v.a.toNat + n + 63) / 64 * 64
  .ok (if n == 0 then s else s.modPart (s.team x.c x.t).part fun p => p.dropCode lo hi)

/-- R140: a code range invalidated; the lanes wait until it has taken effect everywhere. -/
def semIcinv : SlotSem := fun e lanes s =>
  lanes.foldl (fun (s, fs) x =>
    if (s.thread x).pos.wait == some .icinv then (s, fs)
    else
      match icinvLane e x s with
      | .ok s' => (markWait e x .icinv s', fs)
      | .wait w => (markWait e x w s, fs)
      | .fault i => (s, fs ++ [(x, i, false)])) (s, [])
def execIcinv (f : OpF) (s : State) : Result := issueOp (.icinv f) f semIcinv s

/-- Every dirty line of every die cache is at its home, and every clean copy is dropped (R394). -/
def State.settleCode (s : State) : Option State :=
  let clean (s : State) (d : Nat) : State := s.modDie d fun k => { k with lines := k.lines.filter fun (_, l) => l.dirty != 0 }
  (s.dies.map (·.1)).foldl (fun acc d => acc.bind fun s => (s.releaseSys d).map fun s => clean s d) (some s)

/-- A lane that waited for an event outside its wave has performed its operation. -/
def State.finishWait (s : State) (x : Lane) : State :=
  ((s.modThread x fun th => { th with run := .ready, pos := { th.pos with
    slot := th.pos.slot + 1, wait := none, arrived := false, hist := [] :: th.pos.hist.take 3 } }).wake x).count x.c 0x03 x.t 1

/-- R140, R394: an invalidation has taken effect everywhere, and the lane becomes Ready. -/
def execIcinvComplete (c t g l : Nat) (s : State) : Result :=
  let x : Lane := { c := c, t := t, g := g, l := l }
  if (s.thread x).pos.wait != some .icinv then .refused .notEnabled
  else
    match s.settleCode with
    | none => .refused .notEnabled
    | some s =>
      let p := (s.team c t).part
      let s : State := { s with cores := s.cores.map fun (d, k) => (d, k.dropLines p 0 (2 ^ 48)) }
      .next (s.finishWait x)

def semNop : SlotSem := lanewise fun _ _ s => .done s
/-- R141: no effect. -/
def execNop (f : OpF) (s : State) : Result := issueOp (.nop f) f semNop s

/-- R34: `%clocks` has reached the alarm of a group: its threads owe TIMER at their next tree boundary, and the alarm
clears. -/
def execTimer (c t g : Nat) (s : State) : Result :=
  let a := (s.group c t g).alarm
  if a == 0 || s.clocks c t < a.toNat then .refused .notEnabled
  else
    let due (th : Thread) : Thread := if th.run == .parked || th.run == .exited then th else { th with timerDue := true }
    .next (s.modGroup c t g fun q => { q with alarm := 0, threads := q.threads.map fun (l, th) => (l, due th) })

end Sys2Proof.Machine
end

