-- ==== Sys2Proof/Machine/Matrix.lean ====
section
/-!
DEFINITION. The values that the engines compute: one k-group step (R94), the FP64 steps (R95), the bias (R223), the
element layouts of R219, and the conversions of a copy (R230).
-/
namespace Sys2Proof.Machine

/-- Bits [hi:lo] of a parameter block or descriptor. -/
def blkBits (b : BitVec 512) (hi lo : Nat) : Nat := b.toNat / 2 ^ lo % 2 ^ (hi - lo + 1)

/-! One k-group step. -/

/-- An exact product (R94). -/
def mulExact : Num → Num → Num
  | .nan _, _ => .nan false
  | _, .nan _ => .nan false
  | .inf a, .inf b => .inf (a != b)
  | .inf a, .fin b m _ => if m == 0 then .nan false else .inf (a != b)
  | .fin a m _, .inf b => if m == 0 then .nan false else .inf (a != b)
  | .fin a m e, .fin b n f => .fin (a != b) (m * n) (e + f)

/-- A finite nonzero product as sign, magnitude and exponent. -/
def finTerm : Num → Option (Bool × Nat × Int)
  | .fin n m e => if m == 0 then none else some (n, m, e)
  | _ => none

/-- The truncated sum of a group's products in units of the window floor 2^lo (R94). -/
def windowSum (ts : List (Bool × Nat × Int)) (lo : Int) : Int :=
  ts.foldl (fun acc (n, m, e) =>
    let v : Nat := if e ≥ lo then m * 2 ^ (e - lo).toNat else m / 2 ^ (lo - e).toNat
    if n then acc - v else acc + v) 0

/-- One k-group step on an FP32 accumulator (R94). -/
def kgroupStep (acc : Nat) (as bs : List Num) : Nat :=
  let ps := List.zipWith mulExact as bs
  let a := Fmt.f32.unpack acc
  let pos := ps.contains (.inf false)
  let neg := ps.contains (.inf true)
  if a.isNan || ps.any (·.isNan) || (pos && neg) then Fmt.f32.nanBits
  else if pos || neg then
    match a with
    | .inf n => if n == neg then acc else Fmt.f32.nanBits
    | _ => Fmt.f32.signed neg Fmt.f32.infBits
  else
    match ps.filterMap finTerm with
    | [] => acc
    | t :: ts =>
      let top := ts.foldl (fun m (_, k, e) => if m < leadExp k e then leadExp k e else m) (leadExp t.2.1 t.2.2)
      let s := windowSum (t :: ts) (top - 63)
      if s == 0 then acc
      else
        match a with
        | .fin n m e => (Fmt.f32.addFin 0 false n m e (decide (s < 0)) s.natAbs (top - 63)).bits
        | _ => acc

/-- The FP64 steps of one element in ascending k (R95). -/
def fmaSteps (acc : Nat) : List Num → List Num → Nat
  | a :: as, b :: bs => fmaSteps (Fmt.f64.fma 0 false a b (Fmt.f64.unpack acc)).bits as bs
  | _, _ => acc

/-- A tile element with the bias added (R223). -/
def addBias (acc code : Nat) : Nat := (Fmt.f32.add 0 false (Fmt.f32.unpack acc) (c16Num code)).bits

/-! Elements. -/

/-- Bytes as little-endian words of a size, n of them. -/
def leWords (size : Nat) : Nat → List Byte → List Nat
  | 0, _ => []
  | n + 1, bs => (bs.take size).foldr (fun b acc => b.toNat + 256 * acc) 0 :: leWords size n (bs.drop size)
/-- Words as little-endian bytes. -/
def leBytes (size : Nat) (ws : List Nat) : List Byte :=
  ws.flatMap fun w => (List.range size).map fun i => BitVec.ofNat 8 (w / 256 ^ i)
/-- A list cut into pieces of n elements. -/
def pieces {α : Type} (n : Nat) : Nat → List α → List (List α)
  | 0, _ => []
  | k + 1, xs => xs.take n :: pieces n k (xs.drop n)

/-- Rows and columns of a tile, K of a k-group and bytes of an element for FMT (R219). -/
def fmtN (fmt : Nat) : Nat := if fmt == 4 then 64 else 128
def fmtK (fmt : Nat) : Nat := if fmt == 4 then 8 else 16
def fmtBytes (fmt : Nat) : Nat := if fmt == 4 then 8 else if fmt == 3 then 4 else 2
/-- Bytes of one k-group of A or of B. -/
def groupBytes (fmt : Nat) : Nat := fmtN fmt * fmtK fmt * fmtBytes fmt
/-- The number that an element of FMT stands for. -/
def fmtNum (fmt b : Nat) : Num :=
  match fmt with
  | 0 => c16Num b
  | 1 => Fmt.f16.unpack b
  | 2 => Fmt.bf16.unpack b
  | 3 => Fmt.f32.unpack b
  | _ => Fmt.f64.unpack b

/-- Element (i, k) of A as the registers hold it, words by 256 × lane + register (R219). -/
def regElem (fmt areg : Nat) (regs : Table Word) (i k : Nat) : Nat :=
  let word (l r : Nat) : Nat := (regs.get (256 * l + r) 0).toNat
  match fmt with
  | 4 => let r := areg + 16 * (i % 2) + 2 * k
    word (i / 2) r + 2 ^ 32 * word (i / 2) (r + 1)
  | 3 => word (i / 4) (areg + 16 * (i % 4) + k)
  | _ => word (i / 4) (areg + 8 * (i % 4) + k / 2) / 2 ^ (16 * (k % 2)) % 2 ^ 16

/-- A from registers, row by row. -/
def aFromRegs (fmt areg : Nat) (regs : Table Word) : List (List Num) :=
  (List.range (fmtN fmt)).map fun i => (List.range (fmtK fmt)).map fun k => fmtNum fmt (regElem fmt areg regs i k)
/-- A from the bytes of a k-group in scratchpad (R219). -/
def aFromBytes (fmt : Nat) (bs : List Byte) : List (List Num) :=
  (pieces (fmtK fmt) (fmtN fmt) (leWords (fmtBytes fmt) (fmtN fmt * fmtK fmt) bs)).map fun r => r.map (fmtNum fmt)
/-- The columns of B from the bytes of a k-group (R219). -/
def bFromBytes (fmt : Nat) (bs : List Byte) : List (List Num) :=
  let rows := (pieces (fmtN fmt) (fmtK fmt) (leWords (fmtBytes fmt) (fmtN fmt * fmtK fmt) bs)).map fun r => r.map (fmtNum fmt)
  (List.range (fmtN fmt)).map fun j => rows.map fun r => r.getD j (.fin false 0 0)

/-- A tile after one k-group of an `mma` (R220). -/
def mmaStep (fmt : Nat) (a bcols : List (List Num)) (tile : List Nat) : List Nat :=
  let step (acc : Nat) (x y : List Num) : Nat := if fmt == 4 then fmaSteps acc x y else kgroupStep acc x y
  (List.zipWith (fun row x => List.zipWith (fun acc y => step acc x y) row bcols)
    (pieces (fmtN fmt) (fmtN fmt) tile) a).flatten

/-! Conversions of a copy. -/

/-- The number that an element of a storage type stands for: 0 narrow, 1 C16, 2 FP16, 3 BF16, 4 FP32, 5 FP64. -/
def typeNum (ty : Nat) (fm : Narrow) (b : Nat) : Num :=
  match ty with
  | 0 => fm.unpack b
  | n + 1 => fmtNum n b

/-- A converted element: its code, whether R92 counts it, and whether it counts as non-finite (R89, R356). -/
structure Conv where
  code : Nat
  counted : Bool := false
  nonfinite : Bool := false
  deriving DecidableEq, Repr

/-- `convert` of one element to a storage type (R230, R160). -/
def convElem (ty rnd : Nat) (fm : Narrow) (x : Num) : Conv :=
  match ty with
  | 0 => let r := fm.pack rnd x
    { code := r.code, counted := r.counted }
  | 1 => { code := (toC16 rnd x).bits, nonfinite := x.isNan || x.isInf }
  | 2 => { code := (Fmt.f16.ofNum rnd false x).bits }
  | 3 => { code := (Fmt.bf16.ofNum rnd false x).bits }
  | 4 => { code := (Fmt.f32.ofNum rnd false x).bits }
  | _ => { code := (Fmt.f64.ofNum rnd false x).bits }

/-- Bits of an element of a storage type. -/
def typeWidth (ty : Nat) (fm : Narrow) : Nat :=
  match ty with
  | 0 => fm.width
  | 4 => 32
  | 5 => 64
  | _ => 16

/-- n elements of w bits from a bit string that begins at bit 0 of the first byte (R355). -/
def unpackBits (w n : Nat) (bs : List Byte) : List Nat :=
  let v := bs.foldr (fun b acc => b.toNat + 256 * acc) 0
  (List.range n).map fun c => v / 2 ^ (w * c) % 2 ^ w
/-- Elements of w bits as whole bytes, pad bits 0 (R230). -/
def packBits (w : Nat) (cs : List Nat) : List Byte :=
  let v := cs.foldr (fun c acc => c + 2 ^ w * acc) 0
  (List.range ((cs.length * w + 7) / 8)).map fun i => BitVec.ofNat 8 (v / 256 ^ i)

end Sys2Proof.Machine
end

