-- ==== Sys2Proof/Machine/Engine.lean ====
section
/-!
DEFINITION. The matrix and Pour engines: issue with its checks (R208 to R210, R216 to R231), the performance of the
operation at the head of a queue by k-groups and rows (R211, R220, R223, R230), its completion signals (R212) and the
reports of its faults (R215, R281).
-/
namespace Sys2Proof.Machine

/-! Bytes in bulk. -/

/-- n scratchpad bytes from an offset, at most p banks long (R280). -/
def scratchBytes (m : Memory) (k : Team) : Nat → Nat → Nat → List Byte
  | 0, _, _ => []
  | p + 1, o, n =>
    let len := Nat.min n (65536 - o % 65536)
    if n == 0 then [] else m.slice (k.scratchByte o) len ++ scratchBytes m k p (o + len) (n - len)
/-- Scratchpad bytes written from an offset. -/
def scratchFill (m : Memory) (k : Team) : Nat → Nat → List Byte → Memory
  | 0, _, _ => m
  | p + 1, o, bs =>
    let len := Nat.min bs.length (65536 - o % 65536)
    if bs.isEmpty then m else scratchFill (m.replace (k.scratchByte o) (bs.take len)) k p (o + len) (bs.drop len)
def State.scratchSlice (s : State) (c t o n : Nat) : List Byte := scratchBytes (s.core c).store (s.team c t) 33 o n
def State.scratchFill (s : State) (c t o : Nat) (bs : List Byte) : State :=
  let k := s.team c t
  s.modCore c fun q => { q with store := Machine.scratchFill q.store k 33 o bs,
                                badWords := q.badWords.filter fun w => !k.covers o bs.length w }

/-- Free bytes, n of them (R10). -/
def State.freeBytes (s : State) (n : Nat) : List Byte × State :=
  ((List.range n).map fun i => (Config.freeValue (s.fresh + i)).setWidth 8, { s with fresh := s.fresh + n })

/-- The bytes of a tile (R351). -/
def Core.tile (k : Core) (t n : Nat) : List Byte := k.acc.slice (65536 * t) n
def State.setTile (s : State) (c t o : Nat) (bs : List Byte) : State :=
  s.modCore c fun k => { k with acc := k.acc.replace (65536 * t + o) bs }

/-! Queues. -/

def Core.queue (k : Core) (e : Engine) : List EngOp := if e == .matrix then k.mq else k.pq
def Core.setQueue (k : Core) (e : Engine) (q : List EngOp) : Core := if e == .matrix then { k with mq := q } else { k with pq := q }
/-- The operation at the head of a queue leaves it: those of the other queue issued after it count one less before them (R27,
R211). -/
def Core.popOp (k : Core) (e : Engine) : Core :=
  let lower (q : List EngOp) : List EngOp := q.map fun o => { o with behind := o.behind - 1 }
  if e == .matrix then { k with mq := k.mq.drop 1, pq := lower k.pq } else { k with pq := k.pq.drop 1, mq := lower k.mq }
/-- The operation at the head of a queue replaced. -/
def State.setHead (s : State) (c : Nat) (e : Engine) (o : EngOp) : State :=
  s.modCore c fun k => k.setQueue e (o :: (k.queue e).drop 1)
/-- A group that is still there changed. -/
def State.onGroup (s : State) (c t g : Nat) (f : Group → Group) : State :=
  if ((s.team c t).groups.find? g).isSome then s.modGroup c t g f else s

/-- Words sent to the coalescer for the issuing group of an operation: kind E, or kind X which stays open (R215, R281,
R225). -/
def State.engRecord (s : State) (c : Nat) (e : Engine) (o : EngOp) (i : FaultInfo) (isOpen : Bool) : State :=
  let k := s.team c o.team
  s.coalesce c { id := 0, cause := i.cause, event := true, subcause := i.subcause, access := i.access, addr := i.addr,
                 grid := k.launch, team := k.index, core := c, group := o.group, teamSlot := o.team,
                 key := if e == .matrix then 0 else 1, isOpen := isOpen }
/-- An access of the head operation met a translation fault: it stops there and an open record is sent (R215). -/
def State.engStop (s : State) (c : Nat) (e : Engine) (o : EngOp) (va : Nat) (cause : Cause) (a : Access) : State :=
  (s.setHead c e { o with stopped := true }).engRecord c e o
    { cause := .engXlate, addr := va, subcause := cause.code, access := accessCode a } true
/-- An access of the head operation met an error that cannot be corrected: it stops (R281, R282). -/
def State.engStick (s : State) (c : Nat) (e : Engine) (o : EngOp) (i : FaultInfo) : State :=
  (s.setHead c e { o with stuck := true }).engRecord c e o i false

/-! Blocks and descriptors. -/

/-- The BAR field and the future of a block or descriptor fail R213. -/
def signalBad (size bar foff : Nat) (barv fut : Bool) : Bool :=
  bar / 2 ^ 48 % 2 ^ 15 != 0 || (bar.testBit 63 && bar / 2 ^ 32 % 2 ^ 16 != 0) || (barv && bar % 16 != 0)
    || (fut && (foff % 8 != 0 || foff + 8 > size))

/-- A matrix block fails a check that holds for every kind (R218). -/
def blockBad (k : Team) (b : BitVec 512) (kind : Nat) : Bool :=
  blkBits b 511 480 != 0 || blkBits b 287 286 != 0 || blkBits b 285 284 != kind
    || blkBits b 303 288 == 0 || blkBits b 319 304 ≥ blkBits b 303 288
    || !k.tiles.getLsbD (blkBits b 261 260) || blkBits b 63 32 % 64 != 0
    || signalBad k.scratchSize (blkBits b 383 320) (blkBits b 415 384) (b.getLsbD 263) (b.getLsbD 264)

/-- The block of an `mma` fails R218 or R219. -/
def mmaBad (k : Team) (g : Group) (b : BitVec 512) (areg : Nat) : Bool :=
  let fmt := blkBits b 258 256
  let kg := blkBits b 303 288
  let last (off str : Nat) : Nat := off + (kg - 1) * str + groupBytes fmt
  blockBad k b 0 || fmt > 4 || blkBits b 283 266 != 0 || blkBits b 479 448 != 0 || blkBits b 255 128 != 0
    || blkBits b 127 96 % 64 != 0 || blkBits b 95 64 % 64 != 0 || blkBits b 31 0 % 64 != 0
    || last (blkBits b 63 32) (blkBits b 127 96) > k.scratchSize
    || (if b.getLsbD 259 then last (blkBits b 31 0) (blkBits b 95 64) > k.scratchSize
        else blkBits b 31 0 != 0 || kg != 1 || g.narrow || areg + aCount b > k.nG)

/-- The block of an `mmv` fails R218 or R222. -/
def mmvBad (k : Team) (b : BitVec 512) : Bool :=
  let fm := (b.extractLsb' 448 32)
  let w := (Narrow.ofWord fm).width
  let kg := blkBits b 303 288
  let row := (16 * kg * w + 7) / 8
  let rows := blkBits b 279 273 + 1
  let waddr := blkBits b 191 128
  let biasa := blkBits b 255 192
  blockBad k b 1 || blkBits b 259 256 != 0 || !fmtLegal fm || blkBits b 283 280 == 0 || blkBits b 283 280 > 8
    || blkBits b 272 266 % 8 != 0 || blkBits b 272 266 + blkBits b 283 280 > 128
    || blkBits b 31 0 != 0 || blkBits b 127 96 != 0 || blkBits b 95 64 < row
    || waddr + (rows - 1) * blkBits b 95 64 + row > 2 ^ 48
    || (if b.getLsbD 265 then biasa + (rows * w + 7) / 8 > 2 ^ 48 else biasa != 0)
    || blkBits b 63 32 + 256 * kg > k.scratchSize

/-- The bytes of a global row of a descriptor (R229). -/
def rowBytes (b : BitVec 512) (fm : Narrow) : Nat := (blkBits b 175 160 * typeWidth (blkBits b 357 355) fm + 7) / 8
/-- Bytes of an element of STYPE (R228). -/
def stypeBytes (b : BitVec 512) : Nat := typeWidth (blkBits b 360 358 + 1) (Narrow.ofWord 0) / 8
/-- Where `pour.out` writes its overflow word (R231). -/
def ovfAddr (b : BitVec 512) (fm : Narrow) : Nat :=
  blkBits b 63 0 + (blkBits b 303 288 - 1) * blkBits b 159 128 + rowBytes b fm

/-- The parts of a descriptor that every use checks (R229): types, counts, global range and alignment, BAR. -/
def descBad (b : BitVec 512) (fm : Narrow) (size : Nat) (fut : Bool) (foff : Nat) : Bool :=
  let rows := blkBits b 303 288
  let g := blkBits b 357 355
  let gb := typeWidth g fm / 8
  blkBits b 383 368 != 0 || g > 5 || blkBits b 360 358 > 4 || rows == 0 || blkBits b 175 160 == 0
    || blkBits b 319 304 ≥ rows || ovfAddr b fm > 2 ^ 48
    || (g != 0 && (blkBits b 63 0 % gb != 0 || blkBits b 159 128 % gb != 0))
    || blkBits b 287 256 % stypeBytes b != 0
    || signalBad size (blkBits b 447 384) foff (b.getLsbD 366) fut

/-- The descriptor of a `pour` or `pour.out` fails R229 or R231. -/
def pourBad (k : Team) (b : BitVec 512) (fmw : Word) (out : Bool) : Bool :=
  let fm := Narrow.ofWord fmw
  let rows := blkBits b 303 288
  let cols := blkBits b 175 160
  let saddr := blkBits b 127 64
  let dim := if blkBits b 360 358 == 4 then 64 else 128
  descBad b fm k.scratchSize (b.getLsbD 367) (blkBits b 479 448)
    || blkBits b 351 320 != 0 || blkBits b 255 176 != 0
    || (if b.getLsbD 363 then
          !out || !(blkBits b 360 358 == 3 || blkBits b 360 358 == 4) || blkBits b 287 256 != 0
            || saddr / 2 ^ 15 != 0 || saddr.testBit 7 || !k.tiles.getLsbD (blkBits b 365 364)
            || saddr % 128 + rows > dim || saddr / 256 % 128 + cols > dim
        else saddr ≥ 2 ^ 32 || saddr % stypeBytes b != 0
            || saddr + (rows - 1) * blkBits b 287 256 + cols * stypeBytes b > k.scratchSize)
    || (out && (ovfAddr b fm % 4 != 0 || ovfAddr b fm + 4 > 2 ^ 48))

/-- The TAG of a barrier object, captured at issue by one 4-byte read (R197, R359). -/
def captureTag (x : Lane) (s : State) (barv : Bool) (bar : Nat) : Got (Word × State) :=
  let a := bar % 2 ^ 48
  if !barv then .ok (0, s)
  else if bar.testBit 63 then
    (checkScratch (s.team x.c x.t) a 4 4 .read).bind fun _ => (readScratch s x.c x.t a 4).bind fun v => .ok (BitVec.ofNat 32 v, s)
  else
    (s.translate x a .read).bind fun (pa, cls) =>
    (Got.ofOption (s.loadBytes x.c pa 4 cls) (.line pa)).bind fun (v, bad, s) =>
    if bad then .fault { cause := .memError, addr := a, access := 1 } else .ok (BitVec.ofNat 32 v, s.counted x a .read)

/-- The block at an offset of the scratchpad (R209). -/
def readBlock (x : Lane) (s : State) (o : Nat) : Got (BitVec 512) :=
  (checkScratch (s.team x.c x.t) o 64 64 .read).bind fun _ => (readScratch s x.c x.t o 64).bind fun v => .ok (BitVec.ofNat 512 v)

/-! The operand latch. -/

/-- The latch after an operation, from the latch before it (R221). -/
def latchAfter (l : Option Latch) (o : EngOp) : Option Latch :=
  let fmt := blkBits o.block 258 256
  if o.kind != .mma || o.block.getLsbD 259 then l
  else
    match l with
    | none => if o.reuse then some { team := o.team, group := o.group, fmt := fmt, aRegs := o.aRegs, areg := o.areg } else none
    | some h => if h.team == o.team && h.group == o.group && h.fmt == fmt && !o.reuse then none else some h
/-- The latch as the operations issued so far leave it. -/
def Core.latchNow (k : Core) : Option Latch := k.mq.foldl latchAfter k.latch

/-- The A registers of a group as its threads hold them; an exited thread has none (R219). -/
def Group.aRegs (g : Group) (areg n : Nat) : Table Word :=
  g.threads.flatMap fun (l, th) => if th.run == .exited then []
    else (List.range n).map fun r => (256 * l + (areg + r), th.word (areg + r))

/-! Issue. -/

/-- The queue of the other engine. -/
def Core.other (k : Core) (e : Engine) : List EngOp := k.queue (if e == .matrix then .pour else .matrix)
/-- An operation enters a queue, behind those issued before it, and the counter of its group rises (R35, R210, R211). -/
def State.enqueue (s : State) (x : Lane) (e : Engine) (o : EngOp) : State :=
  let s := s.modCore x.c fun k => k.setQueue e (k.queue e ++ [{ o with behind := (k.other e).length }])
  match o.kind with
  | .mqrun | .copy => s
  | _ => s.modGroup x.c x.t x.g fun g =>
      if e == .matrix then { g with tCount := g.tCount + 1, past := g.past.map fun p => { p with after := p.after.map (· + 1) } }
      else { g with cCount := g.cCount + 1 }

/-- The queue or the group's counter has no room (R35, R210). -/
def engRoom (x : Lane) (s : State) (e : Engine) : Got Unit :=
  let g := s.group x.c x.t x.g
  .hold (((s.core x.c).queue e).length ≥ 8 || (if e == .matrix then g.tCount else g.cCount) ≥ 63) .count

/-- An engine instruction: once per group instance, uniform operands, one operation issued by the lane of lowest id
(R208, R209). -/
def engIssue (e : Engine) (make : Env → Lane → State → DWord × DWord → Got (EngOp × State)) : SlotSem :=
  instanceOp fun env x lanes s v =>
    let got := (engRoom x s e).bind fun _ => make env x s v
    withGot env lanes s got fun (o, s) => (doneAll env lanes (s.enqueue x e o), [])

def engParam : FaultInfo := { cause := .engParam }

/-- Where an `mma` takes A: a scratchpad range, the latch or the registers (R221). -/
def State.withA (s : State) (c : Nat) (op : EngOp) : EngOp :=
  let b := op.block
  let latched := match (s.core c).latchNow with
    | some l => if l.team == op.team && l.group == op.group && l.fmt == blkBits b 258 256 then some l else none
    | none => none
  if b.getLsbD 259 then op
  else
    match latched with
    | some l => { op with aRegs := l.aRegs, areg := l.areg, fromLatch := true }
    | none => { op with aRegs := (s.group c op.team op.group).aRegs op.areg (aCount b) }

/-- R219, R220: `mma`. -/
def semMma : SlotSem := engIssue .matrix fun e x s (a, _) =>
  let k := s.team x.c x.t
  let g := s.group x.c x.t x.g
  let o := a.toNat % 2 ^ 32
  let areg := e.f.bits 7 0
  (readBlock x s o).bind fun b =>
  (Got.check (mmaBad k g b areg) engParam).bind fun _ =>
  (captureTag x s (b.getLsbD 263) (blkBits b 383 320)).bind fun (tag, s) =>
  let op : EngOp := { kind := .mma, team := x.t, group := x.g, addr := o, block := b, tag := tag, tile := blkBits b 261 260,
                      areg := areg, reuse := e.f.bit 8, prog := blkBits b 319 304 }
  .ok (s.withA x.c op, s)
def execMma (f : OpF) (s : State) : Result := issueOp (.mma f) f semMma s

/-- R222: `mmv`. -/
def semMmv : SlotSem := engIssue .matrix fun _ x s (a, _) =>
  let o := a.toNat % 2 ^ 32
  (readBlock x s o).bind fun b =>
  (Got.check (mmvBad (s.team x.c x.t) b) engParam).bind fun _ =>
  (captureTag x s (b.getLsbD 263) (blkBits b 383 320)).bind fun (tag, s) =>
  .ok ({ kind := .mmv, team := x.t, group := x.g, addr := o, block := b, tag := tag, tile := blkBits b 261 260,
         prog := blkBits b 319 304 }, s)
def execMmv (f : OpF) (s : State) : Result := issueOp (.mmv f) f semMmv s

/-- R224: `mqrun`. -/
def semMqrun : SlotSem := engIssue .matrix fun _ x s (q, n) =>
  let k := s.team x.c x.t
  let v := q.toNat % 2 ^ 32
  (Got.check (v ≥ 512 || v / 64 ≥ k.fifoBanks.length || n.toNat % 2 ^ 32 ≥ 2 ^ 16) engParam).bind fun _ =>
  .ok ({ kind := .mqrun, team := x.t, group := x.g, addr := 64 * k.fifoBanks.getD (v / 64) 0 + v % 64,
         rows := n.toNat % 2 ^ 16 }, s)
def execMqrun (f : OpF) (s : State) : Result := issueOp (.mqrun f) f semMqrun s

/-- A matrix operation on a tile: `mma`, `mmv`, or the block that a run has in hand. -/
def EngOp.onTile (o : EngOp) (t : Nat) : Bool := o.tile == t && (o.kind == .mma || o.kind == .mmv || (o.kind == .mqrun && o.inBlock))
/-- A matrix operation on the tile is not complete, or its completion is not observed by the lane (R27). -/
def State.tileHot (s : State) (x : Lane) (t : Nat) : Bool :=
  ((s.core x.c).mq.any fun o => o.onTile t)
    || (s.group x.c x.t x.g).past.any fun p => p.tile == t && p.lanes.contains x.l
/-- Tile operations queued behind a block on their tile were issued before its completion (R27). -/
def Core.heat (k : Core) (t : Nat) : Core :=
  { k with mq := k.mq.map fun o => if (o.kind == .accld || o.kind == .accst) && o.tile == t then { o with hot := true } else o }

/-- The rows word and the scratchpad range of a tile copy fail R226. -/
def tileRangeBad (k : Team) (o rows : Nat) : Bool :=
  let n := rows / 256 % 256
  o % 64 != 0 || rows ≥ 2 ^ 16 || n == 0 || rows % 256 + n > 128 || o + 512 * n > k.scratchSize

/-- A tile operation (R226). -/
def tileOp (kind : EngKind) (tile : Env → Nat) : SlotSem := engIssue .matrix fun e x s (a, r) =>
  let o := a.toNat % 2 ^ 32
  let rows := r.toNat % 2 ^ 32
  let t := tile e
  (Got.check (kind != .accz && tileRangeBad (s.team x.c x.t) o rows) engParam).bind fun _ =>
  .ok ({ kind := kind, team := x.t, group := x.g, addr := o, tile := t, rows := rows,
         hot := kind != .accz && s.tileHot x t }, s)

def semAccz : SlotSem := tileOp .accz fun e => e.f.d.toNat
/-- R226: `accz`. -/
def execAccz (f : OpF) (s : State) : Result := issueOp (.accz f) f semAccz s
def semAccld : SlotSem := tileOp .accld fun e => e.f.d.toNat
/-- R226: `accld`. -/
def execAccld (f : OpF) (s : State) : Result := issueOp (.accld f) f semAccld s
def semAccst : SlotSem := tileOp .accst fun e => srcIdx e.f.s3
/-- R226: `accst`. -/
def execAccst (f : OpF) (s : State) : Result := issueOp (.accst f) f semAccst s

/-- A Pour operation (R229, R230). -/
def pourOp (out : Bool) : SlotSem := engIssue .pour fun _ x s (a, _) =>
  let o := a.toNat % 2 ^ 32
  (readBlock x s o).bind fun b =>
  let fm := (s.group x.c x.t x.g).fm (blkBits b 354 352)
  (Got.check (pourBad (s.team x.c x.t) b fm out) engParam).bind fun _ =>
  (captureTag x s (b.getLsbD 366) (blkBits b 447 384)).bind fun (tag, s) =>
  .ok ({ kind := if out then .pourOut else .pour, team := x.t, group := x.g, addr := o, block := b, fm := fm, tag := tag,
         tile := blkBits b 365 364, prog := blkBits b 319 304 }, s)

def semPour : SlotSem := pourOp false
/-- R230: `pour`. -/
def execPour (f : OpF) (s : State) : Result := issueOp (.pour f) f semPour s
def semPourOut : SlotSem := pourOp true
/-- R230: `pour.out`. -/
def execPourOut (f : OpF) (s : State) : Result := issueOp (.pourOut f) f semPourOut s

/-! Global memory as an engine reaches it. -/

/-- What a read or write of global bytes by an engine ends in: the bytes read or the number written before a fault, an
error, or a line not served. -/
inductive EngIo where
  | ok (bs : List Byte) (s : State)
  | fault (bs : List Byte) (va : Nat) (c : Cause) (s : State)
  | error (va : Nat) (s : State)
  | blocked

/-- The global accesses of an engine: the core, the team slot, and the extents of the group (R297). -/
structure EngPath where
  c : Nat
  t : Nat
  es : List Extent := []
/-- A walk for an engine that met no translation fault but an error of a table line (R215, R282). -/
def EngIo.walk (acc : List Byte) (va : Nat) (k : Cause) (s : State) : EngIo :=
  if k == .memError then .error va s else .fault acc va k s
/-- An access of the operation, counted where an extent translates it (R297, R408, log 6). -/
def EngPath.counted (p : EngPath) (va : Nat) (a : Access) (s : State) : State :=
  if p.es.any fun e => e.covers va (Need.of a) then s.count p.c 0x0d p.t 1 else s

/-- n bytes read, line by line, at most m lines (R353). -/
def engRead (p : EngPath) : Nat → Nat → Nat → List Byte → State → EngIo
  | 0, _, _, acc, s => .ok acc s
  | m + 1, va, n, acc, s =>
    if n == 0 then .ok acc s
    else
      let len := Nat.min n (128 - va % 128)
      match s.translateNow p.c (s.team p.c p.t).part va .read p.es with
      | .blocked => .blocked
      | .fault k s => .walk acc va k s
      | .ok y s =>
        match s.loadBytes p.c (y.pa va) len y.cls with
        | none => .blocked
        | some (v, bad, s) =>
          if bad then .error va s
          else engRead p m (va + len) (n - len) (acc ++ (List.range len).map fun i => BitVec.ofNat 8 (v / 256 ^ i))
            (p.counted va .read s)

/-- Bytes written, line by line; the bytes answered are those written. -/
def engWrite (p : EngPath) : Nat → Nat → List Byte → List Byte → State → EngIo
  | 0, _, _, acc, s => .ok acc s
  | m + 1, va, bs, acc, s =>
    if bs.isEmpty then .ok acc s
    else
      let len := Nat.min bs.length (128 - va % 128)
      match s.translateNow p.c (s.team p.c p.t).part va .write p.es with
      | .blocked => .blocked
      | .fault k s => .walk acc va k s
      | .ok y s =>
        let v := (bs.take len).foldr (fun b a => b.toNat + 256 * a) 0
        if isRemote (y.pa va) && s.noPath (y.pa va) then .error va s
        else match s.storeBytes p.c (y.pa va) len v y.cls 0 with
        | none => .blocked
        | some s => engWrite p m (va + len) (bs.drop len) (acc ++ bs.take len) (p.counted va .write s)

/-- The extents that an operation translates with: those of its group; a copy node has none (R297, R310). -/
def State.engExtents (s : State) (c : Nat) (o : EngOp) : List Extent :=
  if o.kind == .copy then [] else (s.group c o.team o.group).extents
def State.engPath (s : State) (c : Nat) (o : EngOp) : EngPath := { c := c, t := o.team, es := s.engExtents c o }

/-- What one step of an operation ends in: the operation goes on, it stopped, or nothing could be done yet. -/
inductive EngStep where
  | on (o : EngOp) (s : State)
  | stop (s : State)
  | blocked

/-! Matrix operations. -/

/-- A count that stops at 2^32 − 1. -/
def cap32 (n : Nat) : Nat := Nat.min n (2 ^ 32 - 1)

/-- One k-group of an `mma` (R220). -/
def mmaGroup (c : Nat) (o : EngOp) (s : State) : EngStep :=
  let b := o.block
  let fmt := blkBits b 258 256
  let gb := groupBytes fmt
  let size := if fmt == 4 then 8 else 4
  let n := fmtN fmt * fmtN fmt
  let boff := blkBits b 63 32 + o.prog * blkBits b 127 96
  let aoff := blkBits b 31 0 + o.prog * blkBits b 95 64
  let fromA := b.getLsbD 259
  if s.scratchBad c o.team boff gb || (fromA && s.scratchBad c o.team aoff gb) then
    .stop (s.engStick c .matrix o { cause := .storeUe, addr := if s.scratchBad c o.team boff gb then boff else aoff, access := 1 })
  else
    let a := if fromA then aFromBytes fmt (s.scratchSlice c o.team aoff gb) else aFromRegs fmt o.areg o.aRegs
    let cols := bFromBytes fmt (s.scratchSlice c o.team boff gb)
    let tile := if o.prog == 0 && b.getLsbD 262 then List.replicate n 0
      else leWords size n ((s.core c).tile o.tile (size * n))
    let s := s.setTile c o.tile 0 (leBytes size (mmaStep fmt a cols tile))
    -- ZERO sets every element of the tile; an FP64 tile ends at byte 32,767 (R351)
    .on { o with prog := o.prog + 1 } s

/-- The codes of weights as C16, and how many are not finite (R89, R223). -/
def weightCodes (fm : Narrow) (codes : List Nat) : List Nat × Nat :=
  let cs := codes.map fun w => convElem 1 0 fm (fm.unpack w)
  (cs.map (·.code), (cs.filter (·.nonfinite)).length)

/-- n bytes of weights or bias, from the lines that the decoder holds; a line that it does not hold is read whole, and held
(R353). -/
def weightRead (p : EngPath) : Nat → Nat → Nat → List Byte → EngOp → State → EngOp × EngIo
  | 0, _, _, acc, o, s => (o, .ok acc s)
  | m + 1, va, n, acc, o, s =>
    if n == 0 then (o, .ok acc s)
    else
      let len := Nat.min n (128 - va % 128)
      let part (bs : List Byte) : List Byte := acc ++ (bs.drop (va % 128)).take len
      match o.lines.find? (va / 128) with
      | some bs => weightRead p m (va + len) (n - len) (part bs) o s
      | none =>
        match engRead p 2 (va / 128 * 128) 128 [] s with
        | .ok bs s => weightRead p m (va + len) (n - len) (part bs) { o with lines := o.lines.set (va / 128) bs } s
        | .fault _ _ k s => (o, .fault acc va k s)
        | .error _ s => (o, .error va s)
        | .blocked => (o, .blocked)

/-- The weights of the k-group in hand for n rows, row by row; the first fault ends the reading. -/
def readWeights (p : EngPath) (w : Nat) : Nat → List (List Nat) → EngOp → State → EngOp × Except EngIo (List (List Nat) × State)
  | 0, rows, o, s => (o, .ok (rows, s))
  | n + 1, rows, o, s =>
    let bit := 16 * o.prog * w
    let va := blkBits o.block 191 128 + rows.length * blkBits o.block 95 64 + bit / 8
    match weightRead p 4 va ((bit % 8 + 16 * w + 7) / 8) [] o s with
    | (o, .ok bs s) =>
      let v := bs.foldr (fun b acc => b.toNat + 256 * acc) 0
      readWeights p w n (rows ++ [(List.range 16).map fun k => v / 2 ^ (bit % 8 + w * k) % 2 ^ w]) o s
    | (o, r) => (o, .error r)

/-- The lines that k-groups after the one in hand read again (R353). -/
def EngOp.linesAhead (o : EngOp) (w : Nat) : Table (List Byte) :=
  let kg := blkBits o.block 303 288
  let row (r : Nat) : Nat := blkBits o.block 191 128 + r * blkBits o.block 95 64
  let ahead (n r : Nat) : Bool := 128 * n < row r + (16 * kg * w + 7) / 8 && row r + 16 * (o.prog + 1) * w / 8 < 128 * n + 128
  if kg ≤ o.prog + 1 then [] else o.lines.filter fun (n, _) => (List.range (blkBits o.block 279 273 + 1)).any (ahead n)

/-- An access of the head operation that did not end well. -/
def State.engFail (_s : State) (c : Nat) (e : Engine) (o : EngOp) (a : Access) : EngIo → EngStep
  | .fault _ va k s => .stop (s.engStop c e o va k a)
  | .error va s => .stop (s.engStick c e o { cause := .memError, addr := va, access := accessCode a })
  | .ok _ s => .on o s
  | .blocked => .blocked

/-- The tile rows of an `mmv` after one k-group (R223). -/
def mmvRows (b : BitVec 512) (first : Bool) (bias : List Nat) (ws : List (List Nat)) (vec : List Nat) (tile : List Nat) :
    List Nat :=
  let nv := blkBits b 283 280
  let col0 := blkBits b 272 266
  let rows := blkBits b 279 273 + 1
  let upd (n j acc : Nat) : Nat :=
    if n < rows && col0 ≤ j && j < col0 + nv then
      let acc := if first && b.getLsbD 262 then 0 else acc
      let acc := if first && b.getLsbD 265 then addBias acc (bias.getD n 0) else acc
      kgroupStep acc ((ws.getD n []).map c16Num) ((List.range 16).map fun k => c16Num (vec.getD (8 * k + (j - col0)) 0))
    else acc
  ((pieces 128 128 tile).zipIdx.map fun (r, n) => if n < rows then r.zipIdx.map fun (acc, j) => upd n j acc else r).flatten

/-- One k-group of an `mmv` (R223). -/
def mmvGroup (c : Nat) (o : EngOp) (s : State) : EngStep :=
  let b := o.block
  let p := s.engPath c o
  let fm := Narrow.ofWord (b.extractLsb' 448 32)
  let w := fm.width
  let rows := blkBits b 279 273 + 1
  let first := o.prog == 0
  let boff := blkBits b 63 32 + 256 * o.prog
  if s.scratchBad c o.team boff 256 then .stop (s.engStick c .matrix o { cause := .storeUe, addr := boff, access := 1 })
  else
    let nb := (rows * w + 7) / 8
    match (if first && b.getLsbD 265 then weightRead p 4 (blkBits b 255 192) nb [] o s else (o, .ok [] s)) with
    | (o, .ok bs s) =>
      match readWeights p w rows [] o s with
      | (o, .error r) => s.engFail c .matrix o .read r
      | (o, .ok (codes, s)) =>
        let (bias, n0) := weightCodes fm (if bs.isEmpty then [] else unpackBits w rows bs)
        let ws := codes.map (weightCodes fm)
        let vec := leWords 2 128 (s.scratchSlice c o.team boff 256)
        let tile := leWords 4 16384 ((s.core c).tile o.tile 65536)
        let s := s.setTile c o.tile 0 (leBytes 4 (mmvRows b first bias (ws.map (·.1)) vec tile))
        .on { o with prog := o.prog + 1, lines := o.linesAhead w, nfin := cap32 (o.nfin + n0 + (ws.map (·.2)).foldl (· + ·) 0) }
          (s.count c 0x42 o.team (2 * w * rows + bs.length))
    | (o, r) => s.engFail c .matrix o .read r

/-- A tile operation (R226); one that met a matrix operation not complete has undefined values (R27). -/
def tileStep (c : Nat) (o : EngOp) (s : State) : EngStep :=
  let n := 512 * (o.rows / 256 % 256)
  let at_ := 512 * (o.rows % 256)
  let fin : EngOp := { o with done := true }
  match o.kind with
  | .accz => .on fin (s.setTile c o.tile 0 (List.replicate 65536 0))
  | .accld =>
    if s.scratchBad c o.team o.addr n then .stop (s.engStick c .matrix o { cause := .storeUe, addr := o.addr, access := 1 })
    else
      let (bs, s) := if o.hot then s.freeBytes n else (s.scratchSlice c o.team o.addr n, s)
      .on fin (s.setTile c o.tile at_ bs)
  | _ =>
    let (bs, s) := if o.hot then s.freeBytes n else (((s.core c).acc.slice (65536 * o.tile + at_) n), s)
    .on fin (s.scratchFill c o.team o.addr bs)

/-- The matrix cycles of a k-group step (R349). -/
def EngOp.groupCycles (o : EngOp) : Nat :=
  if blkBits o.block 285 284 == 1 then 1
  else match blkBits o.block 258 256 with
    | 0 => 16
    | 3 => 256
    | 4 => 128
    | _ => 64
/-- One step of the operation at the head of the matrix queue. -/
def matrixStep (c : Nat) (o : EngOp) (s : State) : EngStep :=
  let group (r : EngStep) : EngStep :=
    match r with
    | .on o s => .on { o with done := o.prog ≥ blkBits o.block 303 288 }
        ((s.modCore c fun k => { k with mmKgrp := k.mmKgrp + 1 }).count c 0x40 o.team o.groupCycles)
    | r => r
  match o.kind with
  | .accz | .accld | .accst => tileStep c o s
  | .mma => group (mmaGroup c o s)
  | .mmv => group (mmvGroup c o s)
  | _ => if blkBits o.block 285 284 == 1 then group (mmvGroup c o s) else group (mmaGroup c o s)

/-! Pour operations. -/

/-- The source codes of a `pour.out` row, from scratchpad or a tile (R230, R351). -/
def outCodes (c : Nat) (o : EngOp) (s : State) : List Nat :=
  let b := o.block
  let cols := blkBits b 175 160
  let size := stypeBytes b
  let saddr := blkBits b 127 64
  if b.getLsbD 363 then
    let dim := if blkBits b 360 358 == 4 then 64 else 128
    leWords size cols ((s.core c).acc.slice (65536 * o.tile + size * (dim * (saddr % 128 + o.prog) + saddr / 256 % 128)) (size * cols))
  else leWords size cols (s.scratchSlice c o.team (saddr + o.prog * blkBits b 287 256) (size * cols))

/-- The row in hand goes on from an element, or is done. -/
def EngOp.advance (o : EngOp) (col : Nat) : EngOp :=
  if col ≥ blkBits o.block 175 160 then { o with prog := o.prog + 1, col := 0 } else { o with col := col }
/-- The counts of the elements performed by a step (R93, R356). -/
def EngOp.tally (o : EngOp) (cs : List Conv) : EngOp :=
  let n := (cs.filter (·.nonfinite)).length
  let v := (cs.filter (·.counted)).length
  { o with nfin := cap32 (o.nfin + n), ovf := cap32 (o.ovf + v), rowNfin := if o.col == 0 then 0 else o.rowNfin + n,
           rowOvf := if o.col == 0 then 0 else o.rowOvf + v }
/-- The elements converted by a step, and a whole row moved, are counted (R357, R361). -/
def State.countRow (s : State) (c : Nat) (o o' : EngOp) : State :=
  let s := s.count c 0x44 o.team ((o'.prog - o.prog) * blkBits o.block 175 160 + o'.col - o.col)
  if o'.prog == o.prog then s else s.modCore c fun k => { k with peRows := k.peRows + 1 }

/-- The elements of a row that a `pour` or copy reads from element `col` on: those whose bits have arrived, and how the
reading ended (R215). -/
def pourElems (c : Nat) (o : EngOp) (s : State) : List Nat × EngIo :=
  let b := o.block
  let fm := Narrow.ofWord o.fm
  let w := typeWidth (blkBits b 357 355) fm
  let bit := o.col * w
  let va := blkBits b 63 0 + o.prog * blkBits b 159 128 + bit / 8
  let n := rowBytes b fm - bit / 8
  let r := engRead (s.engPath c o) (n / 128 + 2) va n [] s
  let take (bs : List Byte) : List Nat :=
    let have_ := (8 * bs.length - bit % 8) / w
    let v := bs.foldr (fun b acc => b.toNat + 256 * acc) 0
    (List.range (Nat.min have_ (blkBits b 175 160 - o.col))).map fun i => v / 2 ^ (bit % 8 + w * i) % 2 ^ w
  match r with
  | .ok bs _ => (take bs, r)
  | .fault bs _ _ _ => (take bs, r)
  | _ => ([], r)

/-- One row, or the rest of one, of a `pour` (R230). -/
def pourRow (c : Nat) (o : EngOp) (s : State) : EngStep :=
  let b := o.block
  let fm := Narrow.ofWord o.fm
  let size := stypeBytes b
  let (es, r) := pourElems c o s
  let cs := es.map fun v => convElem (blkBits b 360 358 + 1) (blkBits b 362 361) fm (typeNum (blkBits b 357 355) fm v)
  let go (s : State) : EngOp × State :=
    let o' := (o.advance (o.col + es.length)).tally cs
    let at_ := blkBits b 127 64 + o.prog * blkBits b 287 256 + size * o.col
    (o', (s.scratchFill c o.team at_ (leBytes size (cs.map (·.code)))).countRow c o o')
  match r with
  | .ok _ s =>
    let (o', s) := go s
    .on o' s
  | .fault _ va k s =>
    let (o', s) := go s
    .stop (s.engStop c .pour o' va k .read)
  | r => s.engFail c .pour o .read r

/-- One row, or the rest of one, of a copy node (R310, R230). -/
def copyRow (c : Nat) (o : EngOp) (s : State) : EngStep :=
  let b := o.block
  let fm := Narrow.ofWord o.fm
  let size := stypeBytes b
  let (es, r) := pourElems c o s
  let cs := es.map fun v => convElem (blkBits b 360 358 + 1) (blkBits b 362 361) fm (typeNum (blkBits b 357 355) fm v)
  let write (s : State) : EngOp × EngIo :=
    let bs := leBytes size (cs.map (·.code))
    let at_ := blkBits b 127 64 + o.prog * blkBits b 287 256 + size * o.col
    let w := engWrite (s.engPath c o) (bs.length / 128 + 2) at_ bs [] s
    let n := match w with
      | .ok bs _ => bs.length / size
      | .fault bs _ _ _ => bs.length / size
      | _ => 0
    ((o.advance (o.col + n)).tally (cs.take n), w)
  let failed (o' : EngOp) (w : EngIo) : EngStep :=
    match w with
    | .fault _ va k s => .stop ((s.countRow c o o').engStop c .pour o' va k .write)
    | w => s.engFail c .pour o' .write w
  match r with
  | .ok _ s =>
    match write s with
    | (o', .ok _ s) => .on o' (s.countRow c o o')
    | (o', w) => failed o' w
  | .fault _ va k s =>
    match write s with
    | (o', .ok _ s) => .stop ((s.countRow c o o').engStop c .pour o' va k .read)
    | (o', w) => failed o' w
  | r => s.engFail c .pour o .read r

/-- One row, or the rest of one, of a `pour.out`; after the last row its overflow word (R230, R231). -/
def pourOutRow (c : Nat) (o : EngOp) (s : State) : EngStep :=
  let b := o.block
  let fm := Narrow.ofWord o.fm
  let p := s.engPath c o
  let cols := blkBits b 175 160
  if o.prog ≥ blkBits b 303 288 then
    match engWrite p 2 (ovfAddr b fm) (leBytes 4 [o.ovf]) [] s with
    | .ok _ s => .on { o with done := true } s
    | r => s.engFail c .pour o .write r
  else if !b.getLsbD 363 && s.scratchBad c o.team (blkBits b 127 64 + o.prog * blkBits b 287 256) (cols * stypeBytes b) then
    .stop (s.engStick c .pour o { cause := .storeUe, addr := blkBits b 127 64 + o.prog * blkBits b 287 256, access := 1 })
  else
    let g := blkBits b 357 355
    let w := typeWidth g fm
    let cs := (outCodes c o s).map fun v => convElem g (blkBits b 362 361) fm (typeNum (blkBits b 360 358 + 1) fm v)
    let start := o.col * w / 8
    let bs := (packBits w (cs.map (·.code))).drop start
    let va := blkBits b 63 0 + o.prog * blkBits b 159 128 + start
    let r := engWrite p (bs.length / 128 + 2) va bs [] s
    let go (n : Nat) : EngOp :=
      let col := if n ≥ bs.length then cols else Nat.min cols (Nat.max o.col (8 * (start + n) / w))
      (o.advance col).tally ((cs.drop o.col).take (col - o.col))
    match r with
    | .ok _ s => let o' := go bs.length
      .on o' (s.countRow c o o')
    | .fault done va k s => let o' := go done.length
      .stop ((s.countRow c o o').engStop c .pour o' va k .write)
    | r => s.engFail c .pour o .write r

/-- One step of the operation at the head of the Pour queue. -/
def pourStep (c : Nat) (o : EngOp) (s : State) : EngStep :=
  let fin (r : EngStep) : EngStep :=
    match r with
    | .on o s => .on { o with done := o.prog ≥ blkBits o.block 303 288 } s
    | r => r
  match o.kind with
  | .pour => fin (pourRow c o s)
  | .copy => fin (copyRow c o s)
  | _ => pourOutRow c o s

/-! Starting and completing. -/

/-- The operation is a `pour.out` of a tile. -/
def EngOp.drains (o : EngOp) (t : Nat) : Bool := o.kind == .pourOut && o.block.getLsbD 363 && o.tile == t
/-- The operation in place i of the Pour queue stands, or stands behind another, for matrix operations issued before it that wait
behind the head of their queue (R211). -/
def Core.heldUp (k : Core) (i : Nat) : Bool :=
  (k.pq.take (i + 1)).any fun q => q.drains q.tile && ((k.mq.take q.behind).drop 1).any fun m => m.tile == q.tile && m.kind != .mqrun
/-- The operations on a tile take effect in the order of issue (R27, R211): a `pour.out` of a tile waits for the matrix operations
on it issued before it, and they for such a `pour.out` issued before them. A block of a run is issued when the run takes it; it goes
before a `pour.out` that waits for operations behind the run, which are to follow the run (R224). -/
def Core.inOrder (k : Core) (o : EngOp) : Bool :=
  if o.kind == .pourOut then
    !o.block.getLsbD 363 || (k.mq.take o.behind).all fun m => m.tile != o.tile || (m.kind == .mqrun && (!m.inBlock || m.behind != 0))
  else if o.kind == .pour || o.kind == .copy then true
  else (k.pq.take o.behind).zipIdx.all fun (q, i) => !q.drains o.tile || (o.kind == .mqrun && k.heldUp i)
/-- The head operation may begin, or go on: it is not done, nothing stops it, a run has a block in hand, and what came before it on
its tile is complete (R211). -/
def Core.mayRun (k : Core) (o : EngOp) : Bool :=
  !o.done && !o.stopped && !o.stuck && (k.teams.get o.team Team.none).savedAt.isNone && (o.kind != .mqrun || o.inBlock)
    && k.inOrder o

/-- At most n steps of the head operation. -/
def engRun (c : Nat) (e : Engine) : Nat → State → State
  | 0, s => s
  | n + 1, s =>
    match ((s.core c).queue e).head? with
    | none => s
    | some o =>
      if !(s.core c).mayRun o then s
      else
        match (if e == .matrix then matrixStep c o s else pourStep c o s) with
        | .blocked => s
        | .stop s => s
        | .on o s => engRun c e n (s.setHead c e o)

/-- R211: the engine begins the operation at the head of its queue, or goes on with it, by at most n k-groups or rows. -/
def execEngineOpStart (c : Nat) (e : Engine) (n : Nat) (s : State) : Result :=
  match ((s.core c).queue e).head? with
  | none => .refused .notEnabled
  | some o =>
    if !(s.core c).mayRun o || (e == .pour && s.pkg.inReset.contains pourKind) then .refused .notEnabled
    else .next (engRun c e n (s.setHead c e { o with begun := true }))

/-- R225: a run looks at the 16 words at the head of its queue. DESIGN CHOICE (log 55): a translation fault of the read of a block's TAG
stops the run as R215 has it for the accesses that it names. -/
def execMqrunBlock (c : Nat) (s : State) : Result :=
  match (s.core c).mq with
  | [] => .refused .notEnabled
  | o :: _ =>
    let k := s.team c o.team
    let ws := (k.queue o.addr).words.take 16
    let stuck (o : EngOp) (i : FaultInfo) (s : State) : Result := .next (s.engStick c .matrix o i)
    if o.kind != .mqrun || o.inBlock || ws.length < 16 || o.stopped || o.stuck || k.savedAt.isSome then .refused .notEnabled
    else if (List.range 16).any fun i => (s.core c).badWords.contains (k.entryWord o.addr i) then
      stuck o { cause := .storeUe, access := 1 } s
    else
      let b : BitVec 512 := ws.foldr (fun w acc => acc <<< 32 ||| w.setWidth 512) 0
      let kind := blkBits b 285 284
      let drop (s : State) : State := s.modQueue c o.team o.addr (·.drop 16)
      let endRun (s : State) : State := s.modCore c fun k => k.popOp .matrix
      let bad := match kind with
        | 0 => !b.getLsbD 259 || mmaBad k (s.group c o.team o.group) b 0
        | 1 => mmvBad k b
        | _ => true
      if kind == 2 then .next (endRun (drop s))
      else if bad then
        .next ((endRun (s.modCore c fun k => { k with engMqStop := true })).engRecord c .matrix o engParam false)
      else
        let go (tag : Word) (s : State) : Result := .next ((s.modCore c (·.heat (blkBits b 261 260))).setHead c .matrix
          { o with block := b, inBlock := true, begun := true, done := false, signalled := false, tag := tag,
                   tile := blkBits b 261 260, prog := blkBits b 319 304, nfin := 0, behind := (s.core c).pq.length })
        let a := blkBits b 367 320
        if !b.getLsbD 263 then go 0 s
        else if b.getLsbD 383 then
          if s.scratchBad c o.team a 4 then stuck o { cause := .storeUe, addr := a, access := 1 } s
          else go (BitVec.ofNat 32 (s.scratchRead c o.team a 4)) s
        else
          match engRead (s.engPath c o) 2 a 4 [] s with
          | .ok bs s => go (BitVec.ofNat 32 ((leWords 4 1 bs).headD 0)) s
          | .fault _ va cause s => .next (s.engStop c .matrix o va cause .read)
          | .error va s => stuck o { cause := .memError, addr := va, access := 1 } s
          | .blocked => .refused .notEnabled

/-- The barrier object and the future of an operation: whether each is signalled, and where. -/
structure Signals where
  barv : Bool
  bar : Nat
  fut : Bool
  foff : Nat
  fval : Word

def EngOp.signals (o : EngOp) : Signals :=
  let b := o.block
  match o.kind with
  | .mma | .mmv | .mqrun =>
    { barv := b.getLsbD 263, bar := blkBits b 383 320, fut := b.getLsbD 264, foff := blkBits b 415 384,
      fval := b.extractLsb' 416 32 }
  | .pour | .pourOut =>
    { barv := b.getLsbD 366, bar := blkBits b 447 384, fut := b.getLsbD 367, foff := blkBits b 479 448,
      fval := b.extractLsb' 480 32 }
  | .copy => { barv := b.getLsbD 366, bar := blkBits b 447 384, fut := false, foff := 0, fval := 0 }
  | _ => { barv := false, bar := 0, fut := false, foff := 0, fval := 0 }

/-- The tile of an operation whose A registers a thread wrote before the completion has undefined values (R220). -/
def State.spoilTile (s : State) (c : Nat) (o : EngOp) : State :=
  if o.kind != .mma || !o.aHot then s
  else
    let (bs, s) := s.freeBytes (if blkBits o.block 258 256 == 4 then 32768 else 65536)
    s.setTile c o.tile 0 bs
/-- The registers that an operation's latch fill holds: undefined where a thread wrote one (R220, R221). -/
def EngOp.settled (o : EngOp) (fresh : Nat) : EngOp :=
  if !o.aHot then o
  else { o with aRegs := o.aRegs.map fun (r, _) => (r, (Config.freeValue (fresh + r)).setWidth 32) }

/-- Step 1 of R212: the counts are added, the latch follows, and the counter falls (R356, R221). -/
def State.signalCount (s : State) (c : Nat) (e : Engine) (o : EngOp) : State :=
  let s := s.spoilTile c o
  let o' := o.settled s.fresh
  let s := { s with fresh := s.fresh + (if o.aHot then 8192 else 0) }
  let ovf := if o.kind == .pourOut then o.ovf else 0
  let s := s.modCore c fun k => { k with
    latch := latchAfter k.latch o',
    engNfin := BitVec.ofNat 32 (cap32 (k.engNfin.toNat + o.nfin)), engNfinSticky := k.engNfinSticky || o.nfin != 0,
    engOvfc := BitVec.ofNat 32 (cap32 (k.engOvfc.toNat + ovf)), engOvfSticky := k.engOvfSticky || ovf != 0 }
  let s := (s.count c 0x46 o.team o.nfin).count c 0x47 o.team ovf
  let s := (s.releasePkg (coreDie c)).2
  match o.kind with
  | .mqrun | .copy => s
  | _ => s.onGroup c o.team o.group fun g =>
      if e == .matrix then { g with tCount := g.tCount - 1 } else { g with cCount := g.cCount - 1 }

/-- A dropped arrival: the status bit, and the group's first stale record (R190, R359). -/
def State.dropArrival (s : State) (c : Nat) (e : Engine) (o : EngOp) (bar : Nat) : State :=
  let r : Stale := { isT := e == .matrix, addr := bar % 2 ^ 48, spc := bar.testBit 63 }
  let s := s.modCore c fun k => { k with engBarStale := true }
  if o.kind == .copy then s
  else s.onGroup c o.team o.group fun g => { g with stale := if g.stale.isSome then g.stale else some r }

/-- Step 2 of R212: the arrival. -/
def signalBar (c : Nat) (e : Engine) (o : EngOp) (s : State) : EngStep :=
  let g := o.signals
  let a := g.bar % 2 ^ 48
  let after (v : Nat) (s : State) : State := if (arrival o.tag v).isNone then s.dropArrival c e o g.bar else s
  if !g.barv then .on o s
  else if g.bar.testBit 63 then
    if a + 16 > (s.team c o.team).scratchSize then .on o (s.dropArrival c e o g.bar)
    else if s.scratchBad c o.team a 16 then .stop (s.engStick c e o { cause := .storeUe, addr := a, access := 3 })
    else
      let v := s.scratchRead c o.team a 16
      .on o (after v (match arrival o.tag v with
        | some w => s.scratchWrite c o.team a 16 w
        | none => s))
  else
    match s.translateNow c (s.team c o.team).part a .readWrite (s.engExtents c o) with
    | .blocked => .blocked
    | .fault k s => .stop (if k == .memError then s.engStick c e o { cause := .memError, addr := a, access := 3 }
        else s.engStop c e o a k .readWrite)
    | .ok y s =>
      match s.atomicAt c (y.pa a) 16 y.cls (s.die (coreDie c)).epoch fun v => (arrival o.tag v).getD v with
      | none => .blocked
      | some (_, true, s) => .stop (s.engStick c e o { cause := .memError, addr := a, access := 3 })
      | some (v, false, s) =>
        .on o (after v ((s.engPath c o).counted a .readWrite s))

/-- Step 3 of R212: the future. -/
def signalFuture (c : Nat) (e : Engine) (o : EngOp) (s : State) : EngStep :=
  let g := o.signals
  if !g.fut || g.foff + 8 > (s.team c o.team).scratchSize then .on o s
  else if s.scratchBad c o.team g.foff 8 then .stop (s.engStick c e o { cause := .storeUe, addr := g.foff, access := 1 })
  else .on o <| s.scratchWrite c o.team g.foff 8 (futPost (s.scratchRead c o.team g.foff 8) g.fval)

/-- The operations that count in T which a group issued after the head of the matrix queue (R35). -/
def Core.later (k : Core) (t g : Nat) : Nat := ((k.mq.drop 1).filter fun q => q.team == t && q.group == g && q.kind != .mqrun).length
/-- A completed matrix operation as group g of its team holds it (R27, R262). -/
def State.pastOp (s : State) (c : Nat) (o : EngOp) (g : Nat) (q : Group) : PastOp :=
  let own := g == o.group
  let regs := own && o.kind == .mma && !o.block.getLsbD 259 && !o.fromLatch
  let w := o.signals
  { op := s.now, tile := o.tile, areg := if regs then o.areg else 0, count := if regs then aCount o.block else 0,
    after := if own && o.kind != .mqrun then some ((s.core c).later o.team g) else none,
    fut := if w.fut then some w.foff else none, bar := if w.barv then some (w.bar.testBit 63, w.bar % 2 ^ 48) else none,
    lanes := (q.threads.filter fun th => th.2.run != .exited).map (·.1) }
/-- A completed operation in place of an earlier one on the same tile and registers. -/
def Group.pushPast (q : Group) (p : PastOp) : Group :=
  if p.lanes.isEmpty then q
  else { q with past := (q.past.filter fun r => !(r.tile == p.tile && r.areg == p.areg && r.count == p.count)) ++ [p] }
/-- The groups of a team come to hold a completed matrix operation that their lanes have not observed (R27). -/
def State.unseen (s : State) (c : Nat) (o : EngOp) : State :=
  s.modTeam c o.team fun k => { k with groups := k.groups.map fun (g, q) => (g, q.pushPast (s.pastOp c o g q)) }

/-- An operation leaves its queue, or a run its block (R225); a copy node is finished, its writes at their homes
(R266). -/
def State.retireOp (s : State) (c : Nat) (e : Engine) (o : EngOp) : Option State :=
  let pop (s : State) : State := s.modCore c fun k => k.popOp e
  match o.kind with
  | .mqrun =>
    let s := if (s.team c o.team).over then s else (s.unseen c o).modQueue c o.team o.addr (·.drop 16)
    if (s.team c o.team).over || (o.rows != 0 && o.count + 1 == o.rows) then some (pop s)
    else some (s.setHead c e { o with inBlock := false, done := false, signalled := false, count := o.count + 1 })
  | .copy =>
    match s.releaseSys (coreDie c) with
    | none => none
    | some s =>
      let mark (q : Nat × Node) : Nat × Node := if q.1 == o.node then (q.1, { q.2 with finished := true }) else q
      some (pop (s.modPart (s.team c o.team).part fun p => { p with nodes := p.nodes.map mark }))
  | .mma | .mmv => some ((pop (s.unseen c o)).settle c o.team o.group)
  | _ => some ((pop s).settle c o.team o.group)

/-- R212: the operation whose writes are done signals its completion. -/
def execEngineOpComplete (c : Nat) (e : Engine) (s : State) : Result :=
  match ((s.core c).queue e).head? with
  | none => .refused .notEnabled
  | some o =>
    if !o.done || o.stopped || o.stuck then .refused .notEnabled
    else
      let s := if o.signalled then s else s.signalCount c e o
      let o := { o with signalled := true }
      match signalBar c e o (s.setHead c e o) with
      | .blocked => .refused .notEnabled
      | .stop s => .next s
      | .on o s =>
        match signalFuture c e o s with
        | .blocked => .refused .notEnabled
        | .stop s => .next s
        | .on o s =>
          match s.retireOp c e o with
          | none => .refused .notEnabled
          | some s => .next s

end Sys2Proof.Machine
end

