-- ==== Sys2Proof/Machine/Graph.lean ====
section
/-!
DEFINITION. The graph instructions (R232, R233) with the registration of task records and copy nodes (R310, R311), and
the dispatcher's own accesses to memory (R302, R311, R312).
-/
namespace Sys2Proof.Machine

/-! Accesses of the dispatcher. -/

/-- n bytes within a line at a physical address, for an agent outside the dies: at the home, or at the package that
holds them (R271, R275). -/
def State.readAt (s : State) (pa n cls : Nat) : Option (Nat × Bool × State) :=
  if isRemote pa then
    let (v, s) := s.openBytes n
    some (v, s.noPath pa, s)
  else s.homeRead pa n 32 cls
/-- n bytes within a line written there. -/
def State.writeAt (s : State) (pa n v cls : Nat) : Option State :=
  if isRemote pa then some (if s.noPath pa then s else { s with mem := s.mem.writeN pa n v }) else s.homeWrite pa n v cls

/-- Bytes read through the page table of a partition, line by line (R302). -/
def dispRead (p : Nat) : Nat → Nat → Nat → List Byte → State → EngIo
  | 0, _, _, acc, s => .ok acc s
  | m + 1, va, n, acc, s =>
    if n == 0 then .ok acc s
    else
      let len := Nat.min n (128 - va % 128)
      if va ≥ 2 ^ 48 then .fault acc va .addrNoncanon s
      else
        match s.walk p 32 va (Need.of .read) with
        | .blocked => .blocked
        | .fault k s => .fault acc va k s
        | .ok y s =>
          match s.readAt (y.pa va) len y.cls with
          | none => .blocked
          | some (v, bad, s) =>
            if bad then .error va s
            else dispRead p m (va + len) (n - len) (acc ++ (List.range len).map fun i => BitVec.ofNat 8 (v / 256 ^ i)) s
/-- n bytes of a partition's memory as the dispatcher reads them. -/
def State.dispBytes (s : State) (p va n : Nat) : EngIo := dispRead p (n / 128 + 2) va n [] s

/-- Bytes written through the page table of a partition, line by line, with the permissions that the write needs; an error where no
path leads to their home (R404). -/
def dispWrite (p : Nat) (need : Need) : Nat → Nat → List Byte → State → EngIo
  | 0, _, _, s => .ok [] s
  | m + 1, va, bs, s =>
    if bs.isEmpty then .ok [] s
    else
      let len := Nat.min bs.length (128 - va % 128)
      match s.walk p 32 va need with
      | .blocked => .blocked
      | .fault k s => .fault [] va k s
      | .ok y s =>
        if isRemote (y.pa va) && s.noPath (y.pa va) then .error va s
        else match s.writeAt (y.pa va) len ((bs.take len).foldr (fun b a => b.toNat + 256 * a) 0) y.cls with
        | none => .blocked
        | some s => dispWrite p need m (va + len) (bs.drop len) s

/-- A little-endian number. -/
def leNum (bs : List Byte) : Nat := bs.foldr (fun b a => b.toNat + 256 * a) 0

/-- A region list: its entries, or none where an entry is malformed (R306). -/
def parseRegion (v : Nat) : Option Region :=
  let b := BitVec.ofNat 128 v
  let base := v % 2 ^ 48
  let len := v / 2 ^ 64 % 2 ^ 48
  if v / 2 ^ 114 != 0 || v / 2 ^ 48 % 2 ^ 16 != 0 || len == 0 || base + len > 2 ^ 48 then none
  else some { base := base, len := len, acc := b.extractLsb' 112 2 }

/-- What reading a region list ends in. -/
inductive RegionList where
  | ok (rs : List Region) (s : State)
  | bad (s : State)
  | blocked

/-- At most n entries of a region list from an address on, read until the entry that ends it (R306). -/
def readRegions (p va : Nat) : Nat → List Region → State → RegionList
  | 0, rs, s => .ok rs s
  | n + 1, rs, s =>
    match s.dispBytes p va 16 with
    | .blocked => .blocked
    | .error _ s => .bad s
    | .fault _ _ _ s => .bad s
    | .ok bs s =>
      let v := leNum bs
      if v / 2 ^ 112 % 4 == 0 then .ok rs s
      else
        match parseRegion v with
        | none => .bad s
        | some r => readRegions p (va + 16) n (rs ++ [r]) s

/-- The region list at an address, 0 for none (R302, R311). -/
def State.regionList (s : State) (p va : Nat) : RegionList :=
  if va == 0 then .ok [] s else if va % 16 != 0 then .bad s else readRegions p va 8 [] s

/-- The write regions of a list, for ownership (R321). -/
def ownedOf (rs : List Region) : List (Nat × Nat) :=
  (rs.filter fun r => r.acc.getLsbD 1).map fun r => (r.base, r.base + r.len)

/-! Records and scopes. -/

/-- The fields of a task record or copy node (R227, R310). -/
def recPred (b : BitVec 512) : Nat := blkBits b 351 320
def recSucc (b : BitVec 512) : Nat := blkBits b 255 192
def recCopy (b : BitVec 512) : Bool := b.getLsbD 184
def recList (b : BitVec 512) : Bool := b.getLsbD 185
def recScope (b : BitVec 512) : Nat := blkBits b 183 176
def recSgen (b : BitVec 512) : Nat := blkBits b 503 480

/-- The predecessor count of a record stands at this byte (R310). -/
def predAt (va : Nat) : Nat := va + 40

/-- A task record fails R311, its region list apart. -/
def taskBad (b : BitVec 512) : Bool :=
  blkBits b 511 504 != 0 || blkBits b 479 352 != 0 || blkBits b 191 186 != 0 || blkBits b 63 0 % 8 != 0
    || blkBits b 63 48 != 0 || recSucc b % 64 != 0

/-- A copy node fails R229 or R310. -/
def copyBad (b : BitVec 512) : Bool :=
  let fmw := b.extractLsb' 448 32
  let saddr := blkBits b 127 64
  blkBits b 511 504 != 0 || blkBits b 191 186 != 0 || blkBits b 354 352 != 0 || b.getLsbD 363 || b.getLsbD 367
    || blkBits b 447 447 != 0 || recSucc b % 64 != 0
    || (blkBits b 357 355 == 0 && !fmtLegal fmw) || descBad b (Narrow.ofWord fmw) 0 false 0
    || saddr % stypeBytes b != 0
    || saddr + (blkBits b 303 288 - 1) * blkBits b 287 256 + blkBits b 175 160 * stypeBytes b > 2 ^ 48

/-- A token names a scope that is open and belongs to a grid (R232, R315). -/
def Part.scopeOpen (p : Part) (n gen : Nat) (launch : Word) : Bool :=
  n != 0 &&
    (let e := p.scopes.get n {}
     e.state == 1 && e.gen.toNat == gen && e.launch == launch)
/-- The scope of a token is not complete: it is open or closed, in the token's generation (R232). -/
def Part.scopeLive (p : Part) (n gen : Nat) : Bool :=
  let e := p.scopes.get n {}
  e.state != 0 && e.gen.toNat == gen
/-- A scope entry changed. -/
def Part.modScope (p : Part) (n : Nat) (f : Scope → Scope) : Part := { p with scopes := p.scopes.set n (f (p.scopes.get n {})) }

/-- The node registered at an address. -/
def Part.nodeAt (p : Part) (va : Nat) : Option (Nat × Node) := p.nodes.find? fun q => q.2.addr == va
/-- A node becomes ready, behind every node that became ready before it (R313). -/
def Part.makeReady (p : Part) (n : Nat) : Part :=
  match p.nodes.find? fun q => q.1 == n with
  | none => p
  | some (_, k) => { p with nodes := (p.nodes.filter fun q => q.1 != n) ++ [(n, { k with ready := true })] }
/-- The registered node at an address, whose predecessor count has reached 0, is ready (R312). -/
def Part.reached (p : Part) (va : Nat) : Part :=
  match p.nodeAt va with
  | some (n, k) => if k.ready then p else p.makeReady n
  | none => p

/-! The instructions. -/

/-- The release before a graph instruction, by every lane of the instance; the dispatcher reads memory at its homes
(R233). -/
def graphRelease (lanes : List Lane) (s : State) : Got State :=
  (lanes.foldl (fun g x => g.bind fun s => relLane x 3 s) (Got.ok s)).bind fun s =>
    match lanes with
    | [] => .ok s
    | x :: _ => .ofOption (s.releaseSys (coreDie x.c)) (.line 0)

/-- A graph instruction: once per group instance with a uniform operand (R208, R233). The effect answers the value for
the destination. It waits for the answer of the dispatcher, and so for a dispatcher that stands in reset (R233, R409). -/
def graphOp (act : Env → Lane → State → DWord → Got (DWord × State)) : SlotSem := instanceOp fun e x lanes s v =>
  let got := (graphRelease lanes s).bind fun s => (Got.hold s.dispOff .dispatcher).bind fun _ => act e x s v.1
  withGot e lanes s got fun (v, s) => (performAll e lanes s (fun x s => writeDst e x v s), [])

/-- 64 bytes of a record at its home (R311). -/
def readRecord (s : State) (pa va cls : Nat) : Got (BitVec 512 × State) :=
  (Got.ofOption (s.readAt pa 64 cls) (.line pa)).bind fun (v, bad, s) =>
    if bad then .fault { cause := .memError, addr := va, access := 1 } else .ok (BitVec.ofNat 512 v, s)

/-- The region list of a record, read at registration (R311). -/
def recordRegions (s : State) (p va : Nat) (b : BitVec 512) : Got (List Region × State) :=
  if recCopy b then .ok ([], s)
  else
    match s.regionList p (blkBits b 319 256) with
    | .ok rs s => .ok (rs, s)
    | .bad _ => .fault { cause := .taskBad, addr := va }
    | .blocked => .wait (.line 0)

/-- A record registered: it joins its scope, and it is ready where its predecessor count is 0 (R233, R311, R315, R402). -/
def Part.register (p : Part) (va grid : Nat) (b : BitVec 512) (rs : List Region) : Part :=
  let node : Node := { addr := va, grid := grid, record := b, regl := rs, ready := recPred b == 0 }
  let p := if recScope b == 0 then p else p.modScope (recScope b) fun e => { e with members := e.members + 1 }
  { p with nodes := p.nodes ++ [(p.nextNode, node)], nextNode := p.nextNode + 1, journalNodes := p.journalNodes ++ [va] }

/-- R233, R311: `tspawn`. -/
def semTspawn : SlotSem := graphOp fun _ x s a =>
  let va := a.toNat
  let k := s.team x.c x.t
  (checkGlobal va 64 .read).bind fun _ => (s.translate x va .read).bind fun (pa, cls) =>
  (readRecord (s.counted x va .read) pa va cls).bind fun (b, s) =>
  let part := s.part k.part
  (Got.check (recScope b != 0 && !part.scopeOpen (recScope b) (recSgen b) k.launch) { cause := .taskScope }).bind fun _ =>
  (Got.check (if recCopy b then copyBad b else taskBad b) { cause := .taskBad, addr := va }).bind fun _ =>
  (recordRegions s k.part va b).bind fun (rs, s) =>
  (Got.check ((s.part k.part).nodeAt va).isSome { cause := .taskBad, addr := va }).bind fun _ =>
  (Got.hold ((s.part k.part).nodes.length ≥ 65536) .dispatcher).bind fun _ =>
  .ok (0, s.modPart k.part fun p => p.register va k.grid b rs)
def execTspawn (f : OpF) (s : State) : Result := issueOp (.tspawn f) f semTspawn s

/-- R233: `gnode`: one decrement of a predecessor count. -/
def semGnode : SlotSem := graphOp fun _ x s a =>
  let va := a.toNat
  let p := (s.team x.c x.t).part
  (checkGlobal va 64 .readWrite).bind fun _ => (s.translate x va .readWrite).bind fun (pa, cls) =>
  (Got.ofOption (s.atomicAt x.c (predAt pa) 4 cls (s.thread x).epoch fun n => n - 1) (.line pa)).bind fun (n, bad, s) =>
  if bad then .fault { cause := .memError, addr := va, access := 1 }
  else if n == 0 then .fault { cause := .graphCount, addr := va }
  else
    let s := s.counted x va .readWrite
    .ok (0, if n == 1 then s.modPart p fun q => q.reached va else s)
def execGnode (f : OpF) (s : State) : Result := issueOp (.gnode f) f semGnode s

/-- The lowest free scope; entry 0 is never allocated (R315). -/
def Part.freeScope (p : Part) : Option Nat := (List.range 256).find? fun n => n != 0 && (p.scopes.get n {}).state == 0

/-- R233, R315: `fsopen`. -/
def semFsopen : SlotSem := graphOp fun _ x s a =>
  let k := s.team x.c x.t
  let part := s.part k.part
  let tok := a.toNat % 2 ^ 32
  let parent := tok % 256
  (Got.check (tok != 0 && !part.scopeOpen parent (tok / 256) k.launch) { cause := .taskScope }).bind fun _ =>
  match part.freeScope with
  | none => .fault { cause := .scopeFull }
  | some n =>
    let openIt (e : Scope) : Scope :=
      { e with parent := BitVec.ofNat 8 parent, grid := k.grid, launch := k.launch, members := 0, children := 0, state := 1 }
    let p := part.modScope n openIt
    let p := if tok == 0 then p else p.modScope parent fun e => { e with children := e.children + 1 }
    .ok (BitVec.ofNat 64 (256 * (part.scopes.get n {}).gen.toNat + n), s.modPart k.part fun _ => p)
def execFsopen (f : OpF) (s : State) : Result := issueOp (.fsopen f) f semFsopen s

/-- R233: `fsclose`. -/
def semFsclose : SlotSem := graphOp fun _ x s a =>
  let k := s.team x.c x.t
  let tok := a.toNat % 2 ^ 32
  (Got.check (!(s.part k.part).scopeOpen (tok % 256) (tok / 256) k.launch) { cause := .taskScope }).bind fun _ =>
  .ok (0, s.modPart k.part fun p => p.modScope (tok % 256) fun e => { e with state := 2 })
def execFsclose (f : OpF) (s : State) : Result := issueOp (.fsclose f) f semFsclose s

/-- R233, R249: `fswait`: the lanes wait until the scope is complete, and acquire when it is. -/
def semFswait : SlotSem := graphOp fun _ x s a =>
  let tok := a.toNat % 2 ^ 32
  (Got.check (tok % 256 == 0) { cause := .taskScope }).bind fun _ =>
  (Got.hold ((s.part (s.team x.c x.t).part).scopeLive (tok % 256) (tok / 256)) .fswait).bind fun _ =>
  (s.rejoin x 3).bind fun s => .ok (0, s)
def execFswait (f : OpF) (s : State) : Result := issueOp (.fswait f) f semFswait s

end Sys2Proof.Machine
end

