-- ==== Sys2Proof/Machine/Launch.lean ====
section
/-!
DEFINITION. The dispatcher: the launch queue with its checks (R301 to R306, R387, R388, R402), placement (R40, R279,
R305, R307, R427), tasks and copy nodes (R296, R313), the finish of nodes and scopes (R266, R312, R315) and the end of a
grid (R308, R309).
-/
namespace Sys2Proof.Machine

/-! Descriptors and packets. -/

/-- A kernel descriptor, where it is valid (R387, R388). -/
def parseDesc (b : BitVec 512) : Option Desc :=
  let regs := blkBits b 4 0
  let aff := blkBits b 8 5
  let team := blkBits b 14 9
  let chan := blkBits b 22 19
  let scrb := blkBits b 27 23
  let entry : Addr := b.extractLsb' 64 48
  let handler : Addr := b.extractLsb' 128 48
  let preload := blkBits b 239 192
  let plen := blkBits b 255 240
  let fms := (List.range 8).map fun n => b.extractLsb' (256 + 32 * n) 32
  if regs == 0 || regs > 28 || aff > 8 || team == 0 || team > 32 || chan > 8 || blkBits b 31 30 == 3 || blkBits b 47 32 == 0
      || blkBits b 55 48 != 1 || blkBits b 63 56 != 0 || blkBits b 127 112 != 0 || blkBits b 191 176 != 0
      || entry.toNat % 8 != 0 || handler.toNat % 8 != 0 || preload % 64 != 0 || (preload == 0 && plen != 0)
      || 64 * plen > 65536 * scrb || fms.any fun w => !fmtLegal w then none
  else some { entry := entry, handler := handler, collwait := blkBits b 47 32, narrow := blkBits b 31 30,
              prio := blkBits b 29 28, scrb := scrb, chan := chan, acc := b.extractLsb' 15 4, team := team, aff := aff,
              regs := 8 * regs, preload := preload, plen := plen, fms := fms }

/-- One entry of a placement map; none where a reserved bit is set or the rectangle leaves the flask (R303, R304). -/
def parseEntry (v : Nat) : Option MapEntry :=
  let e : MapEntry := { flask := v % 16, x0 := v / 2 ^ 4 % 16, y0 := v / 2 ^ 8 % 8, w := v / 2 ^ 12 % 16 + 1,
                        h := v / 2 ^ 16 % 8 + 1 }
  if v / 2 ^ 19 != 0 || v.testBit 11 || e.x0 + e.w > 12 || e.y0 + e.h > 8 then none else some e

/-- The entries of a map in its bytes (R303). -/
def parseMap : Nat → List Byte → Option (List MapEntry)
  | 0, _ => some []
  | n + 1, bs =>
    match parseEntry (leNum (bs.take 8)), parseMap n (bs.drop 8) with
    | some e, some es => some (e :: es)
    | _, _ => none

/-- A flask belongs to a partition (R301, R401). -/
def State.ownsFlask (s : State) (p f : Nat) : Bool := f < 12 && s.pkg.owner.toNat / 16 ^ f % 16 == p

/-- The cores of a map entry, by row and then column: core, cx, cy (R303). -/
def MapEntry.cores (e : MapEntry) : List (Nat × Nat × Nat) :=
  (List.range e.h).flatMap fun cy => (List.range e.w).map fun cx => (coreNumber e.flask (e.x0 + cx) (e.y0 + cy), cx, cy)
/-- How many teams a map places on each core. -/
def mapCounts (m : List MapEntry) : Table Nat :=
  (m.flatMap MapEntry.cores).foldl (fun t (c, _, _) => t.set c (t.get c 0 + 1)) []

/-! Resources. -/

/-- Threads of a group, by its width (R305, R396). -/
def Desc.width (d : Desc) : Nat := if d.narrow == 0 then 32 else 16
/-- Bytes of a register window, and windows in a bank (R279). -/
def Desc.window (d : Desc) : Nat := 4 * d.regs + 128 * d.aff
def Desc.perBank (d : Desc) : Nat := 65536 / d.window
/-- Register banks of a team, and all its banks (R279, R305). -/
def Desc.regBanks (d : Desc) : Nat := (d.width * d.team + d.perBank - 1) / d.perBank
def Desc.banks (d : Desc) : Nat := d.regBanks + d.scrb + d.chan

/-- Usable banks of a core (R278). -/
def Core.usable (k : Core) : Nat := ((List.range 32).filter fun b => (k.banks.get b {}).role != 0).length
/-- n teams of a descriptor fit on an otherwise empty core (R304, R305). -/
def Core.fitsEmpty (k : Core) (d : Desc) (n : Nat) : Bool :=
  n * d.team ≤ 64 && n ≤ 64 && n * d.banks + 1 ≤ k.usable && (n ≤ 1 || d.acc == 0)

/-- Teams of a core that have not ended. -/
def Core.running (k : Core) : List Team := (k.teams.map (·.2)).filter fun t => !t.over
/-- A team slot can be taken: it holds no team, or one that has given back its banks, whose cluster has ended, and that no held
reduction, record or engine operation names. -/
def State.slotFree (s : State) (c t : Nat) : Bool :=
  let k := s.core c
  match k.teams.find? t with
  | none => true
  | some m => m.over && m.regBanks.isEmpty && ((s.clusterTeams c t).all fun (d, u) => (s.team d u).over)
      && (k.held.all fun r => r.team != t) && (k.recs.all fun r => r.teamSlot != t) && (k.overflow.all fun r => r.teamSlot != t)
      && (k.mq.all fun o => o.team != t) && k.pq.all fun o => o.team != t
/-- The free team slots of a core, lowest first. -/
def State.freeSlots (s : State) (c : Nat) : List Nat := (List.range 64).filter fun t => s.slotFree c t

/-- The sites of a die that hold no defect, ascending (R1, R3). -/
def Pkg.sitesOf (k : Pkg) (d : Nat) : List Nat := ((List.range 56).map (56 * d + ·)).filter fun n => !k.defects.contains n
/-- The site of a logical core: the cores of a die, by row and column, stand on its first 48 good sites, and where fewer are left the
core of highest row and column has none (R1, R3; DESIGN CHOICE, log 57). -/
def Pkg.siteOf (k : Pkg) (c : Nat) : Option Nat := (k.sitesOf (coreDie c))[6 * (c % 96 / 12) + c % 6]?
/-- A logical core has a site. -/
def Pkg.hasSite (k : Pkg) (c : Nat) : Bool := (k.siteOf c).isSome

/-- n teams of a descriptor find their resources on a core beside the teams it holds (R305, R320). -/
def State.fits (s : State) (c : Nat) (d : Desc) (det : Bool) (n : Nat) : Bool :=
  let k := s.core c
  let run := k.running
  (run.map fun t => t.desc.team).sum + n * d.team ≤ 64 && s.pkg.hasSite c && n ≤ (s.freeSlots c).length
    && n * d.banks + 1 ≤ k.l1Banks.length && (n ≤ 1 || d.acc == 0)
    && run.all fun t => t.tiles &&& d.acc == 0 && t.det == det

/-! Creation. -/

/-- The register base of window i of a team (R279). -/
def Team.regAt (k : Team) (i : Nat) : Nat :=
  65536 * k.regBanks.getD (i / k.desc.perBank) 0 + k.desc.window * (i % k.desc.perBank)

/-- A thread at its creation (R40). -/
def newThread (k : Team) (g l : Nat) (entry : Addr) : Thread :=
  { pc := entry, rentry := entry, rbase := k.regAt (g * k.desc.width + l) }

/-- A uniform register, listed where it is not 0. -/
def listWord (i : Nat) (w : Word) : Table Word := if w == 0 then [] else [(i, w)]
/-- The uniform registers of a group at its creation (R22). -/
def newKregs (argp : DWord) (x y z : Nat) : Table Word :=
  listWord 0 (argp.setWidth 32) ++ listWord 1 ((argp >>> 32).setWidth 32) ++ listWord 2 (BitVec.ofNat 32 (x + 2 ^ 16 * y))
    ++ listWord 3 (BitVec.ofNat 32 z)

/-- A group at its creation (R40). -/
def newGroup (k : Team) (g : Nat) (entry : Addr) (argp : DWord) (task : Option TaskInfo) : Group :=
  { kregs := match task with
      | none => newKregs argp 0 0 0
      | some i => newKregs argp i.tileX i.tileY i.tileZ,
    fmts := k.desc.fms, task := task, narrow := k.desc.narrow != 0,
    threads := (List.range k.desc.width).map fun l => (l, newThread k g l entry) }

/-- The threads of a group, ascending. -/
def groupLanes (g w : Nat) : List (Nat × Nat) := (List.range w).map fun l => (g, l)

/-- The first waves of the launch groups of a team: one for each group, or for each pair (R307, R427). -/
def launchWaves (d : Desc) (n : Nat) : List (List (Nat × Nat)) :=
  if d.narrow == 2 then
    (List.range ((n + 1) / 2)).map fun j => groupLanes (2 * j) 16 ++ if 2 * j + 1 < n then groupLanes (2 * j + 1) 16 else []
  else (List.range n).map fun g => groupLanes g d.width

/-- Banks given a role for a team slot (R276, R277). -/
def Core.giveBanks (k : Core) (bs : List Nat) (role : BitVec 3) (t : Nat) : Core :=
  { k with banks := bs.foldl (fun tb b => tb.set b { tb.get b {} with role := role, team := BitVec.ofNat 6 t }) k.banks }

/-- A word of the banked store lies in one of the banks. -/
def inBanks (bs : List Nat) (w : Nat) : Bool := bs.contains (4 * w / 65536)

/-- The banks of a team granted and zeroed, its tiles set to +0.0 (R27, R40, R277). -/
def Core.grant (k : Core) (m : Team) (t : Nat) : Core :=
  let k := ((k.giveBanks m.regBanks 1 t).giveBanks m.scrBanks 3 t).giveBanks m.fifoBanks 4 t
  let all := m.regBanks ++ m.scrBanks ++ m.fifoBanks
  let tiles := (List.range 4).filter fun i => m.tiles.getLsbD i
  { k with store := all.foldl (fun st b => st.zero (65536 * b) 65536) k.store,
           badWords := k.badWords.filter fun w => !inBanks all w,
           acc := tiles.foldl (fun a i => a.zero (65536 * i) 65536) k.acc }

/-- The words of the windows of a group hold no error: its registers are zero (R40, R281). -/
def Core.clearWindows (k : Core) (m : Team) (g : Nat) : Core :=
  let owns (l w : Nat) : Bool :=
    let a := m.regAt (g * m.desc.width + l)
    a ≤ 4 * w && 4 * w < a + m.desc.window
  { k with badWords := k.badWords.filter fun w => !(List.range m.desc.width).any fun l => owns l w }

/-- Where a team of a grid stands: core, map entry number, coordinates, index, and the rectangle. -/
structure Spot where
  c : Nat
  e : Nat
  cx : Nat
  cy : Nat
  index : Nat
  cw : Nat
  ch : Nat
  deriving DecidableEq, Repr

/-- The teams of a map, numbered (R303). -/
def mapSpots (m : List MapEntry) : List Spot :=
  let all := m.zipIdx.flatMap fun (e, i) => e.cores.map fun (c, cx, cy) => (c, i, cx, cy, e.w, e.h)
  all.zipIdx.map fun ((c, e, cx, cy, w, h), n) => { c := c, e := e, cx := cx, cy := cy, index := n, cw := w, ch := h }

/-- A team of a grid made on its core, in the lowest free slot and the lowest banks (R303, R305). The core acquires, for
the launch stands before its first instruction (R250). -/
def State.makeTeam (s : State) (p gk : Nat) (g : Grid) (x : Spot) : Option (Nat × State) :=
  let k := s.core x.c
  let d := g.desc
  let t := (s.freeSlots x.c).headD 0
  let bs := k.l1Banks
  let rest := bs.drop d.regBanks
  let m : Team := { part := p, grid := gk, launch := g.launch, index := x.index, cluster := x.e, cx := x.cx, cy := x.cy,
                    cw := x.cw, ch := x.ch, desc := d, det := g.det, regBanks := bs.take d.regBanks,
                    scrBanks := rest.take d.scrb, fifoBanks := (rest.drop d.scrb).take d.chan, tiles := d.acc,
                    placedAt := s.now }
  let s := ((s.leaveL1 x.c (m.regBanks ++ m.scrBanks ++ m.fifoBanks)).modCore x.c fun k => k.grant m t).setTeam x.c t m
  (s.joinPkg x.c).map fun s => (t, s)

/-- A team of a launch: its scratchpad preloaded, its launch groups and their waves (R40, R307, R388). -/
def State.launchTeam (s : State) (p gk : Nat) (g : Grid) (data : List Byte) (x : Spot) : Option State :=
  match s.makeTeam p gk g x with
  | none => none
  | some (t, s) =>
    let argp : DWord := g.packet.extractLsb' 64 64
    let n := blkBits g.packet 239 224
    let s := s.scratchFill x.c t 0 data
    let owned := if g.det then ownedOf g.regl else []
    let s := s.modTeam x.c t fun m => { m with groups := (List.range n).map fun i =>
      (i, { newGroup m i g.desc.entry argp none with owned := owned }) }
    some ((launchWaves g.desc n).foldl (fun s w => s.addSafe x.c t w) s)

/-! The launch queue. -/

/-- The status of a completion record (R304, R308). -/
def statusDescBad : Nat := 1
def statusMapBad : Nat := 2
def statusNoFit : Nat := 3
def statusNotPart : Nat := 4
def statusRegionBad : Nat := 5

/-- A completion record needs a translation of its page and none of the permissions of R292, which lists no write of the dispatcher
(R304, R413, R417, log 52). -/
def Need.record : Need := { dirty := true }
/-- A completion record written, or its CPL_FAIL event (R308, R309); none while a line is not served. -/
def State.complete (s : State) (p : Nat) (launch : Word) (cpl status clocks : Nat) : Option State :=
  let fail (s : State) : Option State :=
    some (s.event p { id := 0, cause := .cplFail, event := true, grid := launch, detail := BitVec.ofNat 32 status, addr := cpl })
  if cpl % 16 != 0 || cpl ≥ 2 ^ 48 then fail s
  else
    match dispWrite p Need.record 2 cpl (leBytes 4 [status, launch.toNat] ++ leBytes 8 [clocks]) s with
    | .ok _ s => some s
    | .blocked => none
    | .error _ s => fail s
    | .fault _ _ _ s => fail s

/-- What the checks of a packet end in. -/
inductive LaunchCheck where
  | ok (g : Grid) (s : State)
  | reject (status : Nat) (s : State)
  | blocked

/-- Reading for a check: a failure rejects with a status. -/
def checkRead (r : EngIo) (status : Nat) (k : List Byte → State → LaunchCheck) : LaunchCheck :=
  match r with
  | .ok bs s => k bs s
  | .blocked => .blocked
  | .error _ s => .reject status s
  | .fault _ _ _ s => .reject status s

/-- The checks of a launch packet, in their order (R304). -/
def State.checkPacket (s : State) (p : Nat) (launch : Word) (b : BitVec 512) : LaunchCheck :=
  let dva := blkBits b 63 0
  let pmap := blkBits b 191 128
  let nclu := blkBits b 223 192
  let lgrp := blkBits b 239 224
  let regl := blkBits b 383 320
  if dva % 64 != 0 then .reject statusDescBad s
  else checkRead (s.dispBytes p dva 64) statusDescBad fun bs s =>
    match parseDesc (BitVec.ofNat 512 (leNum bs)) with
    | none => .reject statusDescBad s
    | some d =>
      if blkBits b 511 384 != 0 || blkBits b 255 248 != 0 || blkBits b 247 241 != 0 || lgrp == 0 || lgrp > d.team
          || blkBits b 319 256 % 16 != 0 then .reject statusDescBad s
      else if nclu == 0 || nclu > 12288 || pmap % 8 != 0 then .reject statusMapBad s
      else checkRead (s.dispBytes p pmap (8 * nclu)) statusMapBad fun bs s =>
        match parseMap nclu bs with
        | none => .reject statusMapBad s
        | some m =>
          if m.any fun e => !s.ownsFlask p e.flask then .reject statusNotPart s
          else
            match s.regionList p regl with
            | .blocked => .blocked
            | .bad s => .reject statusRegionBad s
            | .ok rs s =>
              if (mapCounts m).any fun (c, n) => !(s.core c).fitsEmpty d n then .reject statusNoFit s
              else .ok { launch := launch, packet := b, desc := d, map := m, regl := rs, det := b.getLsbD 240 } s

/-- The launch that goes next, in ascending launch number: one that waits at the head of the queue, or one that is to be
restored from its save area (R305, R403). -/
def Part.next (p : Part) : Option (Nat × Grid) := List.find? (fun q : Nat × Grid => !q.2.placed && (!q.2.saved || q.2.resumes)) p.grids
/-- A launch waits at the head of the queue. -/
def Part.waiting (p : Part) : Option (Nat × Grid) := p.next.filter fun q => !q.2.saved

/-- Launch numbers count from 1 and are never 0 (R301). -/
def nextLaunchNo (n : Word) : Word := if n + 1 == 0 then 1 else n + 1

/-- The queue has a packet to read, and nothing waits before it (R301, R305, R402, R403). -/
def Part.canRead (p : Part) : Bool :=
  p.lqEn && p.lqLogn != 0 && p.jrnV && p.next.isNone && p.lqHead.toNat % ringSize p.lqLogn != p.lqTail.toNat % ringSize p.lqLogn

/-- HEAD past the packet just read, its launch number given (R301, R402). -/
def Part.pastPacket (p : Part) : Part :=
  { p with lqHead := BitVec.ofNat 16 ((p.lqHead.toNat + 1) % ringSize p.lqLogn), nextLaunch := nextLaunchNo p.nextLaunch }

/-- R304, R402: the dispatcher reads, checks and journals the next packet. -/
def execLaunchPacketRead (p : Nat) (s : State) : Result :=
  let q := s.part p
  if !q.canRead || s.dispOff then .refused .notEnabled
  else
    match s.readAt (q.lqBase.toNat * 4096 + 64 * (q.lqHead.toNat % ringSize q.lqLogn)) 64 3 with
    | none => .refused .notEnabled
    | some (v, bad, s) =>
      let b := BitVec.ofNat 512 v
      let n := q.nextLaunch
      match (if bad then .reject statusDescBad s else s.checkPacket p n b) with
      | .blocked => .refused .notEnabled
      | .reject st s =>
        match (s.modPart p (·.pastPacket)).complete p n (blkBits b 319 256) st 0 with
        | none => .refused .notEnabled
        | some s => .next s
      | .ok g s => .next ((s.modPart p (·.pastPacket)).modPart p fun q =>
          { q with journal := q.journal ++ [(n, b)], grids := q.grids.set q.nextGrid g, nextGrid := q.nextGrid + 1 })

/-- Teams made one after another. -/
def State.launchTeams (s : State) (p gk : Nat) (g : Grid) (data : List Byte) : List Spot → Option State
  | [] => some s
  | x :: xs =>
    match s.launchTeam p gk g data x with
    | none => none
    | some s => s.launchTeams p gk g data xs

/-- A launch leaves the dispatcher: its grid and its journal entry are retired (R402). -/
def Part.retire (p : Part) (gk : Nat) (launch : Word) : Part :=
  { p with grids := p.grids.del gk, journal := p.journal.filter fun j => j.1 != launch }

/-- A grid stands in place. -/
def Part.place (p : Part) (gk : Nat) (g : Grid) : Part := { p with grids := p.grids.set gk { g with placed := true } }

/-- Work can be placed under a map: every flask is the partition's (R401). -/
def State.mayPlace (s : State) (p : Nat) (m : List MapEntry) : Bool := m.all fun e => s.ownsFlask p e.flask

/-- R305, R388: the launch at the head of the queue is placed once every core it names has its resources. -/
def execLaunchPlace (p : Nat) (s : State) : Result :=
  match (s.part p).waiting with
  | none => .refused .notEnabled
  | some (gk, g) =>
    if s.dispOff || !s.mayPlace p g.map || (mapCounts g.map).any fun (c, n) => !s.fits c g.desc g.det n then .refused .notEnabled
    else
      match s.dispBytes p g.desc.preload (64 * g.desc.plen) with
      | .blocked => .refused .notEnabled
      | .ok data s =>
        let spots := mapSpots g.map
        match s.launchTeams p gk g data spots with
        | none => .refused .notEnabled
        | some s => .next (s.modPart p fun q => q.place gk { g with teamsLeft := spots.length })
      | r =>
        let s := match r with
          | .fault _ _ _ s => s
          | .error _ s => s
          | _ => s
        match (s.modPart p fun q => q.retire gk g.launch).complete p g.launch (blkBits g.packet 319 256) statusDescBad 0 with
        | none => .refused .notEnabled
        | some s => .next s

/-! Tasks and copy nodes. -/

/-- A page joins the extents formed so far, the last of them open (R296). -/
def joinExtent (es : List Extent) (open_ : Bool) (u : Extent) : List Extent × Bool :=
  match es.getLast? with
  | some e =>
    if open_ && e.vpage + e.len == u.vpage && e.ppage + e.len == u.ppage && e.w == u.w && e.r == u.r && e.cls == u.cls
        && e.rem == u.rem && e.node == u.node then (es.dropLast ++ [{ e with len := e.len + u.len }], true)
    else if es.length < 8 then (es ++ [u], true) else (es, false)
  | none => ([u], true)

/-- The pages of one region from a page up to another, walked in ascending address (R296). -/
def regionPages (p : Nat) (r : Region) (last : Nat) : Nat → Nat → List Extent × Bool → State → Option ((List Extent × Bool) × State)
  | 0, _, es, s => some (es, s)
  | n + 1, page, es, s =>
    if page > last then some (es, s)
    else
      match s.walk p 32 (page * 65536) { dirty := r.acc.getLsbD 1 } with
      | .blocked => none
      | .fault _ s => regionPages p r last n (page + 1) (es.1, false) s
      | .ok x s =>
        let u : Extent := { vpage := x.vpage, ppage := x.frame, len := x.size, w := x.w && r.acc.getLsbD 1,
                            r := x.r && r.acc.getLsbD 0, cls := x.cls, rem := x.rem, node := x.node }
        let es := if u.w || u.r then joinExtent es.1 es.2 u else (es.1, false)
        regionPages p r last n (x.vpage + x.size) es s

/-- The extent table of a task, from its region list (R296). -/
def State.buildExtents (s : State) (p : Nat) : List Region → List Extent × Bool → Option (List Extent × State)
  | [], es => some (es.1, s)
  | r :: rs, es =>
    let last := (r.base + r.len - 1) / 65536
    match regionPages p r last (last - r.base / 65536 + 1) (r.base / 65536) es s with
    | none => none
    | some (es, s) => s.buildExtents p rs es

/-- The grid takes new work: it is placed, and no save stands in the way (R334). -/
def Grid.live (g : Grid) : Bool := g.placed && !g.saved && !g.preReq

/-- The teams of a grid with a free group slot (R313). -/
def State.taskTeams (s : State) (p gk : Nat) : List (Nat × Nat) :=
  (s.gridTeams p gk).filter fun (c, t) =>
    let k := s.team c t
    !k.over && !k.ended && k.groups.length < k.desc.team

/-- The first ready task of a grid that is not launched (R313). -/
def Part.firstTask (p : Part) (gk : Nat) : Option (Nat × Node) :=
  p.nodes.find? fun q => q.2.grid == gk && q.2.ready && !q.2.launched && !recCopy q.2.record
/-- A node changed. -/
def Part.modNode (p : Part) (n : Nat) (f : Node → Node) : Part :=
  { p with nodes := p.nodes.map fun q => if q.1 == n then (n, f q.2) else q }
/-- The lowest free group slot of a team. -/
def Team.freeGroup (k : Team) : Nat := ((List.range 64).find? fun g => (k.groups.find? g).isNone).getD 0

/-- What a task group runs for (R310). -/
def Node.task (n : Nat) (k : Node) : TaskInfo :=
  { record := k.addr, node := n, scope := recScope k.record, sgen := recSgen k.record, tileX := blkBits k.record 143 128,
    tileY := blkBits k.record 159 144, tileZ := blkBits k.record 175 160 }

/-- The operations of a team whose completion no thread of a new group has observed: the launch that it follows acquires what was
released, and no more (R27, R250, log 53). -/
def Team.inherited (k : Team) : List PastOp :=
  let lanes := List.range k.desc.width
  let old := (k.groups.flatMap fun q => q.2.past).filter fun p => !p.told
  old.foldl (fun acc p => if acc.any fun r : PastOp => r.op == p.op then acc
    else acc ++ [({ op := p.op, tile := p.tile, fut := p.fut, bar := p.bar, lanes := lanes } : PastOp)]) []

/-- R313: the ready task n becomes a group in the k-th team of its grid with a free group slot. -/
def execTaskLaunch (p n k : Nat) (s : State) : Result :=
  match (s.part p).nodes.find? fun q => q.1 == n with
  | none => .refused .notEnabled
  | some (_, nd) =>
    let first := match (s.part p).firstTask nd.grid with
      | some (m, _) => m == n
      | none => false
    match (s.taskTeams p nd.grid)[k]? with
    | none => .refused .notEnabled
    | some (c, t) =>
      if !first || s.dispOff || !((s.part p).grids.get nd.grid { launch := 0, packet := 0 }).live then .refused .notEnabled
      else
        match s.buildExtents p nd.regl ([], false) with
        | none => .refused .notEnabled
        | some (es, s) =>
          match s.joinPkg c with
          | none => .refused .notEnabled
          | some s =>
            let m := s.team c t
            let g := m.freeGroup
            let q := newGroup m g (nd.record.extractLsb' 0 48) (nd.record.extractLsb' 64 64) (some (Node.task n nd))
            let q := { q with extents := es, owned := if m.det then ownedOf nd.regl else [], past := m.inherited }
            let s := s.modTeam c t fun m => { m with groups := m.groups.set g q }
            let s := s.modCore c fun k => k.clearWindows m g
            .next ((s.addSafe c t (groupLanes g m.desc.width)).modPart p
              fun q => q.modNode n fun nd => { nd with launched := true })

/-- A journalled node registered again: its PRED is read where it stands (R311, R403). -/
def State.reregister (s : State) (p : Nat) (n : Nat) (nd : Node) : State :=
  match s.walk p 32 nd.addr (Need.of .read) with
  | .ok y s =>
    match s.readAt (predAt (y.pa nd.addr)) 4 y.cls with
    | some (v, false, s) => s.modPart p fun q => q.modNode n fun nd => { nd with again := false, ready := v == 0 }
    | _ => s
  | _ => s
/-- The nodes of a partition that a failure stopped are registered again (R403). -/
def State.reregisterAll (s : State) (p : Nat) : State :=
  ((s.part p).nodes.filter fun q => q.2.again).foldl (fun s (n, nd) => s.reregister p n nd) s

/-- The tag of the barrier object of a copy node, read as it is given to an engine (R197). -/
def State.copyTag (s : State) (c t : Nat) (b : BitVec 512) : EngIo :=
  if !b.getLsbD 366 then .ok [] s else engRead { c := c, t := t } 2 (blkBits b 431 384) 4 [] s

/-- R313: a ready copy node is given to the Pour queue of a core that holds a team of its grid. -/
def execCopyNodeDispatch (p n c : Nat) (s : State) : Result :=
  match (s.part p).nodes.find? fun q => q.1 == n with
  | none => .refused .notEnabled
  | some (_, nd) =>
    let b := nd.record
    match (s.gridTeams p nd.grid).find? fun (d, t) => d == c && !(s.team d t).over && !(s.team d t).ended with
    | none => .refused .notEnabled
    | some (_, t) =>
      if !nd.ready || nd.launched || s.dispOff || !recCopy b || (s.core c).pq.length ≥ 8
          || !((s.part p).grids.get nd.grid { launch := 0, packet := 0 }).live then .refused .notEnabled
      else
        match s.joinPkg c with
        | none => .refused .notEnabled
        | some s =>
          match s.copyTag c t b with
          | .ok bs s =>
            let o : EngOp := { kind := .copy, team := t, group := 0, addr := nd.addr, block := b, fm := b.extractLsb' 448 32,
                               tag := BitVec.ofNat 32 (leNum bs), prog := blkBits b 319 304, node := n }
            .next ((s.modCore c fun k => { k with pq := k.pq ++ [o] }).modPart p
              fun q => q.modNode n fun nd => { nd with launched := true })
          | _ => .refused .notEnabled

/-- Every dirty line of every die is at its home (R266, R275). -/
def State.homeAll (s : State) : Option State :=
  (s.dies.map (·.1)).foldl (fun acc d => acc.bind fun s => s.releaseSys d) (some s)

/-- An event of the dispatcher for a grid at an address (R312). -/
def graphEvent (c : Cause) (launch : Word) (va : Nat) : Rec := { id := 0, cause := c, event := true, grid := launch, addr := va }

/-- One successor decremented (R312); none while its line is not served. -/
def State.decrement (s : State) (p : Nat) (launch : Word) (va : Nat) : Option State :=
  let fail (s : State) : Option State := some (s.event p (graphEvent .graphSucc launch va))
  if va % 64 != 0 || va ≥ 2 ^ 48 then fail s
  else
    match s.walk p 32 va (Need.of .readWrite) with
    | .blocked => none
    | .fault _ s => fail s
    | .ok y s =>
      let pa := predAt (y.pa va)
      match s.readAt pa 4 y.cls with
      | none => none
      | some (n, bad, s) =>
        if bad then fail s
        else if n == 0 then some (s.event p (graphEvent .graphCount launch va))
        else (s.writeAt pa 4 (n - 1) y.cls).map fun s => if n == 1 then s.modPart p fun q => q.reached va else s

/-- Successors decremented in order. -/
def State.decrementAll (s : State) (p : Nat) (launch : Word) : List Nat → Option State
  | [] => some s
  | a :: as =>
    match s.decrement p launch a with
    | none => none
    | some s => s.decrementAll p launch as

/-- The record addresses in the bytes of a list, up to the first 0 (R312). -/
def listAddrs : Nat → List Byte → List Nat
  | 0, _ => []
  | n + 1, bs => if leNum (bs.take 8) == 0 then [] else leNum (bs.take 8) :: listAddrs n (bs.drop 8)

/-- The successors of a node decremented (R312). -/
def State.successors (s : State) (p : Nat) (launch : Word) (b : BitVec 512) : Option State :=
  let a := recSucc b
  if a == 0 then some s
  else if !recList b then s.decrement p launch a
  else
    match s.dispBytes p a 64 with
    | .blocked => none
    | .ok bs s => s.decrementAll p launch (listAddrs 8 bs)
    | .error _ s => some (s.event p (graphEvent .graphSucc launch a))
    | .fault _ _ _ s => some (s.event p (graphEvent .graphSucc launch a))

/-- Every stalled wave of a core that holds a lane waiting for such a condition looks at its slot again. -/
def Core.wakeWaits (k : Core) (f : Nat → Wait → Bool) : Core :=
  let waits (w : Wave) : Bool := w.lanes.any fun (g, l) =>
    let th := (((k.teams.get w.team Team.none).groups.get g {}).threads.get l {} : Thread)
    th.pos.wait.any (f w.team)
  let g (w : Wave) : Wave := if w.stalled && waits w then { w with stalled := false } else w
  ({ k with active := k.active.map g, pending := k.pending.map g } : Core).refill
/-- The lanes of a partition that wait for the dispatcher or for a scope look again. -/
def State.wakePart (s : State) (p : Nat) (w : Wait) : State :=
  { s with cores := s.cores.map fun (c, k) => (c, k.wakeWaits fun t v => v == w && (k.teams.get t Team.none).part == p) }

/-- R312: a finished node leaves its scope, its successors are decremented, and its entry is retired. -/
def execNodeFinish (p n : Nat) (s : State) : Result :=
  match (s.part p).nodes.find? fun q => q.1 == n with
  | none => .refused .notEnabled
  | some (_, nd) =>
    if !nd.finished || s.dispOff then .refused .notEnabled
    else
      let launch := ((s.part p).grids.get nd.grid { launch := 0, packet := 0 }).launch
      let sc := recScope nd.record
      let leave (q : Part) : Part :=
        { (if sc == 0 then q else q.modScope sc fun e => { e with members := e.members - 1 }) with
          nodes := q.nodes.filter fun m => m.1 != n, journalNodes := q.journalNodes.filter fun a => a != nd.addr }
      match s.homeAll with
      | none => .refused .notEnabled
      | some s =>
        match (s.modPart p leave).successors p launch nd.record with
        | none => .refused .notEnabled
        | some s => .next (s.wakePart p .dispatcher)

/-- A scope freed: its generation advances, and its parent loses a child (R315). -/
def Part.freeOne (q : Part) (n : Nat) : Part :=
  let e := q.scopes.get n {}
  let q := q.modScope n fun e => { gen := e.gen + 1 }
  if e.parent == 0 then q else q.modScope e.parent.toNat fun e => { e with children := e.children - 1 }

/-- R315, R322: a closed scope without members or children is complete: its held reductions are performed, those of a saved grid
once it is restored; it is freed, and its waiters return. -/
def execScopeComplete (p n : Nat) (s : State) : Result :=
  let e := (s.part p).scopes.get n {}
  let mine (r : HeldRed) : Bool := r.task && r.scope == n && r.sgen == e.gen.toNat
  if n == 0 || s.dispOff || e.state != 2 || e.members != 0 || e.children != 0
      || ((s.part p).grids.get e.grid { launch := 0, packet := 0 }).savedHeld.any fun r => mine r.2 then .refused .notEnabled
  else
    match s.flush (fun c r => mine r && (s.team c r.team).part == p
        && (s.team c r.team).grid == e.grid) true with
    | none => .refused .notEnabled
    | some s => .next ((s.modPart p fun q => q.freeOne n).wakePart p .fswait)

/-! The end of a grid. -/

/-- The work of a grid's nodes is over: none is launched and unfinished, none waits for its finish. -/
def Part.quietNodes (p : Part) (gk : Nat) : Bool := p.nodes.all fun q => q.2.grid != gk || !q.2.launched

/-- The nodes of a grid discarded and its scopes freed (R308). -/
def Part.clearGrid (p : Part) (gk : Nat) : Part :=
  let free (q : Nat × Scope) : Nat × Scope :=
    if q.2.grid == gk && q.2.state != 0 then (q.1, { gen := q.2.gen + 1 }) else q
  { p with nodes := p.nodes.filter fun q => q.2.grid != gk, scopes := p.scopes.map free,
           journalNodes := p.journalNodes.filter fun a => p.nodes.all fun q => q.2.addr != a || q.2.grid != gk }

/-- The records of ended teams that nothing names any more. -/
def State.dropTeams (s : State) (p gk : Nat) : State :=
  (s.gridTeams p gk).foldl (fun s (c, t) =>
    if s.slotFree c t then s.modCore c fun k => { k with teams := k.teams.del t } else s) s

/-- A core that ran a team of the grid still owes a store of its partition: no store is known by its grid, so the completion record
waits for all of them (R275, log 28). -/
def State.owesGrid (s : State) (p gk : Nat) : Bool :=
  (s.gridTeams p gk).any fun (c, _) => (s.core c).writes.any fun w => w.part == p

/-- R308: every team of the grid has ended: its nodes are discarded, its scopes freed, and its completion record
written, once every store of it is acknowledged (R275). -/
def execGridEnd (p g : Nat) (s : State) : Result :=
  match (s.part p).grids.find? g with
  | none => .refused .notEnabled
  | some k =>
    if !k.placed || k.saved || s.dispOff || k.teamsLeft != 0 || !(s.part p).quietNodes g || s.owesGrid p g then .refused .notEnabled
    else
      match s.flush (fun c r => (s.team c r.team).part == p && (s.team c r.team).grid == g) true with
      | none => .refused .notEnabled
      | some s =>
        match s.homeAll with
        | none => .refused .notEnabled
        | some s =>
          let left := (s.part p).nodes.any fun q => q.2.grid == g
          let status := if k.ended then 6 else if left then 7 else 0
          let lapse (q : Part) : Part := if k.preReq && q.preGrid == k.launch then { q with preState := 7 } else q
          match (s.modPart p fun q => lapse ((q.clearGrid g).retire g k.launch)).complete p k.launch
              (blkBits k.packet 319 256) status k.clocks with
          | none => .refused .notEnabled
          | some s => .next (((s.wakePart p .fswait).wakePart p .dispatcher).dropTeams p g)

end Sys2Proof.Machine
end

