-- ==== Sys2Proof/Machine/Ladle.lean ====
section
/-!
DEFINITION. Ladle messages and their replies (R234, R235) and the invocation unit of a slice: triggers and messages
(R368 to R372, R375, R376), the control page (R374), forwards and posts (R379, R380), overruns and faults (R377, R378,
R382), and the accesses of a handler (R363, R364).
-/
namespace Sys2Proof.Machine

/-! The requester's side. -/

/-- A reply on its way to the lane that sent a message (R235). -/
def State.sendReply (s : State) (c : Nat) (r : Reply) : State := s.modCore c fun k => { k with replies := k.replies ++ [r] }

/-- The status values of a reply (R235). -/
def replyOk : Nat := 0
def replyTimeout : Nat := 1
def replyNoHandler : Nat := 2
def replyHops : Nat := 3
def replyFault : Nat := 4

/-- The room of a reply port for three more entries (R235). -/
def portRoom (p : Port) (depth : Nat) : Bool := p.words.length + p.reserved + 3 ≤ depth

/-- A register reply counts in L; a channel reply reserves three entries of its port (R235). -/
def replyRoom (e : Env) (x : Lane) (s : State) : Got (Option Nat) :=
  if !e.f.dc then (roomL x s).bind fun _ => .ok none
  else
    let ch := s.chan x e.f.d.toNat
    (Got.check (ch.kind != 3) { cause := .chanDir }).bind fun _ =>
    (Got.hold (!portRoom ((s.core x.c).ports.get ch.tgt.toNat {}) ch.depth.toNat) .count).bind fun _ => .ok (some ch.tgt.toNat)

/-- A message enters the queue of a slice (R372). -/
def State.sendMessage (s : State) (n : Nat) (i : Inv) : State := s.modSlice n fun k => { k with queue := k.queue ++ [i] }

/-- The message is issued: its reply is owed to registers, or reserved at a port (R35, R235). -/
def State.owe (s : State) (e : Env) (x : Lane) (va msg : Nat) : Option Nat → State
  | none =>
    let d := e.f.d.toNat
    s.issueLoad x { words := [(d, 0), (d + 1, 1), (d + 2, 2)], addr := va, pending := some msg }
  | some p => s.modCore x.c fun k =>
      let q := k.ports.get p {}
      { k with ports := k.ports.set p { q with reserved := q.reserved + 3 } }

/-- R234: one message of each lane. -/
def semLmsg : SlotSem := lanewise fun e x s =>
  ((replyRoom e x s).bind fun port => (readSrcs e x s).bind fun v =>
    let va := v.a.toNat
    (checkGlobal va 1 .read).bind fun _ => (s.translate x va .read).bind fun (pa, cls) =>
    let k := s.team x.c x.t
    let q := s.part k.part
    let n := s.nextMsg
    let s := { ((s.counted x va .read).owe e x va n port) with nextMsg := n + 1 }
    if !q.ldTenV || !isHbm pa then
      .ok (s.sendReply x.c { team := x.t, group := x.g, lane := x.l, msg := n, port := port, status := replyNoHandler, value := 0 })
    else
      let m : Inv := { kind := .message, line := lineOf pa, tenant := q.ldTen.toNat, handler := e.f.mod.setWidth 8,
                       arg0 := v.a, arg1 := v.b, core := x.c, team := x.t, group := x.g, lane := x.l, msg := n, port := port,
                       part := k.part, grid := k.launch, teamIx := k.index, cls := cls }
      .ok (s.sendMessage (homeSlice pa) m)).out s
/-- R234: `lmsg`. -/
def execLmsg (f : OpF) (s : State) : Result := issueOp (.lmsg f) f semLmsg s

/-- The part of a reply that a word of its destination takes (R235). -/
def Reply.word (r : Reply) (sel : Word) : Word :=
  if sel == 0 then r.value.setWidth 32 else if sel == 1 then (r.value >>> 32).setWidth 32 else BitVec.ofNat 32 r.status

/-- A register reply written; it is discarded where its lane is gone (R111, R235). -/
def State.putReply (s : State) (x : Lane) (r : Reply) : State :=
  match (s.thread x).loads.find? fun o => o.pending == some r.msg with
  | none => s
  | some o =>
    let s := o.words.foldl (fun s w => s.touchA x w.1) s
    let put (th : Thread) : Thread :=
      { th with win := o.words.foldl (fun w p => w.set p.1 (r.word p.2)) th.win,
                loads := th.loads.filter fun q => q.pending != some r.msg }
    (s.modThread x put).wake x

/-- R235: the reply in place i among those on their way to the core is written to its registers, or appended to its
reply port, unless the port has passed to another since (R40, log 54). -/
def execLmsgReply (c t g l i : Nat) (s : State) : Result :=
  match (s.core c).replies[i]? with
  | none => .refused .notEnabled
  | some r =>
    if r.team != t || r.group != g || r.lane != l then .refused .notEnabled
    else
      let s := s.modCore c fun k => { k with replies := k.replies.eraseIdx i }
      match r.port with
      | none =>
        let x : Lane := { c := c, t := t, g := g, l := l }
        .next (if ((s.team c t).groups.find? g).isSome then s.putReply x r else s)
      | some p =>
        let ws := [r.word 2, r.word 0, r.word 1]
        .next (s.modCore c fun k =>
          let q := k.ports.get p {}
          if r.msg < q.since then k
          else { k with ports := k.ports.set p { q with reserved := q.reserved - 3, words := q.words ++ ws } })

/-! The invocation unit. -/

/-- The codes of the kinds of invocations (R371). -/
def InvKind.code : InvKind → Nat
  | .miss => 0
  | .fill => 1
  | .evict => 2
  | .message => 3

/-- A counter of a tenant raised; it stops at 0xffff_ffff (R381). -/
def State.bump (s : State) (sl tenant n : Nat) : State := s.modSlice sl fun k =>
  let c := k.counters.get (4 * tenant + n) 0
  { k with counters := k.counters.set (4 * tenant + n) (if c == 0xffffffff then c else c + 1) }

/-- The cycles of an invocation of a tenant (R365). -/
def Tenant.cycles (t : Tenant) : Nat := if t.budget == 0 then 0x0800 else t.budget.toNat

/-- The reply to a message; a trigger has none (R374). -/
def State.answer (s : State) (i : Inv) (status : Nat) (value : DWord) : State :=
  if i.kind != .message then s
  else s.sendReply i.core { team := i.team, group := i.group, lane := i.lane, msg := i.msg, port := i.port, status := status,
                            value := value }

/-- A miss or fill of the line is still to run. -/
def Slice.lineOwed (k : Slice) (line : Nat) : Bool :=
  k.queue.any fun j => j.line == line && (j.kind == InvKind.miss || j.kind == InvKind.fill)

/-- The invocation is over: after its last one the accesses to the line of a miss go on, the first of which brings in a line that no
fill handler held (R287, R370); the victim of an eviction is written back. -/
def State.endInv (s : State) (sl : Nat) (i : Inv) : State := s.modSlice sl fun k =>
  let k := { k with inv := none }
  match i.kind with
  | .message => k
  | .evict => { k with victims := k.victims.erase i.line }
  | _ =>
    if k.lineOwed i.line then k
    else { k with busy := k.busy.erase i.line, served := k.served.set i.line (k.served.get i.line false) }

/-- The window committed to the line in one step; an evicted line is written back and leaves its slice (R371, R375). -/
def State.commit (s : State) (i : Inv) : State :=
  if !i.hasWindow || (i.kind == .message && !i.writable) then s
  else
    let pa := 128 * i.line
    let changed := s.mem.readN pa 128 != i.window.toNat
    let s := s.settleLine i.line
    let s := { s with mem := s.mem.writeN pa 128 i.window.toNat }
    match i.kind with
    | .evict | .miss => s
    | .fill => s.modSlice (homeSlice pa) fun k =>
        if (k.lines.find? i.line).isSome then k.place i.line i.cls changed else { k with served := k.served.set i.line changed }
    | .message => s.modSlice (homeSlice pa) (·.place i.line i.cls true)

/-- An event of a tenant (R382). -/
def State.ladleEvent (s : State) (sl : Nat) (i : Inv) (c : Cause) (mcause : Nat) : State :=
  let p := i.owner
  let d := mcause + 2 ^ 8 * i.tenant + 2 ^ 12 * i.handler.toNat + 2 ^ 20 * i.kind.code + 2 ^ 22 * sl
  let r : Rec := { id := 0, cause := c, event := true, detail := BitVec.ofNat 32 d, addr := 128 * i.line, grid := i.grid,
                   team := i.teamIx, core := i.core }
  if p < 12 then s.event p r else s

/-- An exception ends the invocation (R378, R381). -/
def State.ladleAbort (s : State) (sl : Nat) (i : Inv) (mcause mepc : Nat) : State :=
  let f := mcause % 256 + 2 ^ 8 * i.tenant + 2 ^ 12 * i.handler.toNat + 2 ^ 20 * i.kind.code + 2 ^ 32 * (mepc % 2 ^ 16)
  let s := s.modSlice sl fun k => { k with fault := BitVec.ofNat 64 f }
  (((s.bump sl i.tenant 2).ladleEvent sl i .ladleFault (mcause % 256)).answer i replyFault 0).endInv sl i

/-- A halfword of a tenant's vector table (R368). -/
def Slice.vector (k : Slice) (i : Inv) : Nat :=
  k.sram.readN (256 * (k.tenants.get i.tenant {}).rbase.toNat + 2 * i.handler.toNat) 2

/-- The post handle of a requester, with FOFF 0 (R373, R380). -/
def Inv.handle (i : Inv) : DWord := if i.kind == .message then BitVec.ofNat 64 (i.core % 2 ^ 11 + 2 ^ 11 * (i.team % 64)) else 0

/-- What the invocation unit takes from the tenant's register at entry: the budget, and the PMP entries of the region and
of the aperture (R365, R366). -/
def Inv.enter (i : Inv) (t : Tenant) : Inv :=
  let lo := 256 * t.rbase.toNat
  { i with budget := t.cycles, cycles := 0, lo := lo, hi := lo + 256 * t.rsize.toNat, owner := t.part.toNat }

/-- The integer registers at entry; every other one holds 0 (R373). -/
def Inv.entryRegs (i : Inv) : Table DWord :=
  let msg := i.kind == InvKind.message
  let pa : DWord := BitVec.ofNat 64 (128 * i.line)
  let flags := (if i.hasWindow then 1 else 0) + (if i.writable then 2 else 0)
    + (if i.kind == InvKind.evict && i.dirty then 4 else 0)
  [(2, BitVec.ofNat 64 i.hi), (10, BitVec.ofNat 64 i.kind.code), (11, if msg then i.arg0 else pa),
   (12, if msg then i.arg1 else 0), (13, pa), (14, if msg then BitVec.ofNat 64 i.hop else 0), (15, i.handler.setWidth 64),
   (16, i.handle), (17, BitVec.ofNat 64 flags)]

/-- The core at the handler's first instruction (R373). -/
def Inv.atEntry (i : Inv) (entry : Nat) : Inv :=
  { i with xs := i.entryRegs, pc := BitVec.ofNat 64 (i.lo + entry), instret := 0, data := 0 }

/-- The PMP entries 8 to 15 that the invocation unit loads at entry: the region, the line window, the control page and the global
aperture; 12 to 15 grant nothing (R363, R366). -/
def Inv.pmp (i : Inv) : Table Pmp :=
  [(8, { lo := i.lo, hi := i.hi, r := true, w := true, x := true }),
   (9, { lo := 0x20000000, hi := 0x20000080, r := i.hasWindow, w := i.writable }),
   (10, { lo := 0x10000000, hi := 0x10000040, r := true, w := true }),
   (11, { lo := 2 ^ 63, hi := 2 ^ 63 + 2 ^ 48, r := i.owner < 12, w := i.owner < 12 })]
/-- A slice whose invocation begins to run. -/
def Slice.begin (k : Slice) (i : Inv) (entry : Nat) : Slice :=
  { k with inv := some (i.atEntry entry), pmp := (k.pmp.filter fun (n, _) => n < 8) ++ i.pmp }

/-- What an access needs of a PMP entry. -/
inductive PmpNeed where
  | read | write | readWrite | fetch
  deriving DecidableEq, Repr
/-- An entry grants an access of n bytes. -/
def Pmp.grants (p : Pmp) (a n : Nat) (w : PmpNeed) : Bool :=
  p.lo ≤ a && a + n ≤ p.hi && match w with
    | .read => p.r
    | .write => p.w
    | .readWrite => p.r && p.w
    | .fetch => p.x
/-- U mode may access n bytes: an entry of the invocation unit grants it, and the first entry of the monitor that it meets does
not deny it (R366). -/
def Slice.pmpAllows (k : Slice) (a n : Nat) (w : PmpNeed) : Bool :=
  (k.pmp.any fun (e, p) => e ≥ 8 && p.grants a n w)
    && match List.find? (fun q : Nat × Pmp => q.1 < 8 && q.2.lo < a + n && a < q.2.hi) k.pmp with
      | some (_, p) => p.grants a n w
      | none => true

/-- The invocation with its window, as it begins to run (R371, R375, R376): the line of a message or a fill is allocated first; none
while it is not served, or finds no room (R370, R375). -/
def State.openWindow (s : State) (sl : Nat) (i : Inv) : Option (Inv × State) :=
  let i := { i with posth := i.handle, fwda0 := 0, fwda1 := 0, resv := none, hasWindow := false, writable := false }
  let pa := 128 * i.line
  match i.kind with
  | .miss => some (i, s)
  | .message =>
    (s.homeRead pa 128 32 i.cls .walker).map fun (v, bad, s) =>
      ({ i with window := BitVec.ofNat 1024 v, hasWindow := true, writable := quotaOf (s.slice sl).quota i.cls != 0, bad := bad }, s)
  | _ => (if i.kind == .fill then s.touch pa i.cls false else some s).map fun s =>
    let (v, s) := s.homeBytes pa 128
    ({ i with window := BitVec.ofNat 1024 v, hasWindow := true, writable := true, bad := s.poison.contains i.line }, s)

/-- The invocation at the head of the queue begins, or ends at once: no handler, or a vector entry that faults (R367,
R368, R372, R378, R383). What was released before its message is at its home (R236, R264). -/
def State.beginHead (s : State) (sl : Nat) : Option State :=
  let k := s.slice sl
  match k.queue with
  | [] => none
  | i :: rest =>
    let t := k.tenants.get i.tenant {}
    let i := i.enter t
    let pop (s : State) : State := s.modSlice sl fun k => { k with queue := rest }
    let entry := k.vector i
    if !k.run || !t.en || (i.kind == .message && t.part.toNat != i.part) || entry == 0 then
      some (((pop s).answer i replyNoHandler 0).endInv sl i)
    else if entry % 2 == 1 || entry < 512 || entry ≥ 256 * t.rsize.toNat then
      some (((pop s).bump sl i.tenant 0).ladleAbort sl i 1 entry)
    else
      let s := pop s
      ((if i.kind == .message then s.settleDies 32 (s.dies.map (·.1)) else some s).bind fun s => s.openWindow sl i).map fun (i, s) =>
        (s.bump sl i.tenant 0).modSlice sl fun k => k.begin i entry

/-- The head of the queue is the invocation of a line. -/
def Slice.headIs (k : Slice) (kind : InvKind) (line : Nat) : Bool :=
  match k.queue with
  | i :: _ => i.kind == kind && (kind == .message || i.line == line)
  | [] => false

/-- A queued trigger of a line begins, once the core is free and it is at the head (R372). -/
def State.beginTrigger (s : State) (sl : Nat) (kind : InvKind) (line : Nat) : Option State :=
  let k := s.slice sl
  if k.inv.isSome || !k.headIs kind line then none else s.beginHead sl

/-- The line can miss at the slice: it is there neither as a line nor on its way (R370). -/
def Slice.absent (k : Slice) (sl line : Nat) : Bool :=
  isHbm (128 * line) && homeSlice (128 * line) == sl && !k.present line && k.clear line

/-- The invocations that a miss of a line under a class raises: its miss handler, and its fill handler behind it (R369, R370). -/
def Slice.missOf (k : Slice) (line : Nat) (cls : Nat := 3) : List Inv :=
  match k.liveTrigger line with
  | some t => (if t.getLsbD 82 then [trigInv t .miss line { cls := cls }] else [])
      ++ if t.getLsbD 83 then [trigInv t .fill line { cls := cls }] else []
  | none => []

/-- A line whose handlers are queued, with the accesses to it waiting (R370). -/
def Slice.missQueued (k : Slice) (line : Nat) (is : List Inv) : Slice := { k.pushTrigger is with busy := line :: k.busy, stall := 0 }

/-- A trigger queued now begins at once where it can. -/
def State.tryTrigger (s : State) (sl : Nat) (kind : InvKind) (line : Nat) : State := (s.beginTrigger sl kind line).getD s

/-- A miss of a line whose first handler is of a kind, for an access under a class: its handlers are queued, or, where the queue has no
room for them, the slice handles no new miss until it has (R370, R372); or the queued one begins. -/
def State.raiseLine (s : State) (sl line : Nat) (kind : InvKind) (cls : Nat) : Option State :=
  let k := s.slice sl
  let is := k.missOf line cls
  if (is.head?.map (·.kind)) == some kind && k.absent sl line then
    if k.stalled then none
    else if k.queue.length + is.length ≤ 64 then some ((s.modSlice sl fun k => k.missQueued line is).tryTrigger sl kind line)
    else some (s.modSlice sl fun k => { k with stall := is.length })
  else s.beginTrigger sl kind line

/-- A step that may not be possible now. -/
def stepOf : Option State → Result
  | some s => .next s
  | none => .refused .notEnabled

/-- R370: a miss on a registered line raises its miss handler, and its fill handler behind it; or the queued one begins. -/
def execLadleMiss (sl line : Nat) (s : State) : Result := stepOf (s.raiseLine sl line .miss 3)

/-- R370: the data of a miss raises a fill handler; or the queued one begins. -/
def execLadleFill (sl line : Nat) (s : State) : Result := stepOf (s.raiseLine sl line .fill 3)

/-- A translation that an invalidation under way covers names the line (R293, R370). -/
def State.invalidating (s : State) (line : Nat) : Bool :=
  s.parts.any fun (p, q) => q.tlbInvGo &&
    (let (lo, hi) := q.invRange
     let names (x : Xlat) : Bool := x.part == p && x.vpage < hi && lo < x.vpage + x.size && !x.rem
       && x.frame * 512 ≤ line && line < (x.frame + x.size) * 512
     (s.cores.any fun (_, k) => k.tlb.any names) || s.dies.any fun (_, k) => k.tlb.any names)

/-- R370: a line of a page that is being invalidated leaves its slice, its handler queued where its eviction is registered; or
the queued handler begins. A line that makes room for another leaves with the access that needs it (R288). -/
def execLadleEviction (sl line : Nat) (s : State) : Result :=
  let k := s.slice sl
  stepOf (if (k.lines.find? line).isSome && !k.holds line && !k.busy.contains line && s.invalidating line then
      (s.evictLine sl line).map fun s => s.tryTrigger sl .evict line
    else s.beginTrigger sl .evict line)

/-- R375: the message at the head of the queue starts its handler. -/
def execLadleMessage (sl : Nat) (s : State) : Result :=
  match s.beginTrigger sl .message 0 with
  | some s => .next s
  | none => .refused .notEnabled

/-! The control page. -/

/-- The invocation that runs. -/
def State.running (s : State) (sl : Nat) : Option Inv := (s.slice sl).inv
/-- The running invocation changed. -/
def State.modInv (s : State) (sl : Nat) (i : Inv) : State := s.modSlice sl fun k => { k with inv := some i }

/-- R374: the window is committed, the invocation ends, and a message is answered OK. -/
def execDone (sl : Nat) (v : DWord) (s : State) : Result :=
  match s.running sl with
  | none => .refused .notEnabled
  | some i => .next (((s.commit i).answer i replyOk v).endInv sl i)

/-- R374: ARG0 of a forward. -/
def execFwda0 (sl : Nat) (v : DWord) (s : State) : Result :=
  match s.running sl with
  | none => .refused .notEnabled
  | some i => .next (s.modInv sl { i with fwda0 := v })

/-- R374: ARG1 of a forward. -/
def execFwda1 (sl : Nat) (v : DWord) (s : State) : Result :=
  match s.running sl with
  | none => .refused .notEnabled
  | some i => .next (s.modInv sl { i with fwda1 := v })

/-- R374: the post handle. -/
def execPosth (sl : Nat) (v : DWord) (s : State) : Result :=
  match s.running sl with
  | none => .refused .notEnabled
  | some i => .next (s.modInv sl { i with posth := v })

/-- A walk for a handler of a tenant: its partition's table, or a fault where its PART names none (R364, R366). -/
def State.ladleWalk (s : State) (i : Inv) (va : Nat) (n : Need) : Walk :=
  if i.owner ≥ 12 || va ≥ 2 ^ 48 then .fault .addrNoncanon s else s.walk i.owner 32 va n

/-- A fault at the handler's instruction; its address is recorded as an offset in the region (R378, R381). -/
def State.ladleTrap (s : State) (sl : Nat) (i : Inv) (mcause : Nat) : State :=
  s.ladleAbort sl i mcause (i.pc - BitVec.ofNat 64 i.lo).toNat

/-- R379: the message is forwarded, and the invocation ends. -/
def execFwd (sl : Nat) (v : DWord) (s : State) : Result :=
  match s.running sl with
  | none => .refused .notEnabled
  | some i =>
    if i.kind != .message then .next (s.ladleTrap sl i 7)
    else if i.hop == 16 then .next (((s.commit i).answer i replyHops 0).endInv sl i)
    else
      match s.ladleWalk i i.fwda0.toNat (Need.of .read) with
      | .blocked => .refused .notEnabled
      | .fault _ s => .next (s.ladleTrap sl i 7)
      | .ok y s =>
        let pa := y.pa i.fwda0.toNat
        let s := (s.commit i).endInv sl i
        if !isHbm pa then .next (s.answer i replyNoHandler 0)
        else
          let m := { i with line := lineOf pa, handler := v.setWidth 8, arg0 := i.fwda0, arg1 := i.fwda1, hop := i.hop + 1,
                            cls := y.cls, hasWindow := false, writable := false, bad := false }
          .next (s.sendMessage (homeSlice pa) m)

/-- The team that a post handle names: none where the post is dropped (R380). -/
def State.postTeam (s : State) (i : Inv) : Option (Nat × Nat × Nat) :=
  let h := i.posth.toNat
  let c := h % 2 ^ 11
  let t := h / 2 ^ 11 % 64
  let off := h / 2 ^ 32
  let k := s.team c t
  let p := s.part k.part
  if h / 2 ^ 17 % 2 ^ 15 != 0 || !s.hasTeam c t || k.over || !p.ldTenV || p.ldTen.toNat != i.tenant || off % 8 != 0
      || off + 8 > k.scratchSize then none
  else some (c, t, off)

/-- R380: a value posted to a future slot, or dropped. -/
def execPost (sl : Nat) (v : DWord) (s : State) : Result :=
  match s.running sl with
  | none => .refused .notEnabled
  | some i =>
    match s.postTeam i with
    | none => .next (s.bump sl i.tenant 3)
    | some (c, t, off) => .next (s.scratchWrite c t off 8 (futPost (s.scratchRead c t off 8) (v.setWidth 32)))

/-- R374: the line of an address is brought into its home slice; any failure drops the fill. -/
def execPrefLadle (sl : Nat) (v : DWord) (s : State) : Result :=
  match s.running sl with
  | none => .refused .notEnabled
  | some i =>
    match s.ladleWalk i v.toNat (Need.of .read) with
    | .ok y s =>
      let pa := y.pa v.toNat
      .next (if s.homeFree pa (.handler i.line) then (s.touch pa y.cls false).getD s else s)
    | .fault _ s => .next s
    | .blocked => .next s

/-- R377: the invocation has used its budget: it is aborted and answered TIMEOUT. -/
def execLadleOverrun (sl : Nat) (s : State) : Result :=
  let k := s.slice sl
  match k.inv with
  | none => .refused .notEnabled
  | some i =>
    let t := k.tenants.get i.tenant {}
    if i.cycles < i.budget then .refused .notEnabled
    else
      let s := s.bump sl i.tenant 1
      let s := if t.ntfy then s.ladleEvent sl i .ladleOverrun 0 else s
      .next ((s.answer i replyTimeout 0).endInv sl i)

/-- R378: an exception of the handler ends the invocation. -/
def execLadleFault (sl : Nat) (mcause : BitVec 8) (mepc : BitVec 16) (s : State) : Result :=
  match s.running sl with
  | none => .refused .notEnabled
  | some i => .next (s.ladleAbort sl i mcause.toNat mepc.toNat)

/-! The accesses of a handler. -/

end Sys2Proof.Machine
namespace Sys2Proof
open Machine

/-- An access that stores. -/
def LadleAccess.stores : LadleAccess → Bool
  | .load | .lr => false
  | _ => true
/-- A read-modify-write, or half of a reserved pair: it must be aligned (R364). -/
def LadleAccess.atomic : LadleAccess → Bool
  | .load | .store => false
  | _ => true
/-- The exceptions of an access: misaligned, and access fault. -/
def LadleAccess.misalignCause (k : LadleAccess) : Nat := if k.stores then 6 else 4
def LadleAccess.faultCause (k : LadleAccess) : Nat := if k.stores then 7 else 5
/-- What an access needs of the PMP. -/
def LadleAccess.pmpNeed : LadleAccess → PmpNeed
  | .load | .lr => .read
  | .store | .sc => .write
  | _ => .readWrite
/-- The permissions of an access (R292, R364). -/
def LadleAccess.need : LadleAccess → Need
  | .load | .lr => Need.of .read
  | .store | .sc => Need.of .write
  | _ => Need.of .readWrite

/-- The value that an access stores over an old one of w bits. -/
def LadleAccess.apply (k : LadleAccess) (w old v : Nat) : Nat :=
  let a := BitVec.ofNat w old
  let b := BitVec.ofNat w v
  (match k with
    | .store | .amoSwap | .sc => b
    | .load | .lr => a
    | .amoAdd => a + b
    | .amoAnd => a &&& b
    | .amoOr => a ||| b
    | .amoXor => a ^^^ b
    | .amoMin => if a.slt b then a else b
    | .amoMax => if b.slt a then a else b
    | .amoMinu => if a.ult b then a else b
    | .amoMaxu => if b.ult a then a else b).toNat

/-- What an access reads: the old value, or whether an SC failed. -/
def LadleAccess.reply (k : LadleAccess) (held : Bool) (old : Nat) : DWord :=
  match k with
  | .sc => if held then 0 else 1
  | _ => BitVec.ofNat 64 old

/-- The reservation after an access: LR makes one, SC ends it (R364). -/
def LadleAccess.reserve (k : LadleAccess) (r : Option (Nat × Nat)) (a n : Nat) : Option (Nat × Nat) :=
  match k with
  | .lr => some (a, n)
  | .sc => none
  | _ => r

end Sys2Proof
namespace Sys2Proof.Machine

/-- An access to local SRAM in the tenant's region (R363, R364): SC stores only under the reservation. -/
def State.sramAccess (s : State) (sl : Nat) (i : Inv) (a : Nat) (k : LadleAccess) (n v : Nat) : State :=
  let old := (s.slice sl).sram.readN a n
  let held := i.resv == some (a, n)
  let s := s.modInv sl { i with data := k.reply held old, resv := k.reserve i.resv a n }
  if !k.stores || (k == LadleAccess.sc && !held) then s
  else s.modSlice sl fun q => { q with sram := q.sram.writeN a n (k.apply (8 * n) old v) }

/-- An access to the line window, at a byte of the line (R375); a reservation there is named by its address (log 45). -/
def State.windowAccess (s : State) (sl : Nat) (i : Inv) (o : Nat) (k : LadleAccess) (n v : Nat) : State :=
  let old := lineBytes i.window o n
  let a := 0x20000000 + o
  let held := i.resv == some (a, n)
  let w := if !k.stores || (k == LadleAccess.sc && !held) then i.window else lineSet i.window o n (k.apply (8 * n) old v)
  s.modInv sl { i with window := w, data := k.reply held old, resv := k.reserve i.resv a n }

/-- A store to a word of the control page (R374). -/
def controlWrite (sl o : Nat) (v : DWord) (s : State) : Result :=
  match o with
  | 0x00 => execDone sl v s
  | 0x08 => execFwda0 sl v s
  | 0x10 => execFwda1 sl v s
  | 0x18 => execFwd sl v s
  | 0x20 => execPosth sl v s
  | 0x28 => execPost sl v s
  | 0x30 => execPrefLadle sl v s
  | _ => .refused .notEnabled

/-- An access through the global aperture (R364). -/
def apertureAccess (sl : Nat) (i : Inv) (va : Nat) (k : LadleAccess) (n v : Nat) (s : State) : Result :=
  if k == .lr || k == .sc then .next (s.ladleTrap sl i k.faultCause)
  else
    match s.ladleWalk i va k.need with
    | .blocked => .refused .notEnabled
    | .fault _ s => .next (s.ladleTrap sl i k.faultCause)
    | .ok y s =>
      let pa := y.pa va
      let held := i.hasWindow && lineOf pa == i.line && (i.kind != .message || i.writable)
      if held then
        if i.bad then .next (s.ladleTrap sl i k.faultCause) else .next (s.windowAccess sl i (pa % 128) k n v)
      else
        let get : Option (Nat × Bool × State) := if isRemote pa then s.readAt pa n y.cls else s.homeRead pa n 32 y.cls (.handler i.line)
        match get with
        | none => .refused .notEnabled
        | some (old, bad, s) =>
          if bad then .next (s.ladleTrap sl i k.faultCause)
          else if !k.stores then .next (s.modInv sl { i with data := BitVec.ofNat 64 old })
          else
            let s := s.modInv sl { i with data := BitVec.ofNat 64 old }
            let w := k.apply (8 * n) old v
            match (if isRemote pa then s.writeAt pa n w y.cls else s.homeWrite pa n w y.cls (.handler i.line)) with
            | none => .refused .notEnabled
            | some s => .next s

/-- R363, R364: a handler's access to its address space. -/
def execGlobalApertureAccess (sl : Nat) (addr : DWord) (k : LadleAccess) (size : Nat) (v : DWord) (s : State) : Result :=
  match s.running sl with
  | none => .refused .notEnabled
  | some i =>
    let a := addr.toNat
    if !(size == 1 || size == 2 || size == 4 || size == 8) || (k.atomic && size < 4) then .refused .notEnabled
    else if a % size != 0 && (k.atomic || (2 ^ 63 ≤ a && a < 2 ^ 63 + 2 ^ 48)) then .next (s.ladleTrap sl i k.misalignCause)
    else if !(s.slice sl).pmpAllows a size k.pmpNeed then .next (s.ladleTrap sl i k.faultCause)
    else if a ≥ 2 ^ 63 then apertureAccess sl i (a - 2 ^ 63) k size v.toNat s
    else if a < 0x10000 then .next (s.sramAccess sl i a k size v.toNat)
    else if 0x20000000 ≤ a then
      if i.bad then .next (s.ladleTrap sl i k.faultCause)
      else .next (s.windowAccess sl i (a - 0x20000000) k size v.toNat)
    else if 0x10000000 ≤ a && a < 0x10000040 then
      if a % 8 != 0 || k.atomic || (k == .store && a == 0x10000038) then .next (s.ladleTrap sl i k.faultCause)
      else if k == .store then controlWrite sl (a - 0x10000000) (BitVec.ofNat 64 (v.toNat % 2 ^ (8 * size))) s
      else .next (s.modInv sl { i with data := if a == 0x10000038 then BitVec.ofNat 64 (i.budget - i.cycles) else 0 })
    else .next (s.ladleTrap sl i k.faultCause)

/-! Registers. -/

/-- A tenant register as 64 bits (R365). -/
def Tenant.bits (t : Tenant) : Nat :=
  (if t.en then 2 ^ 63 else 0) + (if t.ntfy then 2 ^ 62 else 0) + 2 ^ 56 * t.part.toNat + 2 ^ 32 * t.budget.toNat
    + 2 ^ 16 * t.rsize.toNat + t.rbase.toNat
/-- The tenant register that a write of 64 bits holds. -/
def tenantOf (v : DWord) : Tenant :=
  { en := v.getLsbD 63, ntfy := v.getLsbD 62, part := v.extractLsb' 56 4, budget := v.extractLsb' 32 16,
    rsize := v.extractLsb' 16 8, rbase := v.extractLsb' 0 8 }

/-- The region of a tenant may be enabled beside the others of the slice (R365). -/
def Slice.regionOk (k : Slice) (n : Nat) (t : Tenant) : Bool :=
  let lo := t.rbase.toNat
  let hi := lo + t.rsize.toNat
  lo ≥ 32 && t.rsize.toNat ≥ 2 && hi ≤ 256 && k.tenants.all fun (m, u) =>
    m == n || !u.en || hi ≤ u.rbase.toNat || u.rbase.toNat + u.rsize.toNat ≤ lo

/-- R365: a write to a tenant register. -/
def execLdTenWrite (sl n : Nat) (v : DWord) (s : State) : Result :=
  let k := s.slice sl
  let old := k.tenants.get n {}
  let new := tenantOf v
  let set (t : Tenant) : Result := .next (s.modSlice sl fun k => { k with tenants := k.tenants.set n t })
  if n ≥ 16 then .next s
  else if old.en then set { old with en := new.en, ntfy := new.ntfy, budget := new.budget }
  else if new.en && !k.regionOk n new then .next s
  else set new

/-- R381: a counter of a tenant is read by the host, and cleared. -/
def execLadleCounterRead (sl n k : Nat) (s : State) : Result :=
  let c := (s.slice sl).counters.get (4 * n + k) 0
  .next ((s.modSlice sl fun q => { q with counters := q.counters.del (4 * n + k) }).modPkg fun p =>
    { p with hostData := bytes4 c })
where
  /-- The bytes of a 32-bit register. -/
  bytes4 (c : Word) : List Byte := (List.range 4).map fun i => (c >>> (8 * i)).setWidth 8

end Sys2Proof.Machine
end

