-- ==== Sys2Proof/Machine/Predicate.lean ====
section
/-!
DEFINITION. Compare and predicate instructions (R121 to R124).
-/
namespace Sys2Proof.Machine

/-- A predicate as a result. -/
def ofBool (b : Bool) : DWord := if b then 1 else 0

/-- R121: an integer condition. -/
def semCmp : SlotSem := lanewise (calcLane fun e _ _ v => { val := ofBool (calcCmp e.f v.a v.b) })
def execCmp (f : OpF) (s : State) : Result := issueOp (.cmp f) f semCmp s

/-- R122: a floating-point condition, with NV. -/
def semFcmp : SlotSem := lanewise (calcLane fun e _ _ v => { val := ofBool (calcFcmp e.f v.a v.b).1, fl := (calcFcmp e.f v.a v.b).2 })
def execFcmp (f : OpF) (s : State) : Result := issueOp (.fcmp f) f semFcmp s

/-- R123: predicates combined, each inverted by its MOD bit. -/
def semPand : SlotSem := lanewise (calcLane fun e _ _ v => { val := ofBool (((v.a != 0) != e.f.bit 0) && ((v.b != 0) != e.f.bit 1)) })
def execPand (f : OpF) (s : State) : Result := issueOp (.pand f) f semPand s

/-- R123: predicates combined, each inverted by its MOD bit. -/
def semPor : SlotSem := lanewise (calcLane fun e _ _ v => { val := ofBool (((v.a != 0) != e.f.bit 0) || ((v.b != 0) != e.f.bit 1)) })
def execPor (f : OpF) (s : State) : Result := issueOp (.por f) f semPor s

/-- R123: predicates combined, each inverted by its MOD bit. -/
def semPxor : SlotSem := lanewise (calcLane fun e _ _ v => { val := ofBool (((v.a != 0) != e.f.bit 0) != ((v.b != 0) != e.f.bit 1)) })
def execPxor (f : OpF) (s : State) : Result := issueOp (.pxor f) f semPxor s

/-- R123: the complement. -/
def semPnot : SlotSem := lanewise (calcLane fun _ _ _ v => { val := ofBool (v.a == 0) })
def execPnot (f : OpF) (s : State) : Result := issueOp (.pnot f) f semPnot s

/-- R124: one predicate, inverted by MOD[0]. -/
def semPmov : SlotSem := lanewise (calcLane fun e _ _ v => { val := ofBool ((v.a != 0) != e.f.bit 0) })
def execPmov (f : OpF) (s : State) : Result := issueOp (.pmov f) f semPmov s

/-- R124: every predicate into a register; bit 0 reads 1. -/
def semPmovToReg : SlotSem := lanewise (calcLane fun _ x s _ => { val := ((s.thread x).preds ||| 1).setWidth 64 })
def execPmovToReg (f : OpF) (s : State) : Result := issueOp (.pmovToReg f) f semPmovToReg s

/-- R124: predicates 1 to 31 from a register. -/
def semPmovFromReg : SlotSem := lanewise fun e x s =>
  ((readSrcs e x s).bind fun v => .ok (s.modThread x fun th => { th with preds := v.a.setWidth 32 ||| 1 })).out s
def execPmovFromReg (f : OpF) (s : State) : Result := issueOp (.pmovFromReg f) f semPmovFromReg s

end Sys2Proof.Machine
end

