-- ==== Sys2Proof/Machine/Tree.lean ====
section
/-!
DEFINITION. Instructions of several operations: trees (R55 to R60, R107 to R110), repeated operations (R52, R53) and the
long-immediate forms (R54); the operations of any instruction, by slot.
-/
namespace Sys2Proof.Machine

/-- The meaning of a single operation for the lanes of its slot; a row that is no single operation has none. -/
def semOf : Instr → SlotSem
  | .add _ => semAdd | .sub _ => semSub | .mulLo _ => semMulLo | .mulHi _ => semMulHi | .mad _ => semMad
  | .div _ => semDiv | .rem _ => semRem | .min _ => semMin | .max _ => semMax | .abs _ => semAbs | .and _ => semAnd
  | .or _ => semOr | .xor _ => semXor | .andn _ => semAndn | .not _ => semNot | .mov _ => semMov | .shl _ => semShl
  | .shr _ => semShr | .sar _ => semSar | .rot _ => semRot | .bfe _ => semBfe | .bfi _ => semBfi | .popc _ => semPopc
  | .clz _ => semClz | .ctz _ => semCtz | .brev _ => semBrev | .sel _ => semSel | .movi _ => semMovi
  | .lea _ => semLea | .cmp _ => semCmp | .fcmp _ => semFcmp | .pand _ => semPand | .por _ => semPor
  | .pxor _ => semPxor | .pnot _ => semPnot | .pmov _ => semPmov | .pmovToReg _ => semPmovToReg
  | .pmovFromReg _ => semPmovFromReg | .fadd _ => semFadd | .fsub _ => semFsub | .fmul _ => semFmul
  | .ffma _ => semFfma | .fmin _ => semFmin | .fmax _ => semFmax | .fdiv _ => semFdiv | .fsqrt _ => semFsqrt
  | .frcpAp _ => semFrcpAp | .frsqrtAp _ => semFrsqrtAp | .fsinAp _ => semFsinAp | .fcosAp _ => semFcosAp
  | .fexp2Ap _ => semFexp2Ap | .flog2Ap _ => semFlog2Ap | .hadd2 _ => semHadd2 | .hmul2 _ => semHmul2
  | .hfma2 _ => semHfma2 | .faddF64 _ => semFaddF64 | .fsubF64 _ => semFsubF64 | .fmulF64 _ => semFmulF64
  | .ffmaF64 _ => semFfmaF64 | .fminF64 _ => semFminF64 | .fmaxF64 _ => semFmaxF64 | .fdivF64 _ => semFdivF64
  | .fsqrtF64 _ => semFsqrtF64 | .frcpApF64 _ => semFrcpApF64 | .frsqrtApF64 _ => semFrsqrtApF64 | .cvt _ => semCvt
  | .fmset _ => semFmset | .fmget _ => semFmget | .shflIdx _ => semShflIdx | .shflUp _ => semShflUp
  | .shflDown _ => semShflDown | .shflXor _ => semShflXor | .voteAll _ => semVoteAll | .voteAny _ => semVoteAny
  | .ballot _ => semBallot | .redux _ => semRedux | .scan _ => semScan | .elect _ => semElect | .ldG _ => semLdG
  | .ldS _ => semLdS | .ldR _ => semLdR | .ldC _ => semLdC | .ldx _ => semLdx | .pref _ => semPref | .stG _ => semStG
  | .stS _ => semStS | .stR _ => semStR | .stx _ => semStx | .atomG _ => semAtomG | .atomS _ => semAtomS
  | .redG _ => semRedG | .redS _ => semRedS | .fenceAcq _ => semFenceAcq | .fenceRel _ => semFenceRel
  | .fenceAr _ => semFenceAr | .wait _ => semWait | .bar _ => semBar | .barClu _ => semBarClu
  | .barGrid _ => semBarGrid | .arrive _ => semArrive | .waitbar _ => semWaitbar | .yield _ => semYield
  | .cbind _ => semCbind | .fput _ => semFput | .fget _ => semFget | .fgetPeek _ => semFgetPeek | .mma _ => semMma
  | .mmv _ => semMmv | .mqrun _ => semMqrun | .accz _ => semAccz | .accld _ => semAccld | .accst _ => semAccst
  | .pour _ => semPour | .pourOut _ => semPourOut | .tspawn _ => semTspawn | .gnode _ => semGnode
  | .fsopen _ => semFsopen | .fsclose _ => semFsclose | .fswait _ => semFswait | .lmsg _ => semLmsg
  | .asym _ => semAsym | .aset _ => semAset | .asetSym _ => semAsetSym | .asetMint _ => semAsetMint
  | .amov _ => semAmov | .ald _ => semAld | .ast _ => semAst | .aadd _ => semAadd | .asub _ => semAsub
  | .aneg _ => semAneg | .ascl _ => semAscl | .aaddc _ => semAaddc | .amul _ => semAmul | .asqr _ => semAsqr
  | .arcp _ => semArcp | .asqrt _ => semAsqrt | .acond _ => semAcond | .acent _ => semAcent | .arad _ => semArad
  | .alo _ => semAlo | .ahi _ => semAhi | .ashfl _ => semAshfl | .aredd _ => semAredd | .call _ => semCall
  | .callIndirect _ => semCallIndirect | .ret _ => semRet | .retTrap _ => semRetTrap | .jmpi _ => semJmpi
  | .far _ => semFar | .farIndirect _ => semFarIndirect | .region _ => semRegion
  | .regionIndirect _ => semRegionIndirect | .trap _ => semTrap | .brk _ => semBrk | .mfs _ => semMfs
  | .mts _ => semMts | .icinv _ => semIcinv | .nop _ => semNop | .addImm _ => semAddImm | .subImm _ => semSubImm
  | .mulLoImm _ => semMulLoImm | .andImm _ => semAndImm | .orImm _ => semOrImm | .xorImm _ => semXorImm
  | .shlImm _ => semShlImm | .shrImm _ => semShrImm | .sarImm _ => semSarImm | .minImm _ => semMinImm
  | .maxImm _ => semMaxImm | .faddImm _ => semFaddImm | .fmulImm _ => semFmulImm
  | .tree .. | .rep .. | .moviLong .. | .longImmediateForm .. | .collectiveComplete .. | .collTimeout ..
  | .loadReply .. | .storeAck .. | .translationWalk .. | .waitResume .. | .barrierOpen .. | .barTimeout ..
  | .pavaneReleaseStep .. | .waitbarResume .. | .channelResume .. | .peerSendAppend .. | .futureResume ..
  | .mqrunBlock .. | .engineOpStart .. | .engineOpComplete .. | .lmsgReply .. | .icinvComplete .. | .timer ..
  | .activeSetRotate .. | .quadrilleAgeDrain .. | .lqTailWrite .. | .lqCtlWrite .. | .launchPacketRead ..
  | .launchPlace .. | .gridEnd .. | .taskLaunch .. | .copyNodeDispatch .. | .nodeFinish .. | .scopeComplete ..
  | .trapRecordWrite .. | .tqHeadWrite .. | .tqCtlWrite .. | .tqServRelease .. | .tqServEndTeam ..
  | .tqServEndGrid .. | .preReqWrite .. | .preForced .. | .teamSave .. | .rsSaveWrite .. | .restorePlace ..
  | .tlbInvWrite .. | .tlbInvComplete .. | .bankRoleWrite .. | .storeEccCorrected .. | .storeUe .. | .cacheUe ..
  | .leaseExpiry .. | .ageWriteback .. | .partCfgWrite .. | .annCtlWrite .. | .annealTranslate ..
  | .jrnBaseWrite .. | .failureRecovery .. | .powerArbiterStep .. | .pwrStatW1c .. | .thermalSensorRead ..
  | .operatingPointChange .. | .engStatW1c .. | .engNfinRead .. | .engOvfcRead .. | .ladleCounterRead ..
  | .ldTenWrite .. | .ladleMiss .. | .ladleFill .. | .ladleEviction .. | .ladleMessage .. | .done .. | .fwda0 ..
  | .fwda1 .. | .fwd .. | .posth .. | .post .. | .prefLadle .. | .ladleOverrun .. | .ladleFault ..
  | .monitorBoot .. | .firmwareVerify .. | .keyEnrol .. | .keyRevoke .. | .spdmMeasurement ..
  | .sprueFlitReceive .. | .spruePortFail .. | .hostMemRead .. | .hostMemWrite .. | .hostSnoop ..
  | .mmioUnsupported .. | .registerWrite .. | .packageReset .. | .globalApertureAccess .. => fun _ _ s => (s, [])

/-- One operation slot of a tree (R58). -/
def treeRun (t : TreeSlot) : SlotRun :=
  match opInstr t.opc t.f with
  | some i => { f := t.f, sh := i.shape, arc := t.arc.toNat, point := switches i, sem := semOf i }
  | none => { f := t.f, sh := shapeNone true, arc := t.arc.toNat, bad := true, sem := semOf (.nop t.f) }

/-- The operations of a tree. -/
def treeBody (h : TreeHeader) (slots : List TreeSlot) : Body := { header := some h, slots := slots.map treeRun }

/-- R107 to R110: a tree. -/
def execTree (h : TreeHeader) (slots : List TreeSlot) (s : State) : Result := issue (.tree h slots) (fun _ => treeBody h slots) s

/-! Repetition. -/

/-- An index n steps on; none where it leaves the class of its first value, or is odd where it names a pair (R53). -/
def stepIndex (nG : Nat) (pair pred : Bool) (i : Nat) (step : BitVec 4) (n : Nat) : Option Nat :=
  let j : Int := i + n * step.toInt
  let lo : Int := if pred || i < 224 then 0 else 224
  let hi : Int := if pred then 31 else if i < 224 then nG - 1 else 255
  let last : Int := if pair then j + 1 else j
  if j < lo || last > hi || (pair && j % 2 != 0) then none else some j.toNat

/-- A source field n steps on (R53). -/
def stepSrc (nG : Nat) (k : SrcKind) (x : BitVec 10) (step : BitVec 4) (n : Nat) : Option (BitVec 10) :=
  let go (pair pred : Bool) : Option (BitVec 10) := (stepIndex nG pair pred (srcIdx x) step n).map (BitVec.ofNat 10)
  match k with
  | .word _ => go false false
  | .pair => go true false
  | .pred => go false true
  | _ => some x

/-- The destination field n steps on (R53). -/
def stepDst (nG : Nat) (k : DstKind) (d : BitVec 8) (step : BitVec 4) (n : Nat) : Option (BitVec 8) :=
  let go (pair pred : Bool) : Option (BitVec 8) := (stepIndex nG pair pred d.toNat step n).map (BitVec.ofNat 8)
  match k with
  | .word .. => go false false
  | .pair .. => go true false
  | .pred => go false true
  | _ => some d

/-- The fields of repetition n (R53). -/
def stepF (nG : Nat) (p : RepPrefix) (sh : Shape) (f : OpF) (n : Nat) : Option OpF :=
  match stepDst nG sh.d f.d p.dStep n, stepSrc nG sh.s1 f.s1 p.s1Step n, stepSrc nG sh.s2 f.s2 p.s2Step n,
      stepSrc nG sh.s3 f.s3 p.s3Step n with
  | some d, some a, some b, some c => some { f with d := d, s1 := a, s2 := b, s3 := c }
  | _, _, _, _ => none

/-- Repetition n of an operation (R53). -/
def repRun (nG : Nat) (p : RepPrefix) (i : Instr) (f : OpF) (n : Nat) : SlotRun :=
  match stepF nG p i.shape f n with
  | some g => { f := g, sh := i.shape, sem := semOf i }
  | none => { f := f, sh := i.shape, bad := true, sem := semOf i }

/-- The repetitions of an operation (R53). -/
def repBody (p : RepPrefix) (opc : BitVec 8) (f : OpF) (nG : Nat) : Body :=
  match opInstr opc f with
  | none => { rep := true, slots := [] }
  | some i => { rep := true, slots := (List.range (p.cnt.toNat + 1)).map (repRun nG p i f) }

/-- R53: the operation repeated, its indices stepped. -/
def execRep (p : RepPrefix) (opc : BitVec 8) (f : OpF) (s : State) : Result := issue (.rep p opc f) (repBody p opc f) s

/-! Long immediates. -/

/-- The operation of a long-immediate form, its immediate in the place of S2 or of the offset (R54). -/
def longBody (opc : BitVec 8) (f : OpF) (imm : DWord) : Body :=
  match opInstr opc f, longShape opc f with
  | some i, some (sh, _, off) =>
    { slots := [{ f := f, sh := sh, imm2 := if off then none else some imm, immOff := if off then some imm else none,
                  sem := semOf i }] }
  | _, _ => { slots := [] }

/-- R54: an operation with a 64-bit immediate. -/
def execLongImmediateForm (opc : BitVec 8) (f : OpF) (imm : DWord) (s : State) : Result :=
  issue (.longImmediateForm opc f imm) (fun _ => longBody opc f imm) s

/-- The operations of an instruction under a declared general count. -/
def bodyOf (i : Instr) (nG : Nat) : Body :=
  match i with
  | .tree h slots => treeBody h slots
  | .rep p opc f => repBody p opc f nG
  | .moviLong f imm => { slots := [{ f := f, sh := moviLongShape, immOff := some imm, sem := semMoviLong }] }
  | .longImmediateForm opc f imm => longBody opc f imm
  | i => match i.op with
    | some (_, f) => { slots := [{ f := f, sh := i.shape, point := switches i, sem := semOf i }] }
    | none => { slots := [] }

end Sys2Proof.Machine
end

