-- ==== Sys2Proof/Machine/Resume.lean ====
section
/-!
DEFINITION. Lanes that wait at their slot and resume once their condition is met (R109, R189, R196, R199, R207), the
rotation of the active set (R317) and the draining of bins (R318 to R320).
-/
namespace Sys2Proof.Machine

/-- The wave of a core that holds a lane. -/
def State.waveOf (s : State) (x : Lane) : Option Wave :=
  (s.core x.c).waves.find? fun w => w.team == x.t && w.lanes.contains (x.g, x.l)

/-- The operation at which a lane of a wave waits, attempted as the state stands. -/
def State.attempt (s : State) (w : Wave) (x : Lane) : Option (State × Faults) :=
  let p := (s.thread x).pos
  match w.ins, p.wait with
  | some i, some _ =>
    let b := bodyOf i (s.team x.c x.t).nG
    match b.slots[p.slot]? with
    | none => none
    | some r =>
      let pc := (s.thread x).pc
      let e : Env := { f := r.f, sh := r.sh, slot := p.slot, level := if b.rep then 0 else arcLevel r.arc,
                       tree := b.header.isSome, rep := b.rep, pc := pc, next := pc + BitVec.ofNat 48 i.bytes, preq := w.preq,
                       imm2 := r.imm2, immOff := r.immOff, pre := s }
      some (r.sem e [x] s)
  | _, _ => none

/-- Whether it can be performed, or faults. -/
def State.met (s : State) (w : Wave) (x : Lane) : Bool :=
  (s.attempt w x).any fun (s', fs) => !fs.isEmpty || (s'.thread x).pos.wait.isNone

/-- A lane that waits for such a condition resumes once it is met: its wave issues the slot again. -/
def resumeLane (ok : Wait → Bool) (c t g l : Nat) (s : State) : Result :=
  let x : Lane := { c := c, t := t, g := g, l := l }
  match s.waveOf x with
  | none => .refused .notEnabled
  | some w =>
    if w.stalled && (s.thread x).pos.wait.any ok && s.met w x then .next (s.wake x) else .refused .notEnabled

/-- R189: a lane that waits on a counter, a full engine queue or an outstanding read. -/
def execWaitResume (c t g l : Nat) (s : State) : Result :=
  resumeLane (fun w => match w with
    | .reply | .count | .walk _ _ | .walkFault _ _ | .line _ | .dispatcher | .fswait => true
    | _ => false) c t g l s
/-- R196: a lane that waits at a barrier object. -/
def execWaitbarResume (c t g l : Nat) (s : State) : Result := resumeLane (fun w => w == .waitbar) c t g l s
/-- R199: a lane that waits on an empty or a full channel. -/
def execChannelResume (c t g l : Nat) (s : State) : Result :=
  resumeLane (fun w => match w with
    | .chanEmpty _ | .chanFull _ => true
    | _ => false) c t g l s
/-- R207: a lane that waits to write or to read a future. -/
def execFutureResume (c t g l : Nat) (s : State) : Result :=
  resumeLane (fun w => match w with
    | .future _ _ _ => true
    | _ => false) c t g l s

/-- Waits on which a wave gives up its place in the active set (R317). -/
def Wait.yieldsPlace : Wait → Bool
  | .reply | .count | .chanEmpty _ | .chanFull _ | .future _ _ _ | .collective | .barrier _ | .waitbar | .fswait | .walk _ _ => true
  | _ => false
/-- A wave that has stalled too long in the active set (R317). -/
def State.rotates (s : State) (c : Nat) : Option Wave := (s.core c).active.find? fun w =>
  w.stalled && s.now - w.since > 16 && (w.at_ c).any fun x => (s.thread x).pos.wait.any Wait.yieldsPlace

/-- R317: a stalled wave moves to the tail of the pending set, and a ready pending wave takes its place. -/
def execActiveSetRotate (c : Nat) (s : State) : Result :=
  match s.rotates c with
  | none => .refused .notEnabled
  | some w => .next ((s.modCore c fun k =>
      { k with active := k.active.filter fun v => !v.is w, pending := k.pending ++ [w] }).modCore c (·.refill))

/-- On a deterministic core a wave stopped at a switch point whose condition is met is Ready (R320). -/
def State.readyWaves (s : State) (c : Nat) : State :=
  let due := (s.core c).waves.flatMap fun w => if w.stalled then (w.at_ c).filter (s.met w) else []
  due.foldl (fun s x => s.wake x) s

/-- The age at which a bin drains (R319). -/
def Core.age (k : Core) : Nat := Nat.max 1 k.qdAge.toNat

/-- The bin of a deterministic core that drains next: the one of least thread key, when no wave is Ready (R320). -/
def binBefore (a b : Bin) : Bool :=
  a.team < b.team || (a.team == b.team && match (sortThreads a.lanes).head?, (sortThreads b.lanes).head? with
    | some x, some y => threadBefore x y
    | _, _ => false)
def leastBin : List Bin → Option Bin
  | [] => none
  | b :: r =>
    match leastBin r with
    | none => some b
    | some x => if binBefore x b then some x else some b

/-- A bin drains: by age, or on a deterministic core when no wave is Ready (R318, R320). -/
def State.binDue (s : State) (c : Nat) (b : Bin) : Bool :=
  let k := s.core c
  if k.det then (k.waves.all fun w => k.keeps w || (w.stalled && !w.cur)) && leastBin k.bins == some b
  else s.now - b.filed ≥ k.age

/-- R318: the bin in place b drains. -/
def execQuadrilleAgeDrain (c b : Nat) (s : State) : Result :=
  match (s.core c).bins[b]? with
  | none => .refused .notEnabled
  | some q =>
    if !s.binDue c q then .refused .notEnabled
    else
      let s' := s.drainBin c q
      .next (if (s.core c).det then s' else s'.count c 0x07 q.team 1)

end Sys2Proof.Machine
end

