-- ==== Sys2Proof/Machine/Traps.lean ====
section
/-!
DEFINITION. The trap queue (R328, R329) and the service of records (R330, R331), with the host's writes of the queue
registers (R301, R328).
-/
namespace Sys2Proof.Machine

/-! The launch queue registers. -/

/-- R301: the doorbell. -/
def execLqTailWrite (p : Nat) (v : Word) (s : State) : Result :=
  .next (s.modPart p fun q => { q with lqTail := v.setWidth 16 })

/-- The control register after a write (R301). -/
def Part.lqCtl (q : Part) (v : Word) : Part :=
  if q.lqEn then { q with lqEn := v.getLsbD 0 } else { q with lqEn := v.getLsbD 0, lqLogn := v.extractLsb' 1 4 }
/-- R301: launch queue control. -/
def execLqCtlWrite (p : Nat) (v : Word) (s : State) : Result := .next (s.modPart p fun q => q.lqCtl v)

/-- A grid of a partition changed. -/
def Part.modGrid (p : Part) (gk : Nat) (f : Grid → Grid) : Part :=
  { p with grids := match p.grids.find? gk with
    | none => p.grids
    | some g => p.grids.set gk (f g) }

/-! Records into the ring. -/

/-- The ring is full (R328). -/
def Part.tqFull (q : Part) : Bool := (q.tqTail.toNat + 1) % ringSize q.tqLogn == q.tqHead.toNat % ringSize q.tqLogn

/-- Where a record stands before it is written: with the dispatcher, in the coalescer of a core, or kept for a saved grid
(R328, R338). -/
inductive RecAt where
  | dispatcher
  | core (c : Nat)
  | saved (grid : Nat)
  deriving DecidableEq, Repr

/-- The records of a partition that the coalescers formed and that are not written yet, with where they stand. -/
def State.unwritten (s : State) (p : Nat) : List (RecAt × Rec) :=
  (s.cores.flatMap fun (c, k) =>
      (k.recs.filter fun r => r.written.isNone && (s.team c r.teamSlot).part == p).map fun r => (RecAt.core c, r))
    ++ (s.part p).grids.flatMap fun (n, g) => (g.savedRecs.filter fun r => r.2.written.isNone).map fun r => (RecAt.saved n, r.2)
/-- Of the records of a core that are not written yet, the one formed first (R329). -/
def firstFormed (c : Nat) (rs : List (RecAt × Rec)) : Option (RecAt × Rec) :=
  let own := rs.filter fun r => r.2.core == c
  own.find? fun r => own.all fun q => r.2.formed ≤ q.2.formed
/-- The record of an ID that may be written next, with where it stands: the first event of the dispatcher, or of the records of one
core the first (R328, R329). -/
def State.nextRecord (s : State) (p : Nat) (id : Word) : Option (RecAt × Rec) :=
  let rs := s.unwritten p
  (((s.part p).events.head?.filter fun r => r.id == id).map fun r => (RecAt.dispatcher, r)).or
    ((rs.find? fun r => r.2.id == id).filter fun r => (firstFormed r.2.core rs).any fun q => q.2.id == id)

/-- The stores of the lanes of a record are acknowledged at `.sys` (R275, R328); none while one is not. -/
def State.recordStores (s : State) (c : Nat) (r : Rec) : Option State :=
  if r.lanes.all fun (g, l) => (s.thread { c := c, t := r.teamSlot, g := g, l := l }).stores.isEmpty then s.releaseSys (coreDie c)
  else none

/-- The 256 bytes of a record written at a slot of the ring (R327, R328). -/
def State.putRecord (s : State) (p n : Nat) (r : Rec) : Option State :=
  let a := (s.part p).tqAddr n
  (s.homeWrite a 128 (r.bits % 2 ^ 1024) 3).bind fun s => s.homeWrite (a + 128) 128 (r.bits / 2 ^ 1024) 3

/-- GMAP, COUNT and LMASK of a record rewritten in its ring slot; none while a handler holds it (R326, R375). -/
def State.rewriteRec (s : State) (a : Nat) (r : Rec) : Option State :=
  ((s.homeWrite (a + 20) 4 (r.bits / 2 ^ 160 % 2 ^ 32) 3).bind fun s => s.homeWrite (a + 51) 4 (r.bits / 2 ^ 408 % 2 ^ 32) 3).bind fun s =>
    s.homeWrite (a + 128) 128 (r.bits / 2 ^ 1024) 3
/-- The records of a core that lanes joined after they were written are rewritten (R326). -/
def State.rewriteRecs (s : State) (c : Nat) : State :=
  ((s.core c).recs.filter (·.joined)).foldl (fun s r =>
    match r.written.bind fun a => s.rewriteRec a r with
    | none => s
    | some s => s.modCore c fun k => { k with recs := k.recs.map fun q => if q.id == r.id && q.joined then { q with joined := false } else q }) s

/-- TAIL advances, and the interrupt is sent where the ring was empty (R328). -/
def State.pushTail (s : State) (p : Nat) : State :=
  let q := s.part p
  let s := if q.tqTail == q.tqHead then s.modPkg fun k => { k with msix := k.msix ++ [(p, q.tqVec.toNat)] } else s
  s.modPart p fun q => { q with tqTail := BitVec.ofNat 16 ((q.tqTail.toNat + 1) % ringSize q.tqLogn) }

/-- A record of a core that stands in the ring: an event is dropped, a record stays open (R326, R330). -/
def Core.wrote (k : Core) (id : Word) (a : Nat) : Core :=
  let f (r : Rec) : List Rec := if r.id == id && r.written.isNone then (if r.isOpen then [{ r with written := some a }] else []) else [r]
  { k with recs := k.recs.flatMap f }

/-- The same among the records of saved teams. -/
def wroteSaved (id : Word) (a : Nat) (rs : List (Nat × Rec)) : List (Nat × Rec) :=
  rs.flatMap fun (i, r) =>
    if r.id == id && r.written.isNone then (if r.isOpen then [(i, { r with written := some a })] else []) else [(i, r)]

/-- R328: a record enters the trap queue; with a full ring it waits, and OVF is set. -/
def execTrapRecordWrite (p : Nat) (id : Word) (s : State) : Result :=
  let q := s.part p
  match s.nextRecord p id with
  | none => .refused .notEnabled
  | some (src, r) =>
    if !q.tqEn || q.tqLogn == 0 then .refused .notEnabled
    else if q.tqFull then
      if q.tqOvf then .refused .notEnabled else .next (s.modPart p fun q => { q with tqOvf := true })
    else
      let n := q.tqTail.toNat
      let a := q.tqAddr n
      let ready := match src with
        | .core c => s.recordStores c r
        | _ => some s
      match ready.bind fun s => s.putRecord p n r with
      | none => .refused .notEnabled
      | some s =>
        let s := match src with
          | .core c => s.modCore c fun k => k.wrote id a
          | .dispatcher => s.modPart p fun q => { q with events := q.events.drop 1 }
          | .saved gk => s.modPart p fun q => q.modGrid gk fun g => { g with savedRecs := wroteSaved id a g.savedRecs }
        .next (s.pushTail p)

/-- R328: the host advances HEAD; the interrupt is sent again where records remain. -/
def execTqHeadWrite (p : Nat) (v : Word) (s : State) : Result :=
  let s := s.modPart p fun q => { q with tqHead := v.setWidth 16 }
  let q := s.part p
  .next (if q.tqHead == q.tqTail then s else s.modPkg fun k => { k with msix := k.msix ++ [(p, q.tqVec.toNat)] })

/-- The control register after a write (R328). -/
def Part.tqCtl (q : Part) (v : Word) : Part :=
  let q := { q with tqOvf := q.tqOvf && !v.getLsbD 5 }
  if q.tqEn then { q with tqEn := v.getLsbD 0 }
  else { q with tqEn := v.getLsbD 0, tqLogn := v.extractLsb' 1 4, tqVec := v.extractLsb' 8 8 }
/-- R328: trap queue control. -/
def execTqCtlWrite (p : Nat) (v : Word) (s : State) : Result := .next (s.modPart p fun q => q.tqCtl v)

/-! Service. -/

/-- The open record of an ID in a partition, with its core (R330). -/
def State.openRec (s : State) (p : Nat) (id : Word) : Option (Nat × Rec) :=
  s.cores.findSome? fun (c, k) =>
    (k.recs.find? fun r => r.isOpen && r.id == id && (s.team c r.teamSlot).part == p).map fun r => (c, r)

/-- A record closed: the faults that waited for its place are received again (R326, R330). -/
def State.closeRec (s : State) (c : Nat) (id : Word) : State :=
  (s.modCore c fun k => { k with recs := k.recs.filter fun r => !(r.isOpen && r.id == id) }).recoalesce c

/-- A parked lane becomes Ready at its park address (R115, R330). -/
def Thread.release (th : Thread) : Thread := { th with run := .ready, recId := 0, pos := {} }

/-- The lanes of a record become Ready at their park addresses and are filed (R115, R299, R330). -/
def State.releaseLanes (s : State) (c : Nat) (r : Rec) : State :=
  let ls := r.lanes.filter fun (g, l) =>
    let th := s.thread { c := c, t := r.teamSlot, g := g, l := l }
    th.run == .parked && th.recId == r.id
  let s := ls.foldl (fun s (g, l) => s.modThread { c := c, t := r.teamSlot, g := g, l := l } (·.release)) s
  (s.file c r.teamSlot ls).modCore c (·.refill)

/-- The engine operation of a record of kind X may retry (R215, R330). -/
def Core.retry (k : Core) (r : Rec) : Core :=
  let f (os : List EngOp) : List EngOp := os.map fun o => if o.team == r.teamSlot && o.stopped then { o with stopped := false } else o
  if r.key == 0 then { k with mq := f k.mq } else { k with pq := f k.pq }

/-- The engine operations of a team discarded (R331). -/
def Core.dropOps (k : Core) (t : Nat) : Core :=
  (k.keepMatrix fun o => o.team != t).keepPour fun o => o.team != t || o.kind == .copy
/-- The open records of a team closed, and its faults that wait forgotten (R331). -/
def Core.dropRecs (k : Core) (t : Nat) : Core :=
  { k with recs := k.recs.filter fun r => !(r.isOpen && r.teamSlot == t), overflow := k.overflow.filter fun r => r.teamSlot != t }

/-- The waves and bins of a team dropped. -/
def Core.dropWaves (k : Core) (t : Nat) : Core :=
  { k with active := k.active.filter fun w => w.team != t, pending := k.pending.filter fun w => w.team != t,
           bins := k.bins.filter fun b => b.team != t }

/-- The groups of a team settled one after another. -/
def State.settleAll (s : State) (c t : Nat) : State := ((s.team c t).groups.map (·.1)).foldl (fun s g => s.settle c t g) s

/-- The copy nodes that a team's engine holds, discarded; no finish comes for them (R331, R336). -/
def State.dropTeamCopies (s : State) (c t : Nat) : State :=
  let gone := ((s.core c).pq.filter fun o => o.kind == .copy && o.team == t).map (·.node)
  if gone.isEmpty then s
  else (s.modCore c fun k => { k with pq := k.pq.filter fun o => !(o.kind == .copy && o.team == t) }).modPart (s.team c t).part
    fun q => { q with nodes := q.nodes.filter fun m => !gone.contains m.1 }

/-- The host ends a team (R331): its threads exit, its engine operations and open records go, and it ends once nothing of
it remains outstanding. -/
def State.hostEnd (s : State) (c t : Nat) : State :=
  let k := s.team c t
  let s := (s.dropTeamCopies c t).modPart k.part fun p => p.modGrid k.grid fun g => { g with ended := true }
  if k.over then
    ((s.modTeam c t fun k => { k with ended := true }).modCore c fun q => (q.dropOps t).dropRecs t).recoalesce c
  else
    let exit (g : Nat × Group) : Nat × Group :=
      (g.1, { g.2 with cCount := 0, tCount := 0, colls := [], threads := g.2.threads.map fun (l, th) =>
        (l, { th with run := .exited, win := [], loads := [], timerDue := false, pos := {} }) })
    let s := s.modTeam c t fun k => { k with ended := true, savedAt := none, bars := [], futWait := [], groups := k.groups.map exit }
    let s := s.modCore c fun q => ((q.dropOps t).dropRecs t).dropWaves t
    ((s.settleAll c t).recoalesce c).modCore c (·.refill)

/-- The copy nodes of a grid in the Pour queues discarded (R331). -/
def State.dropCopies (s : State) (p gk : Nat) : State :=
  let mine (n : Nat) : Bool := (s.part p).nodes.any fun q => q.1 == n && q.2.grid == gk
  let keep (c : Nat) (o : EngOp) : Bool := !(o.kind == .copy && (s.team c o.team).part == p && mine o.node)
  let cores := s.cores.map fun (c, k) => (c, { k with pq := k.pq.filter (keep c) })
  ({ s with cores := cores } : State).modPart p fun q => { q with nodes := q.nodes.filter fun m =>
    !(m.2.grid == gk && m.2.launched && recCopy m.2.record && !m.2.finished) }

/-- The host ends every team of a grid (R330, R331). -/
def State.hostEndGrid (s : State) (p gk : Nat) : State :=
  (((s.gridTeams p gk).foldl (fun s (c, t) => s.hostEnd c t) s).dropCopies p gk)

/-- The actions of a service (R328, R330). -/
def actRelease : Nat := 0
def actEndTeam : Nat := 1
def actEndGrid : Nat := 2

/-- The service of an open record that stands on a core (R281, R330). -/
def State.serveAt (s : State) (p c : Nat) (r : Rec) (act : Nat) : State :=
  let s := s.closeRec c r.id
  if act == actEndGrid then s.hostEndGrid p (s.team c r.teamSlot).grid
  else if act == actEndTeam || r.cause == .storeUe then s.hostEnd c r.teamSlot
  else if r.event then s.modCore c fun k => k.retry r
  else s.releaseLanes c r

/-- The grid whose saved team holds an open record of an ID (R338). -/
def Part.savedRec (q : Part) (id : Word) : Option (Nat × Grid) :=
  List.find? (fun g : Nat × Grid => g.2.savedRecs.any fun r => r.2.id == id) q.grids
/-- A service held until the restore of a grid (R338). -/
def Part.holdService (q : Part) (gk : Nat) (g : Grid) (id : Word) (act : Nat) : Part :=
  { q with grids := q.grids.set gk { g with services := g.services ++ [(id, act)] } }

/-- A service written to TQ_SERV: on an open record at once, on one of a saved team at its restore; an ID that names no open
record is ignored (R330, R338). -/
def State.serve (s : State) (p : Nat) (id : Word) (act : Nat) : State :=
  match s.openRec p id with
  | some (c, r) =>
    let k := s.team c r.teamSlot
    match k.savedAt, (s.part p).grids.find? k.grid with
    | some _, some g => s.modPart p fun q => q.holdService k.grid g id act
    | _, _ => s.serveAt p c r act
  | none =>
    match (s.part p).savedRec id with
    | some (gk, g) => s.modPart p fun q => q.holdService gk g id act
    | none => s

/-- R330: the lanes of a record are released, or its engine operation retries. -/
def execTqServRelease (p : Nat) (id : Word) (s : State) : Result := .next (s.serve p id actRelease)
/-- R331: the team of a record ends. -/
def execTqServEndTeam (p : Nat) (id : Word) (s : State) : Result := .next (s.serve p id actEndTeam)
/-- R331: the grid of a record ends. -/
def execTqServEndGrid (p : Nat) (id : Word) (s : State) : Result := .next (s.serve p id actEndGrid)

end Sys2Proof.Machine
end

