-- ==== Sys2Proof/Machine/Image.lean ====
section
/-!
DEFINITION. The bytes of a save area (R340 to R344): its header, map and directory, and the sections of a team area, with
the reading of the same fields at a restore.
-/
namespace Sys2Proof.Machine

/-! Bytes. -/

/-- A list of bytes of length n: zeros follow its last (R341). -/
def fit (n : Nat) (bs : List Byte) : List Byte := (bs ++ List.replicate n 0).take n
/-- A length rounded up to a multiple of 64 (R340). -/
def round64 (n : Nat) : Nat := (n + 63) / 64 * 64
/-- The number in n bytes from an offset. -/
def numAt (bs : List Byte) (off n : Nat) : Nat := leNum ((bs.drop off).take n)
/-- Bits [hi:lo] of a number. -/
def field (v hi lo : Nat) : Nat := v / 2 ^ lo % 2 ^ (hi - lo + 1)

/-! The layout of a team area. -/

/-- TR: bytes of a thread record with its window (R341). -/
def Desc.recBytes (d : Desc) : Nat := round64 (64 + 4 * d.regs + 128 * d.aff)
/-- Granted tiles, in index order. -/
def Desc.tileList (d : Desc) : List Nat := (List.range 4).filter fun t => d.acc.getLsbD t

/-- Offsets of the sections of a team area: group records, thread records, held reductions, tiles, scratchpad banks,
FIFO banks, reply ports (R341, R342); each begins at a multiple of 64 (log 41). -/
def Desc.offsets (d : Desc) (held : Nat) : List Nat :=
  let threads := 0x2d00 + 1024 * d.team
  let h := threads + 32 * d.team * d.recBytes
  let tiles := h + round64 (32 * held)
  let scr := tiles + 65536 * d.tileList.length
  let fifo := scr + 65536 * d.scrb
  [0x2d00, threads, h, tiles, scr, fifo, fifo + 65536 * d.chan]

/-! Threads. -/

/-- The state code of a thread (R343). -/
def Run.code : Run → Nat
  | .ready => 0
  | .waiting => 1
  | .parked => 2
  | .exited => 3
  | .yielded => 4
/-- The run state of a code (R343, R347): a thread stopped at `yield` goes on as Ready. -/
def runOf (n : Nat) : Run :=
  match n with
  | 1 => .waiting
  | 2 => .parked
  | 3 => .exited
  | _ => .ready

/-- A thread record without its window (R343). -/
def threadNum (g l : Nat) (th : Thread) (k : Kept) : Nat :=
  let inTree := k.inTree && (th.run == .ready || th.run == .waiting)
  th.pc.toNat + th.rentry.toNat * 2 ^ 64 + th.rcount.toNat * 2 ^ 128 + th.run.code * 2 ^ 160
    + (if th.hflag then 2 ^ 163 else 0) + (if inTree then 2 ^ 164 + k.pos.slot % 8 * 2 ^ 165 + k.arc * 2 ^ 168 else 0)
    + (if k.inTree then 0 else k.pos.slot % 64 * 2 ^ 171) + l * 2 ^ 177 + g * 2 ^ 182 + (th.preds.toNat ||| 1) * 2 ^ 192
    + th.astat.toNat * 2 ^ 224 + th.recId.toNat * 2 ^ 256 + th.rbase % 2 ^ 32 * 2 ^ 288

/-- The words of a window as a record lists them: g0 up to the declared count, then the affine registers (R343). -/
def winWords (nG nA : Nat) : List Nat := List.range nG ++ (List.range nA).flatMap affWords

/-- A thread record with its window (R343). -/
def threadBytes (d : Desc) (g l : Nat) (th : Thread) (k : Kept) : List Byte :=
  fit d.recBytes (leBytes 64 [threadNum g l th k] ++ (if th.run == .exited then []
    else leBytes 4 ((winWords d.regs d.aff).map fun i => (th.word i).toNat)))

/-- A thread read from its record; the position inside an instruction is that of the save where the record still names
it, and one that waits keeps its arrival and its place (R338, R347, log 40); an address has its low three bits 0 (R13, log 49). -/
def readThread (d : Desc) (rbase : Nat) (k : Kept) (bs : List Byte) : Thread :=
  let v := numAt bs 0 64
  let run := runOf (field v 162 160)
  let slotAt (a : Nat) : Addr := BitVec.ofNat 48 (a / 8 * 8)
  let pc : Addr := slotAt v
  let inTree := v.testBit 164
  let slot := field v 167 165
  let path := pathOf (field v 170 168)
  let pos : Pos :=
    if inTree then
      let old : Pos := if k.inTree && k.pc == pc && k.pos.slot == slot then k.pos else {}
      { old with slot := slot, root := path.1, child := path.2, stopped := false, uni := none }
    else if !k.inTree && k.pc == pc && field v 176 171 == 0 then
      { k.pos with slot := 0, root := none, child := none, stopped := false, uni := none }
    else { slot := field v 176 171 }
  let pos := if run == .waiting then pos else { pos with wait := none, arrived := false }
  let words := (winWords d.regs d.aff).zipIdx.map fun (i, n) => (i, (BitVec.ofNat 32 (numAt bs (64 + 4 * n) 4) : Word))
  let awake := run != .parked && run != .exited
  { pc := pc, rbase := rbase, rentry := slotAt (field v 127 64), rcount := BitVec.ofNat 32 (field v 159 128),
    run := run, preds := BitVec.ofNat 32 (field v 223 192 ||| 1),
    win := if run == .exited then [] else words.filter fun w => w.2 != 0,
    astat := BitVec.ofNat 6 (field v 255 224), hflag := v.testBit 163, recId := BitVec.ofNat 32 (field v 287 256),
    marks := if v.testBit 163 then k.marks else none, loads := if awake && k.pc == pc then k.owed else [],
    timerDue := k.timer && awake, step := k.step, pos := if awake then pos else {} }

/-! Groups. -/

/-- The target of a binding in the form that does not depend on placement (R344). -/
def Team.targetOut (k : Team) (c : Nat) (b : Chan) : Nat :=
  let t := b.tgt.toNat
  match b.kind.toNat with
  | 1 => 64 * (k.fifoBanks.findIdx fun x => x == t / 64) + t % 64
  | 4 => (t / 1024 % 12 + k.cx - c % 12) % 16 * 2 ^ 10 + (t / 1024 % 96 / 12 + k.cy - c % 96 / 12) % 8 * 2 ^ 14 + t % 1024
  | _ => t
/-- A target on the team's new banks, and of a peer on its new core (R347). -/
def Team.targetIn (k : Team) (c kind t : Nat) : Nat :=
  match kind with
  | 1 => 64 * k.fifoBanks.getD (t / 64) 0 + t % 64
  | 4 => 1024 * clusterCore c k (t / 2 ^ 10 % 16) (t / 2 ^ 14 % 8) + t % 2 ^ 10
  | _ => t

/-- An entry of an extent table (R295). -/
def Extent.num (e : Extent) : Nat :=
  e.vpage * 2 ^ 96 + e.ppage % 2 ^ 32 * 2 ^ 64 + e.len * 2 ^ 32 + 2 ^ 31 + (if e.w then 2 ^ 30 else 0) + (if e.r then 2 ^ 29 else 0)
    + e.cls % 4 * 2 ^ 27 + (if e.rem then 2 ^ 26 else 0) + e.node % 2 ^ 12 * 2 ^ 14
/-- A valid entry read. -/
def readExtent (v : Nat) : Option Extent :=
  if v.testBit 31 then some { vpage := field v 127 96, ppage := field v 95 64, len := field v 63 32, w := v.testBit 30,
                              r := v.testBit 29, cls := field v 28 27, rem := v.testBit 26, node := field v 25 14 }
  else none

/-- A stale record (R190, R344). -/
def Stale.num (r : Stale) : Nat := 2 ^ 63 + (if r.isT then 2 ^ 62 else 0) + r.addr % 2 ^ 48

/-- A group record (R344). -/
def groupBytes1 (k : Team) (c : Nat) (q : Group) : List Byte :=
  let chan (n : Nat) : Nat :=
    let b := q.chans.get n {}
    k.targetOut c b * 2 ^ 16 + b.depth.toNat * 2 ^ 8 + b.kind.toNat
  fit 1024 (leBytes 4 ((List.range 32).map fun i => (q.kregs.get i 0).toNat) ++ leBytes 8 ((List.range 32).map chan)
    ++ fit 32 (leBytes 4 (q.fmts.map (·.toNat))) ++ leBytes 8 [q.symNext + 2 ^ 20 * q.symEnd]
    ++ leBytes 4 [q.trapen.toNat, 1 + (if q.task.isSome then 2 else 0) + (if q.narrow then 4 else 0)]
    ++ leBytes 8 [q.alarm.toNat, match q.stale with
      | some r => r.num
      | none => 0, match q.task with
      | some i => i.record
      | none => 0] ++ leBytes 16 (q.extents.map Extent.num))

/-- What a task group runs for, from the address of its record (R344); none where the finish of its node was retired since the
save (R403). -/
def Part.taskAt (p : Part) (gk a : Nat) : Option TaskInfo :=
  (p.nodes.find? fun q => q.2.grid == gk && q.2.addr == a && q.2.launched && !q.2.finished).map fun (n, nd) => nd.task n
/-- The group of a record runs on: it is in use, and its task, where it has one, is not retired (R403). -/
def Part.groupOn (p : Part) (gk : Nat) (bs : List Byte) : Bool :=
  let flags := numAt bs 428 4
  flags.testBit 0 && (!flags.testBit 1 || (p.taskAt gk (numAt bs 448 8)).isSome)

/-- The regions that a group owns: of its launch, or of the record of its task (R321). -/
def Part.ownedAt (p : Part) (g : Grid) (task : Option TaskInfo) : List (Nat × Nat) :=
  if !g.det then []
  else
    match task with
    | none => ownedOf g.regl
    | some i => match p.nodes.find? fun q => q.1 == i.node with
      | some (_, nd) => ownedOf nd.regl
      | none => []

/-- A group read from its record, without its threads (R347). -/
def readGroup (p : Part) (gk : Nat) (g : Grid) (k : Team) (c : Nat) (bs : List Byte) : Group :=
  let flags := numAt bs 428 4
  let sym := numAt bs 416 8
  let stale := numAt bs 440 8
  let a := field stale 47 0
  let task := if flags.testBit 1 then p.taskAt gk (numAt bs 448 8) else none
  let chan (n : Nat) : Option (Nat × Chan) :=
    let v := numAt bs (128 + 8 * n) 8
    if v == 0 then none
    else some (n, { tgt := BitVec.ofNat 32 (k.targetIn c (v % 8) (field v 47 16)), depth := BitVec.ofNat 8 (v / 256),
                    kind := BitVec.ofNat 3 v })
  { kregs := ((List.range 32).map fun i => (i, (BitVec.ofNat 32 (numAt bs (4 * i) 4) : Word))).filter fun w => w.2 != 0,
    chans := (List.range 32).filterMap chan, fmts := (List.range 8).map fun i => BitVec.ofNat 32 (numAt bs (384 + 4 * i) 4),
    symNext := sym % 2 ^ 20, symEnd := sym / 2 ^ 20, trapen := BitVec.ofNat 6 (numAt bs 424 4),
    alarm := BitVec.ofNat 64 (numAt bs 432 8),
    stale := if stale.testBit 63 then some { isT := stale.testBit 62, addr := a, spc := a < k.scratchSize } else none,
    extents := cutAll ((List.range 8).filterMap fun i => readExtent (numAt bs (456 + 16 * i) 16)) g.cuts,
    owned := p.ownedAt g task, task := task, narrow := flags.testBit 2 }

/-! The engine list. -/

/-- The kind of an entry: the operation code, or 0x100 for a copy node (R341). -/
def EngKind.code : EngKind → Nat
  | .mma => 0xb0
  | .mmv => 0xb1
  | .mqrun => 0xb2
  | .accz => 0xb3
  | .accld => 0xb4
  | .accst => 0xb5
  | .pour => 0xb6
  | .pourOut => 0xb7
  | .copy => 0x100

/-- The counts of whole rows: a row in hand is performed again (R214). An operation whose counts were added has none. -/
def EngOp.nfinSaved (o : EngOp) : Nat := if o.signalled then 0 else o.nfin - o.rowNfin
def EngOp.ovfSaved (o : EngOp) : Nat := if o.signalled then 0 else o.ovf - o.rowOvf

/-- An entry of the engine list (R341). -/
def EngOp.num (o : EngOp) (k : Team) : Nat :=
  let base := o.kind.code + o.nfinSaved * 2 ^ 192 + (if o.kind == .copy then 0 else o.group % 32 * 2 ^ 224)
  let addr := o.addr % 2 ^ 64 * 2 ^ 32 + o.tag.toNat * 2 ^ 96
  match o.kind with
  | .mma => base + addr + o.areg % 2 ^ 8 * 2 ^ 229 + if o.reuse then 2 ^ 237 else 0
  | .mqrun => base + (64 * (k.fifoBanks.findIdx fun x => x == o.addr / 64) + o.addr % 64) * 2 ^ 32 + o.rows % 2 ^ 32 * 2 ^ 64
      + o.tag.toNat * 2 ^ 96 + o.count % 2 ^ 32 * 2 ^ 128
  | .accz => base + o.tile % 4 * 2 ^ 96
  | .accld | .accst => base + o.addr % 2 ^ 32 * 2 ^ 32 + o.rows % 2 ^ 32 * 2 ^ 64 + o.tile % 4 * 2 ^ 96
  | _ => base + addr + o.ovfSaved * 2 ^ 160

/-- The operations of a team in both queues in issue order: a Pour operation follows the matrix operations that stood
before it (R211, R341). -/
def mergeOps : List EngOp → List (EngOp × Nat) → List EngOp
  | [], mq => mq.map (·.1)
  | o :: os, mq => (mq.takeWhile fun m => m.2 < o.behind).map (·.1) ++ o :: mergeOps os (mq.dropWhile fun m => m.2 < o.behind)
def Core.teamOps (k : Core) (t : Nat) : List EngOp :=
  mergeOps (k.pq.filter fun o => o.team == t) (k.mq.zipIdx.filter fun m => m.1.team == t)

/-! The other sections. -/

/-- The words of a queue in its bank (R198): those that left it read 0 (log 41). -/
def Queue.bytes (q : Queue) : List Byte :=
  leBytes 4 ((List.range 256).map fun i => (q.words.getD ((i + 256 - q.head % 256) % 256) 0).toNat)
/-- A FIFO bank. -/
def Team.fifoBytes (k : Team) (bank : Nat) : List Byte := (List.range 64).flatMap fun n => (k.queue (64 * bank + n)).bytes
/-- The pointers of the queues of a bank: head, length (R341). -/
def Team.pointerBytes (k : Team) (bank : Nat) : List Byte :=
  leBytes 4 ((List.range 64).map fun n =>
    let q := k.queue (64 * bank + n)
    q.head % 256 + q.words.length % 256 * 256)

/-- A queue read from its bank and its pointers. -/
def readQueue (bank : List Byte) (n ptr : Nat) : Queue :=
  let head := ptr % 256
  { head := head, words := (List.range (ptr / 256 % 256)).map fun j =>
      BitVec.ofNat 32 (numAt bank (1024 * n + 4 * ((head + j) % 256)) 4) }

/-- The latched A: register r of lane l at word 64 l + r of the section, r counted from AREG (R341, log 41). -/
def Latch.bytes (l : Latch) : List Byte :=
  leBytes 4 ((List.range 2048).map fun i => (l.aRegs.get (256 * (i / 64) + (l.areg + i % 64)) 0).toNat)
/-- A latched A read from its section. -/
def readLatch (team group fmt : Nat) (bs : List Byte) : Latch :=
  { team := team, group := group, fmt := fmt, areg := 0,
    aRegs := ((List.range 2048).map fun i => (256 * (i / 64) + i % 64, (BitVec.ofNat 32 (numAt bs (4 * i) 4) : Word))).filter
      fun w => w.2 != 0 }

/-- The sort key of a held reduction in 128 bits, most significant field first: ORIGIN 1, K1 24, K2 16, K3 16, K4 48,
K5 5, STEP 13, LANE 5 (R321, R341, log 41). -/
def keyNum (key : List Nat) : Nat :=
  (key.zip [1, 24, 16, 16, 48, 5, 13, 5]).foldl (fun acc (v, w) => acc * 2 ^ w + v % 2 ^ w) 0
/-- The fields of a sort key, from the last. -/
def keyFields : List Nat → Nat → List Nat
  | [], _ => []
  | w :: ws, v => keyFields ws (v / 2 ^ w) ++ [v % 2 ^ w]
def readKey (v : Nat) : List Nat := keyFields [5, 13, 5, 48, 16, 16, 24, 1] v
/-- A held reduction in the 32 bytes of its entry (R341); AOP and TYPE lie past them and stay with the dispatcher
(log 41). -/
def HeldRed.num (r : HeldRed) : Nat :=
  keyNum r.key + (r.addr + if r.scratch then 2 ^ 63 else 0) % 2 ^ 64 * 2 ^ 128 + r.val.toNat * 2 ^ 192
/-- A held reduction with the fields of its entry. -/
def HeldRed.read (r : HeldRed) (v : Nat) : HeldRed :=
  { r with key := readKey (field v 127 0), scratch := v.testBit 191, addr := field v 190 128, val := BitVec.ofNat 64 (v / 2 ^ 192) }

/-- A reply port with its entries (R341). -/
def portBytes (n : Nat) (p : Port) : List Byte :=
  leBytes 64 [n % 64 + p.words.length % 256 * 256] ++ fit 1024 (leBytes 4 (p.words.map (·.toNat)))

/-! A team area. -/

/-- What a team area is made of: the core and slot of the team, the team, its held reductions and its reply ports. -/
structure TeamView where
  core : Core
  c : Nat
  t : Nat
  k : Team
  held : List HeldRed
  ports : Table Port

/-- The team header (R342). -/
def TeamView.header (v : TeamView) (clocks neng : Nat) : Nat :=
  let offs := v.k.desc.offsets v.held.length
  let latch := match v.core.latch with
    | some l => if l.team == v.t && !v.k.over then 2 ^ 465 + l.group % 32 * 2 ^ 459 + l.fmt % 8 * 2 ^ 456 else 0
    | none => 0
  v.k.groups.length * 2 ^ 320 + v.k.index % 2 ^ 32 * 2 ^ 352 + clocks % 2 ^ 64 * 2 ^ 384 + v.k.desc.acc.toNat * 2 ^ 452 + latch
    + neng * 2 ^ 472 + v.held.length * 2 ^ 480 + v.ports.length * 2 ^ 1024
    + (offs.zipIdx.foldl (fun acc (o, i) => acc + o * 2 ^ (512 + 64 * i)) 0)

/-- The bytes of a bank, or zeros where the team holds it no more. -/
def bankBytes (m : Memory) (b : Option Nat) : List Byte :=
  match b with
  | some b => m.slice (65536 * b) 65536
  | none => List.replicate 65536 0

/-- A team area (R341); an ended team has no group in use (log 41). -/
def TeamView.bytes (v : TeamView) (clocks : Nat) (kept : Nat → Nat → Kept) : List Byte :=
  let d := v.k.desc
  let ops := v.core.teamOps v.t
  let eight := List.range 8
  let groups := (List.range d.team).flatMap fun g => match v.k.groups.find? g with
    | some q => groupBytes1 v.k v.c q
    | none => List.replicate 1024 0
  let threads := (List.range d.team).flatMap fun g => (List.range 32).flatMap fun l =>
    match (v.k.groups.get g {}).threads.find? l with
    | some th => threadBytes d g l th (kept g l)
    | none => List.replicate d.recBytes 0
  let latch := match v.core.latch with
    | some l => if l.team == v.t && !v.k.over then l.bytes else []
    | none => []
  let held := leBytes 32 (v.held.map HeldRed.num)
  leBytes 512 [v.header clocks ops.length] ++ fit 768 (leBytes 32 (ops.map fun o => o.num v.k))
    ++ (eight.flatMap fun i => match v.k.fifoBanks[i]? with
      | some b => v.k.pointerBytes b
      | none => List.replicate 256 0)
    ++ fit 8192 latch ++ groups ++ threads ++ fit (round64 held.length) held
    ++ (d.tileList.flatMap fun t => if v.k.over then List.replicate 65536 0 else v.core.tile t 65536)
    ++ ((List.range d.scrb).flatMap fun i => bankBytes v.core.store v.k.scrBanks[i]?)
    ++ ((List.range d.chan).flatMap fun i => match v.k.fifoBanks[i]? with
      | some b => v.k.fifoBytes b
      | none => List.replicate 65536 0)
    ++ v.ports.flatMap fun (n, p) => portBytes n p

/-! The area. -/

/-- An entry of a placement map (R303). -/
def MapEntry.num (e : MapEntry) : Nat := e.flask + e.x0 * 2 ^ 4 + e.y0 * 2 ^ 8 + (e.w - 1) * 2 ^ 12 + (e.h - 1) * 2 ^ 16

/-- The directory from the lengths of the team areas (R340). -/
def directory : Nat → List Nat → List Nat
  | _, [] => []
  | at_, n :: ns => (at_ + n * 2 ^ 64) :: directory (at_ + round64 n) ns

/-- Where the directory and the team areas begin (R340). -/
def dirAt (nclu : Nat) : Nat := 128 + round64 (8 * nclu)
def areasAt (nclu nteams : Nat) : Nat := dirAt nclu + round64 (16 * nteams)

/-- The whole save area of a grid (R340). -/
def areaBytes (g : Grid) (teams : List (List Byte)) : List Byte :=
  let n := g.map.length
  let head := 1 + g.launch.toNat * 2 ^ 32 + teams.length * 2 ^ 64 + n * 2 ^ 96 + if g.det then 2 ^ 160 else 0
  let dir := leBytes 16 (directory (areasAt n teams.length) (teams.map (·.length)))
  leBytes 64 [head] ++ leBytes 64 [g.packet.toNat] ++ fit (round64 (8 * n)) (leBytes 8 (g.map.map MapEntry.num))
    ++ fit (round64 (16 * teams.length)) dir ++ teams.flatMap fun bs => fit (round64 bs.length) bs

/-- Bytes written at their homes, line by line (R340). -/
def writeArea : Nat → Nat → List Byte → State → Option State
  | 0, _, _, s => some s
  | n + 1, a, bs, s =>
    if bs.isEmpty then some s
    else
      let len := Nat.min bs.length (128 - a % 128)
      (s.writeAt a len (leNum (bs.take len)) 3).bind fun s => writeArea n (a + len) (bs.drop len) s
def State.writeArea (s : State) (a : Nat) (bs : List Byte) : Option State := Machine.writeArea (bs.length / 128 + 2) a bs s

/-- Bytes read from their homes, line by line, with whether a line is poisoned. -/
def readArea : Nat → Nat → Nat → List Byte → Bool → State → Option (List Byte × Bool × State)
  | 0, _, _, acc, bad, s => some (acc, bad, s)
  | m + 1, a, n, acc, bad, s =>
    if n == 0 then some (acc, bad, s)
    else
      let len := Nat.min n (128 - a % 128)
      match s.readAt a len 3 with
      | none => none
      | some (v, b, s) => readArea m (a + len) (n - len) (acc ++ leBytes len [v]) (bad || b) s
def State.readArea (s : State) (a n : Nat) : Option (List Byte × Bool × State) := Machine.readArea (n / 128 + 2) a n [] false s

end Sys2Proof.Machine
end

