-- ==== Sys2Proof/Machine/Save.lean ====
section
/-!
DEFINITION. Pre-emption: the request (R333, R334), the forced save (R335), the save of a team and of its grid (R120, R214,
R336 to R340), and the restore (R345 to R347).
-/
namespace Sys2Proof.Machine

/-! The request. -/

/-- The dispatcher is busy with a save or a restore (R333). -/
def Part.preBusy (q : Part) : Bool := q.preState == 1 || q.preState == 2 || q.preState == 4

/-- Every team of a grid sees the request from its `%clocks` on (R334, R335). -/
def State.requestTeams (s : State) (p gk : Nat) : State :=
  (s.gridTeams p gk).foldl (fun s (c, t) =>
    if (s.team c t).over then s else s.modTeam c t fun k => { k with preqAt := some (s.clocks c t) }) s

/-- R334: a save of a running grid is requested; another number is rejected, and 0 or a busy dispatcher ignores it (R333). -/
def execPreReqWrite (p : Nat) (v : Word) (s : State) : Result :=
  let q := s.part p
  if q.preBusy || v == 0 then .next s
  else
    match List.find? (fun g : Nat × Grid => g.2.launch == v && g.2.placed && !g.2.saved) q.grids with
    | none => .next (s.modPart p fun q => { q with preReq := v, preState := 6 })
    | some (gk, _) =>
      let mark (g : Grid) : Grid := { g with preReq := true, forced := false, saveAddr := 64 * q.preSave.toNat }
      .next ((s.modPart p fun q => { q.modGrid gk mark with preReq := v, preState := 1, preGrid := v }).requestTeams p gk)

/-- An event of the pre-emption of a grid (R334, R335). -/
def preEvent (c : Cause) (launch : Word) : Rec := { id := 0, cause := c, event := true, grid := launch }

/-! A team at rest. -/

/-- A wait in which a thread may be saved (R12, R336): every reply and every walk is awaited first. -/
def Wait.rests : Wait → Bool
  | .reply => false
  | .walk _ _ => false
  | .walkFault _ _ => false
  | .line _ => false
  | .icinv => false
  | .count => true
  | .chanEmpty _ => true
  | .chanFull _ => true
  | .future _ _ _ => true
  | .collective => true
  | .barrier _ => true
  | .waitbar => true
  | .fswait => true
  | .dispatcher => true
  | .turn => true

/-- A lane of a stalled wave is at rest: it does not wait, or nothing lets it go on; one kept back rests with the lane before
it. -/
def State.laneRests (s : State) (w : Wave) (x : Lane) : Bool :=
  match (s.thread x).pos.wait with
  | none => true
  | some (.barrier _) => (s.thread x).pos.arrived
  | some .turn => true
  | some v => v.rests && !s.met w x

/-- A wave is at rest: inside an instruction where a lane of it waits, or at a tree boundary under a forced save (R334,
R335). -/
def State.waveRests (s : State) (c : Nat) (w : Wave) : Bool :=
  if w.ins.isNone then (s.team c w.team).forced
  else
    let ls := w.at_ c
    w.stalled && (ls.any fun x => (s.thread x).pos.wait.isSome) && ls.all (s.laneRests w)

/-- Nothing that a thread issued is outstanding (R336); a load whose data cannot be delivered comes to nothing more
(R179). -/
def Thread.quiet (th : Thread) : Bool := th.loads.all (·.poisoned) && th.stores.isEmpty
/-- Nothing outside the threads of a team keeps its save: no reply on its way, no engine operation with its signals owed
(R336). -/
def Core.restsFor (k : Core) (t : Nat) : Bool :=
  let ops := (k.mq ++ k.pq).filter fun o => o.team == t
  (ops.all fun o => !o.done || o.stopped || o.stuck)
    && (k.replies.all fun r => r.team != t)
    && k.ports.all fun (_, p) => p.reserved == 0 || !p.owner.any fun o => o.1 == t

/-- The deadline of a team's request has passed and its save is not forced yet: PRE_FORCED comes first (R335). -/
def State.forceDue (s : State) (c t : Nat) : Bool :=
  let k := s.team c t
  let q := s.part k.part
  (q.preState == 1 || q.preState == 2) && !k.over && !k.forced && k.savedAt.isNone
    && k.preqAt.any fun a => a + q.preDeadline.toNat ≤ s.clocks c t

/-- A save forced: the core holds the waves of the team at their next tree boundaries, and one PRE_FORCED is written for the
grid (R335). -/
def State.force (s : State) (c t : Nat) : State :=
  let k := s.team c t
  match (s.part k.part).grids.find? k.grid with
  | none => s
  | some g =>
    let s := (s.modTeam c t fun k => { k with forced := true }).modCore c (·.refill)
    let s := s.modPart k.part fun q => { q.modGrid k.grid fun g => { g with forced := true } with preState := 2 }
    if g.forced then s else s.event k.part (preEvent .preForced g.launch)

/-- R335: the deadline of a team has passed: its save is forced. -/
def execPreForced (c t : Nat) (s : State) : Result := if s.forceDue c t then .next (s.force c t) else .refused .notEnabled

/-- A team can be saved (R334 to R336). -/
def State.canSave (s : State) (c t : Nat) : Bool :=
  let k := s.team c t
  let q := s.part k.part
  let core := s.core c
  !k.over && k.savedAt.isNone && !k.ended && k.preqAt.isSome && (q.preState == 1 || q.preState == 2) && !s.forceDue c t
    && (k.groups.all fun (_, g) => g.threads.all fun (_, th) => th.quiet)
    && ((core.waves.filter fun w => w.team == t).all (s.waveRests c)) && (k.forced || core.bins.all fun b => b.team != t)
    && core.restsFor t && s.flasks.all fun (_, f) => f.release.all fun (d, u, _) => !(d == c && u == t)

/-! Positions. -/

/-- The next operation on the path of a lane, from its position on: its slot, its arc, and the position with the tests
made (R107). -/
def nextOp (h : Option TreeHeader) (th : Thread) : List SlotRun → Nat → Pos → Option (Nat × Nat × Pos)
  | [], _, _ => none
  | r :: rs, n, p =>
    if n < p.slot then nextOp h th rs (n + 1) p
    else
      let p := match h with
        | none => p
        | some h => evalTests h (arcLevel r.arc) { th with pos := p }
      if onArc p r.arc then some (n, r.arc, p) else nextOp h th rs (n + 1) p

/-- The arc that a position stands on (R343). -/
def arcOf (p : Pos) : Nat :=
  match p.root, p.child with
  | none, _ => 7
  | some true, none => 0
  | some false, none => 1
  | some true, some true => 2
  | some true, some false => 3
  | some false, some true => 4
  | some false, some false => 5

/-- The instruction in which a wave stands, with its body: the one it began, or the one at its address to which a lane
returned in its middle (R134). -/
def State.standsIn (s : State) (c : Nat) (w : Wave) (pc : Addr) : Option (Instr × Body) :=
  let k := s.team c w.team
  match w.ins with
  | some i => some (i, bodyOf i k.nG)
  | none =>
    match s.fetch c k.part pc.toNat with
    | .ok i _ => some (i, bodyOf i k.nG)
    | _ => none

/-- A lane of a begun instruction has performed every operation of its path (R120). -/
def State.performed (s : State) (w : Wave) (x : Lane) : Bool :=
  match w.ins with
  | none => false
  | some i =>
    let b := bodyOf i (s.team x.c x.t).nG
    let th := s.thread x
    s.live x && (nextOp b.header th b.slots 0 th.pos).isNone

/-- A uniform destination at a save (R21, R120): a group every lane of which performed the slot is written; in another the
values go with the lanes that have still to perform it. -/
def State.restUniform (s : State) (c : Nat) (w : Wave) (b : Body) : State :=
  let ls := w.at_ c
  let waiting := ls.filter fun x => (s.thread x).pos.wait.isSome
  let slot := ((waiting.map fun x => (s.thread x).pos.slot).head?).getD 0
  let d : Option (Bool × Nat) := (b.slots[slot]?).map fun r =>
    (match r.sh.d with
      | .pair .. => true
      | _ => false, r.f.d.toNat)
  (byGroup (ls.filter fun x => (s.thread x).pos.uni.isSome)).foldl (fun s g =>
    let vs := (g.map fun x => (s.thread x).pos.uni.getD 0) ++ g.flatMap fun x => (s.thread x).pos.others
    let clear := g.foldl (fun s x => s.modPos x fun p => { p with uni := none, others := [] }) s
    let mine := waiting.filter fun x => g.any fun y => y.g == x.g
    match g, vs, d with
    | x :: _, v :: _, some (pair, d) =>
      if mine.isEmpty then clear.setK x pair d v
      else mine.foldl (fun s x => s.modPos x fun p => { p with others := p.others ++ vs }) clear
    | _, _, _ => clear) s

/-- Such a lane takes its leaf at the save (R120); as `finishLane` has it, one that yielded on a sample of 1 is saved Yielded (R142,
DESIGN CHOICE, log 55). -/
def State.restWave (s : State) (c : Nat) (w : Wave) (fin : List Lane) : State :=
  match w.ins with
  | none => s
  | some i =>
    let pc := s.wavePc c w
    let x : Ctx := { pc := pc, next := pc + BitVec.ofNat 48 i.bytes, preq := w.preq }
    let b := bodyOf i (s.team c w.team).nG
    let h := b.header
    let s := s.takeNotes (s.brkNotes h x ((w.at_ c).filter fun y => fin.contains y))
    (sortLanes ((w.at_ c).filter fun y => fin.contains y && s.live y)).foldl (fun s y => s.finishLane h x y) s

/-- How a lane of a wave is saved (R120, R343), with the uniform registers as they stood before its slot (R21). -/
def State.keep (s : State) (w : Wave) (fin : List Lane) (x : Lane) : Kept :=
  let th := s.thread x
  let base : Kept := { team := (s.team x.c x.t).index, group := x.g, lane := x.l, pc := th.pc }
  if fin.contains x || !s.live x || (w.ins.isNone && th.pos.slot == 0 && th.pos.root.isNone) then base
  else
    match s.standsIn x.c w th.pc with
    | none => { base with inTree := true, arc := arcOf th.pos, pos := th.pos }
    | some (_, b) =>
      match nextOp b.header th b.slots 0 th.pos with
      | none => { base with inTree := b.header.isSome, arc := arcOf th.pos, pos := th.pos }
      | some (n, arc, p) => { base with inTree := b.header.isSome, arc := arc, pos := { p with slot := n } }

/-- How every thread of a team is saved: positions from the waves ws as they stood in s, and the address as it stands after
the leaves are taken, in s'. -/
def State.keepAll (s s' : State) (ws : List Wave) (c t : Nat) (fin : List Lane) : List Kept :=
  let at_ := ws.flatMap fun w => (w.at_ c).map (s.keep w fin)
  let k := s'.team c t
  k.groups.flatMap fun (g, q) => q.threads.filterMap fun (l, th) =>
    if th.run == .exited then none
    else
      let old := (at_.find? fun y => y.group == g && y.lane == l).getD
        { team := k.index, group := g, lane := l, pc := th.pc, pos := {} }
      some { old with pc := th.pc, timer := th.timerDue, step := th.step, marks := th.marks, owed := th.loads }

/-! The save of a team. -/

/-- A stopped operation writes its progress into its block, descriptor or record (R214). -/
def State.writeProg (s : State) (c : Nat) (o : EngOp) : Option State :=
  if !o.begun then some s
  else
    match o.kind with
    | .accz | .accld | .accst => some s
    | .mqrun =>
      if !o.inBlock then some s
      else
        let put (ws : List Word) : List Word :=
          ws.set 9 ((ws.getD 9 0 &&& 0xffff) ||| (BitVec.ofNat 32 (o.prog % 2 ^ 16 * 2 ^ 16)))
        some (s.modQueue c o.team o.addr fun q => { q with words := put q.words })
    | .copy =>
      match dispWrite (s.team c o.team).part (Need.of .write) 2 (o.addr + 38) (leBytes 2 [o.prog]) s with
      | .ok _ s => some s
      | .blocked => none
      | .error _ s => some s
      | .fault _ _ _ s => some s
    | _ => some (s.scratchWrite c o.team (o.addr + 38) 2 (o.prog % 2 ^ 16))

/-- The exceptions that a wave has still to take are taken at the save, in the order of R118. -/
def State.restNotes (s : State) (w : Wave) : State := s.takeNotes w.notes

/-- A team comes to rest for good: its waves take their exceptions, lanes that performed their paths take their leaves, stopped operations write PROG, and
its waves and bins are gone (R120, R214, R336, R339); none while a line is not served. -/
def State.markSaved (s : State) (c t : Nat) : Option State :=
  let ws := (s.core c).waves.filter fun w => w.team == t
  let s := ws.foldl State.restNotes s
  let fin := ws.flatMap fun w => (w.at_ c).filter (s.performed w)
  let s := ws.foldl (fun s w => match w.ins with
    | some i => s.restUniform c w (bodyOf i (s.team c t).nG)
    | none => s) s
  let s' := ws.foldl (fun s w => s.restWave c w fin) s
  let k := s'.team c t
  if k.over then some s'
  else
    let kept := s.keepAll s' ws c t fin
    let ops := (s'.core c).teamOps t
    (ops.foldl (fun acc o => acc.bind fun s => s.writeProg c o) (some s')).bind fun s =>
    (s.releaseSys (coreDie c)).map fun s =>
      let now := s.clocks c t
      let bars := k.bars.map fun b => (k.index, b)
      let colls := k.groups.flatMap fun (n, q) => q.colls.map fun y => (k.index, n, y)
      let again (n : Nat) : Nat :=
        (ops.filter fun o => o.group == n && (o.kind == .mma || o.kind == .mmv || o.kind == .accz || o.kind == .accld || o.kind == .accst)).length
      let past := k.groups.flatMap fun (n, q) => q.past.map fun y => (k.index, n, { y with after := y.after.map (· - again n) })
      let futs := k.futWait.map fun y => (k.index, y)
      let places (f : EngOp → Bool) : List (Nat × Nat) := ops.zipIdx.filterMap fun (o, i) => if f o then some (k.index, i) else none
      let s := (s.modTeam c t fun k => { k with savedAt := some now, bars := [], futWait := [] }).modCore c
        fun q => (q.dropWaves t).refill
      s.modPart k.part fun p => p.modGrid k.grid fun g =>
        { g with kept := g.kept ++ kept, keptBars := g.keptBars ++ bars, keptColls := g.keptColls ++ colls,
                 keptOps := g.keptOps ++ places (·.done), keptHot := g.keptHot ++ places (·.hot), keptPast := g.keptPast ++ past,
                 keptFuts := g.keptFuts ++ futs }

/-! The save of a grid. -/

/-- Every team of a grid is saved, or ended before (R334). -/
def State.allSaved (s : State) (p gk : Nat) : Bool :=
  let ts := s.gridTeams p gk
  (ts.all fun (c, t) => (s.team c t).savedAt.isSome || (s.team c t).over) && ts.any fun (c, t) => (s.team c t).savedAt.isSome

/-- The team of an index, as the save sees it; one whose record is gone has ended. -/
def State.viewOf (s : State) (p gk : Nat) (g : Grid) (x : Spot) : TeamView :=
  match (s.gridTeams p gk).find? fun (c, t) => (s.team c t).index == x.index with
  | some (c, t) =>
    let core := s.core c
    { core := core, c := c, t := t, k := s.team c t, held := core.held.filter fun r => r.team == t,
      ports := core.ports.filter fun (_, q) => match q.bound with
        | some (u, _, _) => u == t
        | none => false }
  | none => { core := {}, c := x.c, t := 0, k := { Team.none with desc := g.desc, index := x.index }, held := [], ports := [] }

/-- The bytes of the save area of a grid (R340). -/
def State.imageOf (s : State) (p gk : Nat) (g : Grid) : List Byte :=
  let kept (n gr l : Nat) : Kept :=
    (g.kept.find? fun y => y.team == n && y.group == gr && y.lane == l).getD { team := n, group := gr, lane := l, pc := 0 }
  areaBytes g ((mapSpots g.map).map fun x =>
    let v := s.viewOf p gk g x
    v.bytes (s.clocks v.c v.t) (kept x.index))

/-- A saved team leaves its core: its banks, tiles, operations, latch, ports and records (R334, R347). -/
def Core.unload (k : Core) (m : Team) (t : Nat) : Core :=
  let k := (k.freeBanks (m.regBanks ++ m.scrBanks ++ m.fifoBanks)).clearPorts t 0 fun _ => true
  let k := (k.keepMatrix fun o => o.team != t).keepPour fun o => o.team != t
  { k with latch := match k.latch with
             | some l => if l.team == t then none else some l
             | none => none,
           recs := k.recs.filter fun r => r.teamSlot != t,
           overflow := k.overflow.filter fun r => r.teamSlot != t,
           held := k.held.filter fun r => r.team != t, teams := k.teams.del t }

/-- What the dispatcher keeps of a saved team: its records that are open or not written yet, its faults that wait, and its held
reductions (R326, R328, R337, R338). -/
def Grid.store (g : Grid) (k : Core) (index t : Nat) : Grid :=
  { g with savedRecs := g.savedRecs ++ (k.recs.filter fun r => r.teamSlot == t).map fun r => (index, r),
           savedFaults := g.savedFaults ++ (k.overflow.filter fun r => r.teamSlot == t).map fun r => (index, r),
           savedHeld := g.savedHeld ++ (k.held.filter fun r => r.team == t).map fun r => (index, r) }

/-- The operations of a team whose group, or whose team, has ended and that have their arrival still to make (R215). -/
def Core.endedOps (k : Core) (m : Team) (t : Nat) : List EngOp :=
  (k.teamOps t).filter fun o => o.kind != .copy && o.outlives && (m.over || (o.kind != .mqrun && (m.groups.find? o.group).isNone))
/-- Every team of a grid leaves its core. -/
def State.unloadGrid (s : State) (p gk : Nat) : State :=
  (s.gridTeams p gk).foldl (fun s (c, t) =>
    let m := s.team c t
    let core := s.core c
    let ends := (core.endedOps m t).map fun o => (m.index, o)
    let s := s.modPart p fun q => q.modGrid gk fun g => { g.store core m.index t with keptEnds := g.keptEnds ++ ends }
    ((s.modCore c fun k => k.unload m t).recoalesce c).modCore c (·.refill)) s

/-- The grid is saved: its area is written, its cores are free, and PRE_SAVED is sent (R334). -/
def State.saveGrid (s : State) (p gk : Nat) (g : Grid) : Option State :=
  (s.writeArea g.saveAddr (s.imageOf p gk g)).map fun s =>
    let s := s.unloadGrid p gk
    let done (g : Grid) : Grid := { g with saved := true, cuts := [], placed := false, preReq := false, forced := false }
    let nodes (q : Nat × Node) : Nat × Node :=
      if q.2.grid == gk then (q.1, { q.2 with inSave := q.2.launched && !q.2.finished }) else q
    (s.modPart p fun q => { q.modGrid gk done with preState := 3, nodes := q.nodes.map nodes }).event p (preEvent .preSaved g.launch)

/-- R336: a team at rest is saved; with the last of its grid saved, the save area is written. -/
def execTeamSave (c t : Nat) (s : State) : Result :=
  let k := s.team c t
  match (s.part k.part).grids.find? k.grid with
  | none => .refused .notEnabled
  | some g =>
    let next (r : Option State) : Result := match r with
      | some s => .next s
      | none => .refused .notEnabled
    if k.savedAt.isSome then (if s.allSaved k.part k.grid then next (s.saveGrid k.part k.grid g) else .refused .notEnabled)
    else if s.canSave c t then next (s.markSaved c t)
    else .refused .notEnabled

/-! The checks of a restore. -/

/-- The status codes of a restore (R345). -/
def statusImageBad : Nat := 8
def statusGridLive : Nat := 9

/-- The slot of code at an address of a partition, where it can be fetched. -/
def State.codeAt (s : State) (p pc : Nat) : Option Nat :=
  match s.walk p 32 pc (Need.of .fetch) with
  | .ok x s => some (s.mem.readN (x.pa pc) 8)
  | _ => none

/-- A thread record fails check 1 of R345. -/
def State.threadBad (s : State) (p v : Nat) : Bool :=
  let pc := field v 63 0
  let code := if pc < 2 ^ 48 then s.codeAt p pc else none
  let rep := field v 176 171
  v / 2 ^ 320 != 0 || field v 255 230 != 0 || field v 191 187 != 0 || field v 162 160 > 4 || pc ≥ 2 ^ 48
    || (v.testBit 164 && match code with
      | some w => !(w.testBit 63 && field v 167 165 < (parseHeader (BitVec.ofNat 64 w)).ns.toNat)
      | none => true)
    || (rep != 0 && match code with
      | some w => !(w / 2 ^ 61 == 1 && rep ≤ (parseRep (BitVec.ofNat 64 w)).cnt.toNat)
      | none => true)

/-- A group record, with its thread records, fails check 1 of R345. -/
def State.groupBad (s : State) (p : Nat) (d : Desc) (bs : List Byte) (og ot g : Nat) : Bool :=
  let r := (bs.drop (og + 1024 * g)).take 1024
  let flags := numAt r 428 4
  let chan (n : Nat) : Bool :=
    let v := numAt r (128 + 8 * n) 8
    field v 63 48 != 0 || field v 7 3 != 0
  let fmt (n : Nat) : Bool := !fmtLegal (BitVec.ofNat 32 (numAt r (384 + 4 * n) 4))
  let extent (n : Nat) : Bool := field (numAt r (456 + 16 * n) 16) 13 0 != 0
  (r.drop 584).any (· != 0) || flags / 8 != 0 || (flags.testBit 0 && (List.range 8).any fmt) || field (numAt r 440 8) 61 48 != 0 || (List.range 32).any chan
    || field (numAt r 416 8) 63 40 != 0 || field (numAt r 424 4) 31 6 != 0 || (List.range 8).any extent
    || ((List.range 32).any fun l => s.threadBad p (numAt bs (ot + d.recBytes * (32 * g + l)) 64))

/-- Where the sections of a team area stand (R342). -/
def offsetAt (bs : List Byte) (i : Nat) : Nat := numAt bs (64 + 8 * i) 8

/-- A team area fails check 1 of R345. -/
def State.teamBad (s : State) (p : Nat) (d : Desc) (bs : List Byte) : Bool :=
  let h := numAt bs 0 512
  let neng := field h 479 472
  let port (i : Nat) : Bool :=
    let v := numAt bs (offsetAt bs 6 + 1088 * i) 64
    v / 2 ^ 16 != 0 || field v 7 6 != 0
  ((List.range (field h 1031 1024)).any port) ||
  field h 4095 1032 != 0 || field h 1023 960 != 0 || field h 471 466 != 0 || h.testBit 464 || field h 451 448 != 0
    || field h 319 0 != 0 || ((List.range neng).any fun i => numAt bs (512 + 32 * i) 32 / 2 ^ 238 != 0)
    || (List.range d.team).any fun g => s.groupBad p d bs (field h 575 512) (field h 639 576) g

/-- The team areas of a save area by its directory, with whether a line of them is poisoned. -/
def State.readTeams (s : State) (a nclu : Nat) (n : Nat) : Option (List (List Byte) × Bool × State) :=
  (s.readArea (a + dirAt nclu) (16 * n)).bind fun (dir, bad, s) =>
    (List.range n).foldl (fun acc i => acc.bind fun (teams, bad, s) =>
      (s.readArea (a + numAt dir (16 * i) 8) (numAt dir (16 * i + 8) 8)).map fun (bs, b, s) =>
        (teams ++ [bs], bad || b, s)) (some ([], bad, s))

/-- What the checks of a restore end in: a line that a handler holds makes them wait (R375). -/
inductive RestoreCheck where
  | ok (r : Restore) (s : State)
  | bad (status : Nat) (s : State)
  | blocked

/-- Goes on with an area read, where it can be. -/
def checkArea (r : Option (List Byte × Bool × State)) (k : List Byte → Bool → State → RestoreCheck) : RestoreCheck :=
  match r with
  | none => .blocked
  | some (bs, bad, s) => k bs bad s

/-- The maps differ in the shape of an entry (R345, check 3). -/
def shapesDiffer (a b : List MapEntry) : Bool := (a.zip b).any fun (x, y) => x.w != y.w || x.h != y.h

/-- The packet of an area has a reserved bit set (R302, R345). -/
def packetReserved (b : Nat) : Bool := b / 2 ^ 384 != 0 || field b 255 248 != 0 || field b 247 241 != 0
/-- An entry of the saved map has a reserved bit set (R303, R345). -/
def mapReserved (bs : List Byte) (n : Nat) : Bool :=
  (List.range n).any fun i => let v := numAt bs (8 * i) 8; v / 2 ^ 19 != 0 || v.testBit 11

/-- The descriptor that the areas of a save area follow: that of its grid, or of its packet where the partition has no such
grid. -/
def State.areaDesc (s : State) (p : Nat) (g : Option Grid) (packet : Nat) : Option Desc :=
  match g with
  | some g => some g.desc
  | none => match s.dispBytes p (field packet 63 0) 64 with
    | .ok bs _ => parseDesc (BitVec.ofNat 512 (leNum bs))
    | _ => none

/-- The checks of a restore, in their order (R345). -/
def State.checkRestore (s : State) (p a : Nat) : RestoreCheck :=
  checkArea (s.readArea a 128) fun hd bad s =>
  let h := numAt hd 0 64
  let n := field h 127 96
  let nteams := field h 95 64
  let packet := numAt hd 64 64
  if bad || field h 31 0 != 1 || h / 2 ^ 161 != 0 || packetReserved packet then .bad statusImageBad s
  else
    let live := List.find? (fun g : Nat × Grid => g.2.saved && g.2.launch.toNat == field h 63 32) (s.part p).grids
    checkArea (s.readArea (a + 128) (8 * n)) fun old bad s =>
    match s.readTeams a n nteams with
    | none => .blocked
    | some (teams, bad', s) =>
      let wrong := match s.areaDesc p (live.map (·.2)) packet with
        | some d => teams.any (s.teamBad p d)
        | none => false
      if bad || bad' || mapReserved old n || wrong then .bad statusImageBad s
      else
        match live with
        | none => .bad statusGridLive s
        | some (gk, g) =>
          if nteams != (mapSpots g.map).length then .bad statusImageBad s
          else if n != g.map.length then .bad statusMapBad s
          else
            let pmap := 8 * (s.part p).rsPmap.toNat
            checkArea (if pmap == 0 then some (old, false, s) else s.readArea pmap (8 * n)) fun new bad s =>
            match parseMap n old, parseMap n new with
            | some o, some m =>
              if bad || shapesDiffer o m then .bad statusMapBad s
              else if m.any fun e => !s.ownsFlask p e.flask then .bad statusNotPart s
              else .ok { grid := gk, area := a, map := m } s
            | _, _ => .bad statusMapBad s

/-- A restore is asked for: the dispatcher is busy with it. -/
def State.askRestore (s : State) (p a : Nat) : State :=
  let grid : Word := BitVec.ofNat 32 (s.mem.readN (a + 4) 4)
  s.modPart p fun q => { q with preState := 4, preGrid := grid, rsCheck := true, rsSave := BitVec.ofNat 42 (a / 64) }
/-- A grid whose restore failed does not go on by itself. -/
def Part.giveUp (q : Part) (launch : Word) : Part :=
  { q with grids := q.grids.map fun (k, g) => (k, if g.launch == launch then { g with resumes := false } else g) }

/-- The checks of a restore that was asked for; a failure is reported and places nothing (R345). None while a line of the
area is not served. -/
def State.checkNow (s : State) (p : Nat) : Option State :=
  let a := 64 * (s.part p).rsSave.toNat
  match s.checkRestore p a with
  | .blocked => none
  | .ok r s => some (s.modPart p fun q => { q with restore := some r, rsCheck := false })
  | .bad st s =>
    (s.writeAt (a + 16) 4 st 3).map fun s =>
      let grid := (s.part p).preGrid
      (s.modPart p fun q => { q.giveUp grid with preState := 6, rsCheck := false }).event p
        { preEvent .restoreBad grid with detail := BitVec.ofNat 32 st }

/-- The same, or later where a line is not served yet. -/
def State.startRestore (s : State) (p a : Nat) : State :=
  let s := s.askRestore p a
  (s.checkNow p).getD s

/-- R345: the host starts a restore; a busy dispatcher ignores the write (R333). -/
def execRsSaveWrite (p : Nat) (v : DWord) (s : State) : Result :=
  if (s.part p).preBusy then .next s else .next (s.startRestore p (64 * (v.extractLsb' 6 42).toNat))

/-- A saved grid that goes on by itself after a failure or a reset (R403). -/
def Part.toResume (q : Part) : Option Grid := if q.preBusy then none else (q.next.filter fun g => g.2.saved).map (·.2)

/-! The restore of a team. -/

/-- The reply ports in a team area: number and entries (R341). -/
def portsOf (bs : List Byte) : List (Nat × List Word) :=
  (List.range (numAt bs 128 1)).map fun i =>
    let o := offsetAt bs 6 + 1088 * i
    (numAt bs o 1 % 64, (List.range (numAt bs (o + 1) 1)).map fun j => BitVec.ofNat 32 (numAt bs (o + 64 + 4 * j) 4))
/-- The engine list of a team area. -/
def engList (bs : List Byte) : List Nat := (List.range (field (numAt bs 0 512) 479 472)).map fun i => numAt bs (512 + 32 * i) 32
/-- Entries of the engine list for the matrix queue. -/
def matrixEntry (v : Nat) : Bool := field v 31 0 < 0xb6

/-- Step 1 of R347: banks, tiles, queues, latch, reply ports and held reductions. -/
def Core.loadBanks (k : Core) (m : Team) (t : Nat) (bs : List Byte) (held : List HeldRed) : Core :=
  let h := numAt bs 0 512
  let bank (i n : Nat) : List Byte := (bs.drop (offsetAt bs i + 65536 * n)).take 65536
  let store := m.scrBanks.zipIdx.foldl (fun st (b, n) => st.replace (65536 * b) (fit 65536 (bank 4 n))) k.store
  let acc := m.desc.tileList.zipIdx.foldl (fun st (b, n) => st.replace (65536 * b) (fit 65536 (bank 3 n))) k.acc
  let ports := (portsOf bs).foldl (fun tb (n, ws) => tb.set n { tb.get n {} with words := ws }) k.ports
  let group := field h 463 459
  let reds := held.zipIdx.map fun (r, i) => { r.read (numAt bs (offsetAt bs 2 + 32 * i) 32) with team := t }
  { k with store := store, acc := acc, ports := ports, held := k.held ++ reds,
           latch := if h.testBit 465 then some (readLatch t group (field h 458 456) ((bs.drop 3328).take 8192)) else k.latch }

/-- The queues of a team from its FIFO banks and pointers. -/
def Team.loadQueues (m : Team) (bs : List Byte) : Table Queue :=
  m.fifoBanks.zipIdx.foldl (fun tb (b, i) =>
    let bank := (bs.drop (offsetAt bs 5 + 65536 * i)).take 65536
    (List.range 64).foldl (fun tb n =>
      let ptr := numAt bs (1280 + 256 * i + 4 * n) 2
      if ptr == 0 then tb else tb.set (64 * b + n) (readQueue bank n ptr)) tb) []

/-- The groups of a team with their threads (R347, step 2). -/
def Team.loadGroups (m : Team) (q : Part) (gk : Nat) (g : Grid) (c : Nat) (bs : List Byte) : Table Group :=
  (List.range m.desc.team).filterMap fun n =>
    let r := (bs.drop (offsetAt bs 0 + 1024 * n)).take 1024
    if !q.groupOn gk r then Option.none
    else
      let kept (l : Nat) : Kept :=
        (g.kept.find? fun y => y.team == m.index && y.group == n && y.lane == l).getD { team := m.index, group := n, lane := l, pc := 0 }
      let thread (l : Nat) : Thread :=
        readThread m.desc (m.regAt (n * m.desc.width + l)) (kept l)
          ((bs.drop (offsetAt bs 1 + m.desc.recBytes * (32 * n + l))).take m.desc.recBytes)
      let threads : Table Thread := (List.range m.desc.width).map fun l => (l, thread l)
      let waits (l : Nat) : Bool := (threads.get l {}).pos.arrived
      let colls := (g.keptColls.filter fun y => y.1 == m.index && y.2.1 == n).map fun y =>
        { y.2.2 with arrived := y.2.2.arrived.filter fun a => waits a.1 }
      let past := (g.keptPast.filter fun y => y.1 == m.index && y.2.1 == n).map (·.2.2)
      some (n, { readGroup q gk g m c r with colls := colls, past := past, threads := threads })

/-- The ports that the channels of a group are bound to (R201). -/
def Core.bindPorts (k : Core) (t g : Nat) (chans : Table Chan) : Core :=
  chans.foldl (fun k (n, b) =>
    if b.kind == 3 then { k with ports := k.ports.set b.tgt.toNat { k.ports.get b.tgt.toNat {} with bound := some (t, g, n), owner := some (t, g) } }
    else k) k

/-- A team whose area has been placed. -/
structure Placed where
  c : Nat
  t : Nat
  index : Nat
  bytes : List Byte

/-- Steps 1 and 2 of R347 for a team made on its core, with its open records (R338). -/
def State.loadTeam (s : State) (p gk : Nat) (g : Grid) (x : Placed) : State :=
  let m := s.team x.c x.t
  let mine := (g.savedHeld.filter fun r => r.1 == x.index).map (·.2)
  let recs := (g.savedRecs.filter fun r => r.1 == x.index).map fun r => { r.2 with core := x.c, teamSlot := x.t }
  let groups := m.loadGroups (s.part p) gk g x.c x.bytes
  let faults := (g.savedFaults.filter fun r => r.1 == x.index).map fun r => { r.2 with core := x.c, teamSlot := x.t }
  let bars := (g.keptBars.filter fun b => b.1 == x.index).map (·.2)
  let futs := (g.keptFuts.filter fun b => b.1 == x.index).map (·.2)
  let s := s.modCore x.c fun k =>
    { k.loadBanks m x.t x.bytes mine with recs := k.recs ++ recs, overflow := k.overflow ++ faults }
  let s := s.modTeam x.c x.t fun m => { m with queues := m.loadQueues x.bytes, groups := groups, bars := bars, futWait := futs, clkBase := numAt x.bytes 48 8,
                                               placedAt := s.now }
  groups.foldl (fun s (n, q) => s.modCore x.c fun k => k.bindPorts x.t n q.chans) s

/-- PROG of a copy node in memory, where it can be read. -/
def State.copyProg (s : State) (p : Nat) (nd : Node) : Nat :=
  match s.dispBytes p (nd.addr + 38) 2 with
  | .ok bs _ => leNum bs
  | _ => blkBits nd.record 319 304

/-- Step 3 of R347: an operation issued again for its recorded group (R214); `written` says that all its writes were performed
before the save (R212, R231), hot that its tile was in use when it was issued (R27). That of a group which has ended
is issued apart (R215). -/
def State.reissue (s : State) (p gk c t v : Nat) (written hot : Bool) : State :=
  let k := s.team c t
  let g := field v 228 224
  let x : Lane := { c := c, t := t, g := g, l := 0 }
  let a := field v 63 32
  let tag : Word := BitVec.ofNat 32 (field v 127 96)
  let b : BitVec 512 := BitVec.ofNat 512 (s.scratchRead c t a 64)
  let nfin := field v 223 192
  let mat (kind : EngKind) : EngOp :=
    { kind := kind, team := t, group := g, addr := a, block := b, tag := tag, tile := blkBits b 261 260,
      areg := if kind == .mma then field v 236 229 else 0, reuse := kind == .mma && v.testBit 237,
      prog := blkBits b 319 304, begun := blkBits b 319 304 != 0, nfin := nfin,
      done := blkBits b 319 304 != 0 && blkBits b 303 288 ≤ blkBits b 319 304 }
  let tile (kind : EngKind) : EngOp :=
    { kind := kind, team := t, group := g, addr := if kind == .accz then 0 else a, tile := field v 97 96,
      rows := if kind == .accz then 0 else field v 95 64, hot := kind != .accz && hot }
  let pour (kind : EngKind) : EngOp :=
    { kind := kind, team := t, group := g, addr := a, block := b, fm := (s.group c t g).fm (blkBits b 354 352), tag := tag,
      tile := blkBits b 365 364, prog := blkBits b 319 304, begun := blkBits b 319 304 != 0,
      done := if kind == .pourOut then written else blkBits b 319 304 != 0 && blkBits b 303 288 ≤ blkBits b 319 304,
      nfin := nfin, ovf := field v 191 160 }
  let put (e : Engine) (o : EngOp) : State :=
    if (k.groups.find? g).isSome then s.enqueue x e o else s
  match field v 31 0 with
  | 0x100 =>
    match (s.part p).nodes.find? fun n => n.2.grid == gk && n.2.addr == field v 95 32 && n.2.inSave with
    | none => s
    | some (n, nd) =>
      let o : EngOp := { kind := .copy, team := t, group := 0, addr := nd.addr, block := nd.record, fm := nd.record.extractLsb' 448 32,
                         tag := tag, prog := s.copyProg p nd, node := n, nfin := nfin, ovf := field v 191 160,
                         begun := s.copyProg p nd != 0,
                         done := s.copyProg p nd != 0 && blkBits nd.record 303 288 ≤ s.copyProg p nd }
      s.modCore c fun k => { k with pq := k.pq ++ [o] }
  | 0xb0 => put .matrix (s.withA c (mat .mma))
  | 0xb1 => put .matrix (mat .mmv)
  | 0xb2 =>
    let key := 64 * k.fifoBanks.getD (a / 64) 0 + a % 64
    let ws := (k.queue key).words.take 16
    let h : BitVec 512 := ws.foldr (fun w acc => acc <<< 32 ||| w.setWidth 512) 0
    let held := ws.length == 16 && blkBits h 319 304 != 0
    let o : EngOp := { kind := .mqrun, team := t, group := g, addr := key, rows := field v 95 64, count := field v 159 128, nfin := nfin }
    let at_ : EngOp := { o with block := h, tile := blkBits h 261 260, tag := tag, prog := blkBits h 319 304 }
    let o := if held then { at_ with inBlock := true, begun := true, done := blkBits h 303 288 ≤ blkBits h 319 304 } else o
    s.enqueue x .matrix o
  | 0xb3 => put .matrix (tile .accz)
  | 0xb4 => put .matrix (tile .accld)
  | 0xb5 => put .matrix (tile .accst)
  | 0xb6 => put .pour (pour .pour)
  | 0xb7 => put .pour (pour .pourOut)
  | _ => s

/-- An operation with an open record of kind X stays stopped until the record is serviced (R215, R338). -/
def Core.holdStopped (k : Core) (t : Nat) : Core :=
  let stop : List EngOp → List EngOp
    | [] => []
    | o :: os => { o with stopped := true } :: os
  let f (os : List EngOp) : List EngOp := os.takeWhile (fun o => o.team != t) ++ stop (os.dropWhile fun o => o.team != t)
  let open_ (n : Nat) : Bool := k.recs.any fun r => r.isOpen && r.event && r.teamSlot == t && r.key == n
  { k with mq := if open_ 0 then f k.mq else k.mq, pq := if open_ 1 then f k.pq else k.pq }

/-- How a restored thread goes on: in a wave at a slot, or filed at a tree boundary (R347, step 4). -/
structure Start where
  g : Nat
  l : Nat
  /-- Its legacy pair, or legacy group (R397). -/
  pair : Nat
  wave : Bool
  pc : Addr
  slot : Nat
  /-- It stands at its region entry (R392). -/
  safe : Bool
  deriving DecidableEq, Repr

/-- The threads of a team that go on. -/
def State.starts (s : State) (x : Placed) : List Start :=
  let m := s.team x.c x.t
  m.groups.flatMap fun (g, q) => q.threads.filterMap fun (l, th) =>
    let inTree := (numAt x.bytes (offsetAt x.bytes 1 + m.desc.recBytes * (32 * g + l)) 64).testBit 164
    if !(th.run == .ready || th.run == .waiting) then none
    else some { g := g, l := l, pair := m.pair g, wave := inTree || th.run == .waiting || th.pos.slot != 0, pc := th.pc,
                slot := th.pos.slot, safe := th.pc == th.rentry }

/-- Starts by (PC, slot), those of each legacy pair apart (R347, step 4; R397). -/
def startWaves : List Start → List (List Start)
  | [] => []
  | x :: xs =>
    let rest := startWaves xs
    let same (y : Start) : Bool := y.pc == x.pc && y.slot == x.slot && y.pair == x.pair
    match rest.find? fun g => g.any same with
    | none => [x] :: rest
    | some _ => (rest.filter fun g => g.any same).map (x :: ·) ++ rest.filter fun g => g.all fun y => !same y

/-- Waves of at most 32 threads out of a list, in ascending (group, lane) (R5). -/
def cutWaves : Nat → List (Nat × Nat) → List (List (Nat × Nat))
  | 0, _ => []
  | n + 1, ls => if ls.isEmpty then [] else ls.take 32 :: cutWaves n (ls.drop 32)

/-- Ready threads at a tree boundary filed, each at a safe point or not (R347, R392). -/
def State.fileStarts (s : State) (x : Placed) (ys : List Start) : State :=
  let key (y : Start) : Nat := 64 * y.g + y.l
  (ys.foldl (fun acc a => acc.takeWhile (fun b => key b < key a) ++ a :: acc.dropWhile fun b => key b < key a) []).foldl (fun s y =>
    (s.fileOne x.c x.t y.pc (y.g, y.l) y.safe).count x.c 0x06 x.t 1) s

/-- Operations of ended groups and teams that have their arrival still to make stand in their queues again (R215). -/
def Core.loadEnds (k : Core) (t : Nat) (ops : List EngOp) : Core :=
  ops.foldl (fun k o =>
    let e : Engine := if o.kind == .pour || o.kind == .pourOut then .pour else .matrix
    k.setQueue e (k.queue e ++ [{ o with team := t, behind := (k.other e).length }])) k
/-- The copy nodes of a list of operations are discarded (R331, R338). -/
def State.dropNodes (s : State) (p gk : Nat) (ops : List (Nat × Nat)) : State :=
  let gone (n : Node) : Bool := n.grid == gk && n.inSave && ops.any fun (v, _) => field v 31 0 == 0x100 && field v 95 32 == n.addr
  s.modPart p fun q => { q with nodes := q.nodes.filter fun n => !gone n.2 }

/-- Steps 3 and 4 of R347 for a team; of one that has ended only its copy nodes and its arrivals go on, and nothing of one that a
held service ended. done are the threads that a held service released. -/
def State.startTeam (s : State) (p gk : Nat) (x : Placed) (done : List (Nat × Nat)) : State :=
  let gone := (s.team x.c x.t).over
  let ended := (s.team x.c x.t).ended
  let all := (engList x.bytes).zipIdx
  let ops := if ended then [] else all.filter fun (v, _) => !gone || field v 31 0 == 0x100
  let s := if ended then s.dropNodes p gk all else s
  let last := (((s.part p).grids.get gk { launch := 0, packet := 0 }).last).getD {}
  let s := if ended then s
    else s.modCore x.c fun k => k.loadEnds x.t ((last.ends.filter fun o => o.1 == x.index).map (·.2))
  let s := (ops.foldl (fun s (v, i) =>
    s.reissue p gk x.c x.t v (last.ops.contains (x.index, i)) (last.hot.contains (x.index, i))) s).modCore x.c fun k => k.holdStopped x.t
  let all := if gone then [] else (s.starts x).filter fun y => !done.contains (y.g, y.l)
  let s := (startWaves (all.filter (·.wave))).foldl (fun s w =>
    let ls := sortThreads (w.map fun y => (y.g, y.l))
    (cutWaves (ls.length + 1) ls).foldl (fun s ls => s.addWave x.c x.t ls) s) s
  ((s.fileStarts x (all.filter fun y => !y.wave)).recoalesce x.c).modCore x.c (·.refill)

/-- The teams of a restore made on their cores, with the bytes of their areas; a core that receives one loses its
instruction cache (R395). None while a line is not served. -/
def State.makeTeams (s : State) (p gk : Nat) (g : Grid) : List (Spot × List Byte) → List Placed → Option (List Placed × State)
  | [], acc => some (acc, s)
  | (x, bs) :: rest, acc =>
    match s.makeTeam p gk g x with
    | none => none
    | some (t, s) =>
      (s.modCore x.c fun k => { k with code := [] }).makeTeams p gk g rest (acc ++ [{ c := x.c, t := t, index := x.index, bytes := bs }])

/-- The reply ports, the engine queues and the coalescers of the new cores have room for the saved teams (R326, R345, log 41). -/
def State.restoreRoom (s : State) (g : Grid) (xs : List (Spot × List Byte)) : Bool :=
  xs.all fun (x, bs) =>
    let k := s.core x.c
    let recs := (xs.filter fun y => y.1.c == x.c).flatMap fun y =>
      g.savedRecs.filter fun r => r.1 == y.1.index && r.2.isOpen && g.services.all fun v => v.1 != r.2.id
    let here := (xs.filter fun y => y.1.c == x.c).flatMap fun y => engList y.2
    k.openCount + recs.length ≤ 16 && (portsOf bs).all (fun (n, _) => (k.ports.get n {}).bound.isNone) && k.mq.length + (here.filter matrixEntry).length ≤ 8
      && k.pq.length + (here.filter fun v => !matrixEntry v).length ≤ 8

/-- An ended team of a restored grid releases its grants again (R12, R173); one whose last groups were tasks that are retired
ends (R403). -/
def State.freeEnded (s : State) (x : Placed) : State :=
  let k := s.team x.c x.t
  if !k.over then s
  else if numAt x.bytes 40 4 != 0 && !k.ended then s.endTeam x.c x.t
  else
    let s := s.modCore x.c fun q => q.freeBanks (k.regBanks ++ k.fifoBanks)
    (s.modTeam x.c x.t fun k => { k with regBanks := [], fifoBanks := [], tiles := 0, queues := [] }).freeCluster x.c x.t

/-- Parked lanes of a team as a table of (group, lane). -/
def State.parkedLanes (s : State) (x : Placed) : List (Nat × Nat) :=
  (s.team x.c x.t).groups.flatMap fun (g, q) => q.threads.filterMap fun (l, th) => if th.run == .parked then some (g, l) else none

/-- What is kept of a saved grid, for a failure after its restore (R403). -/
def Grid.saveState (g : Grid) : SaveState :=
  { recs := g.savedRecs, faults := g.savedFaults, bars := g.keptBars, colls := g.keptColls, ops := g.keptOps,
    hot := g.keptHot, past := g.keptPast, futs := g.keptFuts, ends := g.keptEnds, addr := g.saveAddr, cuts := g.cuts, kept := g.kept,
    held := g.savedHeld, teamsLeft := g.teamsLeft, clocks := g.clocks }
/-- A grid stands on its new cores (R347). -/
def Grid.replaced (g : Grid) (m : List MapEntry) : Grid :=
  { g with map := m, placed := true, saved := false, resumes := false, last := some g.saveState, cuts := [], savedRecs := [],
           savedFaults := [], services := [], kept := [], keptBars := [], keptColls := [], keptOps := [], keptHot := [],
           keptPast := [], keptFuts := [], keptEnds := [], savedHeld := [] }

/-- A checked restore placed on its cores (R347); none while a line is not served or a resource is not free (R345). -/
def State.placeRestore (s : State) (p : Nat) (r : Restore) (g : Grid) : Option State :=
  let spots := mapSpots r.map
  (s.readTeams r.area r.map.length spots.length).bind fun (areas, _, s) =>
    let xs := spots.zip areas
    if !s.mayPlace p r.map || ((mapCounts r.map).any fun (c, n) => !s.fits c g.desc g.det n) || !s.restoreRoom g xs then none
    else
      (s.makeTeams p r.grid g xs []).bind fun (ts, s) =>
        let s := ts.foldl (fun s x => s.loadTeam p r.grid g x) s
        let s := s.modPart p fun q => { q with restore := none, preState := 5, grids := q.grids.set r.grid (g.replaced r.map) }
        let parked := ts.map fun x => s.parkedLanes x
        let s := g.services.foldl (fun s (id, act) => s.serve p id act) s
        let s := ts.foldl (fun s x => s.freeEnded x) s
        let s := (ts.zip parked).foldl (fun s (x, ls) => s.startTeam p r.grid x ls) s
        s.writeAt (r.area + 16) 4 0 3

/-- R347: a checked restore is placed once its resources are free (R345); a restore whose area could not be read is checked
first, and so is a grid that resumes by itself. -/
def execRestorePlace (p : Nat) (s : State) : Result :=
  let answer (r : Option State) : Result := match r with
    | some s => .next s
    | none => .refused .notEnabled
  let q := s.part p
  if s.dispOff then answer none
  else if q.rsCheck then answer (s.checkNow p)
  else
    match q.restore with
    | none =>
      match q.toResume with
      | some g => .next (s.startRestore p g.saveAddr)
      | none => .refused .notEnabled
    | some r =>
      match q.grids.find? r.grid with
      | none => .refused .notEnabled
      | some g => answer (s.placeRestore p r g)

end Sys2Proof.Machine
end

