-- ==== Sys2Proof/Machine/Device.lean ====
section
/-!
DEFINITION. What the package does by itself beside running code: TLB invalidation (R293), bank roles and soft errors (R277,
R281, R282), leases and ages of lines (R268, R274), partitions and the journal (R401 to R403), the translator (R392,
R393), power and heat (R405 to R407), engine status (R357, R358), firmware and trust (R383, R409, R410), and Sprue links
(R404).
-/
namespace Sys2Proof.Machine

/-! Translation. -/

/-- R293: the host starts an invalidation; a write while one runs, or of a reserved scope, is ignored. -/
def execTlbInvWrite (p : Nat) (v : DWord) (s : State) : Result :=
  if (s.part p).tlbInvGo || v.extractLsb' 61 2 == 3 then .next s
  else .next (s.modPart p fun q =>
    { q with tlbInvGo := v.getLsbD 63, tlbInvScope := v.extractLsb' 61 2, tlbInvPage := v.extractLsb' 16 32 })

/-- The teams of a partition lose the pages of a range from their extents (R293). -/
def Core.cutExtents (k : Core) (p lo hi : Nat) : Core :=
  let cut (g : Nat × Group) : Nat × Group := (g.1, { g.2 with extents := g.2.extents.filterMap fun e => e.without lo hi })
  let team (t : Nat × Team) : Nat × Team := if t.2.part == p then (t.1, { t.2 with groups := t.2.groups.map cut }) else t
  { k with teams := k.teams.map team }

/-- A core loses the translations of a range (R293). -/
def Core.dropXlat (k : Core) (p lo hi : Nat) : Core :=
  { (k.cutExtents p lo hi).dropLines p (65536 * lo) (65536 * hi) with
    tlb := k.tlb.filter fun x => !(x.part == p && x.vpage < hi && lo < x.vpage + x.size) }
/-- A die loses them too, with the directory entries on their paths (R293). -/
def Die.dropXlat (k : Die) (p lo hi : Nat) : Die :=
  let pages (x : DirEntry) : Nat := if x.mid then 2 ^ 7 else 2 ^ 19
  { k with tlb := k.tlb.filter fun x => !(x.part == p && x.vpage < hi && lo < x.vpage + x.size),
           dirs := k.dirs.filter fun x => !(x.part == p && pages x * x.at_ < hi && lo < pages x * x.at_ + pages x) }

/-- An access of a partition that was translated is still to be performed: a store, a held reduction, or a message (R293). -/
def State.storesOut (s : State) (p : Nat) : Bool :=
  let sent (i : Inv) : Bool := i.kind == .message && i.part == p
  (s.cores.any fun (_, k) => (k.writes.any fun w => w.part == p)
      || k.held.any fun r => !r.scratch && (k.teams.get r.team Team.none).part == p)
    || ((s.part p).grids.any fun (_, g) => g.savedHeld.any fun r => !r.2.scratch)
    || s.slices.any fun (_, k) => k.queue.any sent || k.inv.any sent

/-- The lines of a slice that an invalidation under way covers leave it; none while the eviction of one is registered and still
to be raised (R370). -/
def State.leaveSlices (s : State) : Option State :=
  let gone (n line : Nat) : Bool := s.invalidating line && !(s.slice n).holds line
  let owed (n line : Nat) : Bool := gone n line && ((s.slice n).liveTrigger line).any fun t => t.getLsbD 84
  if s.slices.any fun (n, k) => k.lines.any fun (l, _) => owed n l then none
  else some { s with slices := s.slices.map fun (n, k) => (n, { k with lines := k.lines.filter fun (l, _) => !gone n l }) }

/-- The save areas of a grid hold extents of a range that has been invalidated since (R293). -/
def Grid.cut (g : Grid) (lo hi : Nat) : Grid :=
  { g with cuts := if g.saved then g.cuts ++ [(lo, hi)] else g.cuts,
           last := g.last.map fun y => { y with cuts := y.cuts ++ [(lo, hi)] } }

/-- R293: the invalidation is complete: no old entry is in use, every access that used one is performed at its home, and what
follows reads the page as its home holds it (R395). -/
def execTlbInvComplete (p : Nat) (s : State) : Result :=
  let q := s.part p
  let (lo, hi) := q.invRange
  if !q.tlbInvGo || s.storesOut p then .refused .notEnabled
  else
    match s.homeAll.bind (·.leaveSlices) with
    | none => .refused .notEnabled
    | some s =>
      let cores := s.cores.map fun (c, k) => (c, k.dropXlat p lo hi)
      let drop (q : Part) : Part :=
        { q.dropCode (lo * 65536) (hi * 65536) with tlbInvGo := false, grids := q.grids.map fun (n, g) => (n, g.cut lo hi) }
      let dies := s.dies.map fun (d, k) => (d, { k.dropXlat p lo hi with lines := [] })
      .next (({ s with cores := cores, dies := dies } : State).modPart p drop)

/-! The banked store. -/

/-- R277: a host write to a role register; a role changes only between L1 ways and retired. A bank that leaves the L1 drains
first. -/
def execBankRoleWrite (c b : Nat) (v : Word) (s : State) : Result :=
  let r := (s.core c).banks.get b {}
  let new := v.extractLsb' 0 3
  let leaves := !r.boot && r.role == 2 && new == 0
  let joins := !r.boot && r.role == 0 && new == 2
  if b ≥ 32 then .next s
  else .next ((if leaves then s.leaveL1 c [b] else s).modCore c fun k =>
    { k with banks := k.banks.set b { r with cec := v.extractLsb' 16 16, drain := r.drain || leaves, role := if joins then 2 else r.role } })

/-- A bank that has drained is retired (R277). -/
def Core.endDrain (k : Core) : Core :=
  { k with banks := k.banks.map fun (b, r) => (b, if r.drain then { r with drain := false, role := 0 } else r) }

/-- A role register after a corrected error (R281). -/
def BankRole.corrected (r : BankRole) (limit : BitVec 16) : BankRole :=
  let r := { r with cec := if r.cec == 0xffff then r.cec else r.cec + 1 }
  if limit == 0 || r.cec < limit || r.role == 0 then r
  else if r.role == 2 then { r with role := 0, drain := false }
  else { r with retp := true }
/-- R281: a corrected error of the banked store. -/
def execStoreEccCorrected (c b : Nat) (s : State) : Result :=
  if b ≥ 32 then .refused .notEnabled
  else
    let k := s.core c
    let r := (k.banks.get b {}).corrected k.retireTh
    .next ((if r.role == 0 then s.leaveL1 c [b] else s).modCore c fun k => { k with banks := k.banks.set b r })

/-- The copy that stands at an offset of the banked store leaves the L1 with its lease: way 4b + j of set n is at 16,384 j + 128 n of
bank b (R281, R283, log 34). -/
def State.dropL1At (s : State) (c off : Nat) : State :=
  let hit (q : Nat × L1Line) : Bool := q.2.way == off / 16384 && q.1 % 128 == off % 16384 / 128
  match List.find? hit (s.core c).l1 with
  | none => s
  | some (line, _) => (s.modDie (coreDie c) fun d => { d with leases := d.leases.filter fun x => !(x.core == c && x.line == line) }).modCore c
      (·.dropCopy line)

/-- R281: an uncorrectable error of a word of the banked store; a line of an L1 bank is invalidated and fetched again. -/
def execStoreUe (c off : Nat) (s : State) : Result :=
  let w := off / 4
  let role := ((s.core c).banks.get (off / 65536) {}).role
  if off ≥ 32 * 65536 then .refused .notEnabled
  else if role == 2 then .next (s.dropL1At c off)
  else if role == 0 || (s.core c).badWords.contains w then .next s
  else .next (s.modCore c fun k => { k with badWords := w :: k.badWords })

/-! Caches. -/

/-- A line poisoned at its home (R282). -/
def State.poisonLine (s : State) (line : Nat) : State :=
  if s.poison.contains line then s else { s with poison := line :: s.poison }
/-- R282: an uncorrectable error of a line in a die cache, a slice or HBM; or a corrected one of a die cache, which is counted
(R298). -/
def execCacheUe (w : CacheSite) (line : Nat) (s : State) : Result :=
  let up (u : Word) : Word := if u == 0xffffffff then u else u + 1
  match w with
  | .dieCacheBit d =>
    if d ≥ 24 || ((s.die d).lines.find? line).isNone then .refused .notEnabled
    else .next (s.modDie d fun k => { k with cec := up k.cec })
  | .dieCache d =>
    match (s.die d).lines.find? line with
    | none => .refused .notEnabled
    | some l =>
      .next (s.modDie d fun k => { k with
        uec := up k.uec,
        lines := if l.dirty == 0 then k.lines.del line else k.lines.set line { l with poisoned := true } })
  | .l2 n =>
    match (s.slice n).lines.find? line with
    | none => .refused .notEnabled
    | some l =>
      if l.dirty then .next (s.poisonLine line)
      else .next (s.modSlice n fun k => { k with lines := k.lines.del line })
  | .hbm =>
    if !isHbm (128 * line) then .refused .notEnabled
    else
      match (s.slice (homeSlice (128 * line))).lines.find? line with
      | some l => if l.dirty then .next s else .next (s.poisonLine line)
      | none => .next (s.poisonLine line)

/-- R268: a lease has run out. -/
def execLeaseExpiry (d c line : Nat) (s : State) : Result :=
  let mine (x : Lease) : Bool := x.line == line && x.core == c
  match (s.die d).leases.find? mine with
  | none => .refused .notEnabled
  | some x =>
    if s.now < x.expiry then .refused .notEnabled
    else .next ((s.modDie d fun k => { k with leases := k.leases.filter fun y => !mine y }).modCore c (·.dropCopy line))

/-- R274: a die cache writes back a dirty line or drops a clean one, at any time up to its bound. -/
def execAgeWriteback (d line : Nat) (s : State) : Result :=
  match (s.die d).lines.find? line with
  | none => .refused .notEnabled
  | some l =>
    if l.dirty == 0 then .next (s.modDie d fun k => { k with lines := k.lines.del line })
    else
      match s.writeBack d line with
      | none => .refused .notEnabled
      | some s => .next s

/-! Partitions, journal and translator. -/

/-- The flasks of a partition under an OWNER value, as a mask (R301, R401). -/
def flaskMap (owner p : Nat) : Nat :=
  (List.range 12).foldl (fun acc f => if owner / 16 ^ f % 16 == p then acc + 2 ^ f else acc) 0
/-- A grid of a partition is placed. -/
def Part.hasPlaced (q : Part) : Bool := q.grids.any fun (_, g) => g.placed && !g.saved

/-- R401: flasks are assigned to partitions, unless a partition whose flasks change has a placed grid. -/
def execPartCfgWrite (v : DWord) (s : State) : Result :=
  let new : BitVec 48 := v.setWidth 48
  let changed (p : Nat) : Bool := flaskMap s.pkg.owner.toNat p != flaskMap new.toNat p
  if (List.range 12).any fun p => changed p && (s.part p).hasPlaced then .next s
  else .next (s.modPkg fun k => { k with owner := new })

/-- R393: the translation store. -/
def execAnnCtlWrite (p : Nat) (v : DWord) (s : State) : Result :=
  .next (s.modPart p fun q =>
    let q := if q.annEn then q else { q with annBase := v.extractLsb' 16 32, annLogsz := v.extractLsb' 8 4 }
    { q with annEn := v.getLsbD 0, annTrans := if v.getLsbD 0 then q.annTrans else [] })

/-- R392: a translation of a range of code is built; it changes no value. -/
def execAnnealTranslate (p : Nat) (base : Addr) (len : Nat) (s : State) : Result :=
  if !(s.part p).annEn || len == 0 then .refused .notEnabled
  else .next (s.modPart p fun q => { q with annTrans := q.annTrans ++ [(base.toNat, base.toNat + len)] })

/-- The lines of the journal of a partition, first and past the last (R402). -/
def Part.journalLines (q : Part) : List (Nat × Nat) :=
  if q.jrnV then [(q.jrnBase.toNat * 2 ^ 13, q.jrnBase.toNat * 2 ^ 13 + 2 ^ 17)] else []
/-- R402: the journal; a write is ignored while the launch queue is enabled. The region that it leaves holds what its entries left. -/
def execJrnBaseWrite (p : Nat) (v : DWord) (s : State) : Result :=
  .next (if (s.part p).lqEn then s else ({ s with openMem := (s.part p).journalLines ++ s.openMem } : State).modPart p fun q => { q with jrnBase := v.extractLsb' 20 28, jrnV := v.getLsbD 0 })

/-- A core without work: its banks are L1 ways or retired again, and its registers stand (R403). -/
def Core.idle (k : Core) : Core :=
  let free (r : BankRole) : BankRole := if r.role == 0 || r.role == 2 then r
    else { r with role := if r.retp then 0 else 2, team := 0, retp := false }
  { k with banks := k.banks.map fun (b, r) => (b, free r), teams := [], active := [], pending := [], bins := [], mq := [],
           pq := [], latch := none, ports := [], replies := [], tlb := [], l1 := [], writes := [], code := [], recs := [], overflow := [], held := [], badWords := [] }

/-- A launch that goes on from its save area where it has one from a completed save, else from its packet (R403). -/
def Grid.again (g : Grid) : Grid :=
  let stop (g : Grid) : Grid := { g with placed := false, preReq := false, forced := false, ended := false }
  if g.saved then { stop g with resumes := true }
  else
    match g.last with
    | some y =>
      { stop g with
        saved := true, saveAddr := y.addr, cuts := y.cuts, resumes := true, savedRecs := y.recs, savedFaults := y.faults, keptBars := y.bars,
        keptColls := y.colls, keptOps := y.ops, keptHot := y.hot, keptPast := y.past, keptFuts := y.futs, keptEnds := y.ends,
        kept := y.kept, savedHeld := y.held, teamsLeft := y.teamsLeft, clocks := y.clocks }
    | none => { stop g with clocks := 0, teamsLeft := 0 }
/-- A node whose finish was not retired: its work goes on from the save area of its grid, or it is registered again (R403). -/
def Node.restart (n : Node) : Node := { n with launched := n.inSave, finished := false, ready := n.inSave, again := !n.inSave }

/-- The journalled work of a partition resumes (R403). -/
def Part.resume (q : Part) : Part :=
  { q with grids := q.grids.map fun (k, g) => (k, Grid.again g), nodes := q.nodes.map fun (k, n) => (k, n.restart), restore := none,
           preState := if q.preBusy then 0 else q.preState }

/-- Every running piece of work stops, to be resumed from the journal (R403). -/
def State.resumeAll (s : State) : State :=
  { s with cores := s.cores.map fun (c, k) => (c, k.idle), parts := s.parts.map fun (p, q) => (p, q.resume),
           flasks := s.flasks.map fun (f, q) => (f, { q with release := [] }),
           slices := s.slices.map fun (n, k) => (n, { k with queue := k.queue.filter fun i => i.kind != .message }),
           dies := s.dies.map fun (d, k) => (d, { k with leases := [], tlb := [], dirs := [] }) }

/-- The number of a kind of part (R403). -/
def partKey : Sys2Proof.Part → Nat × Nat
  | .core c => (0, c)
  | .slice n => (1, n)
  | .ladle n => (2, n)
  | .channel n => (3, n)
  | .link n => (4, n)

/-- A Ladle core replaced: its monitor is to be loaded again (R383, R403). -/
def Slice.newLadle (k : Slice) : Slice := { k with run := false, inv := none, queue := [], busy := [], victims := [], served := [], stall := 0, sram := [] }
/-- The failed part is mapped out; a core takes a spare site (R1, R3, R403). -/
def State.mapOut (s : State) (w : Sys2Proof.Part) : State :=
  let s := s.modPkg fun k => match w with
    | .core c => { k with defects := k.defects ++ (k.siteOf c).toList }
    | _ => { k with failed := k.failed ++ [partKey w] }
  match w with
  | .slice n => s.modSlice n fun k => { k.newLadle with lines := [] }
  | .ladle n => s.modSlice n (·.newLadle)
  | .link n => s.modPkg fun k => { k with ports := k.ports.set n { k.ports.get n {} with up := false } }
  | .core c => s.modCore c fun k => { resetAt := s.now, banks := k.banks.map fun (b, r) => (b, ({ boot := r.boot, role := if r.boot then 0 else 2 } : BankRole)) }
  | .channel _ => s

/-- R403: a part has failed: it is mapped out, and the journalled work resumes. -/
def execFailureRecovery (w : Sys2Proof.Part) (s : State) : Result := .next (s.resumeAll.mapOut w)

/-! Power and heat. -/

/-- The leases of a flask's cores are dropped, with their copies, before its clock changes (R268, R405). -/
def State.dropLeases (s : State) (fl : Nat) : State :=
  let drop (s : State) (d : Nat) : State := s.modDie d fun k => { k with leases := k.leases.filter fun x => coreFlask x.core != fl }
  let s := drop (drop s (2 * fl)) (2 * fl + 1)
  { s with cores := s.cores.map fun (c, k) => (c, if coreFlask c == fl then { k with l1 := [] } else k) }
/-- A flask at an operating point (R405). -/
def State.setPoint (s : State) (fl pt : Nat) : State :=
  if (s.flask fl).point == pt then s else (s.dropLeases fl).modFlask fl fun q => { q with point := pt }
/-- A flask that is granted a point (R407). -/
def State.grantPoint (s : State) (fl pt : Nat) : State := s.modFlask fl fun q => { q with granted := Nat.min 7 pt }
/-- Every flask at point 0 (R406, R407). -/
def State.allSlow (s : State) : State := (List.range 12).foldl (fun s f => (s.setPoint f 0).grantPoint f 0) s

/-- The hottest sensor is at the trip limit (R406). -/
def Pkg.tripped (k : Pkg) : Bool := k.thermTrip ≤ k.thermTemp

/-- The hottest of the 1,152 sensors and its reading; ties give the lowest number (R406). -/
def hottest (temps : List (BitVec 12)) : Nat × BitVec 12 :=
  (temps.take 1152).zipIdx.foldl (fun best (t, c) => if best.2 < t then (c, t) else best) (0, 0)
/-- At or above the trip limit every flask goes to point 0 at once (R406). -/
def State.heat (s : State) : State := if s.pkg.tripped then s.allSlow else s
/-- R406: the sensors are read, that of core 0 and those of the cores after it. -/
def execThermalSensorRead (first : BitVec 12) (rest : List (BitVec 12)) (s : State) : Result :=
  let (c, t) := hottest (first :: rest)
  .next (s.modPkg fun k => { k with thermCore := BitVec.ofNat 11 c, thermTemp := t }).heat

/-- The sum of the floors (R407). -/
def Pkg.floorSum (k : Pkg) : Nat := (List.range 12).foldl (fun acc n => acc + (k.floors.get n 0).toNat) 0
/-- The effective floors of a step (R407). -/
def Pkg.effective (k : Pkg) : Table (BitVec 16) :=
  let sum := k.floorSum
  let cap := k.pwrCap.toNat
  (List.range 12).map fun n =>
    let f := (k.floors.get n 0).toNat
    (n, BitVec.ofNat 16 (if sum > cap then f * cap / sum else f))

/-- The shares of a step: the effective floor of each partition, and of the cap above the floors a part in proportion to its
demand (R407). -/
def Pkg.sharesOf (k : Pkg) (demand : List Nat) : Table Nat :=
  let left := k.pwrCap.toNat - ((List.range 12).map fun n => (k.effs.get n 0).toNat).sum
  (List.range 12).map fun n => (n, (k.effs.get n 0).toNat + left * demand.getD n 0 / (demand.take 12).sum)

/-- The floors are scaled for the first time since they or the cap changed: each partition gets one event (R407). -/
def State.breach (s : State) : State :=
  if s.pkg.floorSum ≤ s.pkg.pwrCap.toNat then s
  else
    let first := !s.pkg.breachSent
    let s := s.modPkg fun k => { k with pwrBreach := true, breachSent := true }
    if !first then s
    else (List.range 12).foldl (fun s p =>
      s.event p { id := 0, cause := .floorBreach, event := true, detail := s.pkg.pwrCap.setWidth 32 }) s

/-- The points that a step grants: flask by flask as the arbiter chooses within the shares (log 43), the flask of the hottest core
one lower at the soft limit (R406, R407). -/
def State.grantPoints (s : State) (points : List Nat) : State :=
  let s := points.zipIdx.foldl (fun s (pt, f) => if f < 12 then s.grantPoint f pt else s) s
  let hot := s.pkg.thermCore.toNat / 96
  if s.pkg.thermSoft ≤ s.pkg.thermTemp then
    let lower := (s.flask hot).point - 1
    (s.setPoint hot lower).grantPoint hot lower
  else s

/-- R407: a step of the arbiter, from the power and the demand of each partition, what each flask would draw at point 0, and the
points that it grants. -/
def execPowerArbiterStep (parts : List PartPower) (flasks : List FlaskPower) (s : State) : Result :=
  if s.pkg.inReset.contains arbiterKind then .refused .notEnabled
  else
    let watts := (parts.map (·.watts)).sum
    let unmet := (flasks.map (·.floorWatts)).sum > s.pkg.pwrCap.toNat
    let s := s.modPkg fun k => { k with pwrPower := BitVec.ofNat 16 watts, effs := k.effective, capUnmet := unmet }
    let s := (s.modPkg fun k => { k with shares := k.sharesOf (parts.map (·.demand)) }).breach
    .next (if unmet || s.pkg.tripped then s.allSlow else s.grantPoints (flasks.map (·.point)))

/-- R407: the sticky bit is cleared. -/
def execPwrStatW1c (v : DWord) (s : State) : Result := .next (s.modPkg fun k => { k with pwrBreach := k.pwrBreach && !v.getLsbD 1 })

/-- R405: a flask moves to the point that the arbiter granted it (R407). -/
def execOperatingPointChange (fl pt : Nat) (s : State) : Result :=
  if fl ≥ 12 || pt != (s.flask fl).granted then .refused .notEnabled else .next (s.setPoint fl pt)

/-! Engine status. -/

/-- R358: sticky bits are cleared. -/
def execEngStatW1c (c : Nat) (v : DWord) (s : State) : Result :=
  .next (s.modCore c fun k => { k with
    engNfinSticky := k.engNfinSticky && !v.getLsbD 3, engOvfSticky := k.engOvfSticky && !v.getLsbD 2,
    engMqStop := k.engMqStop && !v.getLsbD 1, engBarStale := k.engBarStale && !v.getLsbD 0 })

/-- The data of a host read. -/
def State.hostGets (s : State) (bs : List Byte) : State := s.modPkg fun k => { k with hostData := bs, unsupported := false }
/-- R357: the count of non-finite elements is read and cleared. -/
def execEngNfinRead (c : Nat) (s : State) : Result :=
  .next ((s.hostGets (leBytes 4 [(s.core c).engNfin.toNat])).modCore c fun k => { k with engNfin := 0 })
/-- R357: the count of saturated elements is read and cleared. -/
def execEngOvfcRead (c : Nat) (s : State) : Result :=
  .next ((s.hostGets (leBytes 4 [(s.core c).engOvfc.toNat])).modCore c fun k => { k with engOvfc := 0 })

/-! Firmware and trust. -/

/-- A key slot holds an accepted key (R409). -/
def Pkg.accepts (k : Pkg) (slot : Nat) : Bool :=
  let q := k.keys.get slot {}
  slot < 4 && q.hash.isSome && !q.revoked

/-- An image of a kind is accepted (R409). -/
def Pkg.verifies (k : Pkg) (kind hdrKind slot version : Nat) (sigOk : Bool) : Bool :=
  sigOk && k.accepts slot && hdrKind == kind && k.secVersions.get kind 0 ≤ version

/-- The low bits of a number that are 1, n at most. -/
def trailingOnes : Nat → Nat → Nat
  | 0, _ => 0
  | n + 1, v => if v % 2 == 1 then trailingOnes n (v / 2) + 1 else 0
/-- The addresses of an entry of the PMP from its address register, in units of 4 bytes, its address-matching mode and the register
before it: TOR, from the address before it, the single unit of the granularity, and NAPOT, the naturally aligned power of 2 that its
low ones give (R362; the codes are RISC-V's: log 45). -/
def pmpRange (prev addr mode : Nat) : Nat × Nat :=
  if mode == 1 then (4 * prev, 4 * addr)
  else if mode == 2 then (4 * addr, 4 * addr + 4)
  else
    let n := 2 ^ (trailingOnes 54 addr + 3)
    (4 * addr / n * n, 4 * addr / n * n + n)
/-- The entries of the PMP that a monitor programs and locks, each an address register, a mode and its permissions (R362, R366):
mode 0 matches nothing. -/
def pmpEntries : Nat → Nat → List (Nat × Nat × BitVec 3) → Table Pmp
  | _, _, [] => []
  | n, prev, (addr, mode, b) :: rs =>
    let (lo, hi) := pmpRange prev addr mode
    (if mode == 0 then [] else
      [(n, { lo := lo, hi := hi, r := b.getLsbD 0, w := b.getLsbD 1, x := b.getLsbD 2, lock := true })]) ++ pmpEntries (n + 1) addr rs

/-- The monitor of a slice stands in its region (R383). -/
def Slice.load (k : Slice) (image : List Byte) : Slice := { k with sram := k.sram.writeBytes 0 (fit 0x2000 image) }
/-- A verified monitor runs, with the entries of the PMP that it programs and locks at boot (R366, R383). -/
def Slice.boot (k : Slice) (rules : List (Nat × Nat × BitVec 3)) : Slice :=
  { k with run := true, pmp := pmpEntries 0 0 (rules.take 8) ++ k.pmp.filter fun (n, _) => n ≥ 8 }
/-- Where the hash of the monitor of a slice stands among those of the images (R410). -/
def monitorImage (sl : Nat) : Nat := 16 + sl

/-- R383: the management core loads the Ladle monitor of a slice and verifies it; only where it is verified the core runs. -/
def execMonitorBoot (sl slot : Nat) (fw : MonitorImage) (s : State) : Result :=
  if (s.slice sl).run || s.pkg.inReset.contains managerKind then .refused .notEnabled
  else
    let s := (s.modSlice sl fun k => k.load fw.image).modPkg fun k => { k with images := k.images.set (monitorImage sl) fw.hash }
    .next (if s.pkg.verifies monitorKind fw.hdrKind slot fw.version fw.sigOk && fw.image.length ≤ 0x2000 then
        s.modSlice sl fun k => k.boot fw.rules
      else s)

/-- The lanes that wait for the dispatcher look again. -/
def State.wakeDispatcher (s : State) : State := (s.parts.map (·.1)).foldl (fun s p => s.wakePart p .dispatcher) s

/-- R409: a firmware image of a kind is verified; one that fails leaves its engine in reset, and no Ladle core runs under a monitor
that fails (R383). -/
def execFirmwareVerify (kind hdrKind slot version : Nat) (hash : BitVec 256) (sigOk : Bool) (s : State) : Result :=
  .next (if s.pkg.verifies kind hdrKind slot version sigOk then
      (s.modPkg fun k => { k with images := k.images.set kind hash, inReset := k.inReset.filter fun n => n != kind }).wakeDispatcher
    else
      let s := s.modPkg fun k => { k with inReset := kind :: k.inReset.filter fun n => n != kind }
      if kind == monitorKind then { s with slices := s.slices.map fun (n, k) => (n, { k with run := false }) } else s)

/-- R409, R410: an owner key is enrolled in a free slot by a command signed under an accepted key; the command that names slot 4
certifies the identity key under an enrolled owner key (log 43). -/
def execKeyEnrol (slot signer : Nat) (key : BitVec 256) (sigOk : Bool) (s : State) : Result :=
  if slot == 4 then
    .next (if sigOk && s.pkg.accepts signer && signer != 0 then s.modPkg fun k =>
      { k with certs := k.certs.filter (fun n => n != signer) ++ [signer] } else s)
  else
  let ok := sigOk && s.pkg.accepts signer && 1 ≤ slot && slot < 4 && (s.pkg.keys.get slot {}).hash.isNone
  .next (if ok then s.modPkg fun k => { k with keys := k.keys.set slot { hash := some key } } else s)

/-- R409: a key slot is revoked by a command signed under an accepted key; the last unrevoked slot stays. -/
def execKeyRevoke (slot signer : Nat) (sigOk : Bool) (s : State) : Result :=
  let others := (List.range 4).any fun n => n != slot && s.pkg.accepts n
  let ok := sigOk && s.pkg.accepts signer && s.pkg.accepts slot && others
  .next (if ok then s.modPkg fun k => { k with keys := k.keys.set slot { k.keys.get slot {} with revoked := true } } else s)

/-- What a measurement answers: the nonce, the loaded images, the key slots with their revocations, and PART_CFG (R410). -/
def Pkg.measure (k : Pkg) (nonce : BitVec 256) : List (BitVec 256) :=
  let slots := List.range 4
  nonce :: (k.images.map (·.2) ++ (slots.map fun n => (k.keys.get n {}).hash.getD 0)
    ++ [slots.foldl (fun acc n => if (k.keys.get n {}).revoked then acc ||| (1#256 <<< n) else acc) 0, k.owner.setWidth 256])
/-- R410: a measurement request is answered under the next one-time key. -/
def execSpdmMeasurement (nonce : BitVec 256) (s : State) : Result :=
  .next (s.modPkg fun k => { k with attested := k.measure nonce, idCounter := k.idCounter + 1 })

/-! Sprue links. -/

/-- R404: a flit arrives: one that fails its CRC is asked for again from its sequence number. -/
def execSprueFlitReceive (port : Nat) (hdr : BitVec 128) (_payload : List Byte) (crcOk : Bool) (s : State) : Result :=
  let q := s.pkg.ports.get port {}
  if port ≥ 32 || !q.up then .refused .notEnabled
  else
    let next := if !crcOk || hdr.extractLsb' 32 32 != q.expect then { q with retry := true }
      else { q with expect := q.expect + 1, retry := false }
    .next (s.modPkg fun k => { k with ports := k.ports.set port next })

/-- R404: a port fails; its traffic takes the other ports. -/
def execSpruePortFail (port : Nat) (s : State) : Result :=
  let q := s.pkg.ports.get port {}
  if port ≥ 32 then .refused .notEnabled
  else .next (s.modPkg fun k => { k with ports := k.ports.set port { q with up := false }, failed := k.failed ++ [(4, port)] })

end Sys2Proof.Machine
end

