-- ==== Sys2Proof/Machine/Host.lean ====
section
/-!
DEFINITION. The host's accesses: CXL.mem and snoops (R275, R398, R400), the management window with every register it maps
(R8, R300, R301, R315, R319, R323, R328, R333, R357, R367, R381, R393, R399 to R402, R406 to R408), and the reset of the package
(R3, R403).
-/
namespace Sys2Proof.Machine

/-! CXL.mem and CXL.cache. -/

/-- The HDM range holds the addresses (R400). -/
def inHdm (pa n : Nat) : Bool := pa + n ≤ 2 ^ 40

/-- Every die cache gives up its copy of a line of host memory (R275). -/
def State.surrender (s : State) (line : Nat) : Option State :=
  let drop (s : State) (d : Nat) : State :=
    (s.dropL1Copies d line).modDie d fun k => { k with lines := k.lines.del line }
  (s.dies.map (·.1)).foldl (fun acc d => acc.bind fun s => (s.writeBack d line).map fun s => drop s d) (some s)
/-- A host snoop of a line completes once no lease on it is in force, and no store to it waits (R268, R275). -/
def State.snoop (s : State) (line : Nat) : Option State :=
  if (s.dies.any fun (_, k) => k.leases.any fun x => x.line == line && s.now < x.expiry) || s.cores.any fun (_, k) => k.owes line then none
  else s.surrender line
/-- R275: a host snoop of a line of host memory. -/
def execHostSnoop (line : Nat) (s : State) : Result := if isHost (128 * line) then stepOf (s.snoop line) else .refused .notEnabled

/-- Host memory holds the addresses: the host's own reads and writes there snoop what the device holds (R275, R285, R400). -/
def inHostMem (pa n : Nat) : Bool := isHost pa && pa + n ≤ 2 ^ 47
/-- The lines that n bytes touch, snooped. -/
def State.snoopAll (s : State) (pa n : Nat) : Option State :=
  (List.range (lineOf (pa + n - 1) + 1 - lineOf pa)).foldl (fun acc i => acc.bind (·.snoop (lineOf pa + i))) (some s)

/-- A host access performed now: at the home slices of HBM, or in the host's own memory (R275, R400). -/
def State.hostAccess (s : State) (r : HostReq) : Option State :=
  if inHostMem r.pa r.size then
    (s.snoopAll r.pa r.size).map fun s =>
      match r.bytes with
      | none => s.hostGets (s.mem.slice r.pa r.size)
      | some bs => { s with mem := s.mem.writeBytes r.pa bs }
  else
    match r.bytes with
    | none => (s.readArea r.pa r.size).map fun (bs, _, s) => s.hostGets bs
    | some bs => s.writeArea r.pa bs
/-- The misses that a host access raises on registered lines (R370). -/
def State.hostRaise (s : State) (r : HostReq) : State :=
  (List.range (lineOf (r.pa + r.size - 1) + 1 - lineOf r.pa)).foldl (fun s i =>
    let line := lineOf r.pa + i
    let sl := homeSlice (128 * line)
    match ((s.slice sl).missOf line).head? with
    | some m => if (s.slice sl).absent sl line then (s.raiseLine sl line m.kind 3).getD s else s
    | none => s) s
/-- A host access in the order of the host's requests: it is performed, or waits for a line that a handler concerns and for
those before it (R275, R370, R375). -/
def State.hostDo (s : State) (r : HostReq) : State :=
  let wait (s : State) : State := s.modPkg fun k => { k with hostWaits := k.hostWaits ++ [r] }
  if s.pkg.hostWaits.isEmpty then (s.hostAccess r).getD (wait (s.hostRaise r)) else wait s
/-- The oldest host access that waits is performed, if it can be. -/
def State.hostRetry (s : State) : State :=
  match s.pkg.hostWaits with
  | [] => s
  | r :: rs =>
    match s.hostAccess r with
    | some s => s.modPkg fun k => { k with hostWaits := rs }
    | none => s.hostRaise r

/-- R275, R400: host bytes read at the home slices, or in host memory. -/
def execHostMemRead (pa n : Nat) (s : State) : Result :=
  if !inHdm pa n && !inHostMem pa n then .fault .hdmRange else .next (s.hostDo { pa := pa, size := n })
/-- R275, R400: host bytes written at the home slices, or in host memory. -/
def execHostMemWrite (pa : Nat) (bytes : List Byte) (s : State) : Result :=
  if !inHdm pa bytes.length && !inHostMem pa bytes.length then .fault .hdmRange
  else .next (s.hostDo { pa := pa, size := bytes.length, bytes := some bytes })

/-! The management window. -/

/-- A place in the management window (R399). -/
inductive Block where
  | pkg (o : Nat)
  | part (p o : Nat)
  | disp (p o : Nat)
  | pavane (f o : Nat)
  | die (d o : Nat)
  | core (c o : Nat)
  | sched (c o : Nat)
  | engine (c o : Nat)
  | slice (n o : Nat)
  | hole
  deriving DecidableEq, Repr

/-- The block of a window offset, with the offset in it (R399). -/
def blockOf (off : Nat) : Block :=
  let at_ (base size count : Nat) (f : Nat → Nat → Block) : Block :=
    let n := (off - base) / size
    if n < count then f n ((off - base) % size) else .hole
  if off < 0x10000 then .pkg off
  else if off < 0x100000 then .hole
  else if off < 0x200000 then at_ 0x100000 0x10000 12 .part
  else if off < 0x300000 then at_ 0x200000 0x10000 12 .disp
  else if off < 0x400000 then at_ 0x300000 0x10000 12 .pavane
  else if off < 0x1000000 then at_ 0x400000 0x10000 24 .die
  else if off < 0x2000000 then at_ 0x1000000 0x1000 1152 .core
  else if off < 0x3000000 then at_ 0x2000000 0x1000 1152 .sched
  else if off < 0x4000000 then at_ 0x3000000 0x1000 1152 .engine
  else at_ 0x4000000 0x20000 384 .slice

/-! Register values, 64 bits at an offset that is a multiple of 8; two 32-bit registers stand side by side in one. -/

/-- Bit n as a number. -/
def bitAt (b : Bool) (n : Nat) : Nat := if b then 2 ^ n else 0

/-- The package block (R401, R406, R407). -/
def Pkg.regAt (k : Pkg) (o : Nat) : Nat :=
  match o with
  | 0x000 => k.owner.toNat
  | 0x010 => k.thermCore.toNat * 2 ^ 16 + k.thermTemp.toNat
  | 0x018 => k.thermTrip.toNat * 2 ^ 16 + k.thermSoft.toNat
  | 0x020 => k.pwrCap.toNat
  | 0x028 => k.pwrPower.toNat * 2 ^ 32 + bitAt k.pwrBreach 1 + bitAt k.capUnmet 0
  | _ =>
    let n := (o - 0x030) / 8
    if 0x030 ≤ o && n < 12 then (k.effs.get n 0).toNat * 2 ^ 16 + (k.floors.get n 0).toNat else 0

/-- The partition block (R289, R293, R367). -/
def Part.blockAt (q : Part) (o : Nat) : Nat :=
  match o with
  | 0x000 => q.ptTop.toNat * 2 ^ 16
  | 0x008 => bitAt q.tlbInvGo 63 + q.tlbInvScope.toNat * 2 ^ 61 + q.tlbInvPage.toNat * 2 ^ 16
  | 0x010 => bitAt q.ldTenV 4 + q.ldTen.toNat
  | _ => 0

/-- A scope entry (R315). -/
def Scope.num (e : Scope) : Nat :=
  e.gen.toNat * 2 ^ 104 + e.parent.toNat * 2 ^ 96 + e.launch.toNat * 2 ^ 64 + e.members % 2 ^ 32 * 2 ^ 32
    + e.children % 2 ^ 16 * 2 ^ 16 + e.state.toNat

/-- The dispatcher block (R301, R315, R328, R333, R393, R402). -/
def Part.dispAt (q : Part) (flasks : Nat) (native : Bool) (o : Nat) : Nat :=
  match o with
  | 0x000 => q.lqBase.toNat * 2 ^ 12
  | 0x008 => q.lqLogn.toNat * 2 + bitAt q.lqEn 0
  | 0x010 => q.lqTail.toNat
  | 0x018 => q.lqHead.toNat
  | 0x020 => flasks
  | 0x028 => q.nodes.length
  | 0x030 => q.tqBase.toNat * 2 ^ 12
  | 0x038 => q.tqVec.toNat * 2 ^ 8 + bitAt q.tqOvf 5 + q.tqLogn.toNat * 2 + bitAt q.tqEn 0
  | 0x040 => q.tqTail.toNat
  | 0x048 => q.tqHead.toNat
  | 0x060 => q.preReq.toNat
  | 0x068 => q.preSave.toNat * 2 ^ 6
  | 0x070 => q.preDeadline.toNat
  | 0x078 => q.preGrid.toNat * 2 ^ 32 + q.preState.toNat
  | 0x088 => q.rsSave.toNat * 2 ^ 6
  | 0x090 => q.rsPmap.toNat * 2 ^ 3
  | 0x0a0 => q.annBase.toNat * 2 ^ 16 + q.annLogsz.toNat * 2 ^ 8 + bitAt q.annEn 0
  | 0x0a8 => bitAt native 32 + q.annTrans.length
  | 0x0b0 => q.jrnBase.toNat * 2 ^ 20 + bitAt q.jrnV 0
  | _ =>
    if 0x400 ≤ o && o < 0x1400 then (q.scopes.get ((o - 0x400) / 16) {}).num / 2 ^ (8 * (o % 16)) % 2 ^ 64 else 0

/-- A quota register from its four fields (R287). -/
def quotaNum (q : List (BitVec 5)) : Nat := (List.range 4).foldl (fun acc i => acc + (q.getD i 0).toNat * 2 ^ (5 * i)) 0
/-- The four fields of a quota register. -/
def quotaOfNum (v : Nat) : List (BitVec 5) := (List.range 4).map fun i => BitVec.ofNat 5 (v / 2 ^ (5 * i))

/-- The compute die block (R269, R287, R298). -/
def Die.regAt (k : Die) (o : Nat) : Nat :=
  match o with
  | 0x000 => k.leaseAge.toNat * 2 ^ 16 + k.leaseLen.toNat
  | 0x008 => quotaNum k.quota
  | 0x010 => k.cec.toNat * 2 ^ 32 + k.uec.toNat
  | _ => 0

/-- A role register (R276). -/
def BankRole.num (r : BankRole) : Nat :=
  r.cec.toNat * 2 ^ 16 + bitAt r.retp 15 + bitAt r.drain 14 + bitAt r.boot 13 + r.team.toNat * 2 ^ 3 + r.role.toNat
/-- CAP_STORE (R278). -/
def Core.capStore (k : Core) : Nat :=
  let map := (List.range 32).foldl (fun acc b => acc + bitAt ((k.banks.get b {}).role != 0) b) 0
  map * 2 ^ 32 + k.usable
/-- The core block (R276, R278, R281, R408). -/
def Core.regAt (k : Core) (o : Nat) : Nat :=
  if o == 0x000 then k.capStore
  else if o == 0x008 then k.retireTh.toNat
  else if 0x100 ≤ o && o < 0x180 then
    (k.banks.get ((o - 0x100) / 4) {}).num + (k.banks.get ((o - 0x100) / 4 + 1) {}).num * 2 ^ 32
  else if 0x200 ≤ o && o < 0x240 then (k.evsel.get ((o - 0x200) / 8) 0).toNat
  else if 0x240 ≤ o && o < 0x280 then k.evcnt.get ((o - 0x240) / 8) 0
  else 0

/-- ENG_STAT (R358): an engine performs an operation, and a run its block, from its start until its writes are performed (log 33). -/
def Core.engStat (k : Core) : Nat :=
  let busy (q : List EngOp) : Bool := match q with
    | o :: _ => o.begun && !o.done && (o.kind != .mqrun || o.inBlock)
    | [] => false
  let run := match k.mq with
    | o :: _ => o.kind == .mqrun
    | [] => false
  let latch := match k.latch with
    | some l => l.team * 2 ^ 34 + l.group * 2 ^ 29 + 2 ^ 28
    | none => 0
  k.mq.length * 2 ^ 44 + k.pq.length * 2 ^ 40 + latch + bitAt run 7 + bitAt (busy k.pq) 6 + bitAt (busy k.mq) 5
    + bitAt k.engNfinSticky 3 + bitAt k.engOvfSticky 2 + bitAt k.engMqStop 1 + bitAt k.engBarStale 0
/-- The engine block without the effect of reading (R357). -/
def Core.engAt (k : Core) (o : Nat) : Nat :=
  match o with
  | 0x000 => k.engStat
  | 0x008 => k.engNfin.toNat + k.engOvfc.toNat * 2 ^ 32
  | 0x010 => k.mmKgrp.toNat
  | 0x018 => k.peRows.toNat
  | _ => 0

/-- A tenant register (R365). -/
def Tenant.num (t : Tenant) : Nat :=
  bitAt t.en 63 + bitAt t.ntfy 62 + t.part.toNat * 2 ^ 56 + t.budget.toNat * 2 ^ 32 + t.rsize.toNat * 2 ^ 16 + t.rbase.toNat
/-- The slice block without the effect of reading (R287, R369, R381). -/
def Slice.regAt (k : Slice) (o : Nat) : Nat :=
  if o == 0x000 then bitAt k.run 0 + bitAt k.inv.isSome 1 + Nat.min 64 k.queue.length * 2 ^ 4
  else if o == 0x008 then quotaNum k.quota
  else if o == 0x010 then k.fault.toNat
  else if 0x100 ≤ o && o < 0x180 then (k.tenants.get ((o - 0x100) / 8) {}).num
  else if 0x200 ≤ o && o < 0x300 then
    (k.counters.get ((o - 0x200) / 4) 0).toNat + (k.counters.get ((o - 0x200) / 4 + 1) 0).toNat * 2 ^ 32
  else if 0x400 ≤ o && o < 0x600 then (k.trigs.get ((o - 0x400) / 16) 0).toNat / 2 ^ (8 * (o % 16)) % 2 ^ 64
  else if 0x10000 ≤ o then k.sram.readN (o - 0x10000) 8
  else 0

/-- A wave of the partition runs native code (R393). -/
def State.anyNative (s : State) (p : Nat) : Bool :=
  s.cores.any fun (_, k) => k.waves.any fun w => w.native.isSome && (k.teams.get w.team Team.none).part == p

/-- The 64 bits at an offset of the management window that is a multiple of 8; a hole reads 0 (R300, R399). -/
def State.window (s : State) (off : Nat) : Nat :=
  match blockOf off with
  | .pkg o => s.pkg.regAt o
  | .part p o => (s.part p).blockAt o
  | .disp p o => (s.part p).dispAt (flaskMap s.pkg.owner.toNat p) (s.anyNative p) o
  | .pavane f o => if o == 0 then (s.flask f).gap.toNat * 2 ^ 8 + (s.flask f).step.toNat else 0
  | .die d o => (s.die d).regAt o
  | .core c o => (s.core c).regAt o
  | .sched c o => if o == 0 then (s.core c).qdAge.toNat else 0
  | .engine c o => (s.core c).engAt o
  | .slice n o => (s.slice n).regAt o
  | .hole => 0

/-! Which accesses are served, and what a read returns. -/

/-- The place in the management window of a host access: BAR0 of function f begins at f × 2^27. Function 0 maps the window;
function n + 1 maps the two blocks of partition n, and is present while that partition holds a flask (R399, log 22). -/
def State.windowAt (s : State) (off : Nat) : Option Nat :=
  let (f, o) := (off / 2 ^ 27, off % 2 ^ 27)
  if f == 0 then some o
  else if 12 < f || flaskMap s.pkg.owner.toNat (f - 1) == 0 then none
  else if o < 0x10000 then some (0x100000 + 0x10000 * (f - 1) + o)
  else if o < 0x20000 then some (0x200000 + 0x10000 * (f - 1) + (o - 0x10000))
  else some 0x10000
/-- The place of an access that is served: 4 or 8 bytes, naturally aligned, of a function that is present (R399). -/
def State.served (s : State) (off width : Nat) : Option Nat :=
  if (width == 4 || width == 8) && off % width == 0 then s.windowAt off else none

/-- The two 32-bit counters of a pair lose what a read returned: those read of the lower (lo) and the upper half (R8). -/
def clearPair (t : Table Word) (n : Nat) (lo hi : Bool) : Table Word :=
  let t := if lo then t.del n else t
  if hi then t.del (n + 1) else t
/-- What reading clears: the registers of access code RC (R8, R357, R381). -/
def State.clears (s : State) (off : Nat) (lo hi : Bool) : State :=
  match blockOf off with
  | .engine c o =>
    if o != 0x008 then s
    else s.modCore c fun k => { k with engNfin := if lo then 0 else k.engNfin, engOvfc := if hi then 0 else k.engOvfc }
  | .slice n o =>
    if 0x200 ≤ o && o < 0x300 then s.modSlice n fun k => { k with counters := clearPair k.counters ((o - 0x200) / 4) lo hi } else s
  | _ => s
/-- A counter whose source has no stated timing takes the free value that a read finds (R408, log 5). -/
def State.settleCounter (s : State) (off : Nat) : State :=
  match blockOf off with
  | .core c o =>
    let n := (o - 0x240) / 8
    let e := (s.core c).evsel.get n 0
    if 0x240 ≤ o && o < 0x280 && e.getLsbD 8 && timedSource (e.extractLsb' 0 8).toNat then
      { s.modCore c fun k => { k with evcnt := k.evcnt.set n (s.counter c n) } with fresh := s.fresh + 1 }
    else s
  | _ => s
/-- A read of 4 or 8 bytes at a place of the window: the registers are returned, then cleared where they are RC (R8, R399). -/
def State.hostReads (s : State) (off width : Nat) : State :=
  let base := off / 8 * 8
  let s := s.settleCounter base
  let v := s.window base / 256 ^ (off % 8)
  (s.clears base (off % 8 == 0) (width == 8 || off % 8 == 4)).hostGets ((List.range width).map fun i => BitVec.ofNat 8 (v / 256 ^ i))

/-- R399: an access that is not served completes as an unsupported request, with no effect and no data. A read that is served
returns the registers it reads; a write that is served is a registerWrite. -/
def execMmioUnsupported (off width : Nat) (write : Bool) (s : State) : Result :=
  match s.served off width with
  | none => .next (s.modPkg fun k => { k with unsupported := true, hostData := [] })
  | some o => if write then .refused .notEnabled else .next (s.hostReads o width)

/-! Writes, 64 bits at a time; w holds the bytes written, v the register with those bytes replaced. -/

/-- The package block. -/
def writePkg (o : Nat) (v w : DWord) (s : State) : Result :=
  match o with
  | 0x000 => execPartCfgWrite v s
  | 0x018 => .next (s.modPkg fun k => { k with thermTrip := v.extractLsb' 16 12, thermSoft := v.extractLsb' 0 12 }).heat
  | 0x020 =>
    let cap := v.extractLsb' 0 16
    .next (s.modPkg fun k => { k with pwrCap := cap, breachSent := k.breachSent && k.pwrCap == cap })
  | 0x028 => execPwrStatW1c w s
  | _ =>
    let n := (o - 0x030) / 8
    let floor := v.extractLsb' 0 16
    .next (if 0x030 ≤ o && n < 12 then s.modPkg fun k =>
        { k with floors := k.floors.set n floor, breachSent := k.breachSent && k.floors.get n 0 == floor }
      else s)

/-- The partition block. -/
def writePart (p o : Nat) (v : DWord) (s : State) : Result :=
  match o with
  | 0x000 => .next (s.modPart p fun q => { q with ptTop := v.extractLsb' 16 32 })
  | 0x008 => execTlbInvWrite p v s
  | 0x010 => .next (s.modPart p fun q => { q with ldTenV := v.getLsbD 4, ldTen := v.extractLsb' 0 4 })
  | _ => .next s

/-- A write to TQ_SERV (R328, R330). -/
def writeServ (p : Nat) (v : DWord) (s : State) : Result :=
  let id : Word := v.setWidth 32
  match (v.extractLsb' 32 2).toNat with
  | 0 => execTqServRelease p id s
  | 1 => execTqServEndTeam p id s
  | 2 => execTqServEndGrid p id s
  | _ => .next s

/-- The dispatcher block. -/
def writeDisp (p o : Nat) (v w : DWord) (s : State) : Result :=
  let q := s.part p
  match o with
  | 0x000 => .next (if q.lqEn then s else s.modPart p fun q => { q with lqBase := v.extractLsb' 12 36 })
  | 0x008 => execLqCtlWrite p (v.setWidth 32) s
  | 0x010 => execLqTailWrite p (v.setWidth 32) s
  | 0x030 => .next (if q.tqEn then s else s.modPart p fun q => { q with tqBase := v.extractLsb' 12 36 })
  | 0x038 => execTqCtlWrite p ((v &&& 0xff1f ||| w &&& 0x20).setWidth 32) s
  | 0x048 => execTqHeadWrite p (v.setWidth 32) s
  | 0x050 => writeServ p w s
  | 0x060 => execPreReqWrite p (w.setWidth 32) s
  | 0x068 => .next (s.modPart p fun q => { q with preSave := v.extractLsb' 6 42 })
  | 0x070 => .next (s.modPart p fun q => { q with preDeadline := v.extractLsb' 0 32 })
  | 0x088 => execRsSaveWrite p v s
  | 0x090 => .next (s.modPart p fun q => { q with rsPmap := v.extractLsb' 3 45 })
  | 0x0a0 => execAnnCtlWrite p v s
  | 0x0b0 => execJrnBaseWrite p v s
  | _ => .next s

/-- The compute die block. -/
def writeDie (d o : Nat) (v : DWord) (s : State) : State :=
  match o with
  | 0x000 => s.modDie d fun k => { k with leaseAge := v.extractLsb' 16 12, leaseLen := v.extractLsb' 0 16 }
  | 0x008 => s.modDie d fun k => { k with quota := quotaOfNum v.toNat }
  | 0x010 => s.modDie d fun k => { k with cec := v.extractLsb' 32 32, uec := v.extractLsb' 0 32 }
  | _ => s

/-- An EVSEL register: a counter that counted a source of unstated timing holds a free value (R408, log 5). -/
def State.setEvsel (s : State) (c n : Nat) (v : Word) : State :=
  let old := (s.core c).evsel.get n 0
  let s := s.modCore c fun k => { k with evsel := k.evsel.set n (v &&& 0x1fdff) }
  if !(old.getLsbD 8 && timedSource (old.extractLsb' 0 8).toNat) then s
  else
    let (f, s) := s.free
    s.modCore c fun k => { k with evcnt := k.evcnt.set n (f.toNat % 2 ^ 48) }

/-- The core block; lo and hi say which halves are written. -/
def writeCore (c o : Nat) (lo hi : Bool) (v : DWord) (s : State) : Result :=
  if o == 0x008 then .next (s.modCore c fun k => { k with retireTh := v.extractLsb' 0 16 })
  else if 0x100 ≤ o && o < 0x180 then
    let b := (o - 0x100) / 4
    match (if lo then execBankRoleWrite c b (v.setWidth 32) s else .next s) with
    | .next s => if hi then execBankRoleWrite c (b + 1) (v.extractLsb' 32 32) s else .next s
    | r => r
  else if 0x200 ≤ o && o < 0x240 then .next (s.setEvsel c ((o - 0x200) / 8) (v.setWidth 32))
  else if 0x240 ≤ o && o < 0x280 then .next (s.modCore c fun k => { k with evcnt := k.evcnt.set ((o - 0x240) / 8) (v.toNat % 2 ^ 48) })
  else .next s

/-- Reserved bits of a trigger entry read 0 (R369). -/
def trigMask : BitVec 128 := 0x80ffffff01ffffffffffffffffffffff
/-- A byte of local SRAM that the host may write: outside the monitor region and the regions of enabled tenants (R381). -/
def Slice.hostMay (k : Slice) (a : Nat) : Bool :=
  0x2000 ≤ a && k.tenants.all fun (_, t) => !t.en || a < 256 * t.rbase.toNat || 256 * (t.rbase.toNat + t.rsize.toNat) ≤ a
/-- n bytes written through the SRAM window, byte by byte. -/
def Slice.hostStore (k : Slice) (a v : Nat) : Nat → Slice
  | 0 => k
  | n + 1 =>
    let k := if k.hostMay a then { k with sram := k.sram.write a (BitVec.ofNat 8 v) } else k
    k.hostStore (a + 1) (v / 256) n

/-- The slice block; lo and hi say which halves are written. -/
def writeSlice (n o : Nat) (lo hi : Bool) (v : DWord) (s : State) : Result :=
  if o == 0x008 then .next (s.modSlice n fun k => { k with quota := quotaOfNum v.toNat })
  else if 0x100 ≤ o && o < 0x180 then execLdTenWrite n ((o - 0x100) / 8) v s
  else if 0x400 ≤ o && o < 0x600 then
    let e := (o - 0x400) / 16
    .next (s.modSlice n fun k =>
      let t := k.trigs.get e 0
      let t : BitVec 128 := if o % 16 == 0 then t.extractLsb' 64 64 ++ v else v ++ t.extractLsb' 0 64
      { k with trigs := k.trigs.set e (t &&& trigMask) })
  else if 0x10000 ≤ o then
    let a := o - 0x10000
    .next (s.modSlice n fun k =>
      let k := if lo then k.hostStore a (v.toNat % 2 ^ 32) 4 else k
      if hi then k.hostStore (a + 4) (v.toNat / 2 ^ 32) 4 else k)
  else .next s

/-- A register of 32 bits that has no register beside it: a write of the four bytes after it is ignored (R399). -/
def Block.narrow : Block → Bool
  | .pkg o => o != 0x000 && o != 0x010 && o != 0x028
  | .part _ o => o == 0x010
  | .disp _ o => [0x008, 0x010, 0x018, 0x020, 0x028, 0x038, 0x040, 0x048, 0x060, 0x070].contains o
  | .core _ o => 0x200 ≤ o && o < 0x240
  | _ => false

/-- A write of the window at a multiple of 8: v with the written bytes in place, w with the written bytes alone. -/
def writeWindow (off : Nat) (lo hi : Bool) (v w : DWord) (s : State) : Result :=
  if !lo && (blockOf off).narrow then .next s
  else
  match blockOf off with
  | .pkg o => writePkg o v w s
  | .part p o => writePart p o v s
  | .disp p o => writeDisp p o v w s
  | .pavane f o => .next (if o == 0 then s.modFlask f fun q => { q with gap := v.extractLsb' 8 16, step := v.extractLsb' 0 8 } else s)
  | .die d o => .next (writeDie d o v s)
  | .core c o => writeCore c o lo hi v s
  | .sched c o => .next (if o == 0 then s.modCore c fun k => { k with qdAge := v.extractLsb' 0 16 } else s)
  | .engine c o => if o == 0 then execEngStatW1c c w s else .next s
  | .slice n o => writeSlice n o lo hi v s
  | .hole => .next s

/-- R8, R399: a host write of 4 or 8 bytes in the window. -/
def execRegisterWrite (off width : Nat) (v : DWord) (s : State) : Result :=
  match s.served off width with
  | none => .refused .notEnabled
  | some off =>
    let s := s.modPkg fun k => { k with unsupported := false }
    let base := off / 8 * 8
    if width == 8 then writeWindow base true true v v s
    else
      let old : DWord := BitVec.ofNat 64 (s.window base)
      let x : DWord := (v.setWidth 32 : Word).setWidth 64
      if off % 8 == 0 then writeWindow base true false (old &&& 0xffffffff00000000 ||| x) x s
      else writeWindow base false true (old &&& 0xffffffff ||| x <<< 32) (x <<< 32) s

/-! Reset. -/

/-- Every dirty line is at its home: stores that were performed stand (R403). -/
def State.salvage (s : State) : State :=
  s.dies.foldl (fun s (_, k) => k.lines.foldl (fun s (n, l) =>
    let s := if l.dirty == 0 then s
      else
        let s := s.settleLine n
        { s with mem := mergeBytes s.mem n l.data l.dirty }
    if l.dirty != 0 && l.poisoned then s.poisonLine n else s) s) s

/-- What a partition keeps over a reset: its journalled work, in HBM (R402, R403). -/
def Part.afterReset (q : Part) : Part :=
  let q := q.resume
  { journal := q.journal, journalNodes := q.journalNodes, grids := q.grids, nodes := q.nodes, nextNode := q.nextNode,
    nextGrid := q.nextGrid, scopes := q.scopes, nextLaunch := if q.journal.isEmpty then 1 else q.nextLaunch }

/-- The ports of failed links stay down (R403). -/
def Pkg.deadPorts (k : Pkg) : Table Sprue := k.failed.filterMap fun (kind, n) => if kind == 4 then some (n, { up := false }) else none

/-- R3, R403: the package is reset: sites that the self-test finds defective are mapped to spares beside those known, registers take
their reset values, memory, fuses and the journal stand, and what has failed stays mapped out. -/
def execPackageReset (defects : List Nat) (s : State) : Result :=
  let s := s.salvage
  let found := defects.filter fun d => d < 24 * 56 && !s.pkg.defects.contains d
  .next { State.reset with
    mem := s.mem, poison := s.poison, openMem := (s.parts.flatMap fun (_, q) => q.journalLines) ++ s.openMem,
    parts := s.parts.map fun (p, q) => (p, q.afterReset),
    pkg := { Pkg.reset with keys := s.pkg.keys, secVersions := s.pkg.secVersions, idCounter := s.pkg.idCounter,
                            certs := s.pkg.certs, defects := s.pkg.defects ++ found, failed := s.pkg.failed,
                            ports := s.pkg.deadPorts },
    agenda := s.agenda, turn := s.turn, sched := s.sched, fresh := s.fresh, nextMsg := s.nextMsg }

end Sys2Proof.Machine
end

