-- ==== Sys2Proof/Machine/Dispatch.lean ====
section
/-!
DEFINITION. The dispatch: one arm for each row of the opcode table.
-/
namespace Sys2Proof.Machine

def exec (i : Instr) (s : State) : Host.Outcome State Fault Refusal :=
  match i with
  | .tree h slots => Sys2Proof.Machine.execTree h slots s
  | .rep p opc f => Sys2Proof.Machine.execRep p opc f s
  | .add f => Sys2Proof.Machine.execAdd f s
  | .sub f => Sys2Proof.Machine.execSub f s
  | .mulLo f => Sys2Proof.Machine.execMulLo f s
  | .mulHi f => Sys2Proof.Machine.execMulHi f s
  | .mad f => Sys2Proof.Machine.execMad f s
  | .div f => Sys2Proof.Machine.execDiv f s
  | .rem f => Sys2Proof.Machine.execRem f s
  | .min f => Sys2Proof.Machine.execMin f s
  | .max f => Sys2Proof.Machine.execMax f s
  | .abs f => Sys2Proof.Machine.execAbs f s
  | .and f => Sys2Proof.Machine.execAnd f s
  | .or f => Sys2Proof.Machine.execOr f s
  | .xor f => Sys2Proof.Machine.execXor f s
  | .andn f => Sys2Proof.Machine.execAndn f s
  | .not f => Sys2Proof.Machine.execNot f s
  | .mov f => Sys2Proof.Machine.execMov f s
  | .shl f => Sys2Proof.Machine.execShl f s
  | .shr f => Sys2Proof.Machine.execShr f s
  | .sar f => Sys2Proof.Machine.execSar f s
  | .rot f => Sys2Proof.Machine.execRot f s
  | .bfe f => Sys2Proof.Machine.execBfe f s
  | .bfi f => Sys2Proof.Machine.execBfi f s
  | .popc f => Sys2Proof.Machine.execPopc f s
  | .clz f => Sys2Proof.Machine.execClz f s
  | .ctz f => Sys2Proof.Machine.execCtz f s
  | .brev f => Sys2Proof.Machine.execBrev f s
  | .sel f => Sys2Proof.Machine.execSel f s
  | .movi f => Sys2Proof.Machine.execMovi f s
  | .moviLong f imm => Sys2Proof.Machine.execMoviLong f imm s
  | .longImmediateForm opc f imm => Sys2Proof.Machine.execLongImmediateForm opc f imm s
  | .lea f => Sys2Proof.Machine.execLea f s
  | .cmp f => Sys2Proof.Machine.execCmp f s
  | .fcmp f => Sys2Proof.Machine.execFcmp f s
  | .pand f => Sys2Proof.Machine.execPand f s
  | .por f => Sys2Proof.Machine.execPor f s
  | .pxor f => Sys2Proof.Machine.execPxor f s
  | .pnot f => Sys2Proof.Machine.execPnot f s
  | .pmov f => Sys2Proof.Machine.execPmov f s
  | .pmovToReg f => Sys2Proof.Machine.execPmovToReg f s
  | .pmovFromReg f => Sys2Proof.Machine.execPmovFromReg f s
  | .fadd f => Sys2Proof.Machine.execFadd f s
  | .fsub f => Sys2Proof.Machine.execFsub f s
  | .fmul f => Sys2Proof.Machine.execFmul f s
  | .ffma f => Sys2Proof.Machine.execFfma f s
  | .fmin f => Sys2Proof.Machine.execFmin f s
  | .fmax f => Sys2Proof.Machine.execFmax f s
  | .fdiv f => Sys2Proof.Machine.execFdiv f s
  | .fsqrt f => Sys2Proof.Machine.execFsqrt f s
  | .frcpAp f => Sys2Proof.Machine.execFrcpAp f s
  | .frsqrtAp f => Sys2Proof.Machine.execFrsqrtAp f s
  | .fsinAp f => Sys2Proof.Machine.execFsinAp f s
  | .fcosAp f => Sys2Proof.Machine.execFcosAp f s
  | .fexp2Ap f => Sys2Proof.Machine.execFexp2Ap f s
  | .flog2Ap f => Sys2Proof.Machine.execFlog2Ap f s
  | .hadd2 f => Sys2Proof.Machine.execHadd2 f s
  | .hmul2 f => Sys2Proof.Machine.execHmul2 f s
  | .hfma2 f => Sys2Proof.Machine.execHfma2 f s
  | .faddF64 f => Sys2Proof.Machine.execFaddF64 f s
  | .fsubF64 f => Sys2Proof.Machine.execFsubF64 f s
  | .fmulF64 f => Sys2Proof.Machine.execFmulF64 f s
  | .ffmaF64 f => Sys2Proof.Machine.execFfmaF64 f s
  | .fminF64 f => Sys2Proof.Machine.execFminF64 f s
  | .fmaxF64 f => Sys2Proof.Machine.execFmaxF64 f s
  | .fdivF64 f => Sys2Proof.Machine.execFdivF64 f s
  | .fsqrtF64 f => Sys2Proof.Machine.execFsqrtF64 f s
  | .frcpApF64 f => Sys2Proof.Machine.execFrcpApF64 f s
  | .frsqrtApF64 f => Sys2Proof.Machine.execFrsqrtApF64 f s
  | .cvt f => Sys2Proof.Machine.execCvt f s
  | .fmset f => Sys2Proof.Machine.execFmset f s
  | .fmget f => Sys2Proof.Machine.execFmget f s
  | .shflIdx f => Sys2Proof.Machine.execShflIdx f s
  | .shflUp f => Sys2Proof.Machine.execShflUp f s
  | .shflDown f => Sys2Proof.Machine.execShflDown f s
  | .shflXor f => Sys2Proof.Machine.execShflXor f s
  | .voteAll f => Sys2Proof.Machine.execVoteAll f s
  | .voteAny f => Sys2Proof.Machine.execVoteAny f s
  | .ballot f => Sys2Proof.Machine.execBallot f s
  | .redux f => Sys2Proof.Machine.execRedux f s
  | .scan f => Sys2Proof.Machine.execScan f s
  | .elect f => Sys2Proof.Machine.execElect f s
  | .collectiveComplete c t g pc => Sys2Proof.Machine.execCollectiveComplete c t g pc s
  | .collTimeout c t g pc => Sys2Proof.Machine.execCollTimeout c t g pc s
  | .ldG f => Sys2Proof.Machine.execLdG f s
  | .ldS f => Sys2Proof.Machine.execLdS f s
  | .ldR f => Sys2Proof.Machine.execLdR f s
  | .ldC f => Sys2Proof.Machine.execLdC f s
  | .ldx f => Sys2Proof.Machine.execLdx f s
  | .pref f => Sys2Proof.Machine.execPref f s
  | .stG f => Sys2Proof.Machine.execStG f s
  | .stS f => Sys2Proof.Machine.execStS f s
  | .stR f => Sys2Proof.Machine.execStR f s
  | .stx f => Sys2Proof.Machine.execStx f s
  | .loadReply c t g l n => Sys2Proof.Machine.execLoadReply c t g l n s
  | .storeAck c t g l n => Sys2Proof.Machine.execStoreAck c t g l n s
  | .translationWalk c va a => Sys2Proof.Machine.execTranslationWalk c va a s
  | .atomG f => Sys2Proof.Machine.execAtomG f s
  | .atomS f => Sys2Proof.Machine.execAtomS f s
  | .redG f => Sys2Proof.Machine.execRedG f s
  | .redS f => Sys2Proof.Machine.execRedS f s
  | .fenceAcq f => Sys2Proof.Machine.execFenceAcq f s
  | .fenceRel f => Sys2Proof.Machine.execFenceRel f s
  | .fenceAr f => Sys2Proof.Machine.execFenceAr f s
  | .wait f => Sys2Proof.Machine.execWait f s
  | .waitResume c t g l => Sys2Proof.Machine.execWaitResume c t g l s
  | .bar f => Sys2Proof.Machine.execBar f s
  | .barClu f => Sys2Proof.Machine.execBarClu f s
  | .barGrid f => Sys2Proof.Machine.execBarGrid f s
  | .barrierOpen c t k => Sys2Proof.Machine.execBarrierOpen c t k s
  | .barTimeout c t k => Sys2Proof.Machine.execBarTimeout c t k s
  | .pavaneReleaseStep fl => Sys2Proof.Machine.execPavaneReleaseStep fl s
  | .arrive f => Sys2Proof.Machine.execArrive f s
  | .waitbar f => Sys2Proof.Machine.execWaitbar f s
  | .waitbarResume c t g l => Sys2Proof.Machine.execWaitbarResume c t g l s
  | .yield f => Sys2Proof.Machine.execYield f s
  | .cbind f => Sys2Proof.Machine.execCbind f s
  | .channelResume c t g l => Sys2Proof.Machine.execChannelResume c t g l s
  | .peerSendAppend c t g l n => Sys2Proof.Machine.execPeerSendAppend c t g l n s
  | .fput f => Sys2Proof.Machine.execFput f s
  | .fget f => Sys2Proof.Machine.execFget f s
  | .fgetPeek f => Sys2Proof.Machine.execFgetPeek f s
  | .futureResume c t g l => Sys2Proof.Machine.execFutureResume c t g l s
  | .mma f => Sys2Proof.Machine.execMma f s
  | .mmv f => Sys2Proof.Machine.execMmv f s
  | .mqrun f => Sys2Proof.Machine.execMqrun f s
  | .mqrunBlock c => Sys2Proof.Machine.execMqrunBlock c s
  | .accz f => Sys2Proof.Machine.execAccz f s
  | .accld f => Sys2Proof.Machine.execAccld f s
  | .accst f => Sys2Proof.Machine.execAccst f s
  | .pour f => Sys2Proof.Machine.execPour f s
  | .pourOut f => Sys2Proof.Machine.execPourOut f s
  | .engineOpStart c e n => Sys2Proof.Machine.execEngineOpStart c e n s
  | .engineOpComplete c e => Sys2Proof.Machine.execEngineOpComplete c e s
  | .tspawn f => Sys2Proof.Machine.execTspawn f s
  | .gnode f => Sys2Proof.Machine.execGnode f s
  | .fsopen f => Sys2Proof.Machine.execFsopen f s
  | .fsclose f => Sys2Proof.Machine.execFsclose f s
  | .fswait f => Sys2Proof.Machine.execFswait f s
  | .lmsg f => Sys2Proof.Machine.execLmsg f s
  | .lmsgReply c t g l n => Sys2Proof.Machine.execLmsgReply c t g l n s
  | .asym f => Sys2Proof.Machine.execAsym f s
  | .aset f => Sys2Proof.Machine.execAset f s
  | .asetSym f => Sys2Proof.Machine.execAsetSym f s
  | .asetMint f => Sys2Proof.Machine.execAsetMint f s
  | .amov f => Sys2Proof.Machine.execAmov f s
  | .ald f => Sys2Proof.Machine.execAld f s
  | .ast f => Sys2Proof.Machine.execAst f s
  | .aadd f => Sys2Proof.Machine.execAadd f s
  | .asub f => Sys2Proof.Machine.execAsub f s
  | .aneg f => Sys2Proof.Machine.execAneg f s
  | .ascl f => Sys2Proof.Machine.execAscl f s
  | .aaddc f => Sys2Proof.Machine.execAaddc f s
  | .amul f => Sys2Proof.Machine.execAmul f s
  | .asqr f => Sys2Proof.Machine.execAsqr f s
  | .arcp f => Sys2Proof.Machine.execArcp f s
  | .asqrt f => Sys2Proof.Machine.execAsqrt f s
  | .acond f => Sys2Proof.Machine.execAcond f s
  | .acent f => Sys2Proof.Machine.execAcent f s
  | .arad f => Sys2Proof.Machine.execArad f s
  | .alo f => Sys2Proof.Machine.execAlo f s
  | .ahi f => Sys2Proof.Machine.execAhi f s
  | .ashfl f => Sys2Proof.Machine.execAshfl f s
  | .aredd f => Sys2Proof.Machine.execAredd f s
  | .call f => Sys2Proof.Machine.execCall f s
  | .callIndirect f => Sys2Proof.Machine.execCallIndirect f s
  | .ret f => Sys2Proof.Machine.execRet f s
  | .retTrap f => Sys2Proof.Machine.execRetTrap f s
  | .jmpi f => Sys2Proof.Machine.execJmpi f s
  | .far f => Sys2Proof.Machine.execFar f s
  | .farIndirect f => Sys2Proof.Machine.execFarIndirect f s
  | .region f => Sys2Proof.Machine.execRegion f s
  | .regionIndirect f => Sys2Proof.Machine.execRegionIndirect f s
  | .trap f => Sys2Proof.Machine.execTrap f s
  | .brk f => Sys2Proof.Machine.execBrk f s
  | .mfs f => Sys2Proof.Machine.execMfs f s
  | .mts f => Sys2Proof.Machine.execMts f s
  | .icinv f => Sys2Proof.Machine.execIcinv f s
  | .icinvComplete c t g l => Sys2Proof.Machine.execIcinvComplete c t g l s
  | .nop f => Sys2Proof.Machine.execNop f s
  | .addImm f => Sys2Proof.Machine.execAddImm f s
  | .subImm f => Sys2Proof.Machine.execSubImm f s
  | .mulLoImm f => Sys2Proof.Machine.execMulLoImm f s
  | .andImm f => Sys2Proof.Machine.execAndImm f s
  | .orImm f => Sys2Proof.Machine.execOrImm f s
  | .xorImm f => Sys2Proof.Machine.execXorImm f s
  | .shlImm f => Sys2Proof.Machine.execShlImm f s
  | .shrImm f => Sys2Proof.Machine.execShrImm f s
  | .sarImm f => Sys2Proof.Machine.execSarImm f s
  | .minImm f => Sys2Proof.Machine.execMinImm f s
  | .maxImm f => Sys2Proof.Machine.execMaxImm f s
  | .faddImm f => Sys2Proof.Machine.execFaddImm f s
  | .fmulImm f => Sys2Proof.Machine.execFmulImm f s
  | .timer c t g => Sys2Proof.Machine.execTimer c t g s
  | .activeSetRotate c => Sys2Proof.Machine.execActiveSetRotate c s
  | .quadrilleAgeDrain c b => Sys2Proof.Machine.execQuadrilleAgeDrain c b s
  | .lqTailWrite p v => Sys2Proof.Machine.execLqTailWrite p v s
  | .lqCtlWrite p v => Sys2Proof.Machine.execLqCtlWrite p v s
  | .launchPacketRead p => Sys2Proof.Machine.execLaunchPacketRead p s
  | .launchPlace p => Sys2Proof.Machine.execLaunchPlace p s
  | .gridEnd p g => Sys2Proof.Machine.execGridEnd p g s
  | .taskLaunch p n k => Sys2Proof.Machine.execTaskLaunch p n k s
  | .copyNodeDispatch p n c => Sys2Proof.Machine.execCopyNodeDispatch p n c s
  | .nodeFinish p n => Sys2Proof.Machine.execNodeFinish p n s
  | .scopeComplete p n => Sys2Proof.Machine.execScopeComplete p n s
  | .trapRecordWrite p id => Sys2Proof.Machine.execTrapRecordWrite p id s
  | .tqHeadWrite p v => Sys2Proof.Machine.execTqHeadWrite p v s
  | .tqCtlWrite p v => Sys2Proof.Machine.execTqCtlWrite p v s
  | .tqServRelease p id => Sys2Proof.Machine.execTqServRelease p id s
  | .tqServEndTeam p id => Sys2Proof.Machine.execTqServEndTeam p id s
  | .tqServEndGrid p id => Sys2Proof.Machine.execTqServEndGrid p id s
  | .preReqWrite p v => Sys2Proof.Machine.execPreReqWrite p v s
  | .preForced c t => Sys2Proof.Machine.execPreForced c t s
  | .teamSave c t => Sys2Proof.Machine.execTeamSave c t s
  | .rsSaveWrite p v => Sys2Proof.Machine.execRsSaveWrite p v s
  | .restorePlace p => Sys2Proof.Machine.execRestorePlace p s
  | .tlbInvWrite p v => Sys2Proof.Machine.execTlbInvWrite p v s
  | .tlbInvComplete p => Sys2Proof.Machine.execTlbInvComplete p s
  | .bankRoleWrite c b v => Sys2Proof.Machine.execBankRoleWrite c b v s
  | .storeEccCorrected c b => Sys2Proof.Machine.execStoreEccCorrected c b s
  | .storeUe c off => Sys2Proof.Machine.execStoreUe c off s
  | .cacheUe w line => Sys2Proof.Machine.execCacheUe w line s
  | .leaseExpiry d c line => Sys2Proof.Machine.execLeaseExpiry d c line s
  | .ageWriteback d line => Sys2Proof.Machine.execAgeWriteback d line s
  | .partCfgWrite v => Sys2Proof.Machine.execPartCfgWrite v s
  | .annCtlWrite p v => Sys2Proof.Machine.execAnnCtlWrite p v s
  | .annealTranslate p base len => Sys2Proof.Machine.execAnnealTranslate p base len s
  | .jrnBaseWrite p v => Sys2Proof.Machine.execJrnBaseWrite p v s
  | .failureRecovery w => Sys2Proof.Machine.execFailureRecovery w s
  | .powerArbiterStep parts flasks => Sys2Proof.Machine.execPowerArbiterStep parts flasks s
  | .pwrStatW1c v => Sys2Proof.Machine.execPwrStatW1c v s
  | .thermalSensorRead first rest => Sys2Proof.Machine.execThermalSensorRead first rest s
  | .operatingPointChange fl pt => Sys2Proof.Machine.execOperatingPointChange fl pt s
  | .engStatW1c c v => Sys2Proof.Machine.execEngStatW1c c v s
  | .engNfinRead c => Sys2Proof.Machine.execEngNfinRead c s
  | .engOvfcRead c => Sys2Proof.Machine.execEngOvfcRead c s
  | .ladleCounterRead sl n k => Sys2Proof.Machine.execLadleCounterRead sl n k s
  | .ldTenWrite sl n v => Sys2Proof.Machine.execLdTenWrite sl n v s
  | .ladleOverrun sl => Sys2Proof.Machine.execLadleOverrun sl s
  | .ladleMiss sl line => Sys2Proof.Machine.execLadleMiss sl line s
  | .ladleFill sl line => Sys2Proof.Machine.execLadleFill sl line s
  | .ladleEviction sl line => Sys2Proof.Machine.execLadleEviction sl line s
  | .ladleMessage sl => Sys2Proof.Machine.execLadleMessage sl s
  | .done sl v => Sys2Proof.Machine.execDone sl v s
  | .fwda0 sl v => Sys2Proof.Machine.execFwda0 sl v s
  | .fwda1 sl v => Sys2Proof.Machine.execFwda1 sl v s
  | .fwd sl v => Sys2Proof.Machine.execFwd sl v s
  | .posth sl v => Sys2Proof.Machine.execPosth sl v s
  | .post sl v => Sys2Proof.Machine.execPost sl v s
  | .prefLadle sl v => Sys2Proof.Machine.execPrefLadle sl v s
  | .ladleFault sl mcause mepc => Sys2Proof.Machine.execLadleFault sl mcause mepc s
  | .monitorBoot sl slot fw => Sys2Proof.Machine.execMonitorBoot sl slot fw s
  | .firmwareVerify kind hdrKind slot version hash sigOk => Sys2Proof.Machine.execFirmwareVerify kind hdrKind slot version hash sigOk s
  | .keyEnrol slot signer key sigOk => Sys2Proof.Machine.execKeyEnrol slot signer key sigOk s
  | .keyRevoke slot signer sigOk => Sys2Proof.Machine.execKeyRevoke slot signer sigOk s
  | .spdmMeasurement nonce => Sys2Proof.Machine.execSpdmMeasurement nonce s
  | .sprueFlitReceive port hdr payload crcOk => Sys2Proof.Machine.execSprueFlitReceive port hdr payload crcOk s
  | .spruePortFail port => Sys2Proof.Machine.execSpruePortFail port s
  | .hostMemRead pa n => Sys2Proof.Machine.execHostMemRead pa n s
  | .hostMemWrite pa bytes => Sys2Proof.Machine.execHostMemWrite pa bytes s
  | .hostSnoop line => Sys2Proof.Machine.execHostSnoop line s
  | .mmioUnsupported off width write => Sys2Proof.Machine.execMmioUnsupported off width write s
  | .registerWrite off width v => Sys2Proof.Machine.execRegisterWrite off width v s
  | .packageReset defects => Sys2Proof.Machine.execPackageReset defects s
  | .globalApertureAccess sl addr k size v => Sys2Proof.Machine.execGlobalApertureAccess sl addr k size v s

end Sys2Proof.Machine
end

