-- ==== Sys2Proof/Machine/Riscv.lean ====
section
/-!
DEFINITION. The code of a Ladle handler (R362): RV64IMAC with Zicsr, Zba and Zbb in U mode. Encodings and results are
those of the RISC-V specification, which R362 names and does not repeat (log 45). Accesses go through R363 and R364,
exceptions through R378.
-/
namespace Sys2Proof.Machine

/-- Operations on two values: the registers of an R-type instruction, or a register and an immediate. -/
inductive RvOp where
  | add | sub | sll | slt | sltu | xor | srl | sra | or | and
  | mul | mulh | mulhsu | mulhu | div | divu | rem | remu
  | sh1add | sh2add | sh3add | andn | orn | xnor | min | minu | max | maxu | rol | ror
  | addw | subw | sllw | srlw | sraw | mulw | divw | divuw | remw | remuw | rolw | rorw
  | addUw | sh1addUw | sh2addUw | sh3addUw | slliUw
  | clz | ctz | cpop | sextB | sextH | zextH | orcB | rev8 | clzw | ctzw | cpopw
  deriving DecidableEq, Repr

/-- The conditions of branches. -/
inductive RvCond where
  | eq | ne | lt | ge | ltu | geu
  deriving DecidableEq, Repr

/-- An instruction, a compressed one in its full form; offsets and immediates are sign-extended. -/
inductive RvInstr where
  | lui (rd : Nat) (v : DWord)
  | auipc (rd : Nat) (v : DWord)
  | jal (rd : Nat) (off : DWord)
  | jalr (rd rs : Nat) (off : DWord)
  | branch (c : RvCond) (a b : Nat) (off : DWord)
  | load (rd rs : Nat) (off : DWord) (size : Nat) (signed : Bool)
  | store (rs v : Nat) (off : DWord) (size : Nat)
  | amo (k : LadleAccess) (rd rs v size : Nat)
  | reg (op : RvOp) (rd a b : Nat)
  | imm (op : RvOp) (rd a : Nat) (v : DWord)
  | csr (rd n : Nat)
  | fence
  | ecall
  | ebreak
  deriving DecidableEq, Repr

/-! Results. -/

/-- A 32-bit result, sign-extended. -/
def rvW (v : Word) : DWord := v.signExtend 64
/-- Leading zeros of n bits. -/
def rvClz (n v : Nat) : Nat := ((List.range n).find? fun i => v.testBit (n - 1 - i)).getD n
/-- Trailing zeros of n bits. -/
def rvCtz (n v : Nat) : Nat := ((List.range n).find? fun i => v.testBit i).getD n
/-- Ones among n bits. -/
def rvPop (n v : Nat) : Nat := ((List.range n).filter fun i => v.testBit i).length
/-- The eight bytes of a value, lowest first. -/
def rvBytes (v : DWord) : List Byte := (List.range 8).map fun i => (v >>> (8 * i)).setWidth 8
/-- A value from its bytes, lowest first. -/
def rvJoin (bs : List Byte) : DWord := bs.foldr (fun b a => (a <<< 8) ||| b.setWidth 64) 0

/-- Division: by zero all ones, and the remainder is the dividend. -/
def rvDiv {w : Nat} (a b : BitVec w) : BitVec w := if b == 0 then BitVec.allOnes w else a.sdiv b
def rvDivu {w : Nat} (a b : BitVec w) : BitVec w := if b == 0 then BitVec.allOnes w else a / b
def rvRem {w : Nat} (a b : BitVec w) : BitVec w := if b == 0 then a else a.srem b
def rvRemu {w : Nat} (a b : BitVec w) : BitVec w := if b == 0 then a else a % b

/-- The result of an operation. -/
def RvOp.eval (op : RvOp) (a b : DWord) : DWord :=
  let n := b.toNat % 64
  let m := b.toNat % 32
  let aw : Word := a.setWidth 32
  let bw : Word := b.setWidth 32
  let au : DWord := aw.setWidth 64
  let high (x y : Int) : DWord := BitVec.ofInt 64 (x * y / 2 ^ 64)
  match op with
  | .add => a + b
  | .sub => a - b
  | .sll => a <<< n
  | .slt => if a.slt b then 1 else 0
  | .sltu => if a.ult b then 1 else 0
  | .xor => a ^^^ b
  | .srl => a >>> n
  | .sra => a.sshiftRight n
  | .or => a ||| b
  | .and => a &&& b
  | .mul => a * b
  | .mulh => high a.toInt b.toInt
  | .mulhsu => high a.toInt b.toNat
  | .mulhu => high a.toNat b.toNat
  | .div => rvDiv a b
  | .divu => rvDivu a b
  | .rem => rvRem a b
  | .remu => rvRemu a b
  | .sh1add => (a <<< 1) + b
  | .sh2add => (a <<< 2) + b
  | .sh3add => (a <<< 3) + b
  | .andn => a &&& ~~~b
  | .orn => a ||| ~~~b
  | .xnor => ~~~(a ^^^ b)
  | .min => if a.slt b then a else b
  | .minu => if a.ult b then a else b
  | .max => if a.slt b then b else a
  | .maxu => if a.ult b then b else a
  | .rol => a.rotateLeft n
  | .ror => a.rotateRight n
  | .addw => rvW (aw + bw)
  | .subw => rvW (aw - bw)
  | .sllw => rvW (aw <<< m)
  | .srlw => rvW (aw >>> m)
  | .sraw => rvW (aw.sshiftRight m)
  | .mulw => rvW (aw * bw)
  | .divw => rvW (rvDiv aw bw)
  | .divuw => rvW (rvDivu aw bw)
  | .remw => rvW (rvRem aw bw)
  | .remuw => rvW (rvRemu aw bw)
  | .rolw => rvW (aw.rotateLeft m)
  | .rorw => rvW (aw.rotateRight m)
  | .addUw => au + b
  | .sh1addUw => (au <<< 1) + b
  | .sh2addUw => (au <<< 2) + b
  | .sh3addUw => (au <<< 3) + b
  | .slliUw => au <<< n
  | .clz => BitVec.ofNat 64 (rvClz 64 a.toNat)
  | .ctz => BitVec.ofNat 64 (rvCtz 64 a.toNat)
  | .cpop => BitVec.ofNat 64 (rvPop 64 a.toNat)
  | .sextB => (a.setWidth 8).signExtend 64
  | .sextH => (a.setWidth 16).signExtend 64
  | .zextH => (a.setWidth 16).setWidth 64
  | .orcB => rvJoin ((rvBytes a).map fun x => if x == 0 then 0 else 0xff)
  | .rev8 => rvJoin (rvBytes a).reverse
  | .clzw => BitVec.ofNat 64 (rvClz 32 aw.toNat)
  | .ctzw => BitVec.ofNat 64 (rvCtz 32 aw.toNat)
  | .cpopw => BitVec.ofNat 64 (rvPop 32 aw.toNat)

/-- Whether a branch is taken. -/
def RvCond.holds (c : RvCond) (a b : DWord) : Bool :=
  match c with
  | .eq => a == b
  | .ne => a != b
  | .lt => a.slt b
  | .ge => !a.slt b
  | .ltu => a.ult b
  | .geu => !a.ult b

/-! Encodings of 32 bits. -/

/-- n bits of a word from a position. -/
def rvBits (w lo n : Nat) : Nat := w / 2 ^ lo % 2 ^ n
/-- A number of n bits, sign-extended. -/
def rvSext (n v : Nat) : DWord := (BitVec.ofNat n v).signExtend 64

/-- R-type operations of opcode 0x33, by funct7 and funct3. -/
def rvOp33 : List (Nat × Nat × RvOp) :=
  [(0x00, 0, .add), (0x20, 0, .sub), (0x00, 1, .sll), (0x00, 2, .slt), (0x00, 3, .sltu), (0x00, 4, .xor), (0x00, 5, .srl),
   (0x20, 5, .sra), (0x00, 6, .or), (0x00, 7, .and),
   (0x01, 0, .mul), (0x01, 1, .mulh), (0x01, 2, .mulhsu), (0x01, 3, .mulhu), (0x01, 4, .div), (0x01, 5, .divu),
   (0x01, 6, .rem), (0x01, 7, .remu),
   (0x10, 2, .sh1add), (0x10, 4, .sh2add), (0x10, 6, .sh3add),
   (0x20, 7, .andn), (0x20, 6, .orn), (0x20, 4, .xnor), (0x05, 4, .min), (0x05, 5, .minu), (0x05, 6, .max), (0x05, 7, .maxu),
   (0x30, 1, .rol), (0x30, 5, .ror)]
/-- R-type operations of opcode 0x3b. -/
def rvOp3b : List (Nat × Nat × RvOp) :=
  [(0x00, 0, .addw), (0x20, 0, .subw), (0x00, 1, .sllw), (0x00, 5, .srlw), (0x20, 5, .sraw),
   (0x01, 0, .mulw), (0x01, 4, .divw), (0x01, 5, .divuw), (0x01, 6, .remw), (0x01, 7, .remuw),
   (0x04, 0, .addUw), (0x10, 2, .sh1addUw), (0x10, 4, .sh2addUw), (0x10, 6, .sh3addUw), (0x30, 1, .rolw), (0x30, 5, .rorw)]
/-- Operations of opcodes 0x13 and 0x1b on one register, by opcode, funct3 and bits 31:20. -/
def rvUnary : List ((Nat × Nat × Nat) × RvOp) :=
  [((0x13, 1, 0x600), .clz), ((0x13, 1, 0x601), .ctz), ((0x13, 1, 0x602), .cpop), ((0x13, 1, 0x604), .sextB),
   ((0x13, 1, 0x605), .sextH), ((0x13, 5, 0x287), .orcB), ((0x13, 5, 0x6b8), .rev8),
   ((0x1b, 1, 0x600), .clzw), ((0x1b, 1, 0x601), .ctzw), ((0x1b, 1, 0x602), .cpopw)]
/-- Shifts by an immediate of 6 bits, by opcode, funct3 and bits 31:26. -/
def rvShift6 : List ((Nat × Nat × Nat) × RvOp) :=
  [((0x13, 1, 0x00), .sll), ((0x13, 5, 0x00), .srl), ((0x13, 5, 0x10), .sra), ((0x13, 5, 0x18), .ror),
   ((0x1b, 1, 0x02), .slliUw)]
/-- Shifts by an immediate of 5 bits, by funct3 and bits 31:25, of opcode 0x1b. -/
def rvShift5 : List ((Nat × Nat) × RvOp) := [((1, 0x00), .sllw), ((5, 0x00), .srlw), ((5, 0x20), .sraw), ((5, 0x30), .rorw)]
/-- Operations with an immediate of 12 bits, by opcode and funct3. -/
def rvImm12 : List ((Nat × Nat) × RvOp) :=
  [((0x13, 0), .add), ((0x13, 2), .slt), ((0x13, 3), .sltu), ((0x13, 4), .xor), ((0x13, 6), .or), ((0x13, 7), .and),
   ((0x1b, 0), .addw)]

/-- The operation of a row of a table. -/
def rvFind {α : Type} [BEq α] (k : α) (t : List (α × RvOp)) : Option RvOp := (t.find? fun r => r.1 == k).map (·.2)

/-- Opcodes 0x13 and 0x1b. -/
def rvDecodeImm (w op : Nat) : Option RvInstr :=
  let rd := rvBits w 7 5
  let f3 := rvBits w 12 3
  let a := rvBits w 15 5
  let i := rvBits w 20 12
  let sh (n : Nat) : DWord := BitVec.ofNat 64 (rvBits w 20 n)
  match rvFind (op, f3) rvImm12, rvFind (op, f3, i) rvUnary, rvFind (op, f3, rvBits w 26 6) rvShift6 with
  | some o, _, _ => some (.imm o rd a (rvSext 12 i))
  | _, some o, _ => some (.imm o rd a 0)
  | _, _, some o => some (.imm o rd a (sh 6))
  | _, _, _ => if op == 0x1b then (rvFind (f3, rvBits w 25 7) rvShift5).map fun o => .imm o rd a (sh 5) else none

/-- Opcodes 0x33 and 0x3b. -/
def rvDecodeReg (w op : Nat) : Option RvInstr :=
  let rd := rvBits w 7 5
  let a := rvBits w 15 5
  let b := rvBits w 20 5
  let f3 := rvBits w 12 3
  let f7 := rvBits w 25 7
  if op == 0x3b && f3 == 4 && f7 == 4 && b == 0 then some (.imm .zextH rd a 0)
  else ((if op == 0x33 then rvOp33 else rvOp3b).find? fun r => r.1 == f7 && r.2.1 == f3).map fun r => .reg r.2.2 rd a b

/-- The conditions by funct3. -/
def rvCond : Nat → Option RvCond
  | 0 => some .eq
  | 1 => some .ne
  | 4 => some .lt
  | 5 => some .ge
  | 6 => some .ltu
  | 7 => some .geu
  | _ => none

/-- The atomics by bits 31:27. -/
def rvAmo : Nat → Option LadleAccess
  | 0x00 => some .amoAdd
  | 0x01 => some .amoSwap
  | 0x02 => some .lr
  | 0x03 => some .sc
  | 0x04 => some .amoXor
  | 0x08 => some .amoOr
  | 0x0c => some .amoAnd
  | 0x10 => some .amoMin
  | 0x14 => some .amoMax
  | 0x18 => some .amoMinu
  | 0x1c => some .amoMaxu
  | _ => none

/-- The privilege modes: M for the monitor, U for handlers (R362). -/
inductive Priv where
  | machine | user
  deriving DecidableEq, Repr

/-- `misa`: MXL 2 with A, C, I, M and U (R362). -/
def misa : DWord := 0x8000000000101105

/-- A register that an instruction may read in a mode: U mode sees the two counters alone (R362). -/
def Priv.reads (p : Priv) (csr : Nat) : Bool := csr == 0xc00 || csr == 0xc02 || (p == .machine && csr == 0x301)

/-- Opcode 0x73 in U mode, in which every handler runs (R373): `ecall`, `ebreak`, and reads of the two counters; a write to one of
them, and every other register, is illegal (R362). -/
def rvSystem (w : Nat) (p : Priv := .user) : Option RvInstr :=
  let f3 := rvBits w 12 3
  let csr := rvBits w 20 12
  if w == 0x73 then some .ecall
  else if w == 0x00100073 then some .ebreak
  else if p.reads csr && (f3 == 2 || f3 == 3 || f3 == 6 || f3 == 7) && rvBits w 15 5 == 0 then
    some (.csr (rvBits w 7 5) csr)
  else none

/-- An instruction of 32 bits. -/
def rvDecode32 (w : Nat) : Option RvInstr :=
  let op := rvBits w 0 7
  let rd := rvBits w 7 5
  let f3 := rvBits w 12 3
  let a := rvBits w 15 5
  let b := rvBits w 20 5
  match op with
  | 0x37 => some (.lui rd (rvSext 32 (2 ^ 12 * rvBits w 12 20)))
  | 0x17 => some (.auipc rd (rvSext 32 (2 ^ 12 * rvBits w 12 20)))
  | 0x6f => some (.jal rd (rvSext 21
      (2 ^ 20 * rvBits w 31 1 + 2 ^ 12 * rvBits w 12 8 + 2 ^ 11 * rvBits w 20 1 + 2 * rvBits w 21 10)))
  | 0x67 => if f3 == 0 then some (.jalr rd a (rvSext 12 (rvBits w 20 12))) else none
  | 0x63 => (rvCond f3).map fun c => .branch c a b (rvSext 13
      (2 ^ 12 * rvBits w 31 1 + 2 ^ 11 * rvBits w 7 1 + 2 ^ 5 * rvBits w 25 6 + 2 * rvBits w 8 4))
  | 0x03 => if f3 == 7 then none else some (.load rd a (rvSext 12 (rvBits w 20 12)) (2 ^ (f3 % 4)) (f3 < 4))
  | 0x23 => if f3 ≥ 4 then none else some (.store a b (rvSext 12 (2 ^ 5 * rvBits w 25 7 + rd)) (2 ^ f3))
  | 0x13 => rvDecodeImm w 0x13
  | 0x1b => rvDecodeImm w 0x1b
  | 0x33 => rvDecodeReg w 0x33
  | 0x3b => rvDecodeReg w 0x3b
  | 0x0f => if f3 < 2 then some .fence else none
  | 0x73 => rvSystem w
  | 0x2f =>
    if f3 != 2 && f3 != 3 then none
    else (rvAmo (rvBits w 27 5)).bind fun k => if k == .lr && b != 0 then none else some (.amo k rd a b (2 ^ f3))
  | _ => none

/-! Encodings of 16 bits. -/

/-- A register of three bits: x8 to x15. -/
def rvReg3 (w lo : Nat) : Nat := 8 + rvBits w lo 3
/-- The immediate of six bits of a compressed instruction. -/
def rvImm6 (w : Nat) : Nat := 32 * rvBits w 12 1 + rvBits w 2 5

/-- Quadrant 0: addresses from sp, and loads and stores of words and doublewords. -/
def rvQuad0 (w : Nat) : Option RvInstr :=
  let rd := rvReg3 w 2
  let rs := rvReg3 w 7
  let word : DWord := BitVec.ofNat 64 (8 * rvBits w 10 3 + 4 * rvBits w 6 1 + 64 * rvBits w 5 1)
  let dword : DWord := BitVec.ofNat 64 (8 * rvBits w 10 3 + 64 * rvBits w 5 2)
  let i := 16 * rvBits w 11 2 + 64 * rvBits w 7 4 + 4 * rvBits w 6 1 + 8 * rvBits w 5 1
  match rvBits w 13 3 with
  | 0 => if i == 0 then none else some (.imm .add rd 2 (BitVec.ofNat 64 i))
  | 2 => some (.load rd rs word 4 true)
  | 3 => some (.load rd rs dword 8 true)
  | 6 => some (.store rs rd word 4)
  | 7 => some (.store rs rd dword 8)
  | _ => none

/-- Arithmetic of quadrant 1 on x8 to x15. -/
def rvQuad1Alu (w : Nat) : Option RvInstr :=
  let r := rvReg3 w 7
  let b := rvReg3 w 2
  let i := rvImm6 w
  match rvBits w 10 2, rvBits w 12 1, rvBits w 5 2 with
  | 0, _, _ => some (.imm .srl r r (BitVec.ofNat 64 i))
  | 1, _, _ => some (.imm .sra r r (BitVec.ofNat 64 i))
  | 2, _, _ => some (.imm .and r r (rvSext 6 i))
  | _, 0, 0 => some (.reg .sub r r b)
  | _, 0, 1 => some (.reg .xor r r b)
  | _, 0, 2 => some (.reg .or r r b)
  | _, 0, _ => some (.reg .and r r b)
  | _, _, 0 => some (.reg .subw r r b)
  | _, _, 1 => some (.reg .addw r r b)
  | _, _, _ => none

/-- Quadrant 1: immediates, jumps and branches. -/
def rvQuad1 (w : Nat) : Option RvInstr :=
  let r := rvBits w 7 5
  let i := rvImm6 w
  let jump := rvSext 12 (2 ^ 11 * rvBits w 12 1 + 2 ^ 4 * rvBits w 11 1 + 2 ^ 8 * rvBits w 9 2 + 2 ^ 10 * rvBits w 8 1
    + 2 ^ 6 * rvBits w 7 1 + 2 ^ 7 * rvBits w 6 1 + 2 * rvBits w 3 3 + 2 ^ 5 * rvBits w 2 1)
  let near := rvSext 9 (2 ^ 8 * rvBits w 12 1 + 2 ^ 3 * rvBits w 10 2 + 2 ^ 6 * rvBits w 5 2 + 2 * rvBits w 3 2
    + 2 ^ 5 * rvBits w 2 1)
  let frame := rvSext 10 (2 ^ 9 * rvBits w 12 1 + 2 ^ 4 * rvBits w 6 1 + 2 ^ 6 * rvBits w 5 1 + 2 ^ 7 * rvBits w 3 2
    + 2 ^ 5 * rvBits w 2 1)
  match rvBits w 13 3 with
  | 0 => some (.imm .add r r (rvSext 6 i))
  | 1 => if r == 0 then none else some (.imm .addw r r (rvSext 6 i))
  | 2 => some (.imm .add r 0 (rvSext 6 i))
  | 3 => if i == 0 then none else if r == 2 then some (.imm .add 2 2 frame) else some (.lui r (rvSext 18 (2 ^ 12 * i)))
  | 4 => rvQuad1Alu w
  | 5 => some (.jal 0 jump)
  | 6 => some (.branch .eq (rvReg3 w 7) 0 near)
  | _ => some (.branch .ne (rvReg3 w 7) 0 near)

/-- Quadrant 2: shifts, moves, register jumps, and accesses from sp. -/
def rvQuad2 (w : Nat) : Option RvInstr :=
  let r := rvBits w 7 5
  let b := rvBits w 2 5
  let at_ (n : Nat) : DWord := BitVec.ofNat 64 n
  match rvBits w 13 3 with
  | 0 => some (.imm .sll r r (at_ (rvImm6 w)))
  | 2 => if r == 0 then none else some (.load r 2 (at_ (32 * rvBits w 12 1 + 4 * rvBits w 4 3 + 64 * rvBits w 2 2)) 4 true)
  | 3 => if r == 0 then none else some (.load r 2 (at_ (32 * rvBits w 12 1 + 8 * rvBits w 5 2 + 64 * rvBits w 2 3)) 8 true)
  | 4 =>
    if rvBits w 12 1 == 0 then
      if b != 0 then some (.reg .add r 0 b) else if r == 0 then none else some (.jalr 0 r 0)
    else if b != 0 then some (.reg .add r r b)
    else if r == 0 then some .ebreak
    else some (.jalr 1 r 0)
  | 6 => some (.store 2 b (at_ (4 * rvBits w 9 4 + 64 * rvBits w 7 2)) 4)
  | 7 => some (.store 2 b (at_ (8 * rvBits w 10 3 + 64 * rvBits w 7 3)) 8)
  | _ => none

/-- An instruction from its first and its second halfword, with its length in bytes. -/
def rvDecode (lo hi : Nat) : Option (RvInstr × Nat) :=
  match lo % 4 with
  | 0 => (rvQuad0 lo).map fun i => (i, 2)
  | 1 => (rvQuad1 lo).map fun i => (i, 2)
  | 2 => (rvQuad2 lo).map fun i => (i, 2)
  | _ => (rvDecode32 (lo + 2 ^ 16 * hi)).map fun i => (i, 4)

/-! Execution. -/

/-- A register of the running invocation; x0 is zero. -/
def Inv.x (i : Inv) (n : Nat) : DWord := if n == 0 then 0 else i.xs.get n 0
/-- A register written; a write of x0 is discarded. -/
def Inv.setX (i : Inv) (n : Nat) (v : DWord) : Inv := if n == 0 then i else { i with xs := i.xs.set n v }
/-- The instruction has retired, and the next one stands at an address. -/
def Inv.retire (i : Inv) (next : DWord) : Inv := { i with pc := next, instret := i.instret + 1 }

/-- A loaded value of n bytes as its register holds it. -/
def rvExtend (n : Nat) (signed : Bool) (v : DWord) : DWord :=
  let k := v.toNat % 2 ^ (8 * n)
  if signed then rvSext (8 * n) k else BitVec.ofNat 64 k

/-- The value of a register (R362). -/
def Inv.csr (i : Inv) (n : Nat) : DWord :=
  if n == 0x301 then misa else BitVec.ofNat 64 (if n == 0xc00 then i.cycles - 1 else i.instret)

/-- The halfword of code at an address: a tenant's code stands in its own region (R363, R366). -/
def State.rvFetch (s : State) (sl a : Nat) : Option Nat :=
  if (s.slice sl).pmpAllows a 2 .fetch then some ((s.slice sl).sram.readN a 2) else none

/-- An access of the instruction, then its register and its retirement, unless the access ended the invocation. An access
that must wait leaves the instruction to be performed again (R377). -/
def State.rvAccess (s : State) (sl : Nat) (addr : DWord) (k : LadleAccess) (n : Nat) (v : DWord) (fin : Inv → Inv) : State :=
  match execGlobalApertureAccess sl addr k n v s with
  | .next s' =>
    match (s'.slice sl).inv with
    | some i => s'.modInv sl (fin i)
    | none => s'
  | _ => s

/-- One instruction of the handler performed. -/
def State.rvExec (s : State) (sl : Nat) (i : Inv) (ins : RvInstr) (len : Nat) : State :=
  let next := i.pc + BitVec.ofNat 64 len
  let put (rd : Nat) (v : DWord) : State := s.modInv sl ((i.setX rd v).retire next)
  match ins with
  | .lui rd v => put rd v
  | .auipc rd v => put rd (i.pc + v)
  | .jal rd off => s.modInv sl ((i.setX rd next).retire (i.pc + off))
  | .jalr rd rs off => s.modInv sl ((i.setX rd next).retire ((i.x rs + off) &&& ~~~1))
  | .branch c a b off => s.modInv sl (i.retire (if c.holds (i.x a) (i.x b) then i.pc + off else next))
  | .load rd rs off n signed =>
    s.rvAccess sl (i.x rs + off) .load n 0 fun i => (i.setX rd (rvExtend n signed i.data)).retire next
  | .store rs v off n => s.rvAccess sl (i.x rs + off) .store n (i.x v) fun i => i.retire next
  | .amo k rd rs v n =>
    s.rvAccess sl (i.x rs) k n (i.x v) fun i => (i.setX rd (rvExtend n true i.data)).retire next
  | .reg op rd a b => put rd (op.eval (i.x a) (i.x b))
  | .imm op rd a v => put rd (op.eval (i.x a) v)
  | .csr rd n => put rd (i.csr n)
  | .fence => s.modInv sl (i.retire next)
  | .ecall => s.ladleTrap sl i 8
  | .ebreak => s.ladleTrap sl i 3

/-- The Ladle core of a slice performs the next instruction of its invocation: one Ladle cycle (R377, log 6). None where
no handler runs, or its budget is used. -/
def State.ladleOn (s : State) (sl : Nat) : Option State :=
  match s.running sl with
  | none => none
  | some i =>
    if i.cycles ≥ i.budget then none else
    let i := { i with cycles := i.cycles + 1 }
    let s := s.modInv sl i
    some (match s.rvFetch sl i.pc.toNat with
      | none => s.ladleTrap sl i 1
      | some lo =>
        match (if lo % 4 == 3 then s.rvFetch sl (i.pc.toNat + 2) else some 0) with
        | none => s.ladleTrap sl i 1
        | some hi =>
          match rvDecode lo hi with
          | none => s.ladleTrap sl i 2
          | some (ins, len) => s.rvExec sl i ins len)

end Sys2Proof.Machine
end

