-- ==== Sys2Proof/Machine/Cycle.lean ====
section
/-!
DEFINITION. What one step of the package does: an event chosen from outside, or the issue slot of one core, or one event
that the state makes due (log 1, log 6). The parts that Step.lean calls.
-/
namespace Sys2Proof.Machine

/-! Issue. -/

/-- The wave at the issue slot meets a fault of fetch, or code that is no instruction: its lanes park (R42, R61, R125,
R325). TIMER at the tree boundary comes first (R34). -/
def State.failWave (s : State) (c : Nat) (w : Wave) (i : FaultInfo) : State :=
  let pc := s.wavePc c w
  let lanes := sortLanes (w.at_ c)
  let s := s.takeTimers lanes pc
  let ns := (lanes.filter s.live).map fun x => ({ lane := x, at_ := { pc := pc }, info := i } : Note)
  ((s.haltAll (ns.map (·.lane))).takeNotes ns).completeWave c w none { pc := pc, next := pc, preq := false } false

/-- The next state of an instruction, if it has one. -/
def nextOf (r : Result) : Option State :=
  match r with
  | .next s => some s
  | .fault _ => none
  | .refused _ => none

/-- No line of a slice raises a handler. -/
def State.untriggered (s : State) : State := { s with slices := s.slices.map fun (n, k) => (n, { k with trigs := [], quota := [16, 16, 16, 16] }) }
/-- The first line that came to stand in a slice from s to t and whose miss raises a handler, with its class. -/
def State.newMiss (s t : State) : Option (Nat × Nat × Nat) :=
  (t.slices.flatMap fun (n, k) => k.lines.map fun (l, y) => (n, l, y.cls)).find? fun (n, l, _) =>
    let k := s.slice n
    k.missTriggers l && k.absent n l
/-- The miss of a line raised under a class: its miss handler, or its fill handler where it has no other. -/
def State.missNow (s : State) (n l cls : Nat) : Option State := (s.raiseLine n l .miss cls).or (s.raiseLine n l .fill cls)
/-- No queue of a slice holds an invocation. -/
def State.emptyQueues (s : State) : State := { s with slices := s.slices.map fun (n, k) => (n, { k with queue := [] }) }
/-- The first slice that from s to t puts a line in its victim buffer, and whose queue has no room for its handler in s. -/
def State.fullVictim (s t : State) : Option Nat :=
  (t.slices.map (·.1)).find? fun n =>
    let k := s.slice n
    k.queue.length ≥ 64 && !k.stalled && (t.slice n).victims.any fun l => !k.victims.contains l
/-- An attempt that fails because it reaches a line whose miss raises a handler raises it; one that fails because the handler of an
eviction finds the queue full stalls the slice (R370, R372, log 29). -/
def State.raiseMiss (s : State) (f : State → Option State) : Option State :=
  if s.slices.all fun (_, k) => k.trigs.isEmpty then none
  else ((f s.untriggered).bind fun t => (s.newMiss t).bind fun (n, l, cls) => s.missNow n l cls).or
    ((f s.emptyQueues).bind fun t => (s.fullVictim t).map fun n => s.modSlice n fun k => { k with stall := 1 })

/-- The issue slot of a core acts: the wave that issues next goes on with its instruction, or begins the one fetched at
its address (R316). None where no wave can issue. -/
def State.issueOn (s : State) (c : Nat) : Option State :=
  match s.issuer c with
  | none => none
  | some w =>
    match w.ins with
    | some i => nextOf (exec i { s with turn := c })
    | none =>
      match s.fetch c (s.team c w.team).part (s.wavePc c w).toNat with
      | .ok i s => nextOf (exec i { s with turn := c })
      | .fault va k s => some (s.failWave c w (fetchFault va k))
      | .bad k s => some (s.failWave c w { cause := k })
      | .blocked => s.raiseMiss fun s =>
          match s.fetch c (s.team c w.team).part (s.wavePc c w).toNat with
          | .ok _ s | .fault _ _ s | .bad _ s => some s
          | .blocked => none

/-- Cores that hold a wave, from the core in turn on. -/
def State.turns (s : State) : List Nat :=
  let cs := (s.cores.filter fun (_, k) => !k.waves.isEmpty).map (·.1)
  cs.filter (fun c => s.turn ≤ c) ++ cs.filter fun c => c < s.turn

/-- The first core of a list whose issue slot acts; the core after it is next in turn. -/
def State.issueFirst (s : State) : List Nat → Option State
  | [] => none
  | c :: cs =>
    match s.issueOn c with
    | some s => some { s with turn := c + 1 }
    | none => s.issueFirst cs

/-- Slices whose Ladle core runs a handler, from a place in the order on. -/
def State.ladleTurns (s : State) (n : Nat) : List Nat :=
  let ns := (s.slices.filter fun (_, k) => k.inv.isSome).map (·.1)
  ns.drop (n % (ns.length + 1)) ++ ns.take (n % (ns.length + 1))

/-- The first Ladle core of a list that performs an instruction. -/
def State.ladleFirst (s : State) : List Nat → Option State
  | [] => none
  | n :: ns =>
    match s.ladleOn n with
    | some s => some s
    | none => s.ladleFirst ns

/-! Events. -/

/-- The lanes of a team, in order. -/
def Team.lanes (k : Team) (c t : Nat) : List (Lane × Thread) :=
  k.groups.flatMap fun (g, q) => q.threads.map fun (l, th) => ({ c := c, t := t, g := g, l := l }, th)

/-- What a waiting lane may be answered with. -/
def waitEvents (x : Lane) (w : Wait) : List Instr :=
  match w with
  | .walk va a => [.translationWalk x.c (BitVec.ofNat 48 va) a]
  | .chanEmpty _ | .chanFull _ => [.channelResume x.c x.t x.g x.l]
  | .future _ _ _ => [.futureResume x.c x.t x.g x.l]
  | .waitbar => [.waitbarResume x.c x.t x.g x.l]
  | .icinv => [.icinvComplete x.c x.t x.g x.l]
  | .collective | .barrier _ => []
  | .reply | .count | .fswait | .walkFault _ _ | .line _ | .dispatcher => [.waitResume x.c x.t x.g x.l]
  | .turn => []

/-- The events of a lane: replies, acknowledgements, appends and resumption. -/
def laneEvents (x : Lane) (th : Thread) : List Instr :=
  ((List.range th.loads.length).map fun i => Instr.loadReply x.c x.t x.g x.l i)
    ++ ((List.range th.stores.length).flatMap fun i => [Instr.storeAck x.c x.t x.g x.l i, Instr.peerSendAppend x.c x.t x.g x.l i])
    ++ match th.pos.wait with
      | some w => waitEvents x w
      | none => []

/-- The events of a team. -/
def teamEvents (c t : Nat) (k : Team) : List Instr :=
  (k.bars.map fun b => Instr.barrierOpen c t b.kind)
    ++ (k.groups.flatMap fun (g, q) => q.colls.map fun y => Instr.collectiveComplete c t g y.pc)
    ++ ((k.lanes c t).flatMap fun (x, th) => laneEvents x th) ++ [.teamSave c t]

/-- The events of a core. -/
def coreEvents (c : Nat) (k : Core) : List Instr :=
  (k.teams.flatMap fun (t, m) => teamEvents c t m)
    ++ ((List.range k.replies.length).flatMap fun i => (k.replies[i]?.toList).map fun r => Instr.lmsgReply c r.team r.group r.lane i)
    ++ [.mqrunBlock c, .engineOpStart c .matrix 1, .engineOpStart c .pour 1, .engineOpComplete c .matrix, .engineOpComplete c .pour]
    ++ k.recs.filterMap fun r => if r.written.isNone then some (.trapRecordWrite (k.teams.get r.teamSlot Team.none).part r.id) else none

/-- The events of a partition: its dispatcher, its trap queue and its TLB invalidation. -/
def partEvents (p : Nat) (q : Part) (cores : List Nat) : List Instr :=
  (q.events.map fun r => Instr.trapRecordWrite p r.id)
    ++ [.launchPacketRead p, .launchPlace p, .restorePlace p, .tlbInvComplete p]
    ++ (q.nodes.flatMap fun (n, _) => [Instr.nodeFinish p n, .taskLaunch p n 0] ++ cores.map fun c => .copyNodeDispatch p n c)
    ++ (q.scopes.map fun (n, _) => Instr.scopeComplete p n) ++ q.grids.map fun (g, _) => .gridEnd p g

/-- The events of a slice: the invocation at the head of its queue begins, and lines of a page that is being invalidated leave
it (R370, R372). -/
def State.sliceEvents (s : State) (n : Nat) (k : Slice) : List Instr :=
  (match k.queue with
    | [] => []
    | i :: _ => match i.kind with
      | .miss => [Instr.ladleMiss n i.line]
      | .fill => [.ladleFill n i.line]
      | .evict => [.ladleEviction n i.line]
      | .message => [.ladleMessage n])
    ++ if s.parts.all fun (_, q) => !q.tlbInvGo then []
      else (k.lines.filter fun (l, _) => s.invalidating l && (k.liveTrigger l).any (·.getLsbD 84)).map fun (l, _) => .ladleEviction n l

/-- The events that the state may answer with next, beside the issue slots. -/
def State.events (s : State) : List Instr :=
  (s.flasks.map fun (f, _) => Instr.pavaneReleaseStep f)
    ++ (s.cores.flatMap fun (c, k) => coreEvents c k ++ [.activeSetRotate c])
    ++ (s.parts.flatMap fun (p, q) => partEvents p q (s.cores.map (·.1)))
    ++ s.slices.flatMap fun (n, k) => s.sliceEvents n k

/-- What a lane that waits would do, for the lines that it reaches. -/
def State.tried (s : State) (x : Lane) : Option State := (s.waveOf x).bind fun w => (s.attempt w x).map (·.1)
/-- An event that can occur, or the handler of a miss that it raises first. -/
def State.occurs (s : State) (i : Instr) : Option State :=
  (nextOf (exec i s)).or (s.raiseMiss fun s => match i with
    | .waitResume c t g l => s.tried { c := c, t := t, g := g, l := l }
    | _ => nextOf (exec i s))

/-- The first event of a list that can occur. -/
def State.firstOf (s : State) : List Instr → Option State
  | [] => none
  | i :: is =>
    match s.occurs i with
    | some s => some s
    | none => s.firstOf is

/-- The list begun at another place, so that every event has its turn. -/
def rotate {α : Type} (n : Nat) (xs : List α) : List α := xs.drop (n % (xs.length + 1)) ++ xs.take (n % (xs.length + 1))

/-! Time. -/

/-- Collectives and barriers of a team: on a deterministic core they end as soon as they can (R320). -/
def Team.meetings (k : Team) (c t : Nat) : List Instr :=
  (k.groups.flatMap fun (g, q) => q.colls.map fun y => Instr.collectiveComplete c t g y.pc)
    ++ k.bars.map fun b => Instr.barrierOpen c t b.kind
/-- The events of a team whose moment may have come: alarms, limits and deadlines (R34, R165, R192, R335). -/
def Team.due (k : Team) (c t : Nat) : List Instr :=
  (k.groups.flatMap fun (g, q) => (if q.alarm == 0 then [] else [Instr.timer c t g]) ++ q.colls.map fun y => Instr.collTimeout c t g y.pc)
    ++ (k.bars.map fun b => Instr.barTimeout c t b.kind) ++ if k.preqAt.isSome then [.preForced c t] else []
/-- Those of a core, with the bins that drain: each by its place as those before it have left (R318, R320). -/
def State.coreDue (s : State) (c : Nat) (k : Core) : List Instr :=
  let old := (k.bins.zipIdx.filter fun (b, _) => s.binDue c b).map (·.2)
  (k.teams.flatMap fun (t, m) => m.due c t) ++ old.zipIdx.map fun (i, j) => Instr.quadrilleAgeDrain c (i - j)
/-- Those of a die: leases that have run out, and lines at the bound of their age (R268, R274). -/
def State.dieDue (s : State) (d : Nat) (k : Die) : List Instr :=
  ((k.leases.filter fun x => x.expiry ≤ s.now).map fun x => Instr.leaseExpiry d x.core x.line)
    ++ (k.lines.filter fun (_, l) => l.at_ + l.age ≤ s.now).map fun (n, _) => .ageWriteback d n
/-- The events whose moment in time may have come. -/
def State.due (s : State) : List Instr :=
  (s.cores.flatMap fun (c, k) => s.coreDue c k) ++ (s.dies.flatMap fun (d, k) => s.dieDue d k)
    ++ (s.slices.filter fun (_, k) => k.inv.isSome).map fun (n, _) => Instr.ladleOverrun n

/-- Each event of a list that can occur does. -/
def State.allOf (s : State) (is : List Instr) : State := is.foldl (fun s i => (s.occurs i).getD s) s

/-- What a core does by itself: writes that wait for leases, records that lanes joined, banks that drain (R268, R277, R326,
log 6), and on a deterministic core what makes a wave Ready (R320). -/
def State.coreGoes (s : State) (c : Nat) : State :=
  let k := s.core c
  let s := if k.writes.isEmpty then s else s.drainWrites c k.writes []
  let s := if k.recs.any (·.joined) then s.rewriteRecs c else s
  let s := if s.now % 16 == 0 && k.banks.any fun (_, r) => r.drain then s.modCore c (·.endDrain) else s
  if !k.det then s else (s.allOf (k.teams.flatMap fun (t, m) => m.meetings c t)).readyWaves c

/-- Nodes that a failure stopped are registered again (R403). -/
def State.nodesAgain (s : State) : State :=
  (s.parts.filter fun (_, q) => q.nodes.any (·.2.again)).foldl (fun s (p, _) => s.reregisterAll p) s

/-- What comes with time: what cores do by themselves, nodes registered again, host accesses that wait, and every event whose
moment has come. -/
def State.elapse (s : State) : State :=
  let s := ((s.cores.map (·.1)).foldl (fun s c => s.coreGoes c) s).nodesAgain.hostRetry
  s.allOf s.due

/-- One unit of time passes, with all that comes with it; counters of issue cycles count it (R29, R408, log 6). -/
def State.tick (s : State) : State :=
  let s := { s with now := s.now + 1 }
  let s := if s.cores.all fun (_, k) => k.evsel.isEmpty then s
    else { s with cores := s.cores.map fun (c, k) => (c, k.count 0x01 64 1) }
  s.elapse

/-! One step. -/

/-- A store or access that the code of a Ladle handler performs (R364, R374). -/
def Instr.ofHandler : Instr → Bool
  | .done _ _ | .fwda0 _ _ | .fwda1 _ _ | .fwd _ _ | .posth _ _ | .post _ _ | .prefLadle _ _ => true
  | .globalApertureAccess _ _ _ _ _ => true
  | _ => false

/-- A row of the device, the dispatcher or the host: no code that a core fetches or a handler runs performs it. -/
def Instr.isEvent (i : Instr) : Bool := (encode i).isNone && !Instr.ofHandler i

/-- An event chosen from outside occurs, where it can; code does not come from there (log 1). -/
def State.fromOutside (s : State) (i : Instr) : Result :=
  if !Instr.isEvent i then .next s
  else
    match exec i s with
    | .next s => .next s
    | .fault r => .fault r
    | .refused _ => .next s

/-- The kinds of activity, in the order of a turn: issue slots, events, Ladle cores. -/
def State.activity (s : State) : Nat → Option State
  | 0 => s.issueFirst s.turns
  | 1 => s.firstOf (rotate (s.now / 3) s.events)
  | _ => s.ladleFirst (s.ladleTurns (s.now / 3))

/-- Without a choice from outside: issue slots, events and Ladle cores in turn (log 1). -/
def State.onward (s : State) : State :=
  (((s.activity (s.now % 3)).or (s.activity ((s.now + 1) % 3))).or (s.activity ((s.now + 2) % 3))).getD s

/-- The issue slot that the schedule names, by core, or by 1,152 + slice for a Ladle core. -/
def State.scheduled (s : State) (c : Nat) : State :=
  (if c < 1152 then s.issueOn c else s.ladleOn (c - 1152)).getD s

/-- One step: the next event of the agenda, or the issue slot of the next core of the schedule, or onward; then time
passes. -/
def State.cycle (s : State) : Result :=
  match s.agenda with
  | i :: rest =>
    match ({ s with agenda := rest } : State).fromOutside i with
    | .next s => .next s.tick
    | r => r
  | [] =>
    match s.sched with
    | c :: rest =>
      let s := { s with sched := rest }
      .next (s.scheduled c).tick
    | [] => .next s.onward.tick

/-! An instruction placed where the next fetch reads it. -/

/-- One slot of code at a physical address: at its home, and in the die cache of a core that holds the line. -/
def State.putSlot (s : State) (c pa v : Nat) : State :=
  let line := lineOf pa
  let s := { s with mem := s.mem.writeN pa 8 v, poison := s.poison.filter (· != line) }
  match (s.die (coreDie c)).lines.find? line with
  | none => s
  | some l => s.setLine (coreDie c) line { l with data := lineSet l.data (pa % 128) 8 v, poisoned := false }

/-- Where the placed code, its page table and its frame stand. -/
def codeVa : Nat := 0x10000
def codeFrame : Nat := 0x13
def tableTop : Nat := 0x10

/-- The slots of an instruction written from an address of code on, translated slot by slot. -/
def State.putSlots (s : State) (c p va : Nat) : List Nat → State
  | [] => s
  | v :: vs =>
    let s := match s.translateNow c p va .fetch [] with
      | .ok x s => (s.putSlot c (x.pa va) v).modCore c fun k => k.dropLines p va (va + 8)
      | _ => s
    s.putSlots c p (va + 8) vs

/-- A team of one thread that stands at an address: a launch of its own, every resource granted. -/
def placedTeam : Team :=
  let d : Desc := { entry := BitVec.ofNat 48 codeVa, regs := 224, aff := 8, scrb := 1, chan := 1, acc := 15 }
  let k : Team := { part := 0, grid := 0, launch := 1, index := 0, cluster := 0, desc := d, regBanks := [0], scrBanks := [1],
                    fifoBanks := [2], tiles := 15 }
  let th : Thread := { pc := d.entry, rentry := d.entry }
  let off : Thread := { th with run := .exited }
  { k with groups := [(0, { threads := (List.range 32).map fun l => (l, if l == 0 then th else off), fmts := List.replicate 8 0 })] }

/-- A core that holds such a team and its wave. -/
def placedCore (now : Nat) : Core :=
  { banks := [(0, { role := 1 }), (1, { role := 3 }), (2, { role := 4 })], teams := [(0, { placedTeam with placedAt := now })],
    active := [{ team := 0, lanes := [(0, 0)] }] }

/-- A core without teams is given such a team, with a page table of partition 0 that maps its code (R289, R290). -/
def State.placeTeam (s : State) (c : Nat) : State :=
  let leaf := codeFrame * 2 ^ 16 + 0xf1d
  let mem := ((s.mem.writeN (tableTop * 2 ^ 16) 8 (0x110000 + 1)).writeN 0x110000 8 (0x120000 + 1)).writeN (0x120000 + 8) 8 leaf
  let g : Grid := { launch := 1, packet := 0, placed := true, teamsLeft := 1 }
  let s := { s with mem := mem, cores := s.cores.set c (placedCore s.now) }
  s.modPart 0 fun q => { q with ptTop := BitVec.ofNat 32 tableTop, grids := q.grids.set 0 g }

/-- The machine about to fetch the slots: the wave at the issue slot of the core in turn reads them, or a team made for
it on a core without teams (log 1). -/
def State.place (s : State) (ws : List Nat) : State :=
  let s := { s with agenda := [] }
  let ready : Option Wave := match s.issuer s.turn with
    | some w => if w.ins.isNone then some w else none
    | none => none
  match ready with
  | some w => ({ s with sched := [s.turn] } : State).putSlots s.turn (s.team s.turn w.team).part (s.wavePc s.turn w).toNat ws
  | none =>
    let c := ((List.range 1152).find? fun c => (s.core c).teams.isEmpty).getD s.turn
    (({ s with sched := [c], turn := c } : State).placeTeam c).putSlots c 0 codeVa ws

/-- The slots of an instruction from bits numbered as the opcode table numbers them; bits above nbits are zero, up to a
tree of eight slots (R42). -/
def tableSlots (nbits w : Nat) : List Nat := (List.range 8).map fun i => w % 2 ^ nbits / 2 ^ (64 * i) % 2 ^ 64

end Sys2Proof.Machine
end

