-- ==== Sys2Proof/Machine/Step.lean ====
section
/-!
DEFINITION. One step of the package, and an instruction stored where the next step fetches.
-/
namespace Sys2Proof.Machine

/-- One step (log 1, log 6). -/
def step (s : State) : Host.Outcome State Fault Refusal := s.cycle

/-- The state with an instruction of the opcode table, in its numbering of bits, where the next step fetches it. -/
def State.withFetchWord (s : State) (nbits w : Nat) : State := s.place (tableSlots nbits w)

end Sys2Proof.Machine
end

