-- ==== Sys2Proof/Safety.lean ====
section
/-!
DEFINITION. The terms of the statements: a lane about to perform an instruction, the machine before and after that, which
states show the same machine, and the canonical form of memory.
-/
namespace Sys2Proof.Machine

/-- A core without the order of its waves and its event counters. -/
def Core.quiet (k : Core) : Core := { k with active := [], pending := [], evcnt := [] }

/-- Two states show the same machine: every part agrees but for the order in which waves issue, the event counters (R408),
and the model's own bookkeeping of choices (log 1, log 5). -/
structure Same (s t : State) : Prop where
  mem : s.mem = t.mem
  poison : s.poison = t.poison
  openMem : s.openMem = t.openMem
  core : ∀ c, (s.core c).quiet = (t.core c).quiet
  dies : s.dies = t.dies
  slices : s.slices = t.slices
  parts : s.parts = t.parts
  flasks : s.flasks = t.flasks
  pkg : s.pkg = t.pkg
  now : s.now = t.now
  nextMsg : s.nextMsg = t.nextMsg

/-- An operation that does nothing, for checks that depend on the fields alone. -/
def idle : SlotSem := fun _ _ s => (s, [])

/-- A lane is the only one of the wave that issues next on the core in turn, at the beginning of an instruction; the
instruction meets no decode condition (R61, R62) and no TIMER is owed (R34). -/
def State.begins (s : State) (i : Instr) (f : OpF) (sh : Shape) (x : Lane) : Bool :=
  let th := s.thread x
  s.turn == x.c
    && (match s.issuer x.c with
      | some w => w.team == x.t && w.lanes == [(x.g, x.l)] && w.ins.isNone
      | none => false)
    && th.run == .ready && th.pos == {} && !th.timerDue
    && (i.codeFault (s.team x.c x.t).nG (s.team x.c x.t).nA).isNone
    && (s.laneFault x { slots := [{ f := f, sh := sh, sem := idle }] }).isNone

/-- A lane is the only one of the wave that issues next on the core in turn, at the beginning of an instruction, and no TIMER
is owed (R34). -/
def State.alone (s : State) (x : Lane) : Bool :=
  let th := s.thread x
  s.turn == x.c
    && (match s.issuer x.c with
      | some w => w.team == x.t && w.lanes == [(x.g, x.l)] && w.ins.isNone
      | none => false)
    && th.run == .ready && th.pos == {} && !th.timerDue

/-- Where the operation of slot n stands in an instruction of several operations. -/
def SlotRun.env (r : SlotRun) (c : Ctx) (tree rep : Bool) (n : Nat) (s : State) : Env :=
  { f := r.f, sh := r.sh, slot := n, level := if rep then 0 else arcLevel r.arc, tree := tree, rep := rep, pc := c.pc,
    next := c.next, preq := c.preq, imm2 := r.imm2, immOff := r.immOff, pre := s }

/-- The lane performed an operation and goes on: it neither waits nor stopped. -/
def State.goesOn (s : State) (x : Lane) (n : Nat) : Prop :=
  (s.thread x).pos.wait = none ∧ (s.thread x).pos.stopped = false ∧ (s.thread x).pos.uni = none ∧ (s.thread x).pos.slot ≤ n

/-- One lane goes from s along its path through the operations from number n on and ends in u: the tests that a level needs
are evaluated as the path reaches it, an operation whose arc stands on the path is performed, any other is skipped (R107,
R108). -/
def goes (c : Ctx) (h : Option TreeHeader) (rep : Bool) (x : Lane) : List SlotRun → Nat → State → State → Prop
  | [], _, s, u => u = s
  | r :: rs, n, s, u =>
    let s := match h with
      | none => s
      | some h => s.modThread x fun th => { th with pos := evalTests h (arcLevel r.arc) th }
    r.bad = false ∧
      if onArc (s.thread x).pos r.arc then
        ∃ v, r.sem (r.env c h.isSome rep n s) [x] s = (v, []) ∧ v.goesOn x (n + 1) ∧ goes c h rep x rs (n + 1) v u
      else goes c h rep x rs (n + 1) (s.modPos x fun p => { p with slot := n + 1 }) u

/-- The machine once the issue is counted (R408): what uniform registers and special registers read. -/
def State.opened (s : State) (x : Lane) : State := (s.count x.c 0x02 x.t 1).count x.c 0x04 x.t 1

/-- The lane of a wave of its own performs an instruction of several operations, which ends in u. -/
def State.walks (s : State) (i : Instr) (x : Lane) (b : Body) (u : State) : Prop :=
  s.alone x = true ∧ i.codeFault (s.team x.c x.t).nG (s.team x.c x.t).nA = none ∧ s.laneFault x b = none
    ∧ goes { pc := (s.thread x).pc, next := (s.thread x).pc + BitVec.ofNat 48 i.bytes,
             preq := (s.team x.c x.t).preqAt.isSome } b.header b.rep x b.slots 0 (s.opened x) u
    ∧ (u.thread x).pos.brk = none ∧ (u.thread x).pos.yield = false ∧ (u.thread x).run = .ready

/-- The machine as the operation of the lane is about to be performed, its bypass empty (R112). -/
def State.atOp (s : State) (x : Lane) : State := (s.opened x).modPos x fun p => { p with hist := [[]] }

/-- The operation of a straight instruction in the lane. -/
def State.envOf (s : State) (i : Instr) (f : OpF) (sh : Shape) (x : Lane) : Env :=
  let pc := (s.thread x).pc
  { f := f, sh := sh, slot := 0, pc := pc, next := pc + BitVec.ofNat 48 i.bytes,
    preq := (s.team x.c x.t).preqAt.isSome, pre := s.opened x }

/-- The operation of an instruction with one operation slot and no long immediate. -/
def State.env (s : State) (i : Instr) (f : OpF) (x : Lane) : Env := s.envOf i f i.shape x

/-- The lane waits for no future slot any more. -/
def State.leaveQueue (s : State) (x : Lane) : State :=
  if (s.team x.c x.t).futWait.isEmpty then s
  else s.modTeam x.c x.t fun k => { k with futWait := k.futWait.filter fun w => !(w.2.2.1 == x.g && w.2.2.2 == x.l) }

/-- The instruction is complete in the lane: a uniform destination is written (R21), and the lane stands at the next
instruction or at the address of a far transfer (R110, R126). -/
def State.landed (s : State) (e : Env) (x : Lane) : State :=
  let s := match (s.thread x).pos.uni with
    | some v => s.setK x e.pairDst e.f.d.toNat v
    | none => s
  s.modThread x fun th => { th with run := .ready, pc := th.pos.far.getD e.next, pos := {} }

/-- An operation of one lane is performed, and with it the instruction (R109, R110). -/
def State.completed (s : State) (e : Env) (x : Lane) : State := (s.leaveQueue x).landed e x

/-- What the lane reads as the sources of the operation, its destination able to take a result; none where it waits or
faults (R38, R143, R430). -/
def State.sources (s : State) (e : Env) (x : Lane) : Option Src :=
  match (dstReady e x (s.atOp x)).bind fun _ => readSrcs e x (s.atOp x) with
  | .ok v => some v
  | _ => none

/-- The machine after an operation has written its result: its flags recorded (R32), its channels popped (R143), its
destination written (R46), and the instruction complete. -/
def State.result (s : State) (e : Env) (x : Lane) (v : Src) (r : DWord) (fl : Flags) : State :=
  (writeDst e x r (((s.atOp x).setFlags x fl).popAll x v.pops)).completed e x

/-- An operation that meets the flags traps (R33). -/
def State.traps (s : State) (x : Lane) (fl : Flags) : Bool := fl &&& (s.group x.c x.t x.g).trapen != 0

/-- A lane that is to perform i, can read its sources as v and meets no enabled arithmetic condition completes it: the
flags of the result are recorded, the popped channels advance, the value is written to the destination. -/
def YieldsIn (i : Instr) (f : OpF) (r : State → Lane → Src → Calc) : Prop :=
  ∀ (s : State) (x : Lane) (v : Src), s.begins i f i.shape x = true → s.sources (s.env i f x) x = some v →
    s.traps x (r s x v).fl = false →
    ∃ t, exec i s = .next t ∧ Same t (s.result (s.env i f x) x v (r s x v).val (r s x v).fl)

/-- The same for a result that depends on the sources alone. -/
def Yields (i : Instr) (f : OpF) (r : Src → Calc) : Prop := YieldsIn i f fun _ _ => r

/-- The lane completes i: exec answers a next state, and it shows the machine u with the instruction complete. -/
def State.ends (s : State) (i : Instr) (f : OpF) (x : Lane) (u : State) : Prop :=
  ∃ t, exec i s = .next t ∧ Same t (u.completed (s.env i f x) x)

/-- The lane is to perform i and can read its sources as v. -/
def State.able (s : State) (i : Instr) (f : OpF) (x : Lane) (v : Src) : Prop :=
  s.begins i f i.shape x = true ∧ s.sources (s.env i f x) x = some v

/-! Integers as the spec's types read them (R75, R76), over bit vectors of the width of the type. -/

/-- A source read as a type: its low bits, signed or not. -/
def typeValue (t : Nat) (v : DWord) : Int :=
  let a : BitVec (typeBits t) := v.setWidth (typeBits t)
  if typeSigned t then a.toInt else a.toNat

/-- A bit pattern of a type extended for its register (R75). -/
def typeExtend (t : Nat) (a : BitVec (typeBits t)) : DWord := if typeSigned t then a.signExtend 64 else a.setWidth 64

/-- The ends of the range of a type. -/
def typeLow (t : Nat) : Int := if typeSigned t then -(2 ^ (typeBits t - 1) : Nat) else 0
def typeHigh (t : Nat) : Int := if typeSigned t then (2 ^ (typeBits t - 1) : Nat) - 1 else (2 ^ typeBits t : Nat) - 1

/-- An exact result put into a type: reduced modulo 2^w, or clamped with SAT (R145). -/
def typeResult (t : Nat) (sat : Bool) (z : Int) : Calc :=
  if sat && decide (z < typeLow t) then { val := typeExtend t (BitVec.ofInt _ (typeLow t)), fl := flSAT }
  else if sat && decide (typeHigh t < z) then { val := typeExtend t (BitVec.ofInt _ (typeHigh t)), fl := flSAT }
  else { val := typeExtend t (BitVec.ofInt _ z) }

/-- The number below 2^w whose bit i is p i. -/
def bitsOf (w : Nat) (p : Nat → Bool) : DWord :=
  (List.range w).foldl (fun acc i => if p i then acc ||| (1#64 <<< i) else acc) 0

/-! Numbers in their order (R122, R155), and rounding to an integer (R79, R91). -/

/-- a lies below b: neither is NaN, and -0 does not lie below +0. Finite numbers are compared over a common power of two. -/
def below (a b : Sys2Proof.Num) : Prop :=
  match a, b with
  | .nan _, _ | _, .nan _ => False
  | .inf x, .inf y => x = true ∧ y = false
  | .inf x, _ => x = true
  | _, .inf y => y = false
  | .fin n m e, .fin k l d => numerAt n m e (min e d) < numerAt k l d (min e d)

/-- a and b are equal numbers, as -0 and +0 are. -/
def equal (a b : Sys2Proof.Num) : Prop :=
  match a, b with
  | .inf x, .inf y => x = y
  | .fin n m e, .fin k l d => numerAt n m e (min e d) = numerAt k l d (min e d)
  | _, _ => False

/-- v is the quotient of z by a positive d rounded to an integer under a mode (R50): to nearest with ties to even, toward zero,
down, or up. -/
def roundsTo (rnd : Nat) (z : Int) (d : Nat) (v : Int) : Prop :=
  match rnd with
  | 0 => 2 * (v * d - z).natAbs ≤ d ∧ (2 * (v * d - z).natAbs = d → v % 2 = 0)
  | 1 => v = Int.tdiv z d
  | 2 => v * d ≤ z ∧ z < (v + 1) * d
  | _ => (v - 1) * d < z ∧ z ≤ v * d

/-- The lane goes on after an exception as the exception left it: parked, or at its handler (R117, R325). -/
def State.ended (s : State) (x : Lane) : State := s.modPos x fun p => { p with stopped := false }

/-- The canonical form of memory: addresses strictly rising, no byte listed that reads as an unlisted one. -/
def State.canonical (s : State) : Prop := s.mem.wf = true

/-- The same of the banked stores, accumulator memories and local SRAMs. -/
def State.tidy (s : State) : Prop :=
  (∀ c, (s.core c).store.wf = true ∧ (s.core c).acc.wf = true) ∧ ∀ n, (s.slice n).sram.wf = true

/-- The byte at a physical address as agents of a die see it: in the die cache where it holds the line, else at the home
(R267, R271). -/
def State.view (s : State) (d a : Nat) : Byte :=
  match (s.die d).lines.find? (lineOf a) with
  | some l => BitVec.ofNat 8 (lineBytes l.data (a % 128) 1)
  | none => s.mem.read a

end Sys2Proof.Machine
end

