-- ==== Sys2Proof/Certificates/Slice0/Obligations.lean ====
section
/-!
DEFINITION. The statements for the provers. Each docstring names the rules it formalises; a clause that rests on a choice
of the model names its log entry.
-/
open Sys2Proof Sys2Proof.Machine

/-- R269, R276, R281, R287, R301, R319, R323, R333, R365, R406, R407: reset values. That memory reads 0 and that queues and
sets are empty is the model's choice (log 2, log 3). -/
def Obligations.ResetState : Prop :=
  ∀ c p n b a : Nat,
    let s := State.reset
    let k := s.core c
    let q := s.part p
    s.mem.wf = true ∧ s.mem.read a = 0 ∧ s.now = 0
      ∧ k.teams = [] ∧ k.active = [] ∧ k.pending = [] ∧ k.mq = [] ∧ k.pq = [] ∧ k.recs = []
      ∧ k.l1 = [] ∧ k.writes = [] ∧ k.code = [] ∧ k.tlb = []
      ∧ (k.banks.get b {}).role = 2 ∧ (k.banks.get b {}).cec = 0 ∧ k.retireTh = 0x0100 ∧ k.qdAge = 0x0100
      ∧ (s.die n).lines = [] ∧ (s.die n).leases = [] ∧ (s.die n).leaseLen = 0x0400 ∧ (s.die n).leaseAge = 0x040
      ∧ (s.die n).quota = [16, 16, 16, 16] ∧ (s.slice n).quota = [16, 16, 16, 16] ∧ (s.slice n).run = false
      ∧ ((s.slice n).tenants.get b {}).en = false ∧ ((s.slice n).tenants.get b {}).budget = 0x0800
      ∧ (s.flask n).gap = 0x0020 ∧ (s.flask n).step = 0x40
      ∧ q.lqEn = false ∧ q.tqEn = false ∧ q.preDeadline = 0x00010000 ∧ q.nextLaunch = 1 ∧ q.ptTop = 0
      ∧ s.pkg.thermTrip = 0x6e0 ∧ s.pkg.thermSoft = 0x5f0 ∧ s.pkg.pwrCap = 4800 ∧ s.pkg.owner = 0

/-- R42, R44, R47, R49, R52, R55: words written from the spec's encodings. -/
def Obligations.DecodesWritten : Prop :=
  decode [0x0000400a03000085] = .ok (.add { tr := false, d := 4, dc := false, s1 := 5, s2 := 6, s3 := 0, mod := 0x85 })
    ∧ decode [0x0400300802800405] = .ok (.cmp { tr := false, d := 3, dc := false, s1 := 4, s2 := 5, s3 := 0, mod := 0x405 })
    ∧ decode [0x034070280a804004] = .ok (.sel { tr := false, d := 7, dc := false, s1 := 20, s2 := 21, s3 := 2, mod := 0x4 })
    ∧ decode [0x0640400a0300e01a] = .ok (.ffma { tr := false, d := 4, dc := false, s1 := 5, s2 := 6, s3 := 7, mod := 0x1a })
    ∧ decode [0x1e00500a00000064] = .ok (.addImm { tr := false, d := 5, dc := false, s1 := 5, s2 := 0, s3 := 0, mod := 0x64 })
    ∧ decode [0x1020000c02002006] = .ok (.stS { tr := false, d := 0, dc := false, s1 := 6, s2 := 4, s3 := 1, mod := 0x6 })
    ∧ decode [0x8000006000000000]
      = .ok (.tree { rf := false, ns := 0, sh := 0, t0 := 0, t1 := 0, t2 := 0, l0 := 0x180, l1 := 0, l2 := 0, l3 := 0,
                     hleaf := 0, hval := false } [])
    ∧ decode [0x2188800000000000, 0x0000400a03000085]
      = .ok (.rep { cnt := 3, dStep := 1, s1Step := 1, s2Step := 0, s3Step := 0, rsv := 0 } 0
          { tr := false, d := 4, dc := false, s1 := 5, s2 := 6, s3 := 0, mod := 0x85 })
    ∧ decode [0x2188800000000000, 0x8000006000000000] = .error (.bad .illField) ∧ decode [0x2188800000000000] = .error .short

/-- R6, R42, R44, R52, R54, R55: the decoder reads back what the encoder writes. -/
def Obligations.DecodeEncode : Prop :=
  ∀ (i : Instr), i.wellFormed = true →
    ∃ ws, encode i = some ws ∧ 8 * ws.length = i.bytes ∧ (∀ rest, decode (ws ++ rest) = .ok i)
      ∧ decodeBytes (ws.flatMap bytesOfSlot) = .ok i

/-- R42, R125, R284, R316: one step (log 1, log 6 for the schedule, the agenda and the unit of time). -/
def Obligations.StepRunsDecoded : Prop :=
  ∀ (s s1 s2 t : State) (c m : Nat) (rest : List Nat) (w : Wave) (ws : List DWord) (i : Instr) (y : Xlat) (is : List Instr),
    let here : State := { s with sched := rest }
    let p := (here.team c w.team).part
    let pc := (here.wavePc c w).toNat
    (s.agenda = [] → s.sched = c :: rest → c < 1152 → here.issuer c = some w →
      (w.ins = none → here.fetchWords c p pc = .ok ws s1 → decode ws = .ok i → exec i { s1 with turn := c } = .next t →
          step s = .next t.tick)
        ∧ (w.ins = none → here.translateNow c p pc .fetch [] = .ok y s1 →
          let run (v : DWord) (s2 : State) : Prop :=
            slotCount v = 1 → decode [v] = .ok i → exec i { s2 with turn := c } = .next t → step s = .next t.tick
          (∀ l, CodeLine.at? (s1.core c).code p pc = some l → run (l.slot pc) s1)
          ∧ (CodeLine.at? (s1.core c).code p pc = none → s1.loadBytes c (y.pa pc / 64 * 64) 64 y.cls = some (m, false, s2) →
            let l : CodeLine := { part := p, line := pc / 64, data := BitVec.ofNat 512 m }
            run (BitVec.ofNat 64 (m / 2 ^ (8 * (pc % 64)))) (s2.modCore c (·.fillCode l))))
        ∧ (w.ins = some i → exec i { here with turn := c } = .next t → step s = .next t.tick))
      ∧ (s.agenda = i :: is → Sys2Proof.Machine.Instr.isEvent i = true → exec i { s with agenda := is } = .next t → step s = .next t.tick)

/-- The invariant of memory (log 3): addresses rise strictly and no listed byte equals an unlisted one. -/
def Obligations.MemoryCanonicalKept : Prop :=
  ∀ s t : State, s.canonical → step s = .next t → t.canonical

/-- The invariant of the banked stores, accumulator memories and local SRAMs (log 3). -/
def Obligations.StoresCanonicalKept : Prop :=
  ∀ s t : State, s.tidy → step s = .next t → t.tidy

/-- R46, R145, R175, R186, R267: frames. What a line that leaves the die cache for the stored one, or the dirty bytes that a release
sends home, do to what other dies see is R271 and R288, and stated there. -/
def Obligations.Frames : Prop :=
  ∀ (f : OpF) (s t : State) (x : Lane) (v : Src),
    let th := s.thread x
    let nh := t.thread x
    let k := s.team x.c x.t
    let n := typeBytes f.typ
    let d := f.d.toNat
    let bare (k : Core) : Core := { k.quiet with teams := [], store := [], ports := [], mq := [], badWords := [] }
    let others : Prop := (∀ y, y ≠ x → t.thread y = s.thread y) ∧ nh.rentry = th.rentry ∧ nh.rcount = th.rcount
      ∧ nh.hflag = th.hflag ∧ nh.recId = th.recId ∧ nh.timerDue = th.timerDue ∧ nh.epoch = th.epoch
    let global : Prop := t.mem = s.mem ∧ t.poison = s.poison ∧ t.openMem = s.openMem ∧ t.dies = s.dies ∧ t.slices = s.slices
    let bareG (k : Core) : Core := { bare k with writes := [], l1 := [], l1Uses := 0 }
    let device : Prop := t.parts = s.parts ∧ t.flasks = s.flasks ∧ t.pkg = s.pkg
      ∧ (∀ c, c ≠ x.c → (t.core c).quiet = (s.core c).quiet) ∧ bare (t.core x.c) = bare (s.core x.c)
    let registers : Prop := (∀ j, nh.word j = th.word j) ∧ nh.preds = th.preds ∧ nh.astat = th.astat
    (∀ i ∈ [Instr.add f, .sub f, .mulLo f, .mulHi f, .mad f, .div f, .rem f, .min f, .max f, .abs f, .and f, .or f, .xor f,
        .andn f, .not f, .mov f, .shl f, .shr f, .sar f, .rot f, .bfe f, .bfi f, .popc f, .clz f, .ctz f, .brev f, .sel f,
        .movi f, .lea f, .cmp f, .fcmp f, .pand f, .por f, .pxor f, .pnot f, .pmov f, .fadd f, .fsub f, .fmul f, .ffma f,
        .fmin f, .fmax f, .fdiv f, .fsqrt f, .cvt f, .addImm f, .subImm f, .mulLoImm f, .andImm f, .orImm f, .xorImm f],
      s.able i f x v → (s.group x.c x.t x.g).trapen = 0 → exec i s = .next t →
        let single : Prop := match i.shape.d with
          | .word .. => True
          | _ => False
        let toPred : Prop := i.shape.d = .pred
        let written (j : Nat) : Prop := ¬ toPred ∧ f.tr = false ∧ d < 224 ∧ ¬ (single ∧ f.dc = true)
          ∧ (j = d ∨ (¬ single ∧ j = d + 1))
        others ∧ global ∧ device ∧ nh.loads.length = th.loads.length ∧ (f.dc = false → nh.stores = th.stores)
          ∧ (∀ j, ¬ written j → nh.word j = th.word j)
          ∧ (∀ j, ¬ (toPred ∧ j = d) → nh.pred j = th.pred j)
          ∧ nh.astat &&& th.astat = th.astat
          ∧ (d < 224 → (t.group x.c x.t x.g).kregs = (s.group x.c x.t x.g).kregs)
          ∧ (v.pops = [] → f.dc = false → (t.core x.c).store = (s.core x.c).store ∧ (t.core x.c).ports = (s.core x.c).ports))
      ∧ (s.able (.stS f) f x v → v.pops = [] → (s.core x.c).store.wf = true → (s.thread x).stores.length < 63 →
        let o := (s.env (.stS f) f x).addr32 v.a n
        o % n = 0 → o + n ≤ k.scratchSize → exec (.stS f) s = .next t →
        others ∧ global ∧ device ∧ registers ∧ nh.loads = th.loads
          ∧ ∀ a, a < k.scratchByte o ∨ k.scratchByte o + n ≤ a → (t.core x.c).store.read a = (s.core x.c).store.read a)
      ∧ (s.able (.ldS f) f x v → v.pops = [] → (s.thread x).loads.length < 63 →
        let o := (s.env (.ldS f) f x).addr32 v.a n
        o % n = 0 → o + n ≤ k.scratchSize → s.scratchBad x.c x.t o n = false → exec (.ldS f) s = .next t →
        others ∧ global ∧ device ∧ registers ∧ nh.stores = th.stores ∧ (t.core x.c).store = (s.core x.c).store)
      ∧ ∀ (pa cls : Nat), s.able (.stG f) f x v → v.pops = [] → s.canonical → (s.thread x).stores.length < 63 →
        let va := (s.env (.stG f) f x).addr64 v.a n
        va < 2 ^ 48 → va % n = 0 → s.translate x va .write = .ok (pa, cls) → isRemote pa = false → k.det = false →
        let die := s.die (coreDie x.c)
        let line := lineOf pa
        let hit := die.lines.find? line
        let quota := quotaOf die.quota (classOf pa cls)
        s.inJournal pa = false →
        ((hit ≠ none ∧ th.epoch = 0 ∧ quota ≠ 0) ∨ (∃ l, hit = some l ∧ l.dirty = 0) ∨ (hit = none ∧ (th.epoch ≠ 0 ∨ quota = 0))
          ∨ (hit = none ∧ (s.slice (homeOf pa)).epochs.get line [] = []
            ∧ makeWay die.quota (die.ways (line % 16384)) 16 (classOf pa cls) = some none)) →
        exec (.stG f) s = .next t → (t.thread x).pos.wait = none →
        others ∧ registers ∧ t.parts = s.parts ∧ t.flasks = s.flasks ∧ t.pkg = s.pkg
          ∧ (∀ c, c ≠ x.c → { (t.core c).quiet with l1 := [] } = { (s.core c).quiet with l1 := [] })
          ∧ bareG (t.core x.c) = bareG (s.core x.c) ∧ (t.core x.c).store = (s.core x.c).store
          ∧ ∀ j a, a < pa ∨ pa + n ≤ a → t.view j a = s.view j a

/-- R33, R61, R117, R119, R132, R135, R171, R325, R326: exceptions of an operation. -/
def Obligations.TrapsAndParks : Prop :=
  ∀ (f : OpF) (s : State) (x : Lane) (v : Src),
    let th := s.thread x
    let k := s.team x.c x.t
    let z := typeValue f.typ
    let F := Fmt.ofType f.typ
    let num (v : DWord) : Sys2Proof.Num := F.read f.ftz (v.toNat % 2 ^ typeBits f.typ)
    let parked (t : State) : Prop := (t.thread x).run = .parked ∧ (t.thread x).pc = th.rentry
      ∧ t.mem = s.mem
      ∧ (∀ j, (t.thread x).word j = th.word j) ∧ (t.thread x).preds = th.preds ∧ (t.thread x).hflag = th.hflag
    let traps (i : Instr) (fl : Flags) : Prop :=
      let enabled := fl &&& (s.group x.c x.t x.g).trapen
      let n := k.nG
      s.able i f x v → enabled ≠ 0 → 4 ≤ n → n ≤ 256 →
        (th.hflag = false → k.desc.handler ≠ 0 →
          ∃ t, exec i s = .next t ∧ t.mem = s.mem ∧ (t.thread x).astat = th.astat ||| fl ∧ (t.thread x).hflag = true
            ∧ (t.thread x).run = .ready ∧ (t.thread x).pc = k.desc.handler
            ∧ (t.thread x).word (n - 4) = BitVec.ofNat 32 Cause.arith.code.toNat
            ∧ (∀ m, enabled.getLsbD m = true → (∀ j, j < m → enabled.getLsbD j = false) →
              (t.thread x).word (n - 3) = BitVec.ofNat 32 m)
            ∧ (t.thread x).word (n - 2) = th.pc.setWidth 32 ∧ (t.thread x).word (n - 1) = (th.pc >>> 32).setWidth 32
            ∧ (∀ j, j < n - 4 ∨ n ≤ j → (t.thread x).word j = th.word j) ∧ (t.thread x).preds = th.preds)
        ∧ (th.hflag = true ∨ k.desc.handler = 0 →
          ∃ t, exec i s = .next t ∧ parked t ∧ (t.thread x).astat = th.astat ||| fl)
    traps (.add f) (typeResult f.typ f.sat (z v.a + z v.b)).fl
      ∧ traps (.mulLo f) (typeResult f.typ f.sat (z v.a * z v.b)).fl
      ∧ traps (.div f) (if z v.b = 0 then flDZ else (typeResult f.typ f.sat (Int.tdiv (z v.a) (z v.b))).fl)
      ∧ traps (.rem f) (if z v.b = 0 then flDZ else 0)
      ∧ traps (.fmul f) (F.mul f.rnd f.ftz (num v.a) (num v.b)).fl
      ∧ traps (.fdivF64 f) (F.div f.rnd f.ftz (num v.a) (num v.b)).fl
      ∧ traps (.fsqrt f) (F.sqrt f.rnd f.ftz (num v.a)).fl
      ∧ (∀ i ∈ [Instr.ldS f, .stS f],
        let o := (s.env i f x).addr32 v.a (typeBytes f.typ)
        s.able i f x v → (s.thread x).loads.length < 63 → (s.thread x).stores.length < 63 → o < k.scratchSize →
        o % typeBytes f.typ ≠ 0 →
        ∃ t, exec i s = .next t ∧ parked t ∧ (t.thread x).astat = th.astat
          ∧ ((s.core x.c).recs = [] → ∃ r, (t.core x.c).recs = [r] ∧ r.cause = .misalign ∧ r.addr = o ∧ r.event = false
            ∧ r.pc = th.pc ∧ r.lanes = [(x.g, x.l)] ∧ r.isOpen = true ∧ r.written = none))
      ∧ ∀ (i : Instr) (c : CodeFault), encode i ≠ none → s.alone x = true → i.codeFault k.nG k.nA = some c →
        ∃ t, exec i s = .next t ∧ parked t ∧ (t.thread x).astat = th.astat

/-- R19: p0, and predicates at thread creation. -/
def Obligations.PredicateZero : Prop :=
  (∀ th : Thread, th.pred 0 = true ∧ ∀ b, th.setPred 0 b = th)
    ∧ (∀ (e : Env) (x : Lane) (v : DWord) (s : State), e.sh.d = .pred → e.f.d = 0 → (writeDst e x v s).thread x = s.thread x)
    ∧ (∀ (e : Env) (x : Lane) (s : State) (fld : BitVec 10), srcIdx fld = 0 → readSrc e x s .pred fld = .ok (1, []))
    ∧ ∀ (k : Team) (g l n : Nat) (a : Addr), 1 ≤ n → n < 32 → (newThread k g l a).pred n = false

/-- R144, R145, R75, R76: integer arithmetic forms the exact result, then reduces it modulo 2^w or, under `.sat`, clamps it to the range of the type and records SAT.
R77: division never traps on its values; a zero divisor gives all ones or the dividend, with DZ. -/
def Obligations.IntegerArithmetic : Prop :=
   (∀ f : OpF,
      let z := typeValue f.typ
      let exact (g : Src → Int) (v : Src) : Calc := typeResult f.typ f.sat (g v)
      Yields (.add f) f (exact fun v => z v.a + z v.b)
        ∧ Yields (.sub f) f (exact fun v => z v.a - z v.b)
        ∧ Yields (.mulLo f) f (exact fun v => z v.a * z v.b)
        ∧ Yields (.mulHi f) f (fun v =>
            { val := typeExtend f.typ ((BitVec.ofInt (2 * typeBits f.typ) (z v.a * z v.b)).extractLsb' (typeBits f.typ) (typeBits f.typ)) })
        ∧ Yields (.mad f) f (exact fun v => z v.a * z v.b + z v.c)
        ∧ Yields (.min f) f (fun v => typeResult f.typ false (min (z v.a) (z v.b)))
        ∧ Yields (.max f) f (fun v => typeResult f.typ false (max (z v.a) (z v.b)))
        ∧ Yields (.abs f) f (exact fun v => (z v.a).natAbs))
  ∧ (∀ f : OpF,
      let z := typeValue f.typ
      Yields (.div f) f (fun v =>
          if z v.b = 0 then { val := typeExtend f.typ (BitVec.allOnes _), fl := flDZ }
          else typeResult f.typ f.sat (Int.tdiv (z v.a) (z v.b)))
        ∧ Yields (.rem f) f (fun v =>
          if z v.b = 0 then { val := typeExtend f.typ (v.a.setWidth _), fl := flDZ }
          else typeResult f.typ false (Int.tmod (z v.a) (z v.b))))

/-- R145 to R148: the bit operations, over bit vectors of the width of the type. -/
def Obligations.BitOperations : Prop :=
  ∀ f : OpF,
    let w := typeBits f.typ
    let a (v : Src) : BitVec w := v.a.setWidth w
    let count (v : Src) : Nat := (v.b.setWidth 32).toNat
    let put (x : BitVec w) : Calc := { val := x.setWidth 64 }
    let pos (v : Src) : Nat := (v.b.extractLsb' 0 8).toNat
    let len (v : Src) : Nat := (v.b.extractLsb' 8 8).toNat
    let inserted (v : Src) (i : Nat) : Bool :=
      if pos v ≤ i ∧ i < pos v + len v then (a v).getLsbD (i - pos v) else v.c.getLsbD i
    Yields (.and f) f (fun v => { val := v.a &&& v.b })
      ∧ Yields (.or f) f (fun v => { val := v.a ||| v.b })
      ∧ Yields (.xor f) f (fun v => { val := v.a ^^^ v.b })
      ∧ Yields (.andn f) f (fun v => { val := v.a &&& ~~~v.b })
      ∧ Yields (.not f) f (fun v => { val := ~~~v.a })
      ∧ Yields (.mov f) f (fun v => { val := v.a })
      ∧ Yields (.shl f) f (fun v => put (a v <<< count v))
      ∧ Yields (.shr f) f (fun v => put (a v >>> count v))
      ∧ (typeSigned f.typ = true → Yields (.sar f) f (fun v => { val := ((a v).sshiftRight (count v)).signExtend 64 }))
      ∧ Yields (.rot f) f (fun v => put ((a v).rotateLeft (count v)))
      ∧ Yields (.bfe f) f (fun v =>
          let n := min (len v) w
          let fld : BitVec n := (a v >>> min (pos v) w).setWidth n
          { val := typeExtend f.typ (if typeSigned f.typ then fld.signExtend w else fld.setWidth w) })
      ∧ Yields (.bfi f) f (fun v => { val := bitsOf w (inserted v) })
      ∧ Yields (.popc f) f (fun v => { val := BitVec.ofNat 64 ((List.range w).countP v.a.getLsbD) })
      ∧ Yields (.clz f) f (fun v => { val := BitVec.ofNat 64 ((List.range w).reverse.takeWhile (!v.a.getLsbD ·)).length })
      ∧ Yields (.ctz f) f (fun v => { val := BitVec.ofNat 64 ((List.range w).takeWhile (!v.a.getLsbD ·)).length })
      ∧ Yields (.brev f) f (fun v => { val := bitsOf w fun i => v.a.getLsbD (w - 1 - i) })

/-- R149, R150, R151: `sel`, `lea` and the short form of `movi`. -/
def Obligations.SelectMoveAddress : Prop :=
  ∀ f : OpF,
    Yields (.sel f) f (fun v => { val := if (v.c ≠ 0) ≠ (f.mod.getLsbD 9 = true) then v.a else v.b })
      ∧ Yields (.movi f) f (fun _ => { val := f.imm32.setWidth 64 })
      ∧ Yields (.lea f) f (fun v =>
        { val := v.a + ((if f.typ = 5 then (v.b.setWidth 32).signExtend 64 else (v.b.setWidth 32).setWidth 64) <<< f.sub) })

/-- R152: a form of family 0xF computes as its register form of the fixed type, with the immediate as source b. -/
def Obligations.ImmediateForms : Prop :=
  ∀ f : OpF,
    let u := typeValue 4
    let z := typeValue 5
    let b : DWord := f.imm32.setWidth 64
    let single (m : Nat) : OpF := { f with s2 := 0, s3 := 0, mod := BitVec.ofNat 13 m }
    Yields (.addImm f) f (fun v => typeResult 4 false (u v.a + u b))
      ∧ Yields (.subImm f) f (fun v => typeResult 4 false (u v.a - u b))
      ∧ Yields (.mulLoImm f) f (fun v => typeResult 4 false (u v.a * u b))
      ∧ Yields (.andImm f) f (fun v => { val := v.a &&& b })
      ∧ Yields (.orImm f) f (fun v => { val := v.a ||| b })
      ∧ Yields (.xorImm f) f (fun v => { val := v.a ^^^ b })
      ∧ Yields (.shlImm f) f (fun v => { val := ((v.a.setWidth 32 : BitVec 32) <<< f.imm32.toNat).setWidth 64 })
      ∧ Yields (.shrImm f) f (fun v => { val := ((v.a.setWidth 32 : BitVec 32) >>> f.imm32.toNat).setWidth 64 })
      ∧ Yields (.sarImm f) f (fun v => { val := ((v.a.setWidth 32 : BitVec 32).sshiftRight f.imm32.toNat).signExtend 64 })
      ∧ Yields (.minImm f) f (fun v => typeResult 5 false (min (z v.a) (z b)))
      ∧ Yields (.maxImm f) f (fun v => typeResult 5 false (max (z v.a) (z b)))
      ∧ Yields (.faddImm f) f (fun v => calcFadd (single 10) v.a b)
      ∧ Yields (.fmulImm f) f (fun v => calcFmul (single 10) v.a b)

/-- R121 to R124: compares and predicate operations. -/
def Obligations.ComparesAndPredicates : Prop :=
  ∀ f : OpF,
    let z := typeValue f.typ
    let bit (b : Bool) : Calc := { val := if b then 1 else 0 }
    let p (v : DWord) (n : Nat) : Bool := (v != 0) != f.mod.getLsbD n
    Yields (.cmp f) f (fun v => bit (match f.sub with
        | 0 => decide (z v.a = z v.b)
        | 1 => decide (z v.a ≠ z v.b)
        | 2 => decide (z v.a < z v.b)
        | 3 => decide (z v.a ≤ z v.b)
        | 4 => decide (z v.a > z v.b)
        | _ => decide (z v.a ≥ z v.b)))
      ∧ Yields (.fcmp f) f (fun v => { bit (calcFcmp f v.a v.b).1 with fl := (calcFcmp f v.a v.b).2 })
      ∧ (∀ a b : DWord,
          let n (v : DWord) : Sys2Proof.Num := (Fmt.ofType f.typ).unpack (v.toNat % 2 ^ typeBits f.typ)
          (n a).isNan = false → (n b).isNan = false →
          (calcFcmp f a b).2 = 0 ∧ ((calcFcmp f a b).1 = true ↔ match f.sub with
            | 0 => equal (n a) (n b)
            | 1 => ¬ equal (n a) (n b)
            | 2 => below (n a) (n b)
            | 3 => below (n a) (n b) ∨ equal (n a) (n b)
            | 4 => below (n b) (n a)
            | 5 => below (n b) (n a) ∨ equal (n a) (n b)
            | 6 => True
            | 7 => False
            | 8 => equal (n a) (n b)
            | 9 => ¬ equal (n a) (n b)
            | 10 => below (n a) (n b)
            | 11 => below (n a) (n b) ∨ equal (n a) (n b)
            | 12 => below (n b) (n a)
            | _ => below (n b) (n a) ∨ equal (n a) (n b)))
      ∧ Yields (.pand f) f (fun v => bit (p v.a 0 && p v.b 1))
      ∧ Yields (.por f) f (fun v => bit (p v.a 0 || p v.b 1))
      ∧ Yields (.pxor f) f (fun v => bit (p v.a 0 != p v.b 1))
      ∧ Yields (.pnot f) f (fun v => bit (v.a == 0))
      ∧ Yields (.pmov f) f (fun v => bit (p v.a 0))
      ∧ YieldsIn (.pmovToReg f) f (fun s x _ => { val := ((s.thread x).preds ||| 1).setWidth 64 })
      ∧ ∀ (s : State) (x : Lane) (v : DWord) (ps : List Nat), s.begins (.pmovFromReg f) f (Instr.pmovFromReg f).shape x = true →
          s.sources (s.env (.pmovFromReg f) f x) x = some { a := v, pops := ps } →
          ∃ t, exec (.pmovFromReg f) s = .next t
            ∧ Same t ((s.modThread x fun th => { th with preds := v.setWidth 32 ||| 1 }).completed (s.env (.pmovFromReg f) f x) x)

/-- R122: with a NaN operand every ordered code fails and every unordered one holds; NV is met for a signalling NaN, and for the codes 2 to 5 with any NaN.
R154, R155, R81: the special results, for every format, mode and operand sign. -/
def Obligations.FloatSpecialResults : Prop :=
   (∀ (f : OpF) (a b : DWord),
      let n (v : DWord) : Sys2Proof.Num := (Fmt.ofType f.typ).unpack (v.toNat % 2 ^ typeBits f.typ)
      (n a).isNan = true ∨ (n b).isNan = true →
      (calcFcmp f a b).1 = decide (7 ≤ f.sub)
        ∧ ((calcFcmp f a b).2 = if (n a).isSNan || (n b).isSNan || (decide (2 ≤ f.sub) && decide (f.sub ≤ 5)) then flNV else 0))
  ∧ (∀ (F : Fmt) (rnd : Nat) (ftz : Bool),
      let invalid : Res := { bits := F.nanBits, fl := flNV }
      let quiet (sig : Bool) : Res := { bits := F.nanBits, fl := if sig then flNV else 0 }
      (∀ a b : Sys2Proof.Num, a.isNan = true ∨ b.isNan = true →
          F.add rnd ftz a b = quiet (a.isSNan || b.isSNan) ∧ F.mul rnd ftz a b = quiet (a.isSNan || b.isSNan)
            ∧ F.div rnd ftz a b = quiet (a.isSNan || b.isSNan))
        ∧ (∀ a b c : Sys2Proof.Num, ¬ (a.isInf = true ∧ b.isZero = true) → ¬ (a.isZero = true ∧ b.isInf = true) →
          a.isNan = true ∨ b.isNan = true ∨ c.isNan = true →
          F.fma rnd ftz a b c = quiet (a.isSNan || b.isSNan || c.isSNan))
        ∧ (∀ g, F.sqrt rnd ftz (.nan g) = quiet g)
        ∧ (∀ n k e, F.mul rnd ftz (.fin k 0 e) (.inf n) = invalid)
        ∧ (∀ n k e c, F.fma rnd ftz (.fin k 0 e) (.inf n) c = invalid)
        ∧ (∀ n k m e, m ≠ 0 → F.fma rnd ftz (.inf n) (.fin k m e) (.inf (n == k)) = invalid
            ∧ F.fma rnd ftz (.fin k m e) (.inf n) (.inf (n == k)) = invalid)
        ∧ (∀ n, F.sqrt rnd ftz (.inf n) = if n then invalid else F.inf false)
        ∧ (∀ (isMax : Bool) (x y : Nat),
            let flush (b : Nat) : Nat :=
              if ftz = true ∧ F.isSubnormal b = true then (if b / F.signBit % 2 = 1 then F.signBit else 0) else b
            let a := F.unpack (flush x)
            let b := F.unpack (flush y)
            let r := F.minMax isMax ftz x y
            r.fl = (if a.isSNan || b.isSNan then flNV else 0)
              ∧ (a.isNan = true → b.isNan = true → r.bits = F.nanBits)
              ∧ (a.isNan = true → b.isNan = false → r.bits = flush y) ∧ (a.isNan = false → b.isNan = true → r.bits = flush x)
              ∧ (below a b → r.bits = if isMax then flush y else flush x)
              ∧ (below b a → r.bits = if isMax then flush x else flush y)
              ∧ (equal a b → a.neg? = true → b.neg? = false → r.bits = if isMax then flush y else flush x)
              ∧ (equal a b → a.neg? = false → b.neg? = true → r.bits = if isMax then flush x else flush y)
              ∧ (r.bits = F.nanBits ∨ r.bits = flush x ∨ r.bits = flush y))
        ∧ (∀ n, F.add rnd ftz (.inf n) (.inf !n) = { bits := F.nanBits, fl := flNV })
        ∧ (∀ n k e, F.mul rnd ftz (.inf n) (.fin k 0 e) = { bits := F.nanBits, fl := flNV })
        ∧ (∀ n k e c, F.fma rnd ftz (.inf n) (.fin k 0 e) c = { bits := F.nanBits, fl := flNV })
        ∧ (∀ n k, F.div rnd ftz (.inf n) (.inf k) = { bits := F.nanBits, fl := flNV })
        ∧ (∀ n k e d, F.div rnd ftz (.fin n 0 e) (.fin k 0 d) = { bits := F.nanBits, fl := flNV })
        ∧ (∀ n m e k d, m ≠ 0 → F.div rnd ftz (.fin n m e) (.fin k 0 d) = F.inf (n != k) flDZ)
        ∧ (∀ m e, F.add rnd ftz (.fin false m e) (.fin true m e) = F.zero (rnd == 2))
        ∧ (∀ n e, F.sqrt rnd ftz (.fin n 0 e) = F.zero n)
        ∧ ∀ m e, m ≠ 0 → F.sqrt rnd ftz (.fin true m e) = { bits := F.nanBits, fl := flNV })

/-- R153 to R155, R158: floating-point operations write the value that the rounding functions of their format give. -/
def Obligations.FloatArithmetic : Prop :=
  ∀ f : OpF,
    let F := Fmt.ofType f.typ
    let n (v : DWord) : Sys2Proof.Num := F.read f.ftz (v.toNat % 2 ^ typeBits f.typ)
    let raw (v : DWord) : Nat := v.toNat % 2 ^ typeBits f.typ
    let second (v : DWord) : Sys2Proof.Num := if f.mod.getLsbD 8 then (n v).negate else n v
    let put (r : Res) : Calc := { val := BitVec.ofNat 64 r.bits, fl := r.fl }
    let low (v : DWord) : DWord := v &&& 0xffff
    let high (v : DWord) : DWord := (v >>> 16) &&& 0xffff
    let halves (g : DWord → DWord → DWord → Calc) (v : Src) : Calc :=
      let l := g (low v.a) (low v.b) (low v.c)
      let h := g (high v.a) (high v.b) (high v.c)
      { val := (h.val <<< 16) ||| l.val, fl := l.fl ||| h.fl }
    (∀ i ∈ [Instr.fadd f, .fsub f, .faddF64 f, .fsubF64 f], Yields i f fun v => put (F.add f.rnd f.ftz (n v.a) (second v.b)))
      ∧ (∀ i ∈ [Instr.fmul f, .fmulF64 f], Yields i f fun v => put (F.mul f.rnd f.ftz (n v.a) (n v.b)))
      ∧ (∀ i ∈ [Instr.ffma f, .ffmaF64 f], Yields i f fun v => put (F.fma f.rnd f.ftz (n v.a) (n v.b) (n v.c)))
      ∧ (∀ i ∈ [Instr.fmin f, .fminF64 f], Yields i f fun v => put (F.minMax false f.ftz (raw v.a) (raw v.b)))
      ∧ (∀ i ∈ [Instr.fmax f, .fmaxF64 f], Yields i f fun v => put (F.minMax true f.ftz (raw v.a) (raw v.b)))
      ∧ (∀ i ∈ [Instr.fdiv f, .fdivF64 f], Yields i f fun v => put (F.div f.rnd f.ftz (n v.a) (n v.b)))
      ∧ (∀ i ∈ [Instr.fsqrt f, .fsqrtF64 f], Yields i f fun v => put (F.sqrt f.rnd f.ftz (n v.a)))
      ∧ Yields (.hadd2 f) f (halves fun a b _ => put (F.add f.rnd f.ftz (n a) (second b)))
      ∧ Yields (.hmul2 f) f (halves fun a b _ => put (F.mul f.rnd f.ftz (n a) (n b)))
      ∧ Yields (.hfma2 f) f (halves fun a b c => put (F.fma f.rnd f.ftz (n a) (n b) (n c)))

/-- R79: a result rounded in mode `.rn` is a nearest number of the format, the even one of two. Distances are compared as
integers over a common power of two. -/
def Obligations.NearestRounding : Prop :=
  ∀ F ∈ [Fmt.f16, .bf16, .f32, .f64], ∀ (neg : Bool) (m : Nat) (e : Int) (rn : Bool) (rm : Nat) (re : Int),
    let r := (F.round 0 false neg m e).bits
    F.unpack r = .fin rn rm re →
    ∀ (c : Nat) (cn : Bool) (cm : Nat) (ce : Int), c < 2 * F.signBit → F.unpack c = .fin cn cm ce →
      let lo := min e (min re ce)
      let v := numerAt neg m e lo
      let far (n : Bool) (k : Nat) (q : Int) : Nat := (numerAt n k q lo - v).natAbs
      far rn rm re ≤ far cn cm ce ∧ (far rn rm re = far cn cm ce → numerAt cn cm ce lo ≠ numerAt rn rm re lo → r % 2 = 0)

/-- R156, R157: the approximate functions. What R156 leaves to the device is a free value (log 5, log 12); the clauses hold
whatever it is. -/
def Obligations.ApproximateFunctions : Prop :=
  (∀ f : OpF,
    (∀ i ∈ [Instr.frcpAp f, .frcpApF64 f], Yields i f fun v => calcApprox .rcp f v.a)
      ∧ (∀ i ∈ [Instr.frsqrtAp f, .frsqrtApF64 f], Yields i f fun v => calcApprox .rsqrt f v.a)
      ∧ Yields (.fsinAp f) f (fun v => calcApprox .sin f v.a)
      ∧ Yields (.fcosAp f) f (fun v => calcApprox .cos f v.a)
      ∧ Yields (.fexp2Ap f) f (fun v => calcApprox .exp2 f v.a)
      ∧ Yields (.flog2Ap f) f (fun v => calcApprox .log2 f v.a))
    ∧ Fmt.f32.pow2 false 0 = 0x3f800000 ∧ Fmt.f64.pow2 false 0 = 0x3ff0000000000000
    ∧ (∀ (f : OpF) (fn : Approx) (a : DWord),
      let F := Fmt.ofType f.typ
      let r := approxVal fn F f.ftz (F.read f.ftz (a.toNat % 2 ^ typeBits f.typ)) (Config.approx fn.num (isWide f.typ) f.ftz)
      calcApprox fn f a = { val := BitVec.ofNat 64 r.bits, fl := r.fl })
    ∧ (∀ (free : Nat → Nat) (lo lo' hi hi' key key' n : Nat), lo ≤ lo' → hi ≤ hi' → key ≤ key' →
      climb lo hi key free n 0 ≤ climb lo' hi' key' free n 0
        ∧ (lo ≤ hi → lo < 2 ^ n → lo ≤ climb lo hi key free n 0 ∧ climb lo hi key free n 0 ≤ hi))
    ∧ ∀ F ∈ [Fmt.f32, .f64], ∀ (ftz : Bool) (free : Nat → Nat → Nat),
      let r (fn : Approx) (x : Sys2Proof.Num) : Res := approxVal fn F ftz x free
      let exactly (neg : Bool) (k : Int) : Res := { bits := F.pow2 neg k }
      let invalid : Res := { bits := F.nanBits, fl := flNV }
      let inexact (v : Res) : Prop := v.fl.getLsbD 4 = true
      let power (m : Nat) : Prop := ∃ j, m = 2 ^ j
      (∀ fn g, r fn (.nan g) = { bits := F.nanBits, fl := if g then flNV else 0 })
        ∧ (∀ n e, r .rcp (.fin n 0 e) = F.inf n flDZ ∧ r .rsqrt (.fin n 0 e) = F.inf n flDZ ∧ r .sin (.fin n 0 e) = F.zero n
            ∧ r .cos (.fin n 0 e) = exactly false 0 ∧ r .exp2 (.fin n 0 e) = exactly false 0
            ∧ r .log2 (.fin n 0 e) = F.inf true flDZ)
        ∧ (∀ n, r .rcp (.inf n) = F.zero n ∧ r .sin (.inf n) = invalid ∧ r .cos (.inf n) = invalid)
        ∧ r .rsqrt (.inf false) = F.zero false ∧ r .rsqrt (.inf true) = invalid
        ∧ r .exp2 (.inf false) = F.inf false ∧ r .exp2 (.inf true) = F.zero false
        ∧ r .log2 (.inf false) = F.inf false ∧ r .log2 (.inf true) = invalid
        ∧ (∀ m e, m ≠ 0 → r .rsqrt (.fin true m e) = invalid ∧ r .log2 (.fin true m e) = invalid)
        ∧ (∀ (n : Bool) (j : Nat) (e : Int),
            (F.emin ≤ -(e + j) → -(e + j) ≤ F.bias → r .rcp (.fin n (2 ^ j) e) = exactly n (-(e + j)))
              ∧ ((e + j) % 2 = 0 → r .rsqrt (.fin false (2 ^ j) e) = exactly false (-((e + j) / 2)))
              ∧ r .log2 (.fin false (2 ^ j) e) = { bits := (F.ofInt 0 false (e + j)).bits })
        ∧ (∀ (n : Bool) (m : Nat) (e k : Int), numerAt n m e (min e 0) = k * 2 ^ (-(min e 0)).toNat →
            F.qmin ≤ k → k ≤ F.bias → (ftz = true → F.emin ≤ k) → r .exp2 (.fin n m e) = exactly false k)
        ∧ (∀ (n : Bool) (m : Nat) (e : Int), m ≠ 0 → ¬ power m →
            inexact (r .rcp (.fin n m e)) ∧ inexact (r .rsqrt (.fin false m e)) ∧ inexact (r .log2 (.fin false m e)))
        ∧ (∀ (n : Bool) (m : Nat) (e : Int), m ≠ 0 → inexact (r .sin (.fin n m e)) ∧ inexact (r .cos (.fin n m e))
            ∧ ((∀ k : Int, numerAt n m e (min e 0) ≠ k * 2 ^ (-(min e 0)).toNat) → inexact (r .exp2 (.fin n m e))))
        ∧ (ftz = false → ∀ (n : Bool) (m : Nat) (e : Int), m ≠ 0 →
            let near (fn : Approx) (v : Sys2Proof.Num) (d : Nat) (q : Int) : Prop :=
              (F.unpack (r fn (.fin n m e)).bits).isInf = false → nearBy (F.unpack (r fn (.fin n m e)).bits) v d q = true
            let s := sinAt m e 0
            let c := sinAt m e 1
            let l := log2At m e
            let w := rsqrtAt F m e
            let k := (roundInt 2 n m e).1
            let x := exp2At n m e k
            (∀ rn rm re, F.unpack (r .rcp (.fin n m e)).bits = .fin rn rm re →
                let lead := if m = 2 ^ Nat.log2 m then -leadExp m e else -leadExp m e - 1
                let u := max lead F.emin - F.mb
                let lo := min (re + e) (min 0 (u + e))
                rn = n ∧ (numerAt false (rm * m) (re + e) lo - numerAt false 1 0 lo).natAbs ≤ m * 2 ^ (u + e - lo).toNat)
              ∧ (powerOfFour m e = none → n = false → near .rsqrt (.fin false w.1 w.2) 2 (F.ulp w.1 w.2))
              ∧ near .sin (.fin (n != decide (s < 0)) s.natAbs (-400)) 2 (F.ulp s.natAbs (-400))
              ∧ near .cos (.fin (decide (c < 0)) c.natAbs (-400)) 2 (F.ulp c.natAbs (-400))
              ∧ (F.qmin - 1 ≤ k → k ≤ F.bias → (∀ j : Int, numerAt n m e (min e 0) ≠ j * 2 ^ (-(min e 0)).toNat) →
                near .exp2 (.fin false x (k - 200)) 2 (F.ulp x (k - 200)))
              ∧ (¬ power m → n = false → near .log2 (.fin (decide (l < 0)) l.natAbs (-200))
                (if leadExp m e = 0 ∨ leadExp m e = -1 then 1 else 2)
                (if leadExp m e = 0 ∨ leadExp m e = -1 then -22 else F.ulp l.natAbs (-200))))

/-- R159 to R162: conversions and format registers; R90 to R93: what a conversion gives. -/
def Obligations.ConversionsAndFormats : Prop :=
  ∀ f : OpF,
    let F := Fmt.ofType f.typ
    let G := Fmt.ofType f.sub
    let raw (t : Nat) (a : DWord) : Nat := a.toNat % 2 ^ typeBits t
    let ends (neg : Bool) : Calc :=
      { val := typeExtend f.typ (BitVec.ofInt _ (if neg then typeLow f.typ else typeHigh f.typ)), fl := flSAT ||| flNV }
    let put (bits : Nat) (fl : Flags) : Calc := { val := BitVec.ofNat 64 bits, fl := fl }
    let same (x : Sys2Proof.Num) (bits : Nat) : Prop :=
      match x with
      | .nan _ => bits = F.nanBits
      | .inf n => bits = (F.inf n).bits
      | .fin n m e => bits = (F.round f.rnd false n m e).bits
    YieldsIn (.cvt f) f (fun s x v => calcCvt f ((s.group x.c x.t x.g).fm (f.bits 8 6)) v.a)
      ∧ (∀ (fm : Word) (a : DWord),
        let r := calcCvt f fm a
        let N := Narrow.ofWord fm
        (f.sub ≤ 7 → f.typ ≤ 7 → r = typeResult f.typ f.sat (typeValue f.sub a))
          ∧ (f.sub ≤ 7 → 8 ≤ f.typ →
            let q := F.round f.rnd f.ftz (decide (typeValue f.sub a < 0)) (typeValue f.sub a).natAbs 0
            r = put q.bits q.fl)
          ∧ (8 ≤ f.sub → f.sub ≤ 11 → 8 ≤ f.typ →
            match G.read f.ftz (raw f.sub a) with
            | .nan g => r = put F.nanBits (if g then flNV else 0)
            | .inf n => r = put (F.inf n).bits 0
            | .fin n m e => r = put (F.round f.rnd f.ftz n m e).bits (F.round f.rnd f.ftz n m e).fl)
          ∧ (8 ≤ f.sub → f.sub ≤ 11 → f.typ ≤ 7 →
            match G.unpack (raw f.sub a) with
            | .nan _ => r = { val := 0, fl := flNV }
            | .inf n => r = ends n
            | .fin n m e =>
              let z := numerAt n m e (min e 0)
              let d := 2 ^ (-(min e 0)).toNat
              ∃ v, roundsTo f.rnd z d v ∧ r =
                if v < typeLow f.typ then ends true
                else if typeHigh f.typ < v then ends false
                else { val := typeExtend f.typ (BitVec.ofInt _ v), fl := if v * d = z then 0 else flNX })
          ∧ (f.sub = 12 → r.fl = 0 ∧ ∃ b, r.val = BitVec.ofNat 64 b ∧ same (c16Num (a.toNat % 2 ^ 16)) b)
          ∧ (f.sub = 13 → r.fl = 0 ∧ ∃ b, r.val = BitVec.ofNat 64 b ∧ same (N.unpack a.toNat) b)
          ∧ (f.sub = 14 → r = put (N.pack f.rnd (F.unpack (raw f.typ a))).code (N.pack f.rnd (F.unpack (raw f.typ a))).fl)
          ∧ (f.sub = 15 → r = put (toC16 f.rnd (F.unpack (raw f.typ a))).bits (toC16 f.rnd (F.unpack (raw f.typ a))).fl))
      ∧ (∀ (fm : Word) (rnd : Nat), fmtLegal fm = true →
        let N := Narrow.ofWord fm
        let top (neg : Bool) : Nat := N.maxCode neg
        (∀ g, N.pack rnd (.nan g) = if N.spec = 0 then { code := top false, fl := flSAT ||| flNV, counted := true }
            else { code := 2 ^ (N.e + N.m) - 1, fl := if g then flNV else 0 })
          ∧ (∀ n, N.pack rnd (.inf n) = if n = true ∧ N.sgn = false then { code := 0, fl := flSAT, counted := true }
            else if N.spec = 2 then { code := (if n then 2 ^ (N.e + N.m) else 0) + (2 ^ N.e - 1) * 2 ^ N.m }
            else { code := top n, fl := flSAT, counted := true })
          ∧ (∀ n m e, (N.pack rnd (.fin n m e)).counted = true → N.pack rnd (.fin n m e)
              = { code := if n = true ∧ N.sgn = false then 0 else top n, fl := flSAT ||| flNX, counted := true })
          ∧ (∀ c n m e, c < 2 ^ N.width → N.unpack c = .fin n m e → N.pack rnd (.fin n m e) = { code := c })
          ∧ (N.e = 0 → ∀ n m e, ∃ v, roundsTo rnd (numerAt n m (e + N.bias) (min (e + N.bias) 0)) (2 ^ (-(min (e + N.bias) 0)).toNat) v
            ∧ ((N.pack rnd (.fin n m e)).counted = false →
                ((N.pack rnd (.fin n m e)).code : Int) = v % (2 ^ N.width : Nat))))
      ∧ (∀ (rnd b : Nat), b < 2 ^ 16 → (∃ n m e, c16Num b = .fin n m e ∧ (m = 0 → b % 2 ^ 7 = 0)) →
        toC16 rnd (c16Num b) = { bits := b })
      ∧ (∀ rnd n, toC16 rnd (.inf n) = { bits := if n then 0xffff else 0x7fff, fl := flSAT }
        ∧ toC16 rnd (.nan n) = { bits := 0x7fff, fl := flNV })
      ∧ YieldsIn (.fmget f) f (fun s x _ => { val := ((s.group x.c x.t x.g).fm (f.bits 2 0)).setWidth 64 })
      ∧ ∀ (s : State) (x : Lane) (v : Word), s.begins (.fmset f) f (Instr.fmset f).shape x = true →
          readReg (s.env (.fmset f) f x) x s (srcIdx f.s1) = .ok v →
          (fmtLegal v = true → ∃ t, exec (.fmset f) s = .next t
            ∧ Same t ((s.modGroup x.c x.t x.g fun g => { g with fmts := ((List.range 8).map g.fm).set (f.bits 2 0) v }).completed
                (s.env (.fmset f) f x) x))
          ∧ (fmtLegal v = false → ∃ t, exec (.fmset f) s = .next t
            ∧ Same t (((s.opened x).takeException x (s.env (.fmset f) f x).at_ { cause := .fmtIllegal }).ended x))

/-- R165: the instance completes when every present member has arrived; R166 to R168 and R242 say what a lone member gets.
R166 to R168, R242: what a member receives over the present members in ascending lane id.
R165: completion over the present members, and the timeout. -/
def Obligations.Collectives : Prop :=
   (∀ (f : OpF) (s : State) (x : Lane) (a : BitVec 1024) (b : Word) (m : Word),
      let alone (i : Instr) (r : DWord) : Prop :=
        let e := s.env i f x
        s.begins i f i.shape x = true →
        collMasks e [x] (s.opened x) = [(x, .ok m)] → (s.group x.c x.t x.g).presentIn m = [x.l] →
        (∀ k ∈ (s.group x.c x.t x.g).colls, k.pc ≠ (s.thread x).pc) →
        dstReady e x (s.opened x) = .ok () → collOperands e x (s.atOp x) = .ok (a, b) →
        ∃ t, exec i s = .next t ∧ Same t ((writeDst e x r (s.atOp x)).completed e x)
      let aff (i : Instr) : Prop :=
        let e := s.env i f x
        s.begins i f i.shape x = true →
        (s.group x.c x.t x.g).presentIn m = [x.l] → collMasks e [x] (s.opened x) = [(x, .ok m)] →
        (∀ k ∈ (s.group x.c x.t x.g).colls, k.pc ≠ (s.thread x).pc) → collOperands e x (s.atOp x) = .ok (a, b) →
        ∃ t, exec i s = .next t ∧ Same t (((s.atOp x).putAff x f.d.toNat (affMov a)).completed e x)
      let own : DWord := a.setWidth 64
      let test : Bool := (own != 0) != f.mod.getLsbD 8
      (∀ i ∈ [Instr.shflIdx f, .shflUp f, .shflDown f, .shflXor f, .redux f], alone i own)
        ∧ (∀ i ∈ [Instr.voteAll f, .voteAny f], alone i (if test then 1 else 0))
        ∧ alone (.ballot f) (if test then 1 <<< x.l else 0)
        ∧ alone (.scan f) (if f.mod.getLsbD 7 then foldIdentity (f.bits 11 8) f.typ else own)
        ∧ alone (.elect f) 1
        ∧ aff (.ashfl f) ∧ aff (.aredd f))
  ∧ (∀ (f : OpF) (width : Nat) (ms : List Member) (m : Member),
      let test (q : Member) : Bool := (q.val != 0) != f.mod.getLsbD 8
      let z := typeValue f.typ
      let F := Fmt.ofType f.typ
      let num (v : DWord) : Sys2Proof.Num := F.unpack (v.toNat % 2 ^ typeBits f.typ)
      let put (r : Res) : Calc := { val := BitVec.ofNat 64 r.bits, fl := r.fl }
      let raw (v : DWord) : Nat := v.toNat % 2 ^ typeBits f.typ
      let seg := min width (32 / 2 ^ f.bits 10 8)
      let base := m.1 - m.1 % seg
      let n := m.2.2.toNat
      let moves (opc : BitVec 8) (src : Option Nat) : Prop :=
        (∀ q ∈ ms, src = some q.1 → collResult opc f width ms m = (q.2.1, 0))
          ∧ ((∀ q ∈ ms, src ≠ some q.1) → collResult opc f width ms m = (m.2.1, 0))
      let fold (qs : List Member) : BitVec 1024 × Flags := collResult 0x67 f width qs m
      let op := f.bits 11 8
      let step (a b : DWord) : Calc :=
        if op = 0 then (if f.typ ≤ 7 then typeResult f.typ false (z a + z b) else put (F.add 0 false (num a) (num b)))
        else if op = 1 then (if f.typ ≤ 7 then typeResult f.typ false (min (z a) (z b)) else put (F.minMax false false (raw a) (raw b)))
        else if op = 2 then (if f.typ ≤ 7 then typeResult f.typ false (max (z a) (z b)) else put (F.minMax true false (raw a) (raw b)))
        else { val := if op = 3 then a &&& b else if op = 4 then a ||| b else a ^^^ b }
      let identity : DWord :=
        if op = 0 then (if f.typ ≤ 7 then 0 else BitVec.ofNat 64 F.signBit)
        else if op = 1 then (if f.typ ≤ 7 then typeExtend f.typ (BitVec.ofInt _ (typeHigh f.typ)) else BitVec.ofNat 64 F.infBits)
        else if op = 2 then
          (if f.typ ≤ 7 then typeExtend f.typ (BitVec.ofInt _ (typeLow f.typ)) else BitVec.ofNat 64 (F.signBit + F.infBits))
        else if op = 3 then BitVec.ofNat 64 (2 ^ typeBits f.typ - 1) else 0
      let upTo : List Member := ms.filter fun q => if f.mod.getLsbD 7 then decide (q.1 < m.1) else decide (q.1 ≤ m.1)
      ((ms.map (·.1)).Nodup →
          moves 0x60 (if n < seg then some (base + n) else none) ∧ moves 0x61 (if n ≤ m.1 - base then some (m.1 - n) else none)
            ∧ moves 0x62 (if m.1 + n < base + seg then some (m.1 + n) else none)
            ∧ moves 0x63 (if n < seg then some (m.1 ^^^ n) else none))
        ∧ (collResult 0x64 f width ms m = (if ∀ q ∈ ms, test q = true then 1 else 0, 0))
        ∧ (collResult 0x65 f width ms m = (if ∃ q ∈ ms, test q = true then 1 else 0, 0))
        ∧ (∀ n < 32, (collResult 0x66 f width ms m).1.getLsbD n = ms.any fun q => q.1 == n && test q)
        ∧ (∀ q qs, ms = q :: qs → collResult 0x69 f width ms m = (if m.1 = q.1 then 1 else 0, 0))
        ∧ (∀ q, fold [q] = (q.val.setWidth 1024, 0))
        ∧ (f.typ ≤ 7 ∨ 10 ≤ f.typ → ∀ (q : Member), ms ≠ [] →
            let r := step ((fold ms).1.setWidth 64) q.val
            fold (ms ++ [q]) = (r.val.setWidth 1024, (fold ms).2 ||| r.fl))
        ∧ (upTo ≠ [] → collResult 0x68 f width ms m = fold upTo)
        ∧ (upTo = [] → f.typ ≤ 7 ∨ 10 ≤ f.typ → collResult 0x68 f width ms m = (identity.setWidth 1024, 0))
        ∧ (f.bits 1 0 ≠ 0 → ∀ p q : Member, collResult 0xcf f width [p] m = (affMov p.2.1, 0)
            ∧ collResult 0xcf f width [p, q] m = (affAdd p.2.1 q.2.1, 0)
            ∧ (2 ≤ ms.length → collResult 0xcf f width (ms ++ [q]) m = (affAdd (collResult 0xcf f width ms m).1 q.2.1, 0))))
  ∧ (∀ (s : State) (c t g : Nat) (pc : Addr) (k : Coll),
      let q := s.group c t g
      let gone (u : State) : Prop := ∀ j ∈ (u.group c t g).colls, ¬ (j.pc = k.pc ∧ j.slot = k.slot)
      (∀ (d : Nat) (ch tr un : Bool),
          q.collAt pc q.collReady = some k → k.arrived.Pairwise (fun a b => a.1 < b.1) →
          (∀ m ∈ k.arrived, m.1 ∈ q.presentIn k.mask ∧ (collResult k.opc k.f q.width k.arrived m).2 = 0) →
          k.shape.d = .word ch tr un → k.f.dc = false → k.f.tr = false → k.f.d.toNat = d → d < 224 →
          ∃ u, exec (.collectiveComplete c t g pc) s = .next u ∧ gone u ∧ u.mem = s.mem
            ∧ ∀ m ∈ k.arrived, let y : Lane := { c := c, t := t, g := g, l := m.1 }
              (u.thread y).pos.wait = none
                ∧ (u.thread y).word d = (collResult k.opc k.f q.width k.arrived m).1.setWidth 32
                ∧ ∀ j, j ≠ d → (u.thread y).word j = (s.thread y).word j)
        ∧ ((q.collAt pc fun k => !k.arrived.isEmpty && !q.collReady k && decide (k.first + (s.team c t).limit ≤ s.clocks c t)) = some k →
            ∃ u, exec (.collTimeout c t g pc) s = .next u ∧ gone u
              ∧ ∀ m ∈ k.arrived, let y : Lane := { c := c, t := t, g := g, l := m.1 }
                (u.thread y).run = .parked ∧ (u.thread y).pc = (s.thread y).rentry))

/-- R175, R183, R186: scratchpad accesses at offset o of the team, for every type and source. -/
def Obligations.ScratchpadAccess : Prop :=
  ∀ (f : OpF) (s : State) (x : Lane) (v : Src),
    let n := typeBytes f.typ
    let k := s.team x.c x.t
    let able (i : Instr) (o : Nat) : Prop :=
      s.begins i f i.shape x = true ∧ s.sources (s.env i f x) x = some v ∧ (s.thread x).loads.length < 63
        ∧ (s.thread x).stores.length < 63 ∧ o % n = 0 ∧ o + n ≤ k.scratchSize
    let good (o : Nat) : Prop := s.scratchBad x.c x.t o n = false
    let old (o : Nat) : Nat := s.scratchRead x.c x.t o n
    let owed (o : Nat) (w : DWord) (ord : Bool) : Load := { words := loadWords f.d.toNat f.typ w, addr := o, ordered := ord }
    let at_ (i : Instr) : Nat := (s.env i f x).addr32 v.a n
    let atomAt : Nat := (s.env (.atomS f) f x).addr32 v.a (if f.aop = 7 then 0 else n)
    let loaded (w : Nat) : DWord := if f.typ ≤ 7 then typeExtend f.typ (BitVec.ofNat _ w) else BitVec.ofNat 64 w
    let ends (i : Instr) (u : State) : Prop := ∃ t, exec i s = .next t ∧ Same t (u.completed (s.env i f x) x)
    let written (o m : Nat) : State := ((s.atOp x).scratchWrite x.c x.t o n m).popAll x v.pops
    (able (.ldS f) (at_ (.ldS f)) → good (at_ (.ldS f)) →
        ends (.ldS f) ((s.atOp x).issueLoad x (owed (at_ (.ldS f)) (loaded (old (at_ (.ldS f)))) false)))
      ∧ (able (.stS f) (at_ (.stS f)) → ends (.stS f) ((written (at_ (.stS f)) v.b.toNat).issueStore x {}))
      ∧ (∀ r q, able (.atomS f) atomAt → good atomAt → (s.atOp x).release x f.scope = .ok r →
        (r.scratchWrite x.c x.t atomAt n (rmw f.aop f.typ (old atomAt) v.b v.c)).acquire x f.scope = .ok q →
        ends (.atomS f) ((q.popAll x v.pops).issueLoad x (owed atomAt (BitVec.ofNat 64 (old atomAt)) (f.mod.getLsbD 9))))
      ∧ (∀ r, able (.redS f) (at_ (.redS f)) → good (at_ (.redS f)) → k.det = false → (s.atOp x).release x f.scope = .ok r →
        ends (.redS f) (((r.scratchWrite x.c x.t (at_ (.redS f)) n
          (rmw f.aop f.typ (old (at_ (.redS f))) v.b 0)).popAll x v.pops).issueStore x {}))
      ∧ (∀ u, able (.redS f) (at_ (.redS f)) → k.det = true →
        holdRed (s.env (.redS f) f x) x (s.atOp x) true (at_ (.redS f)) 3 v.b = .ok u → ends (.redS f) (u.popAll x v.pops))

/-- R182, R183: what an integer read-modify-write stores, as a number of the width of its type.
R183, R179: one indivisible read-modify-write at the home. -/
def Obligations.AtomicValues : Prop :=
   (∀ (typ old : Nat) (b c : DWord), typ ≤ 7 →
      let w := typeBits typ
      old < 2 ^ w →
      let a : BitVec w := BitVec.ofNat w old
      let b' : BitVec w := b.setWidth w
      let z := typeValue typ
      rmw 0 typ old b c = (a + b').toNat
        ∧ rmw 1 typ old b c = (if z (BitVec.ofNat 64 old) ≤ z b then a else b').toNat
        ∧ rmw 2 typ old b c = (if z (BitVec.ofNat 64 old) ≤ z b then b' else a).toNat
        ∧ rmw 3 typ old b c = (a &&& b').toNat ∧ rmw 4 typ old b c = (a ||| b').toNat ∧ rmw 5 typ old b c = (a ^^^ b').toNat
        ∧ rmw 6 typ old b c = b'.toNat
        ∧ rmw 7 typ old b c = (if a = b' then (c.setWidth w : BitVec w).toNat else old))
  ∧ (∀ (s : State) (c pa n cls : Nat) (g : Nat → Nat),
      s.canonical → isRemote pa = false → (s.die (coreDie c)).lines.find? (lineOf pa) = none → s.homeFree pa = true →
      s.leasesOver c (lineOf pa) = true → (s.core c).owes (lineOf pa) = false → s.inJournal pa = false →
      (∃ v, s.touch pa (classOf pa cls) false = some v) →
      (s.slice (homeOf pa)).epochs.get (lineOf pa) [] = [] → n < 128 →
      (s.poison.contains (lineOf pa) = false →
        ∃ u, s.atomicAt c pa n cls 0 g = some (s.mem.readN pa n, false, u)
          ∧ u.mem.readN pa n = g (s.mem.readN pa n) % 2 ^ (8 * n)
          ∧ ∀ a, a < pa ∨ pa + n ≤ a → u.mem.read a = s.mem.read a)
      ∧ (s.poison.contains (lineOf pa) = true →
        ∃ u, s.atomicAt c pa n cls 0 g = some (s.mem.readN pa n, true, u) ∧ u.mem = s.mem))

/-- R176, R173: accesses through the register aperture and to the scratchpads of a cluster. That the model marks a team that
heard from the other die is log 44. -/
def Obligations.ApertureAndCluster : Prop :=
  ∀ (f : OpF) (s : State) (x : Lane) (v : Src) (ws : List Nat) (w c t o : Nat),
    let n := typeBytes f.typ
    let able (i : Instr) : Prop := s.begins i f i.shape x = true ∧ s.sources (s.env i f x) x = some v
    let words (i : Instr) : Prop := apertureWords (s.team x.c x.t).nG (s.team x.c x.t).nA ((s.env i f x).addr32 v.a n) n = some ws
    let target (i : Instr) (a : Access) : Prop := clusterTarget (s.env i f x) x s v.a n a = .ok (c, t, o)
    let ends (i : Instr) (u : State) : Prop := ∃ t, exec i s = .next t ∧ Same t (u.completed (s.env i f x) x)
    let owed : Load :=
      { words := loadWords f.d.toNat f.typ (loadValue f.typ (s.scratchRead c t o n)), addr := v.a.toNat }
    (able (.ldR f) → words (.ldR f) → readWords x (s.atOp x) ws = .ok w →
        ends (.ldR f) (writeDst (s.env (.ldR f) f x) x (BitVec.ofNat 64 w) (s.atOp x)))
      ∧ (able (.stR f) → words (.stR f) → ends (.stR f) (writeWords x ((s.atOp x).popAll x v.pops) v.b.toNat ws))
      ∧ (able (.ldx f) → target (.ldx f) .read → s.scratchBad c t o n = false → (s.thread x).loads.length < 63 →
        ends (.ldx f) (((s.atOp x).hear x.c x.t c).issueLoad x owed))
      ∧ (able (.stx f) → target (.stx f) .write → (s.thread x).stores.length < 63 →
        ends (.stx f) (((((s.atOp x).scratchWrite c t o n v.b.toNat).hear c t x.c).popAll x v.pops).issueStore x {}))

/-- R175, R177, R180: global loads and prefetch. -/
def Obligations.GlobalLoads : Prop :=
  ∀ (f : OpF) (s u : State) (x : Lane) (v : Src) (pa cls w : Nat) (bad : Bool),
    let n := typeBytes f.typ
    let able (i : Instr) : Prop :=
      let va := (s.env i f x).addr64 v.a n
      s.begins i f i.shape x = true ∧ s.sources (s.env i f x) x = some v ∧ (s.thread x).loads.length < 63
        ∧ va < 2 ^ 48 ∧ va % n = 0 ∧ s.translate x va .read = .ok (pa, cls)
        ∧ (s.atOp x).laneLoad x.c pa n cls (i == .ldG f && f.bits 8 7 != 3) = some (w, bad, u)
    let owed (i : Instr) : Load :=
      { words := loadWords f.d.toNat f.typ (loadValue f.typ w), addr := (s.env i f x).addr64 v.a n, poisoned := bad }
    let ends (i : Instr) (u : State) : Prop := ∃ t, exec i s = .next t ∧ Same t (u.completed (s.env i f x) x)
    (able (.ldG f) → ends (.ldG f) (u.issueLoad x (owed (.ldG f))))
      ∧ (able (.ldC f) → ends (.ldC f) (u.issueLoad x (owed (.ldC f))))
      ∧ (s.begins (.pref f) f (Instr.pref f).shape x = true → s.sources (s.env (.pref f) f x) x = some v → ends (.pref f) s)
      ∧ (isRemote pa = false →
        (∀ y, s.homeFree pa .walker = true → s.copyOf x.c (lineOf pa) = some y →
            ∃ t, s.laneLoad x.c pa n cls true = some (lineBytes y.data (pa % 128) n, false, t) ∧ t.mem = s.mem ∧ t.dies = s.dies)
          ∧ (∀ l c t, c = false ∨ s.copyOf x.c (lineOf pa) = none → s.fill (coreDie x.c) pa (classOf pa cls) = some (l, t) →
            (s.core x.c).writes = [] → ∃ q, s.laneLoad x.c pa n cls c = some (lineBytes l.data (pa % 128) n, l.poisoned, q)
              ∧ q.mem = t.mem ∧ (c = false → q = t)
              ∧ ∀ y, (q.core x.c).l1.find? (lineOf pa) = some y → (t.core x.c).l1.find? (lineOf pa) ≠ some y →
                y.data = l.data ∧ ∃ a ∈ (q.die (coreDie x.c)).leases, a.line = lineOf pa ∧ a.core = x.c
                  ∧ a.expiry = s.now + max 256 (t.die (coreDie x.c)).leaseLen.toNat))

/-- R175, R183, R186: global stores, reductions and atomics. The epochs of ordered atomics are the model's account of R259 (log 14). -/
def Obligations.GlobalStores : Prop :=
  ∀ (f : OpF) (s r u q : State) (x : Lane) (v : Src) (pa cls w : Nat) (bad : Bool) (ws : List Nat),
    let n := typeBytes f.typ
    let k := s.team x.c x.t
    let path : Prop := (isRemote pa && s.noPath pa) = false
    let tagged (u : State) : State :=
      if f.mod.getLsbD 9 then
        let (n, v) := u.releasePkg (coreDie x.c)
        v.modThread x fun th => { th with ordEpoch := n }
      else u
    let able (i : Instr) (va : Nat) (a : Access) : Prop :=
      s.begins i f i.shape x = true ∧ s.sources (s.env i f x) x = some v ∧ (s.thread x).stores.length < 63
        ∧ (s.thread x).loads.length < 63 ∧ va < 2 ^ 48 ∧ va % n = 0 ∧ s.translate x va a = .ok (pa, cls)
    let at_ (i : Instr) : Nat := (s.env i f x).addr64 v.a n
    let atomAt : Nat := (s.env (.atomG f) f x).addr64 v.a (if f.aop = 7 then 0 else n)
    let new (old : Nat) (c : DWord) : Nat := rmw f.aop f.typ old v.b c
    let ends (i : Instr) (u : State) : Prop := ∃ t, exec i s = .next t ∧ Same t (u.completed (s.env i f x) x)
    let old : Load :=
      { words := loadWords f.d.toNat f.typ (BitVec.ofNat 64 w), addr := atomAt, poisoned := bad, ordered := f.mod.getLsbD 9 }
    (able (.stG f) (at_ (.stG f)) .write → (k.det = true → (s.group x.c x.t x.g).owns (at_ (.stG f)) n = true) →
        path → (s.atOp x).laneStore x.c k.part pa n (v.b.toNat % 2 ^ (8 * n)) cls (s.thread x).epoch = some (ws, u) →
        ends (.stG f) ((u.popAll x v.pops).issueStore x { writes := ws }))
      ∧ (able (.stG f) (at_ (.stG f)) .write → k.det = false → ¬ path →
        ∃ t, exec (.stG f) s = .next t ∧ Same t (((s.atOp x).park x (s.env (.stG f) f x).at_
          { cause := .memError, addr := at_ (.stG f), access := 2 }).ended x))
      ∧ (able (.redG f) (at_ (.redG f)) .readWrite → k.det = false → path → (s.atOp x).release x f.scope = .ok r →
        r.atomicAt x.c pa n cls (r.thread x).epoch (fun old => new old 0) = some (w, bad, u) →
        ends (.redG f) ((u.popAll x v.pops).issueStore x {}))
      ∧ (able (.redG f) (at_ (.redG f)) .readWrite → k.det = true → (s.group x.c x.t x.g).owns (at_ (.redG f)) n = true → path →
        holdRed (s.env (.redG f) f x) x (s.atOp x) false pa cls v.b = .ok u → ends (.redG f) (u.popAll x v.pops))
      ∧ (able (.atomG f) atomAt .readWrite → k.det = false → (s.atOp x).release x f.scope = .ok r →
        (f.mod.getLsbD 9 = true → (∀ o ∈ (s.thread x).stores, s.ackedAt x.c 3 o = true) ∧ (s.core x.c).writes = []) →
        r.atomicAt x.c pa n cls (if f.mod.getLsbD 9 then max (r.thread x).epoch (r.thread x).ordEpoch else (r.thread x).epoch)
          (fun old => new old v.c) = some (w, bad, u) →
        (tagged u).acquire x f.scope = .ok q →
        ends (.atomG f) ((q.popAll x v.pops).issueLoad x old))

/-- R35, R267, R202: what is outstanding completes. The order of sends is log 46. -/
def Obligations.RepliesAndAcknowledgements : Prop :=
  ∀ (s : State) (c t g l i : Nat),
    let x : Lane := { c := c, t := t, g := g, l := l }
    (∀ o : Load, (s.thread x).loads[i]? = some o → o.pending = none → o.poisoned = false →
        (o.words.map (·.1)).Nodup →
        ∃ u, exec (.loadReply c t g l i) s = .next u ∧ u.mem = s.mem ∧ (u.thread x).loads = (s.thread x).loads.eraseIdx i
          ∧ (∀ p ∈ o.words, (u.thread x).word p.1 = p.2)
          ∧ ∀ j, (∀ p ∈ o.words, p.1 ≠ j) → (u.thread x).word j = (s.thread x).word j)
      ∧ (∀ o : Store, (s.thread x).stores[i]? = some o → o.send = none → s.ackReady c o = true → (s.thread x).run ≠ .exited →
        (s.group c t g).threads.find? l ≠ none →
        ∃ u, exec (.storeAck c t g l i) s = .next u ∧ u.mem = s.mem ∧ (u.thread x).stores = (s.thread x).stores.eraseIdx i)
      ∧ ∀ (o : Store) (core key depth u : Nat) (w : Word), (s.thread x).stores[i]? = some o →
        o.send = some (core, key, depth, w) → s.clusterTeam core (s.team c t) = some u →
        (∀ p ∈ (s.group c t g).threads, ∀ q ∈ p.2.stores, o.seq ≤ q.seq) →
        ((s.team core u).queue key).words.length < depth → (s.team core u).over = false → (s.thread x).run ≠ .exited →
        (s.group c t g).threads.find? l ≠ none →
        ∃ v, exec (.peerSendAppend c t g l i) s = .next v
          ∧ ((v.team core u).queue key).words = ((s.team core u).queue key).words ++ [w]
          ∧ (v.thread x).stores = (s.thread x).stores.eraseIdx i

/-- R289 to R293: the entries of a walk, and what a walk leaves for the lanes that wait for it. -/
def Obligations.TranslationWalk : Prop :=
  (∀ (s u : State) (c : Nat) (va : Addr) (a : Access) (x : Lane) (xs : List Lane),
    s.walkers c va.toNat a = x :: xs →
    let p := (s.team c x.t).part
    let kinds : List Access := [.read, .write, .readWrite]
    let only : Prop := ∀ b ∈ kinds, b ≠ a → s.walkers c va.toNat b = []
    (∀ y, s.walk p (coreDie c) va.toNat (Need.of a) = .ok y u →
      ∃ t, exec (.translationWalk c va a) s = .next t ∧ (only → t.mem = u.mem ∧ (t.core c).tlb.head? = some y))
    ∧ (∀ k, s.walk p (coreDie c) va.toNat (Need.of a) = .fault k u →
      ∃ t, exec (.translationWalk c va a) s = .next t ∧ (only → t.mem = u.mem)
        ∧ ∀ z ∈ x :: xs, (s.team c z.t).part = p → (t.thread z).pos.wait = some (.walkFault va.toNat k))
    ∧ ∀ b v w k, a ∈ kinds → b ∈ kinds → b ≠ a → s.walkFor c p va.toNat a = some v →
      (∀ d ∈ kinds, d ≠ a → d ≠ b → s.walkers c va.toNat d = []) →
      v.walk p (coreDie c) va.toNat (Need.of b) = .fault k w →
      ∃ t, exec (.translationWalk c va a) s = .next t
        ∧ ∀ z ∈ v.walkers c va.toNat b, (v.team c z.t).part = p → (t.thread z).pos.wait = some (.walkFault va.toNat k))
  ∧ (∀ (s u : State) (p d va pa e : Nat) (big bad : Bool) (n : Need), s.homeRead pa 8 d 3 .walker = some (e, bad, u) →
    let b (hi lo : Nat) : Nat := e / 2 ^ lo % 2 ^ (hi - lo + 1)
    let frame := b 47 16
    let rem : Prop := b 63 63 = 1
    let last := if big then frame + 31 else frame
    let reserved : Prop := b 50 48 ≠ 0 ∨ b 15 12 ≠ 0 ∨ b 7 5 ≠ 0 ∨ b 1 1 ≠ 0 ∨ (¬ rem ∧ b 62 51 ≠ 0) ∨ (big = true ∧ frame % 32 ≠ 0)
      ∨ (¬ rem ∧ ¬ (last < 2 ^ 24 ∨ (2 ^ 30 ≤ frame ∧ last < 2 ^ 31)))
    let lacks : Prop := (n.r = true ∧ b 2 2 = 0) ∨ (n.w = true ∧ b 3 3 = 0) ∨ (n.x = true ∧ (b 4 4 = 0 ∨ rem))
    let w := s.leafEntry p d va pa big n
    let page := if big then 2 ^ 21 else 2 ^ 16
    (bad = true → w = .fault .memError u)
      ∧ (bad = false → b 0 0 = 0 → w = .fault .pageFault u)
      ∧ (bad = false → b 0 0 = 1 → reserved → w = .fault .pteBad u)
      ∧ (bad = false → b 0 0 = 1 → ¬ reserved → lacks → w = .fault .permFault u)
      ∧ (bad = false → b 0 0 = 1 → ¬ reserved → ¬ lacks → ∃ y v, w = .ok y v ∧ y.part = p ∧ y.cls = b 11 10
        ∧ y.covers p va = true
        ∧ (∀ a, a / page = va / page → y.pa a = (if b 63 63 = 1 then (b 62 51 + 1) * 2 ^ 48 else 0) + frame * 2 ^ 16 + a % page)
        ∧ (b 8 8 = 1 → b 9 9 = 1 ∨ n.dirty = false → v = u)
        ∧ (b 8 8 = 0 ∨ (b 9 9 = 0 ∧ n.dirty = true) →
          v = { u with mem := u.mem.writeN (pa + 1) 1 (e / 256 % 256 ||| (if n.dirty then 3 else 1)) })))
  ∧ ∀ (s u v : State) (p d va e m : Nat) (bad worse : Bool) (n : Need),
    let top := (s.part p).ptTop.toNat
    let b (e hi lo : Nat) : Nat := e / 2 ^ lo % 2 ^ (hi - lo + 1)
    let w := s.walkTable p d va n
    (2 ^ 24 ≤ top → w = .fault .pteBad s)
      ∧ (top < 2 ^ 24 → s.dirEntry d p false (va / 2 ^ 35) (top * 2 ^ 16 + 8 * (va / 2 ^ 35 % 2 ^ 13)) = some (e, bad, u) →
        let odd : Prop := b e 63 48 ≠ 0 ∨ b e 14 1 ≠ 0 ∨ 2 ^ 40 ≤ b e 47 15 * 2 ^ 15
        let kept := u.keepDir d p false (va / 2 ^ 35) e
        (bad = true → w = .fault .memError u)
          ∧ (bad = false → b e 0 0 = 0 → w = .fault .pageFault u)
          ∧ (bad = false → b e 0 0 = 1 → odd → w = .fault .pteBad u)
          ∧ (bad = false → b e 0 0 = 1 → ¬ odd →
            kept.dirEntry d p true (va / 2 ^ 23) (b e 47 15 * 2 ^ 15 + 8 * (va / 2 ^ 23 % 2 ^ 12)) = some (m, worse, v) →
            let wrong : Prop := b m 63 48 ≠ 0 ∨ b m 9 3 ≠ 0 ∨ 2 ≤ b m 2 1 ∨ 2 ^ 40 ≤ b m 47 10 * 2 ^ 10
            let table := b m 47 10 * 2 ^ 10
            let q := v.keepDir d p true (va / 2 ^ 23) m
            (worse = true → w = .fault .memError v)
              ∧ (worse = false → b m 0 0 = 0 → w = .fault .pageFault v)
              ∧ (worse = false → b m 0 0 = 1 → wrong → w = .fault .pteBad v)
              ∧ (worse = false → b m 0 0 = 1 → ¬ wrong → w =
                if b m 2 1 = 0 then q.leafEntry p d va (table + 8 * (va / 2 ^ 16 % 2 ^ 7)) false n
                else q.leafEntry p d va (table + 8 * (va / 2 ^ 21 % 2 ^ 2)) true n)))

/-- R188, R189: the fences at every scope, and `wait`; R270 to R272, R275: what a release and an acquire do to the caches. That a
lane beyond its team waits for the writes of its whole core is log 14, that a message is joined and that an acquire drops every L1 of
its die is log 44, what a lane has observed of engine operations log 53. -/
def Obligations.FencesAndWait : Prop :=
  ∀ (f : OpF) (s u : State) (x : Lane),
    let able (i : Instr) : Prop := s.begins i f i.shape x = true
    let wide := wideScope x.c (s.team x.c x.t) f.scope
    let z := s.atOp x
    let told := z.tells x
    let released : State :=
      let (n, v) := told.releasePkg (coreDie x.c)
      v.modThread x fun th => { th with epoch := n }
    let seen := z.observe x
    let acked : Prop := (∀ o ∈ (s.thread x).stores, s.ackedAt x.c f.scope o = true) ∧ (2 ≤ f.scope → (s.core x.c).writes = [])
    let g := s.group x.c x.t x.g
    let acquires (r u : State) : Prop := r.acquire x f.scope = .ok u
    ((∀ o ∈ (s.thread x).loads, o.poisoned = true) →
        (able (.fenceAcq f) → acquires z u → s.ends (.fenceAcq f) f x u)
        ∧ ∀ r, z.release x f.scope = .ok r →
          (able (.fenceRel f) → s.ends (.fenceRel f) f x r) ∧ (able (.fenceAr f) → acquires r u → s.ends (.fenceAr f) f x u))
      ∧ (¬ acked → z.release x f.scope = .wait .count)
      ∧ (acked → wide = false → z.release x f.scope = .ok told)
      ∧ (acked → wide = true → f.scope ≠ 4 → z.release x f.scope = .ok released)
      ∧ (acked → wide = true → f.scope = 4 → ∀ r, released.releaseSys (coreDie x.c) = some r → z.release x f.scope = .ok r)
      ∧ (wide = false → acquires z seen)
      ∧ (wide = true → (s.team x.c x.t).heard = false → seen.acquirePkg x.c = some u → acquires z u)
      ∧ (wide = true → (s.team x.c x.t).heard = true →
        (seen.modTeam x.c x.t fun k => { k with heard := false }).joinPkg x.c = some u → acquires z u)
      ∧ (∀ d, let (n, v) := s.releasePkg d
        v.mem = s.mem ∧ n = (s.die d).epoch + 1 ∧ (v.die d).epoch = n
          ∧ ∀ j l, (v.die d).lines.find? j = some l → l.dirty ≠ 0 → l.epoch ≠ 0)
      ∧ (∀ d v, s.releaseSys d = some v → ∀ j l, (v.die d).lines.find? j = some l → l.dirty = 0)
      ∧ (∀ (c : Nat) (v : State), s.acquirePkg c = some v →
        (∀ n, coreDie n = coreDie c → (v.core n).l1 = []) ∧ (v.die (coreDie c)).leases = []
        ∧ ∀ j l, (v.die (coreDie c)).lines.find? j = some l → l.dirty ≠ 0)
      ∧ (∀ (pa d : Nat) (v : State), s.recall pa d = some v →
        ∀ e ∈ (s.slice (homeOf pa)).epochs.get (lineOf pa) [], e.1 ≠ d →
          ∀ j l, (v.die e.1).lines.find? j = some l → l.dirty = 0 ∨ l.epoch = 0 ∨ e.2 < l.epoch)
      ∧ (∀ (d j : Nat) (l : DieLine) (v : State), s.canonical → (s.die d).lines.find? j = some l → l.dirty ≠ 0 →
        s.openLine j = false → s.writeBack d j = some v → (v.die d).lines.find? j = some { l with dirty := 0, epoch := 0 }
          ∧ v.mem = mergeBytes s.mem j l.data l.dirty
          ∧ ∀ i, i < 128 → v.mem.read (128 * j + i)
            = if l.dirty.getLsbD i then (l.data >>> (8 * i)).setWidth 8 else s.mem.read (128 * j + i))
      ∧ (able (.wait f) → staleWait f g = none → (∀ o ∈ (s.thread x).loads, o.poisoned = false) →
        (s.thread x).loads.length ≤ f.d.toNat → (s.thread x).stores.length ≤ f.s1.toNat → g.cCount ≤ f.s2.toNat →
        g.tCount ≤ f.s3.toNat → s.ends (.wait f) f x (if f.s3.toNat < 63 then s.seesCount x f.s3.toNat else s))

/-- R109, R189, R196, R199, R207: the four resume rows.
R317, R318: rotation and draining. The waits that no row resumes, and how waves are told apart, are log 37. -/
def Obligations.WaitingAndWaveSets : Prop :=
   (∀ (s : State) (c t g l : Nat) (w : Wave) (q : Wait),
      let x : Lane := { c := c, t := t, g := g, l := l }
      s.waveOf x = some w → w.stalled = true → (s.thread x).pos.wait = some q → s.met w x = true →
      let resumes (i : Instr) : Prop :=
        ∃ u, exec i s = .next u ∧ Same u s ∧ ∀ v ∈ (u.core c).waves, v.team = t → (g, l) ∈ v.lanes → v.stalled = false
      match q with
      | .reply | .count | .walk _ _ | .walkFault _ _ | .line _ | .dispatcher | .fswait => resumes (.waitResume c t g l)
      | .waitbar => resumes (.waitbarResume c t g l)
      | .chanEmpty _ | .chanFull _ => resumes (.channelResume c t g l)
      | .future _ _ _ => resumes (.futureResume c t g l)
      | .collective | .barrier _ | .icinv | .turn => exec (.waitResume c t g l) s = .refused .notEnabled)
  ∧ (∀ (s : State) (c b : Nat),
      (∀ w, s.rotates c = some w → ∃ t, exec (.activeSetRotate c) s = .next t ∧ Same t s ∧ w ∈ (t.core c).pending)
      ∧ ∀ q, (s.core c).bins[b]? = some q → s.binDue c q = true → q.lanes ≠ [] →
        ∃ t, exec (.quadrilleAgeDrain c b) s = .next t
          ∧ Same t (s.modCore c fun k => { k with bins := k.bins.filter fun r => (r.team, r.pair, r.pc) ≠ (q.team, q.pair, q.pc) })
          ∧ (∀ w ∈ (s.core c).waves, ∃ v ∈ (t.core c).waves, v.team = w.team ∧ v.lanes = w.lanes)
          ∧ ∃ w ∈ (t.core c).waves, w.team = q.team ∧ w.lanes = sortThreads q.lanes)

/-- R191, R192: the arrival at a barrier; the release comes first.
R191, R192, R323: opening, release steps and the timeout. That a STEP of 0 releases one group, and that a time-out removes the instance of the team, is log 51. -/
def Obligations.Barriers : Prop :=
   (∀ (f : OpF) (s u : State) (x : Lane) (k : BarKind),
      let i : Instr := match k with
        | .team => .bar f
        | .cluster => .barClu f
        | .grid => .barGrid f
      s.begins i f i.shape x = true → (s.group x.c x.t x.g).task = none → relLane x (barScope k f) (s.opened x) = .ok u →
      (∀ d ∈ s.barTeams x.c x.t k, ∀ b ∈ (s.team d.1 d.2).bars, b.kind = k → b.pc = (s.thread x).pc) →
      ∃ t, exec i s = .next t ∧ (t.thread x).run = .waiting ∧ t.atBar k x = true ∧ t.mem = u.mem
        ∧ ∀ d ∈ s.barTeams x.c x.t k, ∃ b ∈ (t.team d.1 d.2).bars, b.kind = k)
  ∧ (∀ (s v : State) (c t fl : Nat) (k : BarKind) (b : Bar),
      let q := s.flask fl
      let n := if q.gap = 0 then q.release.length else max 1 q.step.toNat
      ((s.team c t).bars.any (·.kind == k) = true → s.barReady c t k = true → (s.team c t).det = false →
          ∃ u, exec (.barrierOpen c t k) s = .next u
            ∧ ∀ e ∈ s.barTeams c t k, (∀ b ∈ (u.team e.1 e.2).bars, b.kind ≠ k)
              ∧ ∀ p ∈ (s.team e.1 e.2).groups, p.2.task = none → (e.1, e.2, p.1) ∈ (u.flask (coreFlask e.1)).release)
        ∧ (q.release ≠ [] → q.nextAt ≤ s.now → (q.release.take n).foldlM (fun s d => s.depart d.1 d.2.1 d.2.2) s = some v →
          ∃ u, exec (.pavaneReleaseStep fl) s = .next u ∧ (u.flask fl).release = q.release.drop n
            ∧ (u.flask fl).nextAt = s.now + q.gap.toNat ∧ ∀ y, u.thread y = v.thread y)
        ∧ ((s.team c t).bars.find? (·.kind == k) = some b → k ≠ .grid → s.barReady c t k = false →
          b.first + (s.team c t).limit ≤ s.clocks c t →
          ∃ u, exec (.barTimeout c t k) s = .next u ∧ (∀ b ∈ (u.team c t).bars, b.kind ≠ k)
            ∧ ∀ y ∈ s.barLanes c t, s.atBar k y = true → (u.thread y).run = .parked ∧ (u.thread y).pc = (s.thread y).rentry))

/-- R193 to R196: barrier objects as four words TAG, EXPECT, REMAIN, PHASE. That PHASE is looked at before EXPECT is log 55, what a
lane observes by it log 53. -/
def Obligations.BarrierObjects : Prop :=
  (∀ tag expect remain phase : Word,
    let o (r p : Word) : Nat := tag.toNat + 2 ^ 32 * expect.toNat + 2 ^ 64 * r.toNat + 2 ^ 96 * p.toNat
    (expect ≠ 0 → 1 < remain → remain ≤ expect → arrival tag (o remain phase) = some (o (remain - 1) phase))
      ∧ (expect ≠ 0 → arrival tag (o 1 phase) = some (o expect (phase + 1)))
      ∧ (expect ≠ 0 → remain = 0 ∨ expect < remain → arrival tag (o remain phase)
        = some (if expect = 1 then o expect (phase + 1) else o (expect - 1) phase))
      ∧ (expect = 0 → arrival tag (o remain phase) = none)
      ∧ ∀ other, other ≠ tag → arrival other (o remain phase) = none)
    ∧ ∀ (f : OpF) (s r u q : State) (x : Lane) (v : Src) (o : Nat),
      let tag : Word := v.b.setWidth 32
      let a (i : Instr) : Nat := objectAddr (s.env i f x) v.a
      let spc := f.mod.getLsbD 7
      (s.able (.arrive f) f x v → (s.thread x).loads.length < 63 → relLane x f.scope (s.atOp x) = .ok r →
        objectRmw x r spc (a (.arrive f)) true (fun o => (arrival tag o).getD o) = .ok (o, false, u) → arrival tag o ≠ none →
        s.ends (.arrive f) f x (u.issueLoad x { words := [(f.d.toNat, BitVec.ofNat 32 (o / 2 ^ 96))], addr := a (.arrive f) }))
      ∧ (s.able (.waitbar f) f x v → (s.group x.c x.t x.g).staleAt spc (a (.waitbar f)) = false →
        objectRmw x (s.atOp x) spc (a (.waitbar f)) false id = .ok (o, false, u) →
        (o / 2 ^ 96 ≠ v.b.toNat % 2 ^ 32 → acqLane x f.scope (u.seesBar x spc (a (.waitbar f))) = .ok q → s.ends (.waitbar f) f x q)
        ∧ (o / 2 ^ 96 = v.b.toNat % 2 ^ 32 → o / 2 ^ 32 % 2 ^ 32 ≠ 0 →
          ∃ t, exec (.waitbar f) s = .next t ∧ (t.thread x).run = .waiting ∧ (t.thread x).pos.wait = some .waitbar
            ∧ t.mem = s.mem))

/-- R142, R201: `yield` and `cbind`.
R203 to R205: futures in scratchpad slots. What a lane observes by one is log 53. -/
def Obligations.BindingAndFutures : Prop :=
   (∀ (f : OpF) (s : State) (x : Lane) (v : DWord) (ps : List Nat) (tgt depth : Nat),
      let e := s.env (.cbind f) f x
      (s.begins (.yield f) f (Instr.yield f).shape x = true →
          ((s.team x.c x.t).preqAt = none → s.ends (.yield f) f x s)
          ∧ ((s.team x.c x.t).preqAt.isSome = true →
            ∃ t, exec (.yield f) s = .next t ∧ t.mem = s.mem ∧ (t.thread x).run = .yielded
              ∧ (t.thread x).pc = (s.thread x).pc + 8))
        ∧ (s.begins (.cbind f) f (Instr.cbind f).shape x = true → readSrc e x (s.opened x) e.sh.s1 f.s1 = .ok (v, ps) →
          bindTarget s x f.d.toNat (f.bits 2 0) (f.bits 12 5) (v.toNat % 2 ^ 32) = some (tgt, depth) →
          s.ends (.cbind f) f x (s.bindChan x f.d.toNat (f.bits 2 0) tgt depth)))
  ∧ (∀ (f : OpF) (s : State) (x : Lane) (v : Src),
      let inside (o : Nat) : Prop := o % 8 = 0 ∧ o + 8 ≤ (s.team x.c x.t).scratchSize
      let o (i : Instr) : Nat := (s.env i f x).addr32 v.a 8
      let slot (i : Instr) : Nat := s.future x (o i)
      let value (i : Instr) : DWord := (BitVec.ofNat 32 (slot i)).setWidth 64
      (s.able (.fput f) f x v → inside (o (.fput f)) → s.scratchBad x.c x.t (o (.fput f)) 8 = false →
          (futFull (slot (.fput f)) = false → s.futTurn x (o (.fput f)) false = true →
            s.ends (.fput f) f x
              (((s.atOp x).scratchWrite x.c x.t (o (.fput f)) 8 (futPut (slot (.fput f)) (v.b.setWidth 32))).popAll x v.pops))
          ∧ (futFull (slot (.fput f)) = true →
            ∃ t, exec (.fput f) s = .next t ∧ (t.thread x).pos.wait = some (.future (o (.fput f)) false false)))
        ∧ (s.able (.fget f) f x v → inside (o (.fget f)) → s.scratchBad x.c x.t (o (.fget f)) 8 = false →
          (futFull (slot (.fget f)) = true → s.futTurn x (o (.fget f)) true = true →
            s.ends (.fget f) f x (writeDst (s.env (.fget f) f x) x (value (.fget f))
              (((s.atOp x).hears x (o (.fget f))).scratchWrite x.c x.t (o (.fget f)) 8 (futTake (slot (.fget f))))))
          ∧ (futFull (slot (.fget f)) = false →
            ∃ t, exec (.fget f) s = .next t ∧ (t.thread x).pos.wait = some (.future (o (.fget f)) true false)))
        ∧ (s.able (.fgetPeek f) f x v → inside (o (.fgetPeek f)) → s.scratchBad x.c x.t (o (.fgetPeek f)) 8 = false →
          futFull (slot (.fgetPeek f)) = true →
          s.ends (.fgetPeek f) f x
            (writeDst (s.env (.fgetPeek f) f x) x (value (.fgetPeek f)) ((s.atOp x).hears x (o (.fgetPeek f))))))

/-- R208 to R210, R218 to R230: engine instructions issue one operation. What a lane has observed of a tile is log 53. -/
def Obligations.EngineIssue : Prop :=
  ∀ (f : OpF) (s u : State) (x : Lane) (a b : DWord) (blk : BitVec 512) (tag : Word),
    let k := s.team x.c x.t
    let g := s.group x.c x.t x.g
    let z := s.opened x
    let room (e : Engine) : Prop :=
      ((s.core x.c).queue e).length < 8 ∧ (if e == .matrix then g.tCount else g.cCount) < 63
    let ready (i : Instr) : Prop :=
      s.begins i f i.shape x = true ∧ operandPairs (s.env i f x) [x] z i.shape.s2 = [(x, .ok (a, b))]
    let able (i : Instr) (e : Engine) : Prop := ready i ∧ room e
    let issues (i : Instr) (e : Engine) (w : State) (op : EngOp) : Prop := s.ends i f x (w.enqueue x e op)
    let o := a.toNat % 2 ^ 32
    let rows := b.toNat % 2 ^ 32
    let matTag : Prop := readBlock x z o = .ok blk ∧ captureTag x z (blk.getLsbD 263) (blkBits blk 383 320) = .ok (tag, u)
    let pourTag : Prop := readBlock x z o = .ok blk ∧ captureTag x z (blk.getLsbD 366) (blkBits blk 447 384) = .ok (tag, u)
    let fm := g.fm (blkBits blk 354 352)
    let mat : EngOp :=
      { kind := .mma, team := x.t, group := x.g, addr := o, block := blk, tag := tag, tile := blkBits blk 261 260,
        prog := blkBits blk 319 304 }
    let pour : EngOp :=
      { kind := .pour, team := x.t, group := x.g, addr := o, block := blk, fm := fm, tag := tag, tile := blkBits blk 365 364,
        prog := blkBits blk 319 304 }
    let tile (kind : EngKind) (t : Nat) : EngOp :=
      { kind := kind, team := x.t, group := x.g, addr := o, tile := t, rows := rows,
        hot := kind != .accz && s.tileHot x t }
    (able (.accz f) .matrix → issues (.accz f) .matrix z (tile .accz f.d.toNat))
      ∧ (able (.accld f) .matrix → tileRangeBad k o rows = false → issues (.accld f) .matrix z (tile .accld f.d.toNat))
      ∧ (able (.accst f) .matrix → tileRangeBad k o rows = false → issues (.accst f) .matrix z (tile .accst (srcIdx f.s3)))
      ∧ (able (.mma f) .matrix → matTag → mmaBad k g blk (f.bits 7 0) = false →
        issues (.mma f) .matrix u (u.withA x.c { mat with areg := f.bits 7 0, reuse := f.bit 8 }))
      ∧ (able (.mmv f) .matrix → matTag → mmvBad k blk = false → issues (.mmv f) .matrix u { mat with kind := .mmv })
      ∧ (able (.mqrun f) .matrix → o < 512 → o / 64 < k.fifoBanks.length → rows < 2 ^ 16 →
        issues (.mqrun f) .matrix z
          { kind := .mqrun, team := x.t, group := x.g, addr := 64 * k.fifoBanks.getD (o / 64) 0 + o % 64, rows := rows })
      ∧ (able (.pour f) .pour → pourTag → pourBad k blk fm false = false → issues (.pour f) .pour u pour)
      ∧ (able (.pourOut f) .pour → pourTag → pourBad k blk fm true = false →
        issues (.pourOut f) .pour u { pour with kind := .pourOut })
      ∧ (∀ op : EngOp, ∀ e : Engine,
        let w := u.enqueue x e op
        let behind := ((u.core x.c).queue (if e == .matrix then .pour else .matrix)).length
        (w.core x.c).queue e = (u.core x.c).queue e ++ [{ op with behind := behind }]
          ∧ (w.group x.c x.t x.g).tCount
            = (u.group x.c x.t x.g).tCount + (if e = .matrix ∧ op.kind ≠ .mqrun ∧ op.kind ≠ .copy then 1 else 0)
          ∧ (w.group x.c x.t x.g).cCount
            = (u.group x.c x.t x.g).cCount + (if e = .pour ∧ op.kind ≠ .mqrun ∧ op.kind ≠ .copy then 1 else 0))
      ∧ ∀ i ∈ [(Instr.accz f, Engine.matrix), (.accld f, .matrix), (.accst f, .matrix), (.mma f, .matrix), (.mmv f, .matrix),
          (.mqrun f, .matrix), (.pour f, .pour), (.pourOut f, .pour)],
        ready i.1 → ¬ room i.2 → ∃ t, exec i.1 s = .next t ∧ (t.thread x).pos.wait = some .count ∧ t.mem = s.mem
          ∧ (t.core x.c).queue i.2 = (s.core x.c).queue i.2 ∧ (t.thread x).pc = (s.thread x).pc

/-- R211, R215, R220, R223, R226, R230, R231, R310: one step of an engine. -/
def Obligations.EngineSteps : Prop :=
  ∀ (s u w : State) (c n : Nat) (o o1 o2 : EngOp) (q : List EngOp) (es : List Nat) (bs done : List Byte) (va : Nat) (cause : Cause)
    (codes : List (List Nat)),
    let b := o.block
    let k := s.team c o.team
    let fmt := blkBits b 258 256
    let size := if fmt == 4 then 8 else 4
    let cells := fmtN fmt * fmtN fmt
    let gb := groupBytes fmt
    let boff := blkBits b 63 32 + o.prog * blkBits b 127 96
    let aoff := blkBits b 31 0 + o.prog * blkBits b 95 64
    let bytes := 512 * (o.rows / 256 % 256)
    let row0 := 65536 * o.tile + 512 * (o.rows % 256)
    let begun : EngOp := { o with begun := true }
    let head (v : State) (p : EngOp) : State := v.setHead c .matrix { p with begun := true }
    let acc (v : State) (a : Nat) (l : List Byte) : State := v.modCore c fun k => { k with acc := k.acc.replace a l }
    let av := if b.getLsbD 259 then aFromBytes fmt (s.scratchSlice c o.team aoff gb) else aFromRegs fmt o.areg o.aRegs
    let tile := if o.prog == 0 && b.getLsbD 262 then List.replicate cells 0
      else leWords size cells ((s.core c).tile o.tile (size * cells))
    let sum := mmaStep fmt av (bFromBytes fmt (s.scratchSlice c o.team boff gb)) tile
    let cycles := if fmt == 0 then 16 else if fmt == 3 then 256 else if fmt == 4 then 128 else 64
    let matrix : Prop := (s.core c).mq = o :: q ∧ (s.core c).mayRun o = true
    let runs (m : Nat) (v : State) : Prop := exec (.engineOpStart c .matrix m) s = .next v
    let counted (v : State) : State := (v.modCore c fun k => { k with mmKgrp := k.mmKgrp + 1 })
    -- mmv
    let wf := Narrow.ofWord (b.extractLsb' 448 32)
    let rows := blkBits b 279 273 + 1
    let col0 := blkBits b 272 266
    let nv := blkBits b 283 280
    let path : EngPath := { c := c, t := o.team, es := (s.group c o.team o.group).extents }
    let s1 := s.setHead c .matrix begun
    let voff := blkBits b 63 32 + 256 * o.prog
    let bias : Prop := if o.prog = 0 ∧ b.getLsbD 265 = true
      then weightRead path 4 (blkBits b 255 192) ((rows * wf.width + 7) / 8) [] begun s1 = (o1, .ok bs u)
      else o1 = begun ∧ bs = [] ∧ u = s1
    let weight (r i : Nat) : Sys2Proof.Num := c16Num (convElem 1 0 wf (wf.unpack ((codes.getD r []).getD i 0))).code
    let vecs := leWords 2 128 (w.scratchSlice c o.team voff 256)
    let old := leWords 4 16384 ((w.core c).tile o.tile 65536)
    let biasOf (r : Nat) : Nat := (convElem 1 0 wf (wf.unpack ((unpackBits wf.width rows bs).getD r 0))).code
    let first (r a : Nat) : Nat :=
      let a := if o.prog = 0 ∧ b.getLsbD 262 = true then 0 else a
      if o.prog = 0 ∧ b.getLsbD 265 = true then (Fmt.f32.add 0 false (Fmt.f32.unpack a) (c16Num (biasOf r))).bits else a
    let cell (r j : Nat) : Nat :=
      if r < rows ∧ col0 ≤ j ∧ j < col0 + nv then
        kgroupStep (first r (old.getD (128 * r + j) 0)) ((List.range 16).map (weight r))
          ((List.range 16).map fun i => c16Num (vecs.getD (8 * i + (j - col0)) 0))
      else old.getD (128 * r + j) 0
    -- Pour
    let fm := Narrow.ofWord o.fm
    let g := blkBits b 357 355
    let st := blkBits b 360 358 + 1
    let cols := blkBits b 175 160
    let esize := stypeBytes b
    let pour : Prop := (s.core c).pq = o :: q ∧ (s.core c).mayRun o = true ∧ s.pkg.inReset.contains pourKind = false
    let s2 := s.setHead c .pour begun
    let cs := es.map fun v => convElem st (blkBits b 362 361) fm (typeNum g fm v)
    let to_ := blkBits b 127 64 + o.prog * blkBits b 287 256 + esize * o.col
    let after (m : Nat) (ds : List Conv) : EngOp := (begun.advance (o.col + m)).tally ds
    let ends (p : EngOp) : EngOp := { p with done := p.prog ≥ blkBits b 303 288 }
    let stops (v : State) (a : Nat) (access : Nat) : Prop :=
      ∃ p rest, (v.core c).pq = p :: rest ∧ p.stopped = true ∧ p.done = false
        ∧ ((s.core c).recs = [] → ∃ r, (v.core c).recs = [r] ∧ r.cause = .engXlate ∧ r.event = true ∧ r.isOpen = true
          ∧ r.subcause = cause.code ∧ r.addr = a ∧ r.lanes = [] ∧ r.group = o.group ∧ r.access = access)
    -- pour.out
    let saddr := blkBits b 127 64
    let dim := if st = 5 then 64 else 128
    let src : List Nat := leWords esize cols
      (if b.getLsbD 363 then
        (s.core c).acc.slice (65536 * o.tile + esize * (dim * (saddr % 128 + o.prog) + saddr / 256 % 128)) (esize * cols)
      else s.scratchSlice c o.team (saddr + o.prog * blkBits b 287 256) (esize * cols))
    let outs := src.map fun v => convElem g (blkBits b 362 361) fm (typeNum st fm v)
    let packed := packBits (typeWidth g fm) (outs.map (·.code))
    let gaddr := blkBits b 63 0 + o.prog * blkBits b 159 128
    (matrix → o.kind = .accz → runs (n + 1) (head (acc s (65536 * o.tile) (List.replicate 65536 0)) { o with done := true }))
      ∧ (matrix → o.kind = .accst → o.hot = false →
        runs (n + 1) (head (s.scratchFill c o.team o.addr ((s.core c).acc.slice row0 bytes)) { o with done := true }))
      ∧ (matrix → o.kind = .accld → o.hot = false → s.scratchBad c o.team o.addr bytes = false →
        runs (n + 1) (head (acc s row0 (s.scratchSlice c o.team o.addr bytes)) { o with done := true }))
      ∧ (matrix → (o.kind = .mma ∨ o.kind = .mqrun) → blkBits b 285 284 = 0 → s.scratchBad c o.team boff gb = false →
        (b.getLsbD 259 = true → s.scratchBad c o.team aoff gb = false) →
        runs 1 (head ((counted (acc s (65536 * o.tile) (leBytes size sum))).count c 0x40 o.team cycles)
          { o with prog := o.prog + 1, done := o.prog + 1 ≥ blkBits b 303 288 }))
      ∧ (matrix → (o.kind = .mmv ∨ o.kind = .mqrun) → blkBits b 285 284 = 1 → mmvBad k b = false →
        s.scratchBad c o.team voff 256 = false →
        bias → readWeights path wf.width rows [] o1 u = (o2, .ok (codes, w)) →
        ∃ v p new, runs 1 v ∧ (v.core c).acc = (w.core c).acc.replace (65536 * o.tile) (leBytes 4 new) ∧ new.length = 16384
          ∧ (∀ r j, r < 128 → j < 128 → new.getD (128 * r + j) 0 = cell r j)
          ∧ (v.core c).mq.head? = some p ∧ p.prog = o.prog + 1 ∧ p.done = decide (o.prog + 1 ≥ blkBits b 303 288)
          ∧ (v.core c).store = (w.core c).store ∧ v.mem = w.mem ∧ v.dies = w.dies)
      ∧ (pour → o.kind = .pour → pourElems c begun s2 = (es, .ok bs u) →
        ∃ v, exec (.engineOpStart c .pour 1) s = .next v
          ∧ (v.core c).store = scratchFill (u.core c).store (u.team c o.team) 33 to_ (leBytes esize (cs.map (·.code)))
          ∧ (v.core c).pq.head? = some (ends (after es.length cs)) ∧ v.mem = u.mem)
      ∧ (pour → o.kind = .pour → pourElems c begun s2 = (es, .fault bs va cause u) →
        ∃ v, exec (.engineOpStart c .pour 1) s = .next v ∧ v.mem = u.mem
          ∧ (v.core c).store = scratchFill (u.core c).store (u.team c o.team) 33 to_ (leBytes esize (cs.map (·.code)))
          ∧ ((u.core c).recs = (s.core c).recs → stops v va 1))
      ∧ (pour → o.kind = .copy → pourElems c begun s2 = (es, .ok bs u) →
        let ws := leBytes esize (cs.map (·.code))
        let path : EngPath := { c := c, t := o.team }
        (engWrite path (ws.length / 128 + 2) to_ ws [] u = .ok done w → done.length = ws.length →
          ∃ v, exec (.engineOpStart c .pour 1) s = .next v ∧ v.mem = w.mem ∧ v.dies = w.dies
            ∧ (v.core c).pq.head? = some (ends (after es.length cs)))
        ∧ (engWrite path (ws.length / 128 + 2) to_ ws [] u = .fault done va cause w →
          ∃ v, exec (.engineOpStart c .pour 1) s = .next v ∧ v.mem = w.mem ∧ v.dies = w.dies
            ∧ ((w.core c).recs = (s.core c).recs → stops v va 2)))
      ∧ (pour → o.kind = .pourOut → o.prog < blkBits b 303 288 →
        (b.getLsbD 363 = false → s.scratchBad c o.team (saddr + o.prog * blkBits b 287 256) (cols * esize) = false) →
        (o.col = 0 → engWrite path (packed.length / 128 + 2) gaddr packed [] s2 = .ok done u → done.length = packed.length →
          ∃ v, exec (.engineOpStart c .pour 1) s = .next v ∧ v.mem = u.mem ∧ v.dies = u.dies
            ∧ (v.core c).pq.head? = some ((begun.advance cols).tally outs))
        ∧ (o.col = 0 → engWrite path (packed.length / 128 + 2) gaddr packed [] s2 = .fault done va cause u →
          ∃ v, exec (.engineOpStart c .pour 1) s = .next v ∧ v.mem = u.mem ∧ v.dies = u.dies
            ∧ ((u.core c).recs = (s.core c).recs → stops v va 2)))
      ∧ (pour → o.kind = .pourOut → blkBits b 303 288 ≤ o.prog →
        engWrite path 2 (blkBits b 63 0 + (blkBits b 303 288 - 1) * blkBits b 159 128 + (cols * typeWidth g fm + 7) / 8)
          (leBytes 4 [o.ovf]) [] s2 = .ok done u →
        exec (.engineOpStart c .pour 1) s = .next (u.setHead c .pour { begun with done := true }))

/-- R212, R225, R356: an operation completes, and a run looks at its queue. -/
def Obligations.EngineCompletion : Prop :=
  ∀ (s : State) (c : Nat) (o : EngOp) (q : List EngOp) (e : Engine),
    let k := s.team c o.team
    let g := s.group c o.team o.group
    let sg := o.signals
    let bar := sg.bar % 2 ^ 48
    (((s.core c).queue e = o :: q → (e = .matrix ∧ o.kind ∈ [EngKind.accz, .accld, .accst, .mma, .mmv]
            ∨ e = .pour ∧ o.kind ∈ [EngKind.pour, .pourOut]) → o.done = true → o.signalled = false → o.stopped = false →
        o.stuck = false → k.groups.find? o.group ≠ none → g.done = false →
        (sg.barv = true → sg.bar.testBit 63 = true ∧ bar + 16 ≤ k.scratchSize ∧ s.scratchBad c o.team bar 16 = false
          ∧ arrival o.tag (s.scratchRead c o.team bar 16) ≠ none) →
        let s1 := if sg.barv then
            s.scratchWrite c o.team bar 16 ((arrival o.tag (s.scratchRead c o.team bar 16)).getD 0) else s
        (sg.fut = true → sg.foff + 8 ≤ k.scratchSize ∧ s1.scratchBad c o.team sg.foff 8 = false
          ∧ (s1.scratchRead c o.team sg.foff 8).testBit 63 = false) →
        let slot := s1.scratchRead c o.team sg.foff 8
        let s2 := if sg.fut then
            s1.scratchWrite c o.team sg.foff 8 (2 ^ 63 + (if slot.testBit 62 then 2 ^ 62 else 0) + sg.fval.toNat) else s1
        ∃ u, exec (.engineOpComplete c e) s = .next u ∧ (u.core c).queue e = q ∧ u.mem = s.mem
          ∧ (u.core c).store = (s2.core c).store
          ∧ (u.group c o.team o.group).tCount = (if e = .matrix then g.tCount - 1 else g.tCount)
          ∧ (u.group c o.team o.group).cCount = (if e = .pour then g.cCount - 1 else g.cCount)
          ∧ (u.core c).engNfin = BitVec.ofNat 32 (min ((s.core c).engNfin.toNat + o.nfin) (2 ^ 32 - 1))
          ∧ ∀ x, u.thread x = s.thread x))
      ∧ ((s.core c).mq = o :: q → o.kind = .mqrun → o.inBlock = false → o.stopped = false → o.stuck = false → k.savedAt = none →
        let ws := (k.queue o.addr).words
        let b : BitVec 512 := (ws.take 16).foldr (fun w acc => acc <<< 32 ||| w.setWidth 512) 0
        let kind := blkBits b 285 284
        let hot (p : EngOp) : EngOp :=
          if (p.kind = .accld ∨ p.kind = .accst) ∧ p.tile = blkBits b 261 260 then { p with hot := true } else p
        let fits : Prop := (kind = 0 ∧ b.getLsbD 259 = true ∧ mmaBad k g b 0 = false) ∨ (kind = 1 ∧ mmvBad k b = false)
        16 ≤ ws.length → (∀ i, i < 16 → (s.core c).badWords.contains (k.entryWord o.addr i) = false) →
        (kind = 2 → ∃ u, exec (.mqrunBlock c) s = .next u ∧ (u.core c).mq = q ∧ u.mem = s.mem
          ∧ ((u.team c o.team).queue o.addr).words = ws.drop 16)
        ∧ (fits → b.getLsbD 263 = false →
          ∃ u r, exec (.mqrunBlock c) s = .next u ∧ (u.core c).mq = r :: q.map hot ∧ r.inBlock = true ∧ r.block = b
            ∧ r.prog = blkBits b 319 304 ∧ r.nfin = 0 ∧ ((u.team c o.team).queue o.addr).words = ws)
        ∧ (¬ fits → kind ≠ 2 →
          ∃ u, exec (.mqrunBlock c) s = .next u ∧ (u.core c).mq = q ∧ (u.core c).engMqStop = true ∧ u.mem = s.mem
            ∧ ((u.team c o.team).queue o.addr).words = ws
            ∧ ((s.core c).recs = [] → ∃ r, (u.core c).recs = [r] ∧ r.cause = .engParam ∧ r.event = true ∧ r.isOpen = false
              ∧ r.group = o.group ∧ r.lanes = [])))

/-- R233, R311, R315, R409: the graph instructions once their release is performed, in the machine r. That they wait while the
dispatcher stands in reset is log 43. -/
def Obligations.GraphInstructions : Prop :=
  ∀ (f : OpF) (s r u w : State) (x : Lane) (a b : DWord) (pa cls n : Nat) (blk : BitVec 512) (rs : List Region),
    let k := r.team x.c x.t
    let p := r.part k.part
    let va := a.toNat
    let tok := a.toNat % 2 ^ 32
    let able (i : Instr) : Prop :=
      s.begins i f i.shape x = true ∧ operandPairs (s.env i f x) [x] (s.opened x) i.shape.s2 = [(x, .ok (a, b))]
        ∧ graphRelease [x] (s.opened x) = .ok r
    let record : Prop := va < 2 ^ 48 ∧ va % 64 = 0
    let opened (q : Machine.Part) : Machine.Part :=
      let q := q.modScope n fun e =>
        { e with parent := BitVec.ofNat 8 (tok % 256), grid := k.grid, launch := k.launch, members := 0, children := 0, state := 1 }
      if tok = 0 then q else q.modScope (tok % 256) fun e => { e with children := e.children + 1 }
    (s.dispOff = true → ∀ i ∈ [Instr.tspawn f, .gnode f, .fsopen f, .fsclose f, .fswait f], able i →
        ∃ t, exec i s = .next t ∧ (t.thread x).pos.wait = some .dispatcher ∧ t.mem = s.mem)
      ∧ (s.dispOff = false →
    (able (.tspawn f) → record → r.translate x va .read = .ok (pa, cls) → readRecord (r.counted x va .read) pa va cls = .ok (blk, u) →
        (recScope blk = 0 ∨ (u.part k.part).scopeOpen (recScope blk) (recSgen blk) k.launch = true) →
        (if recCopy blk then copyBad blk else taskBad blk) = false →
        recordRegions u k.part va blk = .ok (rs, w) → (w.part k.part).nodeAt va = none → (w.part k.part).nodes.length < 65536 →
        s.ends (.tspawn f) f x (w.modPart k.part fun q => q.register va k.grid blk rs)
          ∧ ∀ q : Machine.Part, q.register va k.grid blk rs =
            { q with
              nodes := q.nodes ++ [(q.nextNode, { addr := va, grid := k.grid, record := blk, regl := rs, ready := recPred blk == 0 })],
              nextNode := q.nextNode + 1, journalNodes := q.journalNodes ++ [va],
              scopes := if recScope blk = 0 then q.scopes
                else q.scopes.set (recScope blk) { q.scopes.get (recScope blk) {} with members := (q.scopes.get (recScope blk) {}).members + 1 } })
      ∧ (able (.tspawn f) → record → r.translate x va .read = .ok (pa, cls) →
        readRecord (r.counted x va .read) pa va cls = .ok (blk, u) →
        recScope blk ≠ 0 → (u.part k.part).scopeOpen (recScope blk) (recSgen blk) k.launch = false →
        ∃ t, exec (.tspawn f) s = .next t ∧ (t.thread x).run = .parked ∧ (t.thread x).pc = (s.thread x).rentry
          ∧ (t.part k.part).nodes = (s.part k.part).nodes ∧ (t.part k.part).scopes = (s.part k.part).scopes
          ∧ ((s.core x.c).recs = [] → ∃ q, (t.core x.c).recs = [q] ∧ q.cause = .taskScope))
      ∧ (able (.gnode f) → record → r.translate x va .readWrite = .ok (pa, cls) →
        r.atomicAt x.c (predAt pa) 4 cls (r.thread x).epoch (fun m => m - 1) = some (n, false, u) → n ≠ 0 →
        s.ends (.gnode f) f x (if n = 1 then u.modPart k.part fun q => q.reached va else u))
      ∧ (able (.gnode f) → record → r.translate x va .readWrite = .ok (pa, cls) →
        r.atomicAt x.c (predAt pa) 4 cls (r.thread x).epoch (fun m => m - 1) = some (0, false, u) →
        ∃ t, exec (.gnode f) s = .next t ∧ (t.thread x).run = .parked ∧ (t.thread x).pc = (s.thread x).rentry ∧ t.mem = s.mem
          ∧ (t.part k.part).nodes = (s.part k.part).nodes ∧ (t.part k.part).scopes = (s.part k.part).scopes
          ∧ ((s.core x.c).recs = [] → ∃ q, (t.core x.c).recs = [q] ∧ q.cause = .graphCount ∧ q.addr = va))
      ∧ (able (.fsopen f) → (tok = 0 ∨ p.scopeOpen (tok % 256) (tok / 256) k.launch = true) → p.freeScope = some n →
        s.ends (.fsopen f) f x (writeDst (s.env (.fsopen f) f x) x (BitVec.ofNat 64 (256 * (p.scopes.get n {}).gen.toNat + n))
          (r.modPart k.part opened)))
      ∧ (able (.fsclose f) → p.scopeOpen (tok % 256) (tok / 256) k.launch = true →
        s.ends (.fsclose f) f x (r.modPart k.part fun q => q.modScope (tok % 256) fun e => { e with state := 2 }))
      ∧ (able (.fswait f) → tok % 256 ≠ 0 → p.scopeLive (tok % 256) (tok / 256) = false → r.rejoin x 3 = .ok u →
        s.ends (.fswait f) f x u))

/-- R234, R235: `lmsg` and its reply. That a line that is not in HBM is answered NOHANDLER is log 20, that a port that has passed
to another takes no reply of before log 54. -/
def Obligations.LadleMessages : Prop :=
  (∀ (f : OpF) (s : State) (x : Lane) (v : Src) (port : Option Nat) (pa cls : Nat),
    let e := s.env (.lmsg f) f x
    let k := s.team x.c x.t
    let q := s.part k.part
    let owed : State := { ((s.atOp x).owe e x v.a.toNat s.nextMsg port) with nextMsg := s.nextMsg + 1 }
    let m : Inv :=
      { kind := .message, line := lineOf pa, tenant := q.ldTen.toNat, handler := f.mod.setWidth 8, arg0 := v.a, arg1 := v.b,
        core := x.c, team := x.t, group := x.g, lane := x.l, msg := s.nextMsg, port := port, part := k.part,
        grid := k.launch, teamIx := k.index, cls := cls }
    let none_ : Reply :=
      { team := x.t, group := x.g, lane := x.l, msg := s.nextMsg, port := port, status := 2, value := 0 }
    s.able (.lmsg f) f x v → v.a.toNat < 2 ^ 48 → s.translate x v.a.toNat .read = .ok (pa, cls) →
      (f.dc = false ∧ (s.thread x).loads.length < 63 ∧ port = none
        ∨ (f.dc = true ∧ (s.chan x f.d.toNat).kind = 3 ∧ port = some (s.chan x f.d.toNat).tgt.toNat
          ∧ portRoom ((s.core x.c).ports.get (s.chan x f.d.toNat).tgt.toNat {}) (s.chan x f.d.toNat).depth.toNat = true)) →
      (q.ldTenV = true → isHbm pa = true → s.ends (.lmsg f) f x (owed.sendMessage (homeSlice pa) m))
        ∧ (q.ldTenV = false ∨ isHbm pa = false → s.ends (.lmsg f) f x (owed.sendReply x.c none_)))
  ∧ ∀ (s : State) (c t g l i : Nat) (r : Reply),
    let x : Lane := { c := c, t := t, g := g, l := l }
    (s.core c).replies[i]? = some r → r.team = t → r.group = g → r.lane = l →
      (∀ (o : Load), r.port = none → (s.team c t).groups.find? g ≠ none →
        (s.thread x).loads.find? (fun o => o.pending == some r.msg) = some o → (o.words.map (·.1)).Nodup →
        ∃ u, exec (.lmsgReply c t g l i) s = .next u ∧ (u.core c).replies = (s.core c).replies.eraseIdx i ∧ u.mem = s.mem
          ∧ (u.thread x).loads = (s.thread x).loads.filter (fun o => o.pending != some r.msg)
          ∧ (∀ d ∈ o.words, (u.thread x).word d.1
              = (if d.2 = 0 then r.value.setWidth 32 else if d.2 = 1 then (r.value >>> 32).setWidth 32
                else BitVec.ofNat 32 r.status))
          ∧ ∀ j, (∀ d ∈ o.words, d.1 ≠ j) → (u.thread x).word j = (s.thread x).word j)
      ∧ ∀ (p : Nat), r.port = some p →
        let q := (s.core c).ports.get p {}
        let ws : List Word := [BitVec.ofNat 32 r.status, r.value.setWidth 32, (r.value >>> 32).setWidth 32]
        ∃ u, exec (.lmsgReply c t g l i) s = .next u ∧ (u.core c).replies = (s.core c).replies.eraseIdx i ∧ u.mem = s.mem
          ∧ (u.core c).ports.get p {}
            = if r.msg < q.since then q else { q with words := q.words ++ ws, reserved := q.reserved - 3 }

/-- R100, R105, R240, R241: affine operations that mint nothing. The reading of symbol 0 is log 8, the
sign of a zero centre log 13. -/
def Obligations.AffineLinear : Prop :=
  ∀ (f : OpF) (s : State) (x : Lane) (v : Src) (a b : Option AffVal) (r : AffReg) (k : DWord) (ps : List Nat),
    let z := s.atOp x
    let able (i : Instr) : Prop := s.begins i f i.shape x = true
    let one : Prop := affOperand x z f.s1 = .ok a
    let two : Prop := one ∧ affOperand x z f.s2 = .ok b
    let scalar (i : Instr) : Prop := one ∧ readSrc (s.env i f x) x z i.shape.s2 f.s2 = .ok (k, ps)
    let raw : Prop := readAff x z (srcIdx f.s1) = .ok r
    let puts (i : Instr) (r : AffReg) : Prop := s.ends i f x (z.putAff x f.d.toNat r)
    let exact (p : Option AffParts) : AffReg :=
      match p with
      | some p => affFinish p none
      | none => affU
    let reads (i : Instr) (n : Nat) : Prop := s.ends i f x (writeDst (s.env i f x) x (BitVec.ofNat 64 n) z)
    (s.able (.aset f) f x v → puts (.aset f) (affSet v.a))
      ∧ (s.able (.asetSym f) f x v → puts (.asetSym f) (affSetSym v.a v.b (v.c.toNat % 2 ^ 20)))
      ∧ (able (.amov f) → raw → puts (.amov f) (affMov r))
      ∧ (let e : AffReg := exact ((affRead r).map fun p =>
          { cen := p.cen, terms := p.terms, rad := p.rad, syms := p.terms.map (·.1) })
        (e = affU → affMov r = affU)
          ∧ (e ≠ affU → (affMov r).setWidth 64 = (r.setWidth 64 : DWord) ∧ affMov r >>> 64 = e >>> 64))
      ∧ (able (.aneg f) → one → puts (.aneg f) (exact (a.map fun p =>
        { cen := p.cen.neg, terms := p.terms.map fun t => (t.1, t.2.neg), rad := p.rad, syms := p.terms.map (·.1) })))
      ∧ (able (.aadd f) → two → puts (.aadd f) (exact (a.bind fun p => b.map fun q =>
        { cen := p.cen.add q.cen, terms := mergeTerms p.terms q.terms, rad := p.rad.add q.rad, syms := [] })))
      ∧ (able (.asub f) → two → puts (.asub f) (exact (a.bind fun p => b.map fun q =>
        { cen := p.cen.add q.cen.neg, terms := mergeTerms p.terms (q.terms.map fun t => (t.1, t.2.neg)),
          rad := p.rad.add q.rad, syms := [] })))
      ∧ (able (.ascl f) → scalar (.ascl f) → puts (.ascl f) (exact (a.bind fun p => (Fmt.f64.dy k.toNat).map fun l =>
        { cen := l.mul p.cen, terms := p.terms.map fun t => (t.1, l.mul t.2), rad := l.abs.mul p.rad, syms := [] })))
      ∧ (able (.aaddc f) → scalar (.aaddc f) → puts (.aaddc f) (exact (a.bind fun p => (Fmt.f64.dy k.toNat).map fun l =>
        { cen := p.cen.add l, terms := p.terms, rad := p.rad, syms := p.terms.map (·.1) })))
      ∧ (able (.acent f) → raw → reads (.acent f) (if (affRead r).isNone then 0 else (r.setWidth 64 : DWord).toNat))
      ∧ (able (.arad f) → raw → reads (.arad f) (affRad r))
      ∧ (able (.alo f) → raw → reads (.alo f) (affLo r))
      ∧ (able (.ahi f) → raw → reads (.ahi f) (affHi r))

/-- R102 to R104, R240: minting from the window of the group. -/
def Obligations.AffineMinting : Prop :=
  ∀ (f : OpF) (s : State) (x : Lane) (v : Src) (a b : Option AffVal) (r : AffReg),
    let z := s.atOp x
    let g := s.group x.c x.t x.g
    let one : Prop := affOperand x z f.s1 = .ok a
    let two : Prop := one ∧ affOperand x z f.s2 = .ok b
    let puts (r : AffReg) (n : Nat) : State :=
      (z.putAff x f.d.toNat r).modGroup x.c x.t x.g fun g => { g with symNext := g.symNext + n }
    let lacks (i : Instr) : Prop :=
      ∃ t, exec i s = .next t
        ∧ Same t ((z.takeException x (s.env i f x).at_ { cause := .affWindow, detail := 1 } false).ended x)
    let mints (i : Instr) (need : Bool) (r : Option Nat → AffReg) : Prop :=
      s.begins i f i.shape x = true →
        (need = false → s.ends i f x (puts (r none) 0))
        ∧ (need = true → g.symNext < g.symEnd → s.ends i f x (puts (r (some g.symNext)) 1))
        ∧ (need = true → g.symNext = g.symEnd → lacks i)
    let parts (i : Instr) (p : Option AffParts) : Prop := mints i (affMints p) (affResult p)
    let fresh (sym : Option Nat) : AffReg :=
      match sym with
      | some n => affSetSym v.a v.b n
      | none => if Fmt.f64.dy v.b.toNat = none then affU
        else if (Fmt.f64.dyOf v.b.toNat).isZero then affSet v.a else affU
    (readSrcs (s.env (.asetMint f) f x) x z = .ok v → mints (.asetMint f) (affSetMints v.a v.b) fresh)
      ∧ (two → parts (.amul f) (a.bind fun p => b.map fun q =>
        { cen := p.cen.mul q.cen,
          terms := mergeTerms (q.terms.map fun t => (t.1, p.cen.mul t.2)) (p.terms.map fun t => (t.1, q.cen.mul t.2)),
          rad := (p.cen.abs.mul q.rad).add (q.cen.abs.mul p.rad), b := p.total.mul q.total,
          syms := p.terms.map (·.1) ++ q.terms.map (·.1) }))
      ∧ (one → parts (.asqr f) (a.map fun p =>
          { cen := (p.cen.mul p.cen).add (p.total.mul p.total).half, terms := p.terms.map fun t => (t.1, (p.cen.mul t.2).twice),
            rad := (p.cen.abs.mul p.rad).twice, b := (p.total.mul p.total).half, syms := p.terms.map (·.1) })
        ∧ parts (.arcp f) (affRcpParts a) ∧ parts (.asqrt f) (affSqrtParts a))
      ∧ (readAff x z (srcIdx f.s1) = .ok r →
        let p := affCondParts (affRead r) (f.bits 3 0)
        mints (.acond f) (affMints p) (fun sym => affCarry r (affResult p sym))
          ∧ (∀ y, affRead r = some y → y.terms.length ≤ f.bits 3 0 → p = some y.parts)
          ∧ (∀ y, affRead r = some y → f.bits 3 0 < y.terms.length → ∃ q, p = some q ∧ q.cen = y.cen ∧ q.rad = y.rad
            ∧ (∀ t ∈ q.terms, t ∈ y.terms) ∧ q.syms = y.terms.map (·.1)))

/-- R239, R241: `ald`, `ast` and `asym`. -/
def Obligations.AffineMoves : Prop :=
  ∀ (f : OpF) (s u : State) (x : Lane) (v : Src) (r : AffReg) (w : Nat) (bad : Bool) (a b : DWord) (pa cls : Nat) (ws : List Nat),
    let z := s.atOp x
    let k := s.team x.c x.t
    let g := s.group x.c x.t x.g
    let room : Prop := (s.thread x).loads.length < 63 ∧ (s.thread x).stores.length < 63
    let o (i : Instr) : Nat := (s.env i f x).addr32 v.a 128
    let va (i : Instr) : Nat := (s.env i f x).addr64 v.a 128
    let words (w : Nat) : List (Nat × Word) :=
      (List.range 32).map fun i => (256 + 32 * f.d.toNat + i, BitVec.ofNat 32 (w / 2 ^ (32 * i)))
    let inside (n : Nat) : Prop := n % 8 = 0 ∧ n + 128 ≤ k.scratchSize
    let global (n : Nat) : Prop := n % 8 = 0 ∧ n + 128 ≤ 2 ^ 48 ∧ (k.det = true → g.owns n 128 = true)
    let n := b.toNat % 2 ^ 32
    room →
      (s.able (.ald f) f x v → f.mod.getLsbD 0 = true → inside (o (.ald f)) →
        s.scratchBad x.c x.t (o (.ald f)) 128 = false →
        s.ends (.ald f) f x
          (z.issueLoad x { words := words (s.scratchRead x.c x.t (o (.ald f)) 128), addr := o (.ald f) }))
      ∧ (s.able (.ald f) f x v → f.mod.getLsbD 0 = false → va (.ald f) % 8 = 0 → va (.ald f) + 128 ≤ 2 ^ 48 →
        rangeOk x z (va (.ald f)) .read 16 = .ok () → readRange x (va (.ald f)) 16 z = .ok (w, bad, u) →
        s.ends (.ald f) f x (u.issueLoad x { words := words w, addr := va (.ald f), poisoned := bad }))
      ∧ (s.able (.ast f) f x v → readAff x z (srcIdx f.s2) = .ok r →
        (f.mod.getLsbD 0 = true → inside (o (.ast f)) →
          s.ends (.ast f) f x ((z.scratchWrite x.c x.t (o (.ast f)) 128 r.toNat).issueStore x {}))
        ∧ (f.mod.getLsbD 0 = false → global (va (.ast f)) → rangeOk x z (va (.ast f)) .write 16 = .ok () →
          writeRange x (va (.ast f)) r.toNat 16 z = .ok (ws, u) → s.ends (.ast f) f x (u.issueStore x { writes := ws })))
      ∧ (s.begins (.asym f) f (Instr.asym f).shape x = true →
        operandPairs (s.env (.asym f) f x) [x] (s.opened x) (Instr.asym f).shape.s2 = [(x, .ok (a, b))] →
        a.toNat % 8 = 0 → a.toNat < 2 ^ 48 → (k.det = true → g.owns a.toNat 8 = true) →
        s.translate x a.toNat .readWrite = .ok (pa, cls) →
        (s.opened x).atomicAt x.c pa 8 cls (s.thread x).epoch (fun w => (allocNext w n).getD w) = some (w, false, u) →
        (0 < w → w < 2 ^ 20 → w + n ≤ 0xfffff →
          s.ends (.asym f) f x (u.modGroup x.c x.t x.g fun g => { g with symNext := w, symEnd := w + n }))
        ∧ (w = 0 ∨ 2 ^ 20 ≤ w ∨ 0xfffff < w + n →
          ∃ t, exec (.asym f) s = .next t ∧ (t.thread x).run = .parked ∧ (t.thread x).pc = (s.thread x).rentry
            ∧ (t.group x.c x.t x.g).symNext = g.symNext ∧ (t.group x.c x.t x.g).symEnd = g.symEnd
            ∧ ((s.core x.c).recs = [] → ∃ q, (t.core x.c).recs = [q] ∧ q.cause = .affExhaust)))

/-- R125 to R129, R131: control transfers outside a tree. -/
def Obligations.Transfers : Prop :=
  ∀ (f : OpF) (s : State) (x : Lane) (v : Src),
    let z := s.atOp x
    let next : DWord := ((s.thread x).pc + 8).setWidth 64
    let near : DWord := next + BitVec.ofInt 64 (8 * (f.s2 ++ f.s3 : BitVec 20).toInt)
    let begins (i : Instr) : Prop := s.begins i f i.shape x = true
    let link (i : Instr) : State := writeDst (s.env i f x) x next z
    let goes (u : State) (a : DWord) : State := u.modPos x fun p => { p with far := some (a.setWidth 48) }
    let enters (a : DWord) : State := z.modThread x fun th => { th with rentry := a.setWidth 48, rcount := th.rcount + 1 }
    let good (a : DWord) : Prop := a.toNat % 8 = 0 ∧ a.toNat < 2 ^ 48
    let bad (i : Instr) (a : DWord) : Prop := ¬ good a →
      ∃ t, exec i s = .next t ∧ Same t ((z.park x (s.env i f x).at_ { cause := .badTarget, addr := a.toNat }).ended x)
    (begins (.call f) → (good near → s.ends (.call f) f x (goes (link (.call f)) near)) ∧ bad (.call f) near)
      ∧ (s.able (.callIndirect f) f x v →
        (good v.a → s.ends (.callIndirect f) f x (goes (link (.callIndirect f)) v.a)) ∧ bad (.callIndirect f) v.a)
      ∧ (s.able (.ret f) f x v → (good v.a → s.ends (.ret f) f x (goes z v.a)) ∧ bad (.ret f) v.a)
      ∧ (s.able (.jmpi f) f x v → (good v.a → s.ends (.jmpi f) f x (goes z v.a)) ∧ bad (.jmpi f) v.a)
      ∧ (begins (.region f) → (good near → s.ends (.region f) f x (enters near)) ∧ bad (.region f) near)
      ∧ (s.able (.regionIndirect f) f x v →
        (good v.a → s.ends (.regionIndirect f) f x (enters v.a)) ∧ bad (.regionIndirect f) v.a)

/-- R132, R134 to R136: entering and leaving a handler. What the path had set before the trap stands again after the return into
its tree, the bypass window is empty: log 51. -/
def Obligations.TrapEntryAndReturn : Prop :=
  ∀ (f : OpF) (s r : State) (x : Lane) (head lo hi : Word) (ws : List DWord),
    let k := s.team x.c x.t
    let th := s.thread x
    let n := k.nG
    let traps (t : State) : Prop := exec (.trap f) s = .next t
    (s.begins (.trap f) f (Instr.trap f).shape x = true → 4 ≤ n → n ≤ 256 →
        (th.hflag = false → k.desc.handler ≠ 0 →
          ∃ t, traps t ∧ t.mem = s.mem ∧ (t.thread x).hflag = true ∧ (t.thread x).pc = k.desc.handler
            ∧ (t.thread x).run = .ready ∧ (t.thread x).word (n - 4) = BitVec.ofNat 32 (2 ^ 11 + Cause.trap.code.toNat)
            ∧ (t.thread x).word (n - 3) = BitVec.ofNat 32 (f.bits 7 0)
            ∧ (t.thread x).word (n - 2) = th.pc.setWidth 32 ∧ (t.thread x).word (n - 1) = (th.pc >>> 32).setWidth 32
            ∧ (t.thread x).marks = some { pc := th.pc, far := none, brk := none, yield := false }
            ∧ ∀ j, (j < n - 4 ∨ n ≤ j) → (t.thread x).word j = th.word j)
        ∧ (th.hflag = true ∨ k.desc.handler = 0 →
          ∃ t, traps t ∧ (t.thread x).run = .parked ∧ (t.thread x).pc = th.rentry ∧ (t.thread x).win = th.win))
      ∧ (s.begins (.retTrap f) f (Instr.retTrap f).shape x = true → th.hflag = true →
        (s.opened x).readWord x (n - 4) = .ok head → (s.opened x).readWord x (n - 2) = .ok lo →
        (s.opened x).readWord x (n - 1) = .ok hi → head.toNat / 2 ^ 8 = 0 → (hi ++ lo : DWord).toNat % 8 = 0 → (hi ++ lo : DWord).toNat < 2 ^ 48 →
        ∃ t, exec (.retTrap f) s = .next t ∧ t.mem = s.mem ∧ (t.thread x).hflag = false ∧ (t.thread x).run = .ready
          ∧ (t.thread x).pc = (hi ++ lo : DWord).setWidth 48 ∧ (t.thread x).win = th.win ∧ (t.thread x).pos = {}
          ∧ (t.thread x).marks = none)
      ∧ (s.begins (.retTrap f) f (Instr.retTrap f).shape x = true → th.hflag = true →
        (s.opened x).readWord x (n - 4) = .ok head → (s.opened x).readWord x (n - 2) = .ok lo →
        (s.opened x).readWord x (n - 1) = .ok hi →
        let fr : Frame := { head := head, pc := hi ++ lo }
        let a : Addr := fr.pc.setWidth 48
        let past := if fr.after then 1 else 0
        fr.pc.toNat % 8 = 0 → fr.pc.toNat < 2 ^ 48 → fr.ok = true → (fr.tree = true ∨ fr.rep ≠ 0 ∨ fr.after = true) →
        (s.opened x).fetchWords x.c k.part fr.pc.toNat = .ok ws r → fr.fits ws = true →
        ∃ t, exec (.retTrap f) s = .next t ∧ t.mem = r.mem ∧ (t.thread x).hflag = false ∧ (t.thread x).run = .ready
          ∧ (t.thread x).win = th.win ∧ (t.thread x).marks = none ∧ (t.thread x).pos.hist = []
          ∧ (fr.tree = true → ∀ m, th.marks = some m → m.pc = a → (t.thread x).pos.far = m.far ∧ (t.thread x).pos.brk = m.brk
            ∧ (t.thread x).pos.yield = m.yield)
          ∧ if fr.tree = true then
              (t.thread x).pc = a ∧ (t.thread x).pos.slot = fr.slot + past
                ∧ ((t.thread x).pos.root, (t.thread x).pos.child) = pathOf (parseSlot (ws.getD (fr.slot + 1) 0)).arc.toNat
            else if (ws.headD 0).extractLsb' 61 3 = 1 then
              if (parseRep (ws.headD 0)).cnt.toNat < fr.rep + past then (t.thread x).pc = a + 16 ∧ (t.thread x).pos.slot = 0
              else (t.thread x).pc = a ∧ (t.thread x).pos.slot = fr.rep + past
            else (t.thread x).pc = a + BitVec.ofNat 48 (8 * ws.length) ∧ (t.thread x).pos.slot = 0)

/-- R34, R137 to R141, R394: system instructions. That icinvComplete leaves no line of the whole partition and settles every die is
log 27. -/
def Obligations.SystemInstructions : Prop :=
  ∀ (f : OpF) (s u : State) (x : Lane) (v : Src) (w : DWord) (ps : List Nat) (n : Nat),
    let z := s.atOp x
    let k := s.team x.c x.t
    let g := s.group x.c x.t x.g
    let th := s.thread x
    let code := f.bits 12 5
    let begins (i : Instr) : Prop := s.begins i f i.shape x = true
    let value : Option Nat :=
      match code with
      | 0x00 => some x.l | 0x01 => some x.g | 0x02 => some k.index | 0x03 => some x.c | 0x04 => some k.cx
      | 0x05 => some k.cy | 0x06 => some (k.cw + 256 * k.ch) | 0x07 => some k.launch.toNat | 0x08 => some (s.clocks x.c x.t)
      | 0x09 => some (s.corecyc x.c) | 0x0a => some (if k.preqAt.isSome then 1 else 0) | 0x0b => some th.rcount.toNat
      | 0x0c => some th.rentry.toNat | 0x0d => some (g.symNext + 2 ^ 20 * g.symEnd) | 0x0e => some th.astat.toNat
      | 0x0f => some g.trapen.toNat | 0x10 => some g.alarm.toNat
      | _ => some (z.counter x.c (f.bits 2 0))
    let uniform (i : Instr) : Prop := readSrc (s.env i f x) x (s.opened x) i.shape.s1 f.s1 = .ok (w, ps)
    (s.able (.mfs f) f x v → value = some n →
        s.ends (.mfs f) f x (writeDst (s.env (.mfs f) f x) x (BitVec.ofNat 64 n) z))
      ∧ (s.able (.mts f) f x v → code = 0x0e → v.a.toNat < 64 →
        s.ends (.mts f) f x (z.modThread x fun th => { th with astat := v.a.setWidth 6 }))
      ∧ (begins (.mts f) → code = 0x0f → uniform (.mts f) → w.toNat < 64 →
        s.ends (.mts f) f x (z.modGroup x.c x.t x.g fun g => { g with trapen := w.setWidth 6 }))
      ∧ (begins (.mts f) → code = 0x10 → uniform (.mts f) →
        s.ends (.mts f) f x (z.modGroup x.c x.t x.g fun g => { g with alarm := w }))
      ∧ (begins (.nop f) → s.ends (.nop f) f x s)
      ∧ (begins (.brk f) → ∃ t, exec (.brk f) s = .next t ∧ (t.thread x).run = .parked
        ∧ (t.thread x).pc = th.pc + 8 ∧ (t.thread x).rentry = th.pc + 8 ∧ (t.thread x).rcount = th.rcount + 1
        ∧ (t.thread x).win = th.win
        ∧ ((s.core x.c).recs = [] → ∃ r, (t.core x.c).recs = [r] ∧ r.cause = .brk ∧ r.detail.toNat = f.bits 7 0 ∧ r.pc = th.pc
          ∧ r.lanes = [(x.g, x.l)]))
      ∧ (s.able (.icinv f) f x v → th.loads = [] → th.stores = [] → (s.core x.c).writes = [] → v.a.toNat < 2 ^ 48 →
        ∃ t, exec (.icinv f) s = .next t ∧ (t.thread x).run = .waiting ∧ (t.thread x).pos.wait = some .icinv
          ∧ (t.thread x).pc = th.pc ∧ (t.thread x).win = th.win)
      ∧ (th.pos.wait = some .icinv → s.settleCode = some u →
        ∃ t, exec (.icinvComplete x.c x.t x.g x.l) s = .next t ∧ t.mem = u.mem ∧ (t.thread x).run = .ready
          ∧ (∀ d, ∀ y ∈ (t.core d).code, y.part = (u.team x.c x.t).part → 2 ^ 48 ≤ 64 * y.line)
          ∧ (t.thread x).pos.wait = none ∧ (t.thread x).pos.slot = (u.thread x).pos.slot + 1)
      ∧ (g.alarm ≠ 0 → g.alarm.toNat ≤ s.clocks x.c x.t →
        ∃ t, exec (.timer x.c x.t x.g) s = .next t ∧ t.mem = s.mem ∧ (t.group x.c x.t x.g).alarm = 0
          ∧ ∀ p ∈ g.threads, p.2.run ≠ .parked → p.2.run ≠ .exited → (p.1, { p.2 with timerDue := true })
            ∈ (t.group x.c x.t x.g).threads)

/-- R53, R107 to R111: instructions of several operations, in one lane; R113, R114, R318: where the threads of a tree go on. -/
def Obligations.TreesAndRepetition : Prop :=
  ∀ (s u : State) (x : Lane),
    let at_ (a : Addr) : State := u.modThread x fun th => { th with pc := a, pos := {} }
    (∀ (h : TreeHeader) (slots : List TreeSlot),
      let i := Instr.tree h slots
      let next : Addr := (s.thread x).pc + BitVec.ofNat 48 (8 * (slots.length + 1))
      let l := leafAt h (evalTests h 2 (u.thread x))
      let filed (a : Addr) (t : State) : Prop :=
        let bins := (u.core x.c).bins
        let same (b : Bin) : Bool := b.team == x.t && b.pair == (u.team x.c x.t).pair x.g && b.pc == a
        let new : Bin := { team := x.t, pair := (u.team x.c x.t).pair x.g, pc := a, lanes := [(x.g, x.l)], filed := u.now }
        let gone : Prop := ∀ v ∈ (t.core x.c).waves, ¬ (v.team = x.t ∧ v.lanes.head? = some (x.g, x.l))
        let drained (team : Nat) (lanes : List (Nat × Nat)) : Prop :=
          ∃ v ∈ (t.core x.c).waves, v.team = team ∧ v.lanes = sortThreads lanes
        (∀ b, bins.find? same = some b → b.lanes.length < 31 → gone
            ∧ (t.core x.c).bins = bins.map fun q => if same q then { b with lanes := b.lanes ++ [(x.g, x.l)] } else q)
          ∧ (∀ b, bins.find? same = some b → 31 ≤ b.lanes.length → drained x.t (b.lanes ++ [(x.g, x.l)])
            ∧ ∀ q ∈ (t.core x.c).bins, q ∈ bins ∧ same q = false)
          ∧ (bins.find? same = none → bins.length < 64 → gone ∧ (t.core x.c).bins = bins ++ [new])
          ∧ (∀ o, bins.find? same = none → 64 ≤ bins.length → oldestBin bins = some o → o.lanes ≠ [] → drained o.team o.lanes
            ∧ (t.core x.c).bins = bins.filter (fun q => !(q.team == o.team && q.pair == o.pair && q.pc == o.pc)) ++ [new])
      let goes (a : Addr) : Prop :=
        (h.rf = false → ∃ t, exec i s = .next t ∧ Same t (at_ a))
          ∧ (h.rf = true → ∃ t, exec i s = .next t ∧ t.mem = u.mem ∧ t.thread x = (at_ a).thread x ∧ filed a t)
      s.walks i x (treeBody h slots) u →
        (leafKind l = 0 → goes next)
        ∧ (leafKind l = 1 → goes (next + BitVec.ofInt 48 (8 * leafOff l)))
        ∧ (leafKind l = 2 → goes ((u.thread x).pos.far.getD next))
        ∧ (leafKind l = 3 → ∃ t, exec i s = .next t ∧ Same t (u.leave x)))
    ∧ (∀ (h : TreeHeader) (w : Wave) (y : Lane) (n : Nat),
      let i := Instr.tree h []
      let next : Addr := (s.thread x).pc + 8
      let leaf (z : Lane) : BitVec 9 := leafAt h (evalTests h 2 (s.thread z))
      let to_ (z : Lane) : Addr := if leafKind (leaf z) = 0 then next else next + BitVec.ofInt 48 (8 * leafOff (leaf z))
      let k := s.core x.c
      let t0 := s.team x.c x.t
      let bin (z : Lane) (lanes : List (Nat × Nat)) : Bin :=
        { team := x.t, pair := t0.pair z.g, pc := to_ z, lanes := lanes, filed := s.now }
      y.c = x.c → y.t = x.t → threadBefore (x.g, x.l) (y.g, y.l) = true → s.turn = x.c → s.issuer x.c = some w → w.team = x.t →
        w.lanes = [(x.g, x.l), (y.g, y.l)] → w.ins = none → (s.thread y).pc = (s.thread x).pc →
        (∀ z ∈ [x, y], (s.thread z).run = .ready ∧ (s.thread z).pos = {} ∧ (s.thread z).timerDue = false
          ∧ (leafKind (leaf z) = 0 ∨ leafKind (leaf z) = 1)) →
        i.codeFault t0.nG t0.nA = none → (∀ q ∈ k.teams, q.2.forced = false) → k.active[n]? = some w →
        ∃ t, exec i s = .next t ∧ t.mem = s.mem ∧ (t.thread x).pc = to_ x ∧ (t.thread y).pc = to_ y
          ∧ (∀ z ∈ [x, y], (t.thread z).run = .ready ∧ (t.thread z).win = (s.thread z).win)
          ∧ (h.rf = false → to_ x = to_ y → ∃ v, (t.core x.c).active[n]? = some v ∧ v.team = x.t ∧ v.lanes = w.lanes ∧ v.ins = none)
          ∧ (h.rf = false → to_ x ≠ to_ y → ∃ v, (t.core x.c).active[n]? = some v ∧ v.team = x.t ∧ v.lanes = [(x.g, x.l)]
            ∧ (∃ v ∈ (t.core x.c).waves, v.team = x.t ∧ v.lanes = [(y.g, y.l)])
            ∧ (k.active.length = 8 → ∃ v, (t.core x.c).pending.getLast? = some v ∧ v.team = x.t ∧ v.lanes = [(y.g, y.l)]))
          ∧ (h.rf = true → k.bins = [] →
            (t.core x.c).bins = (if to_ x = to_ y ∧ t0.pair x.g = t0.pair y.g then [bin x w.lanes]
              else [bin x [(x.g, x.l)], bin y [(y.g, y.l)]])))
    ∧ ∀ (p : RepPrefix) (opc : BitVec 8) (f : OpF),
      s.walks (.rep p opc f) x (repBody p opc f (s.team x.c x.t).nG) u →
        ∃ t, exec (.rep p opc f) s = .next t ∧ Same t (at_ ((u.thread x).pos.far.getD ((s.thread x).pc + 16)))

/-- R130, R60: `far` in a tree, and its decode condition outside one. -/
def Obligations.FarLeaves : Prop :=
  ∀ (s : State) (x : Lane) (h : TreeHeader) (t : TreeSlot) (v : Src) (a : DWord),
    let i := Instr.tree h [t]
    let next : Addr := (s.thread x).pc + 16
    let c : Ctx := { pc := (s.thread x).pc, next := next, preq := (s.team x.c x.t).preqAt.isSome }
    let e : Env := (treeRun t).env c true false 0 (s.opened x)
    let goes : Prop :=
      ∃ u, exec i s = .next u ∧ Same u ((s.leaveQueue x).modThread x fun th => { th with pc := a.setWidth 48 })
    let parks (j : Instr) : Prop :=
      j.codeFault (s.team x.c x.t).nG (s.team x.c x.t).nA = some ⟨.illTree, 1, 0⟩ →
      ∃ u, exec j s = .next u ∧ Same u (((s.opened x).park x { pc := (s.thread x).pc } { cause := .illTree }).ended x)
    s.alone x = true →
      (i.codeFault (s.team x.c x.t).nG (s.team x.c x.t).nA = none → s.laneFault x (treeBody h [t]) = none → h.rf = false →
        h.sh = 0 → leafKind h.l0 = 2 → t.arc = 7 → a.toNat % 8 = 0 → a.toNat < 2 ^ 48 →
        (opInstr t.opc t.f = some (.far t.f) → a = next.setWidth 64 + t.f.imm32.signExtend 64 → goes)
        ∧ (opInstr t.opc t.f = some (.farIndirect t.f) → readSrcs e x (s.atOp x) = .ok v → a = v.a → goes))
      ∧ parks (.far t.f) ∧ parks (.farIndirect t.f)

/-- R54, R151: long immediates. -/
def Obligations.LongImmediates : Prop :=
  (∀ (f : OpF) (imm : DWord) (s : State) (x : Lane),
    let e := s.envOf (.moviLong f imm) f moviLongShape x
    s.begins (.moviLong f imm) f moviLongShape x = true →
      ∃ t, exec (.moviLong f imm) s = .next t ∧ Same t ((writeDst e x imm (s.atOp x)).completed e x))
  ∧ ∀ (opc : BitVec 8) (f : OpF) (imm : DWord) (s v : State) (x : Lane) (i : Instr) (sh : Shape) (w : Nat) (off : Bool),
    let j := Instr.longImmediateForm opc f imm
    let e := { s.envOf j f sh x with
      imm2 := (if off then none else some imm), immOff := (if off then some imm else none) }
    opInstr opc f = some i → longShape opc f = some (sh, w, off) → s.begins j f sh x = true →
      semOf i e [x] (s.opened x) = (v, []) → (v.thread x).pos.wait = none → (v.thread x).pos.stopped = false →
      (v.thread x).pos.slot ≤ 1 → (v.thread x).run = .ready → (v.thread x).pos.brk = none →
      (v.thread x).pos.yield = false →
      ∃ t, exec j s = .next t ∧ Same t (v.landed e x) ∧ e.next = (s.thread x).pc + 16

/-- R301, R304, R402: the launch queue of a partition. That a rejected packet takes a launch number is log 21, that a completion
record needs no write permission of its page log 52. -/
def Obligations.LaunchQueue : Prop :=
  ∀ (s u w z : State) (p n st : Nat) (v : Word) (g : Grid),
    let q := s.part p
    let size := 2 ^ q.lqLogn.toNat
    let b : BitVec 512 := BitVec.ofNat 512 n
    let past (q : Machine.Part) : Machine.Part :=
      { q with lqHead := BitVec.ofNat 16 ((q.lqHead.toNat + 1) % 2 ^ q.lqLogn.toNat),
               nextLaunch := if q.nextLaunch + 1 = 0 then 1 else q.nextLaunch + 1 }
    let enabled : Prop := q.lqEn = true ∧ q.lqLogn ≠ 0 ∧ q.jrnV = true ∧ s.pkg.inReset.contains dispatcherKind = false
      ∧ (∀ g ∈ q.grids, g.2.placed = true ∨ (g.2.saved = true ∧ g.2.resumes = false)) ∧ q.lqHead.toNat % size ≠ q.lqTail.toNat % size
    let read : Prop := s.readAt (q.lqBase.toNat * 4096 + 64 * (q.lqHead.toNat % size)) 64 3 = some (n, false, u)
    exec (.lqTailWrite p v) s = .next (s.modPart p fun q => { q with lqTail := v.setWidth 16 })
      ∧ exec (.lqCtlWrite p v) s = .next (s.modPart p fun q =>
        { q with lqEn := v.getLsbD 0, lqLogn := if q.lqEn then q.lqLogn else v.extractLsb' 1 4 })
      ∧ (enabled → read → u.checkPacket p q.nextLaunch b = .ok g w →
        exec (.launchPacketRead p) s = .next (w.modPart p fun k =>
          { past k with journal := k.journal ++ [(q.nextLaunch, b)], grids := k.grids.set k.nextGrid g,
                        nextGrid := k.nextGrid + 1 }))
      ∧ (enabled → read → u.checkPacket p q.nextLaunch b = .reject st w →
        (w.modPart p past).complete p q.nextLaunch (blkBits b 319 256) st 0 = some z →
        exec (.launchPacketRead p) s = .next z)
      ∧ ∀ (cpl clocks : Nat),
        let failed (u : State) : State :=
          u.event p { id := 0, cause := .cplFail, event := true, grid := v, detail := BitVec.ofNat 32 st, addr := cpl }
        let written := dispWrite p { dirty := true } 2 cpl (leBytes 4 [st, v.toNat] ++ leBytes 8 [clocks]) s
        (cpl % 16 ≠ 0 ∨ 2 ^ 48 ≤ cpl → s.complete p v cpl st clocks = some (failed s))
          ∧ (cpl % 16 = 0 → cpl < 2 ^ 48 →
            (∀ bs, written = .ok bs u → s.complete p v cpl st clocks = some u)
            ∧ (∀ bs va cause, written = .fault bs va cause u → s.complete p v cpl st clocks = some (failed u))
            ∧ (∀ va, written = .error va u → s.complete p v cpl st clocks = some (failed u)))

/-- R305, R40, R22: placement, and the state of a thread at its creation. That a team takes the lowest free team slot is log 21. -/
def Obligations.LaunchPlacement : Prop :=
  (∀ (s u w : State) (p gk : Nat) (g : Grid) (data : List Byte),
    (s.part p).waiting = some (gk, g) → s.mayPlace p g.map = true → s.pkg.inReset.contains dispatcherKind = false →
      (∀ q ∈ mapCounts g.map, s.fits q.1 g.desc g.det q.2 = true) →
      s.dispBytes p g.desc.preload (64 * g.desc.plen) = .ok data u → u.launchTeams p gk g data (mapSpots g.map) = some w →
      exec (.launchPlace p) s = .next (w.modPart p fun q =>
        { q with grids := q.grids.set gk { g with placed := true, teamsLeft := (mapSpots g.map).length } }))
  ∧ ∀ (s u : State) (p gk : Nat) (g : Grid) (data : List Byte) (x : Spot),
    let t := (s.freeSlots x.c).headD 0
    let argp : DWord := g.packet.extractLsb' 64 64
    s.launchTeam p gk g data x = some u →
      (u.team x.c t).index = x.index ∧ (u.team x.c t).launch = g.launch ∧ (u.team x.c t).tiles = g.desc.acc
        ∧ (u.team x.c t).placedAt = s.now
        ∧ ∀ i, i < blkBits g.packet 239 224 →
          (u.group x.c t i).k 0 = argp.setWidth 32 ∧ (u.group x.c t i).k 1 = (argp >>> 32).setWidth 32
            ∧ (∀ j, 2 ≤ j → (u.group x.c t i).k j = 0) ∧ (u.group x.c t i).trapen = 0 ∧ (u.group x.c t i).alarm = 0
            ∧ ∀ l, l < g.desc.width →
              let th := u.thread { c := x.c, t := t, g := i, l := l }
              th.pc = g.desc.entry ∧ th.rentry = g.desc.entry ∧ th.run = .ready ∧ th.win = [] ∧ th.preds = 1
                ∧ th.hflag = false ∧ th.astat = 0 ∧ th.rcount = 0

/-- R313, R22: tasks and copy nodes are launched. That the dispatcher does nothing while it stands in reset is R409. -/
def Obligations.TasksAndCopyNodes : Prop :=
  ∀ (s u w : State) (p n k c t : Nat) (nd : Node) (es : List Extent) (bs : List Byte),
    let q := s.part p
    let b := nd.record
    let gr := q.grids.get nd.grid { launch := 0, packet := 0 }
    let live : Prop := gr.placed = true ∧ gr.saved = false ∧ gr.preReq = false ∧ s.dispOff = false
    let copy : EngOp :=
      { kind := .copy, team := t, group := 0, addr := nd.addr, block := b, fm := b.extractLsb' 448 32,
        tag := BitVec.ofNat 32 (leNum bs), prog := blkBits b 319 304, node := n }
    let launched (v : State) : Prop := ∀ r ∈ (v.part p).nodes, r.1 = n → r.2.launched = true
    q.nodes.find? (fun r => r.1 == n) = some (n, nd) →
      (q.firstTask nd.grid = some (n, nd) → (s.taskTeams p nd.grid)[k]? = some (c, t) → live →
        s.buildExtents p nd.regl ([], false) = some (es, u) → u.joinPkg c = some w →
        ∃ v, exec (.taskLaunch p n k) s = .next v ∧ launched v
          ∧ (let g := (w.team c t).freeGroup
            (v.group c t g).extents = es ∧ (v.group c t g).k 0 = b.extractLsb' 64 32 ∧ (v.group c t g).k 1 = b.extractLsb' 96 32
              ∧ (v.group c t g).k 2 = BitVec.ofNat 32 (blkBits b 143 128 + 2 ^ 16 * blkBits b 159 144)
              ∧ (v.group c t g).k 3 = BitVec.ofNat 32 (blkBits b 175 160)
              ∧ ∀ l, l < (w.team c t).desc.width →
                let th := v.thread { c := c, t := t, g := g, l := l }
                th.pc = b.extractLsb' 0 48 ∧ th.rentry = b.extractLsb' 0 48 ∧ th.run = .ready ∧ th.win = [] ∧ th.preds = 1))
      ∧ ((s.gridTeams p nd.grid).find? (fun d => d.1 == c && !(s.team d.1 d.2).over && !(s.team d.1 d.2).ended) = some (c, t) → nd.ready = true →
        nd.launched = false → recCopy b = true → (s.core c).pq.length < 8 → live → s.joinPkg c = some u →
        u.copyTag c t b = .ok bs w →
        ∃ v, exec (.copyNodeDispatch p n c) s = .next v ∧ launched v
          ∧ (v.core c).pq = (w.core c).pq ++ [copy])

/-- R308, R312, R315: finishes. That every die is written back first is log 19, that a grid waits for every store of its partition
on its cores log 28. -/
def Obligations.FinishOfWork : Prop :=
  ∀ (s u w : State) (p n : Nat),
    let q := s.part p
    let e := q.scopes.get n {}
    s.dispOff = false →
    (∀ nd, q.nodes.find? (fun r => r.1 == n) = some (n, nd) → nd.finished = true → s.homeAll = some u →
        (let launch := (q.grids.get nd.grid { launch := 0, packet := 0 }).launch
        let left (k : Machine.Part) : Machine.Part :=
          let j := { k with nodes := k.nodes.filter (fun m => m.1 != n),
                            journalNodes := k.journalNodes.filter (fun a => a != nd.addr) }
          if recScope nd.record = 0 then j else j.modScope (recScope nd.record) fun e => { e with members := e.members - 1 }
        (u.modPart p left).successors p launch nd.record = some w →
        ∃ v, exec (.nodeFinish p n) s = .next v ∧ v.parts = w.parts ∧ v.mem = w.mem ∧ ∀ x, v.thread x = w.thread x))
      ∧ (n ≠ 0 → e.state = 2 → e.members = 0 → e.children = 0 → (∀ k ∈ s.cores, k.2.held = []) →
        (q.grids.get e.grid { launch := 0, packet := 0 }).savedHeld = [] →
        ∃ v, exec (.scopeComplete p n) s = .next v ∧ v.mem = s.mem ∧ (e.parent.toNat ≠ n → (v.part p).scopes.get n {} = { gen := e.gen + 1 })
          ∧ (e.parent ≠ 0 → e.parent.toNat ≠ n → (v.part p).scopes.get e.parent.toNat {}
            = { q.scopes.get e.parent.toNat {} with children := (q.scopes.get e.parent.toNat {}).children - 1 }))
      ∧ ∀ (k : Grid) (r z : State), q.grids.find? n = some k → k.placed = true → k.saved = false → k.teamsLeft = 0 →
        q.quietNodes n = true → s.owesGrid p n = false →
        s.flush (fun c r => (s.team c r.team).part == p && (s.team c r.team).grid == n) true = some u → u.homeAll = some r →
        (let gone (q : Machine.Part) : Machine.Part :=
          let q := (q.clearGrid n).retire n k.launch
          if k.preReq = true ∧ q.preGrid = k.launch then { q with preState := 7 } else q
        let status := if k.ended then 6 else if (r.part p).nodes.any (fun m => m.2.grid == n) then 7 else 0
        (r.modPart p gone).complete p k.launch (blkBits k.packet 319 256) status k.clocks = some z →
        ∃ v, exec (.gridEnd p n) s = .next v ∧ v.parts = z.parts ∧ v.mem = z.mem)

/-- R327 to R329: the trap queue of a partition. -/
def Obligations.TrapQueue : Prop :=
  ∀ (s w z : State) (p c : Nat) (id v : Word) (r : Rec) (rest : List Rec),
    let q := s.part p
    let size := 2 ^ q.tqLogn.toNat
    let a := q.tqBase.toNat * 4096 + 256 * q.tqTail.toNat
    let sends (k : List (Nat × Nat)) : List (Nat × Nat) := k ++ [(p, q.tqVec.toNat)]
    let ready : Prop := q.events = r :: rest ∧ r.id = id ∧ q.tqEn = true ∧ q.tqLogn ≠ 0
    let full : Prop := (q.tqTail.toNat + 1) % size = q.tqHead.toNat % size
    let put (s : State) : Option State :=
      (s.homeWrite a 128 (r.bits % 2 ^ 1024) 3).bind fun s => s.homeWrite (a + 128) 128 (r.bits / 2 ^ 1024) 3
    (ready → ¬ full → put s = some w →
        ∃ u, exec (.trapRecordWrite p id) s = .next u ∧ (u.part p).events = rest
          ∧ u.mem = w.mem
          ∧ (s.openLine (lineOf a) = false → s.openLine (lineOf (a + 128)) = false →
            u.mem = (s.mem.writeN a 128 (r.bits % 2 ^ 1024)).writeN (a + 128) 128 (r.bits / 2 ^ 1024))
          ∧ (u.part p).tqTail = BitVec.ofNat 16 ((q.tqTail.toNat + 1) % size)
          ∧ u.pkg.msix = if q.tqTail = q.tqHead then sends s.pkg.msix else s.pkg.msix)
      ∧ (s.nextRecord p id = some (.core c, r) → q.tqEn = true → q.tqLogn ≠ 0 → ¬ full →
        (∀ l ∈ r.lanes, (s.thread { c := c, t := r.teamSlot, g := l.1, l := l.2 }).stores = []) →
        s.releaseSys (coreDie c) = some z → put z = some w →
        ∃ u, exec (.trapRecordWrite p id) s = .next u ∧ u.mem = w.mem
          ∧ (u.core c).recs = (w.core c).recs.flatMap (fun o => if o.id = id ∧ o.written = none then
              (if o.isOpen then [{ o with written := some a }] else []) else [o])
          ∧ (u.part p).tqTail = BitVec.ofNat 16 ((q.tqTail.toNat + 1) % size))
      ∧ (ready → full → q.tqOvf = false →
        exec (.trapRecordWrite p id) s = .next (s.modPart p fun q => { q with tqOvf := true }))
      ∧ (∃ u, exec (.tqHeadWrite p v) s = .next u ∧ u.mem = s.mem
        ∧ u.parts = (s.modPart p fun q => { q with tqHead := v.setWidth 16 }).parts
        ∧ u.pkg.msix = if v.setWidth 16 = q.tqTail then s.pkg.msix else sends s.pkg.msix)
      ∧ exec (.tqCtlWrite p v) s = .next (s.modPart p fun q =>
        { q with tqEn := v.getLsbD 0, tqOvf := q.tqOvf && !v.getLsbD 5,
                 tqLogn := if q.tqEn then q.tqLogn else v.extractLsb' 1 4,
                 tqVec := if q.tqEn then q.tqVec else v.extractLsb' 8 8 })

/-- R281, R330, R331, R338: writes of TQ_SERV. That the copy nodes of an ended team or grid are discarded is log 19. -/
def Obligations.RecordService : Prop :=
  ∀ (s : State) (p c : Nat) (id : Word) (r : Rec),
    let t := r.teamSlot
    let running : Prop := s.openRec p id = some (c, r) ∧ (s.team c t).savedAt = none
    let closed (u : State) : Prop := ∀ q ∈ (u.core c).recs, q.isOpen = true → q.id ≠ id
    let ended (u : State) (c t : Nat) : Prop :=
      (∀ g ∈ (u.team c t).groups, ∀ q ∈ g.2.threads, q.2.run = .exited) ∧ (∀ o ∈ (u.core c).mq, o.team ≠ t)
        ∧ ∀ o ∈ (u.core c).pq, o.team ≠ t
    (running → r.event = false → r.cause ≠ .storeUe → (s.core c).overflow = [] →
        ∃ u, exec (.tqServRelease p id) s = .next u ∧ u.mem = s.mem ∧ closed u
          ∧ ∀ x : Lane, x.c = c → x.t = t → (x.g, x.l) ∈ r.lanes → (s.thread x).run = .parked → (s.thread x).recId = r.id →
            (u.thread x).run = .ready ∧ (u.thread x).pc = (s.thread x).pc ∧ (u.thread x).win = (s.thread x).win)
      ∧ (running → r.event = true → r.cause ≠ .storeUe → (s.core c).overflow = [] →
        ∃ u, exec (.tqServRelease p id) s = .next u ∧ u.mem = s.mem ∧ closed u
          ∧ (u.core c).mq = (if r.key = 0 then (s.core c).mq.map fun o =>
              if o.team = t ∧ o.stopped = true then { o with stopped := false } else o
            else (s.core c).mq)
          ∧ (u.core c).pq = (if r.key = 0 then (s.core c).pq else (s.core c).pq.map fun o =>
              if o.team = t ∧ o.stopped = true then { o with stopped := false } else o))
      ∧ (running → r.cause = .storeUe → (s.team c t).over = false → (s.core c).overflow = [] →
        ∃ u, exec (.tqServRelease p id) s = .next u ∧ ended u c t ∧ closed u)
      ∧ (running → (s.team c t).over = false → ∃ u, exec (.tqServEndTeam p id) s = .next u ∧ ended u c t
        ∧ (∀ q ∈ (u.core c).recs, q.teamSlot = t → q.isOpen = false)
        ∧ ∀ o ∈ (s.core c).pq, o.kind = .copy → o.team = t → ∀ m ∈ (u.part p).nodes, m.1 ≠ o.node)
      ∧ (running → exec (.tqServEndGrid p id) s
        = .next (let u := s.closeRec c r.id
          let gk := (u.team c t).grid
          ((u.gridTeams p gk).foldl (fun u d => u.hostEnd d.1 d.2) u).dropCopies p gk))
      ∧ (s.openRec p id = none → (∀ gk g, (s.part p).savedRec id = some (gk, g) →
        let held (n : Nat) : State := s.modPart p fun q => { q with grids := q.grids.set gk { g with services := g.services ++ [(id, n)] } }
        exec (.tqServRelease p id) s = .next (held 0) ∧ exec (.tqServEndTeam p id) s = .next (held 1)
          ∧ exec (.tqServEndGrid p id) s = .next (held 2)))
      ∧ (s.openRec p id = none → (s.part p).savedRec id = none →
        exec (.tqServRelease p id) s = .next s ∧ exec (.tqServEndTeam p id) s = .next s
          ∧ exec (.tqServEndGrid p id) s = .next s)

/-- R333 to R336, R340: pre-emption. What a save keeps outside the area and its fields past those the spec lays out are the
model's (logs 40, 41, 49), and so are what rests for a save and that a team past its deadline is forced first (log 48). -/
def Obligations.Preemption : Prop :=
  ∀ (s u : State) (p c t gk : Nat) (v : Word) (g : Grid),
    let q := s.part p
    let k := s.team c t
    let core := s.core c
    let busy : Prop := q.preState = 1 ∨ q.preState = 2 ∨ q.preState = 4
    let found : Option (Nat × Grid) := List.find? (fun r => r.2.launch == v && r.2.placed && !r.2.saved) q.grids
    let due : Prop := ∃ a, k.preqAt = some a ∧ a + q.preDeadline.toNat ≤ s.clocks c t
    let asked : Prop := (q.preState = 1 ∨ q.preState = 2) ∧ k.over = false ∧ k.savedAt = none
    let rests (w : Wave) : Prop :=
      (w.ins = none ∧ k.forced = true)
        ∨ (w.ins ≠ none ∧ w.stalled = true ∧ (∃ x ∈ w.at_ c, (s.thread x).pos.wait ≠ none)
          ∧ ∀ x ∈ w.at_ c, ∀ y, (s.thread x).pos.wait = some y →
            (∃ b, y = .barrier b ∧ (s.thread x).pos.arrived = true)
              ∨ y = .turn ∨ ((∀ b, y ≠ .barrier b) ∧ y.rests = true ∧ s.met w x = false))
    let quiet : Prop :=
      (∀ gr ∈ k.groups, ∀ th ∈ gr.2.threads, th.2.stores = [] ∧ ∀ l ∈ th.2.loads, l.poisoned = true)
        ∧ (∀ o ∈ core.mq ++ core.pq, o.team = t → o.done = true → o.stopped = true ∨ o.stuck = true)
        ∧ (∀ r ∈ core.replies, r.team ≠ t)
        ∧ (∀ r ∈ core.ports, r.2.reserved ≠ 0 → ∀ o, r.2.owner = some o → o.1 ≠ t)
        ∧ ∀ f ∈ s.flasks, (c, t) ∉ f.2.release.map fun d => (d.1, d.2.1)
    let img := s.imageOf p k.grid g
    (busy ∨ v = 0 → exec (.preReqWrite p v) s = .next s)
      ∧ (¬ busy → v ≠ 0 → found = none →
        exec (.preReqWrite p v) s = .next (s.modPart p fun q => { q with preReq := v, preState := 6 }))
      ∧ (¬ busy → v ≠ 0 → found = some (gk, g) → q.grids.find? gk = some g →
        ∃ w, exec (.preReqWrite p v) s = .next w ∧ w.mem = s.mem ∧ (w.part p).preState = 1 ∧ (w.part p).preGrid = v
          ∧ (w.part p).events = q.events
          ∧ (w.part p).grids.find? gk = some { g with preReq := true, forced := false, saveAddr := 64 * q.preSave.toNat }
          ∧ ∀ d ∈ s.gridTeams p gk, (s.team d.1 d.2).over = false →
            (w.team d.1 d.2).preqAt = some (s.clocks d.1 d.2) ∧ (w.team d.1 d.2).groups = (s.team d.1 d.2).groups)
      ∧ (k.part = p → q.grids.find? k.grid = some g → asked → k.forced = false → due →
        ∃ w, exec (.preForced c t) s = .next w ∧ w.mem = s.mem ∧ (w.team c t).forced = true ∧ (w.part p).preState = 2
          ∧ (∀ x, w.thread x = s.thread x)
          ∧ ∃ r : Rec, r.cause = .preForced ∧ r.event = true ∧ r.grid = g.launch
            ∧ (w.part p).events = if g.forced then q.events else q.events ++ [r])
      ∧ (k.part = p → (s.canSave c t = true ↔
        asked ∧ k.ended = false ∧ k.preqAt ≠ none ∧ (due → k.forced = true) ∧ quiet
          ∧ (∀ w ∈ core.waves, w.team = t → rests w) ∧ (k.forced = true ∨ ∀ b ∈ core.bins, b.team ≠ t)))
      ∧ (k.part = p → q.grids.find? k.grid = some g → s.canSave c t = true → s.markSaved c t = some u →
        exec (.teamSave c t) s = .next u
          ∧ ((u.team c t).over = false → (u.team c t).savedAt = some (s.clocks c t)
            ∧ (∀ w ∈ (u.core c).waves, w.team ≠ t) ∧ ∀ b ∈ (u.core c).bins, b.team ≠ t))
      ∧ (k.part = p → q.grids.find? k.grid = some g → k.savedAt.isSome = true → s.allSaved p k.grid = true →
        s.writeArea g.saveAddr img = some u → s.canonical → g.saveAddr + img.length ≤ 2 ^ 48 →
        (mapSpots g.map).length < 2 ^ 32 → g.map.length < 2 ^ 32 →
        ∃ w, exec (.teamSave c t) s = .next w ∧ (w.part p).preState = 3
          ∧ (∀ i, i < img.length → w.mem.read (g.saveAddr + i) = img.getD i 0)
          ∧ (numAt img 0 4 = 1 ∧ numAt img 4 4 = g.launch.toNat ∧ numAt img 8 4 = (mapSpots g.map).length
            ∧ numAt img 12 4 = g.map.length)
          ∧ (∃ r : Rec, r.cause = .preSaved ∧ r.event = true ∧ r.grid = g.launch ∧ (w.part p).events = q.events ++ [r])
          ∧ ∃ h, (w.part p).grids.find? k.grid = some h ∧ h.launch = g.launch ∧ h.saved = true ∧ h.placed = false)

/-- R333, R345, R347: restore. What the dispatcher keeps of a saved grid beside its area, and what it does with fields the spec
does not lay out, are the model's (logs 40, 41, 49). -/
def Obligations.RestoreOfGrids : Prop :=
  ∀ (s u : State) (p st : Nat) (v : DWord) (r : Restore) (g : Grid),
    let q := s.part p
    let busy : Prop := q.preState = 1 ∨ q.preState = 2 ∨ q.preState = 4
    let a := 64 * (v.extractLsb' 6 42).toNat
    let grid : Word := BitVec.ofNat 32 (s.mem.readN (a + 4) 4)
    let asked : State := s.modPart p fun q =>
      { q with preState := 4, preGrid := grid, rsCheck := true, rsSave := v.extractLsb' 6 42 }
    let fails (u : State) (st : Nat) : Prop :=
      ∃ w, exec (.rsSaveWrite p v) s = .next w ∧ (w.part p).preState = 6 ∧ (w.part p).rsCheck = false
        ∧ w.mem = u.mem ∧ w.cores = u.cores
        ∧ ∃ e : Rec, e.cause = .restoreBad ∧ e.event = true ∧ e.grid = (u.part p).preGrid ∧ e.detail = BitVec.ofNat 32 st
          ∧ (w.part p).events = (u.part p).events ++ [e]
    (busy → exec (.rsSaveWrite p v) s = .next s)
      ∧ (¬ busy → asked.checkRestore p a = .ok r u →
        exec (.rsSaveWrite p v) s = .next (u.modPart p fun q => { q with restore := some r, rsCheck := false }))
      ∧ (¬ busy → ∀ z, asked.checkRestore p a = .bad st z → z.writeAt (a + 16) 4 st 3 = some u → fails u st)
      ∧ (¬ busy → ∀ hd bad z, asked.readArea a 128 = some (hd, bad, z) → numAt hd 0 4 ≠ 1 →
        z.writeAt (a + 16) 4 8 3 = some u → fails u 8)
      ∧ (¬ busy → asked.checkRestore p a = .blocked → exec (.rsSaveWrite p v) s = .next asked)
      ∧ (s.pkg.inReset.contains dispatcherKind = false → q.rsCheck = false → q.restore = some r →
        q.grids.find? r.grid = some g → g.services = [] → g.savedFaults = [] →
        ∀ areas bad z ts y, s.readTeams r.area r.map.length (mapSpots r.map).length = some (areas, bad, z) →
        let xs := (mapSpots r.map).zip areas
        z.mayPlace p r.map = true → (∀ n ∈ mapCounts r.map, z.fits n.1 g.desc g.det n.2 = true) → z.restoreRoom g xs = true →
        z.makeTeams p r.grid g xs [] = some (ts, y) →
        let v0 := ts.foldl (fun s x => s.loadTeam p r.grid g x) y
        let v1 := v0.modPart p fun q => { q with restore := none, preState := 5, grids := q.grids.set r.grid (g.replaced r.map) }
        let v2 := ts.foldl (fun s x => s.freeEnded x) v1
        let v3 := (ts.zip (ts.map fun x => v1.parkedLanes x)).foldl (fun s x => s.startTeam p r.grid x.1 x.2) v2
        v3.writeAt (r.area + 16) 4 0 3 = some u →
        exec (.restorePlace p) s = .next u ∧ (u.part p).preState = 5 ∧ (u.part p).restore = none
          ∧ (u.part p).grids.find? r.grid = some (g.replaced r.map)
          ∧ ((ts.map fun x => (x.c, x.t)).Nodup → ∀ x ∈ ts,
            let m := u.team x.c x.t
            let bank (i n : Nat) : List Byte := (x.bytes.drop (offsetAt x.bytes i + 65536 * n)).take 65536
            let alone : Prop := ∀ o ∈ ts, o.c = x.c → o.t = x.t
            m.grid = r.grid ∧ m.part = p ∧ m.index = x.index ∧ m.clkBase = numAt x.bytes 48 8 ∧ m.placedAt = s.now
              ∧ (z.tidy → alone → m.over = false →
                (∀ (n b : Nat), m.scrBanks[n]? = some b → m.scrBanks.Nodup → ∀ i, i < 65536 →
                  (u.core x.c).store.read (65536 * b + i) = (bank 4 n).getD i 0)
                  ∧ ∀ n b, m.desc.tileList[n]? = some b → ∀ i, i < 65536 →
                    (u.core x.c).acc.read (65536 * b + i) = (bank 3 n).getD i 0)
              ∧ (m.over = false → m.fifoBanks.Nodup → ∀ n b, m.fifoBanks[n]? = some b → ∀ j, j < 64 →
                m.queue (64 * b + j) = readQueue (bank 5 n) j (numAt x.bytes (1280 + 256 * n + 4 * j) 2))
              ∧ ∀ gr l, gr < g.desc.team → l < g.desc.width →
                let grec := (x.bytes.drop (offsetAt x.bytes 0 + 1024 * gr)).take 1024
                let rec_ := (x.bytes.drop (offsetAt x.bytes 1 + g.desc.recBytes * (32 * gr + l))).take g.desc.recBytes
                let num := numAt rec_ 0 64
                let th := u.thread { c := x.c, t := x.t, g := gr, l := l }
                (numAt grec 428 4).testBit 0 = true →
                ((numAt grec 428 4).testBit 1 = true → (q.taskAt r.grid (numAt grec 448 8)).isSome = true) →
                (∀ i, i < 32 → (u.group x.c x.t gr).kregs.get i 0 = BitVec.ofNat 32 (numAt grec (4 * i) 4))
                  ∧ (u.group x.c x.t gr).alarm = BitVec.ofNat 64 (numAt grec 432 8)
                  ∧ (u.group x.c x.t gr).trapen = BitVec.ofNat 6 (numAt grec 424 4)
                  ∧ th.pc = BitVec.ofNat 48 (field num 63 0 / 8 * 8) ∧ th.rentry = BitVec.ofNat 48 (field num 127 64 / 8 * 8)
                  ∧ th.rcount = BitVec.ofNat 32 (field num 159 128) ∧ th.hflag = num.testBit 163
                  ∧ th.preds = BitVec.ofNat 32 (field num 223 192 ||| 1) ∧ th.astat = BitVec.ofNat 6 (field num 255 224)
                  ∧ th.run = runOf (field num 162 160)
                  ∧ (th.run ≠ .exited → ∀ i, i < g.desc.regs → th.word i = BitVec.ofNat 32 (numAt rec_ (64 + 4 * i) 4))
                  ∧ ((th.run = .ready ∨ th.run = .waiting) → (∀ w ∈ (s.core x.c).waves, w.team ≠ x.t) →
                    (∀ b ∈ (s.core x.c).bins, b.team ≠ x.t) →
                    (∃ w ∈ (u.core x.c).waves, w.team = x.t ∧ (gr, l) ∈ w.lanes)
                      ∨ ∃ b ∈ (u.core x.c).bins, b.team = x.t ∧ b.pc = th.pc ∧ (gr, l) ∈ b.lanes)))

/-- R268, R274, R277, R281, R282, R293, R298: events of the memory system. That tlbInvComplete waits for every store of the partition
and writes every dirty line home is log 28, where a line stands in an L1 bank log 34. -/
def Obligations.MemorySystemEvents : Prop :=
  ∀ (s z u : State) (p c b d line off : Nat) (v : DWord) (w : Word),
    let q := s.part p
    let k := s.core c
    let r := k.banks.get b {}
    let page := q.tlbInvPage.toNat
    let lo := if q.tlbInvScope = 0 then page else if q.tlbInvScope = 1 then page / 32 * 32 else 0
    let hi := if q.tlbInvScope = 0 then page + 1 else if q.tlbInvScope = 1 then page / 32 * 32 + 32 else 2 ^ 32
    let new := w.extractLsb' 0 3
    let leaves : Prop := r.boot = false ∧ r.role = 2 ∧ new = 0
    let without (t : State) : Prop :=
      (∀ y ∈ (t.core c).l1, y.2.way / 4 ≠ b)
        ∧ ∀ n y, k.l1.find? n = some y → y.way / 4 = b → ∀ x ∈ (t.die (coreDie c)).leases, ¬ (x.line = n ∧ x.core = c)
    let up (x : Word) : Word := if x = 0xffffffff then x else x + 1
    let counted := if r.cec = 0xffff then r.cec else r.cec + 1
    let reaches : Prop := k.retireTh ≠ 0 ∧ k.retireTh ≤ counted
    let hit (q : Nat × L1Line) : Bool := q.2.way = off / 16384 ∧ q.1 % 128 = off % 16384 / 128
    let inUse : Prop := (k.banks.get (off / 65536) {}).role ≠ 0 ∧ (k.banks.get (off / 65536) {}).role ≠ 2
    let l2 := s.slice (homeSlice (128 * line))
    (exec (.tlbInvWrite p v) s = .next (if q.tlbInvGo = true ∨ v.extractLsb' 61 2 = 3 then s
        else s.modPart p fun q =>
          { q with tlbInvGo := v.getLsbD 63, tlbInvScope := v.extractLsb' 61 2, tlbInvPage := v.extractLsb' 16 32 }))
      ∧ (q.tlbInvGo = true → s.storesOut p = false → s.homeAll = some z → z.leaveSlices = some u →
        ∃ t, exec (.tlbInvComplete p) s = .next t ∧ t.mem = u.mem ∧ (t.part p).tlbInvGo = false
          ∧ (∀ c, (∀ y ∈ (t.core c).tlb, y.part = p → y.vpage + y.size ≤ lo ∨ hi ≤ y.vpage)
            ∧ (∀ m ∈ (t.core c).teams, m.2.part = p → ∀ gr ∈ m.2.groups, ∀ e ∈ gr.2.extents,
              e.vpage + e.len ≤ lo ∨ hi ≤ e.vpage)
            ∧ ∀ y ∈ (t.core c).code, y.part = p → 64 * y.line + 64 ≤ 65536 * lo ∨ 65536 * hi ≤ 64 * y.line)
          ∧ ∀ d, (∀ y ∈ (t.die d).tlb, y.part = p → y.vpage + y.size ≤ lo ∨ hi ≤ y.vpage)
            ∧ ∀ y ∈ (t.die d).dirs, y.part = p →
              let n := if y.mid then 2 ^ 7 else 2 ^ 19
              n * y.at_ + n ≤ lo ∨ hi ≤ n * y.at_)
      ∧ (b < 32 → ∃ t, exec (.bankRoleWrite c b w) s = .next t ∧ t.mem = s.mem
        ∧ (t.core c).banks.get b {} = { r with
            cec := w.extractLsb' 16 16, drain := r.drain || decide leaves,
            role := if r.boot = false ∧ r.role = 0 ∧ new = 2 then 2 else r.role }
        ∧ (leaves → without t))
      ∧ (b < 32 → ∃ t, exec (.storeEccCorrected c b) s = .next t ∧ ((t.core c).banks.get b {}).cec = counted
        ∧ (reaches → r.role = 2 → ((t.core c).banks.get b {}).role = 0 ∧ without t)
        ∧ (reaches → r.role ≠ 2 → r.role ≠ 0 → ((t.core c).banks.get b {}).retp = true)
        ∧ (¬ reaches → (t.core c).banks.get b {} = { r with cec := counted }))
      ∧ (off < 32 * 65536 →
        (inUse → ∃ t, exec (.storeUe c off) s = .next t ∧ off / 4 ∈ (t.core c).badWords ∧ t.mem = s.mem)
        ∧ ((k.banks.get (off / 65536) {}).role = 0 → exec (.storeUe c off) s = .next s)
        ∧ ((k.banks.get (off / 65536) {}).role = 2 →
          (List.find? hit k.l1 = none → exec (.storeUe c off) s = .next s)
          ∧ ∀ n y, List.find? hit k.l1 = some (n, y) → ∃ t, exec (.storeUe c off) s = .next t ∧ t.mem = s.mem
            ∧ (t.core c).badWords = k.badWords ∧ (t.core c).l1.find? n = none
            ∧ ∀ x ∈ (t.die (coreDie c)).leases, ¬ (x.line = n ∧ x.core = c)))
      ∧ (∀ l, (s.die d).lines.find? line = some l → ∃ t, exec (.cacheUe (.dieCache d) line) s = .next t
        ∧ (t.die d).uec = up (s.die d).uec
        ∧ (t.die d).lines.find? line = if l.dirty = 0 then none else some { l with poisoned := true })
      ∧ (d < 24 → ((s.die d).lines.find? line).isSome = true →
        exec (.cacheUe (.dieCacheBit d) line) s = .next (s.modDie d fun k => { k with cec := up k.cec }))
      ∧ (isHbm (128 * line) = true → (∀ l, l2.lines.find? line = some l → l.dirty = false) →
        ∃ t, exec (.cacheUe .hbm line) s = .next t ∧ line ∈ t.poison ∧ t.mem = s.mem)
      ∧ (∀ l, (s.slice b).lines.find? line = some l → ∃ t, exec (.cacheUe (.l2 b) line) s = .next t
        ∧ (if l.dirty then line ∈ t.poison else (t.slice b).lines.find? line = none ∧ t.poison = s.poison))
      ∧ (∀ x, (s.die d).leases.find? (fun x => x.line == line && x.core == c) = some x → x.expiry ≤ s.now →
        ∃ t, exec (.leaseExpiry d c line) s = .next t ∧ t.mem = s.mem
          ∧ (t.core c).l1.find? line = none ∧ ∀ y ∈ (t.die d).leases, ¬ (y.line = line ∧ y.core = c))
      ∧ (∀ l, (s.die d).lines.find? line = some l →
        (l.dirty = 0 → ∃ t, exec (.ageWriteback d line) s = .next t ∧ t.mem = s.mem ∧ (t.die d).lines.find? line = none)
        ∧ (l.dirty ≠ 0 → s.writeBack d line = some u →
          exec (.ageWriteback d line) s = .next u ∧ (s.openLine line = false → u.mem = mergeBytes s.mem line l.data l.dirty)
            ∧ (u.die d).lines.find? line = some { l with dirty := 0, epoch := 0 }))

/-- R357, R358, R392, R393, R401 to R407: package control. Which points the arbiter grants within the shares, and what the
journal holds, are inputs and choices of the model (logs 5, 22, 43); that the failure of any part takes every team off its core and
marks nodes for registration again is log 47. -/
def Obligations.PackageControl : Prop :=
  ∀ (s : State) (p c fl pt len : Nat) (v : DWord) (base : Addr) (first : BitVec 12) (rest : List (BitVec 12))
    (parts : List PartPower) (flasks : List FlaskPower)
    (w : Sys2Proof.Part),
    let k := s.core c
    let temps := first :: rest
    let watts := parts.map (·.watts)
    let demand := parts.map (·.demand)
    let floorWatts := flasks.map (·.floorWatts)
    let points := flasks.map (·.point)
    let owns (o : BitVec 48) (p f : Nat) : Prop := o.toNat / 16 ^ f % 16 = p
    let new : BitVec 48 := v.setWidth 48
    let kept : Prop := ∃ p f, p < 12 ∧ f < 12 ∧ ¬ (owns s.pkg.owner p f ↔ owns new p f)
      ∧ ∃ g ∈ (s.part p).grids, g.2.placed = true ∧ g.2.saved = false
    let sum := s.pkg.floorSum
    let cap := s.pkg.pwrCap.toNat
    let point (t : State) (f : Nat) : Nat := (t.flask f).point
    let soft (f : Nat) : Prop := s.pkg.thermSoft ≤ s.pkg.thermTemp ∧ f = s.pkg.thermCore.toNat / 96
    let slow : Prop := cap < floorWatts.sum ∨ s.pkg.thermTrip ≤ s.pkg.thermTemp
    let bytes (x : Word) : List Byte := (List.range 4).map fun i => BitVec.ofNat 8 (x.toNat / 256 ^ i)
    (kept → exec (.partCfgWrite v) s = .next s)
      ∧ (¬ kept → exec (.partCfgWrite v) s = .next (s.modPkg fun k => { k with owner := new }))
      ∧ exec (.annCtlWrite p v) s = .next (s.modPart p fun q =>
        { q with annBase := if q.annEn then q.annBase else v.extractLsb' 16 32,
                 annLogsz := if q.annEn then q.annLogsz else v.extractLsb' 8 4, annEn := v.getLsbD 0,
                 annTrans := if v.getLsbD 0 then q.annTrans else [] })
      ∧ ((s.part p).annEn = true → 0 < len → exec (.annealTranslate p base len) s
        = .next (s.modPart p fun q => { q with annTrans := q.annTrans ++ [(base.toNat, base.toNat + len)] }))
      ∧ (let q := s.part p
        let left : List (Nat × Nat) := if q.jrnV then [(q.jrnBase.toNat * 2 ^ 13, q.jrnBase.toNat * 2 ^ 13 + 2 ^ 17)] else []
        let u : State := { s with openMem := left ++ s.openMem }
        exec (.jrnBaseWrite p v) s = .next (if q.lqEn then s
          else u.modPart p fun q => { q with jrnBase := v.extractLsb' 20 28, jrnV := v.getLsbD 0 }))
      ∧ (∃ t, exec (.failureRecovery w) s = .next t ∧ t.mem = s.mem ∧ (∀ c, (t.core c).teams = [])
        ∧ (∀ p, (t.part p).journal = (s.part p).journal ∧ (t.part p).journalNodes = (s.part p).journalNodes)
        ∧ (∀ p gk g, (s.part p).grids.find? gk = some g → ∃ h, (t.part p).grids.find? gk = some h ∧ h.launch = g.launch
          ∧ h.placed = false ∧ h.saved = (g.saved || g.last.isSome) ∧ (h.saved = true → h.resumes = true)
          ∧ ∀ y, g.saved = false → g.last = some y → h.saveAddr = y.addr)
        ∧ (∀ p, ∀ n ∈ (s.part p).nodes, ∃ h ∈ (t.part p).nodes, h.1 = n.1 ∧ h.2.record = n.2.record
          ∧ h.2.launched = n.2.inSave ∧ h.2.finished = false ∧ h.2.again = !n.2.inSave)
        ∧ (∀ c n, w = .core c → s.pkg.siteOf c = some n → n ∈ t.pkg.defects)
        ∧ (∀ n, w = .link n → (t.pkg.ports.get n {}).up = false)
        ∧ ((∀ c, w ≠ .core c) → partKey w ∈ t.pkg.failed))
      ∧ (s.pkg.inReset.contains arbiterKind = false →
        ∃ t, exec (.powerArbiterStep parts flasks) s = .next t ∧ t.mem = s.mem
        ∧ t.pkg.pwrPower = BitVec.ofNat 16 watts.sum ∧ (t.pkg.capUnmet = true ↔ cap < floorWatts.sum)
        ∧ (∀ n, n < 12 → (t.pkg.effs.get n 0).toNat
          = (if cap < sum then (s.pkg.floors.get n 0).toNat * cap / sum else (s.pkg.floors.get n 0).toNat))
        ∧ (cap < sum → t.pkg.pwrBreach = true)
        ∧ (∀ p, p < 12 → (t.part p).events.length
          = (s.part p).events.length + if cap < sum ∧ s.pkg.breachSent = false then 1 else 0)
        ∧ (∀ n, n < 12 → t.pkg.shares.get n 0 = (t.pkg.effs.get n 0).toNat
          + (cap - ((List.range 12).map fun n => (t.pkg.effs.get n 0).toNat).sum) * demand.getD n 0 / (demand.take 12).sum)
        ∧ (slow → ∀ f, f < 12 → point t f = 0 ∧ (t.flask f).granted = 0)
        ∧ (¬ slow → ∀ f, f < 12 →
          (soft f → point t f = point s f - 1 ∧ (t.flask f).granted = Nat.min 7 (point s f - 1))
            ∧ (¬ soft f → point t f = point s f
              ∧ (t.flask f).granted = ((points[f]?).map fun n => Nat.min 7 n).getD (s.flask f).granted)))
      ∧ exec (.pwrStatW1c v) s = .next (s.modPkg fun k => { k with pwrBreach := k.pwrBreach && !v.getLsbD 1 })
      ∧ (∃ t, exec (.thermalSensorRead first rest) s = .next t ∧ t.mem = s.mem
        ∧ (∀ i x, i < 1152 → temps[i]? = some x → x ≤ t.pkg.thermTemp)
        ∧ (t.pkg.thermTemp ≠ 0 → temps[t.pkg.thermCore.toNat]? = some t.pkg.thermTemp)
        ∧ (∀ i x, i < t.pkg.thermCore.toNat → temps[i]? = some x → x < t.pkg.thermTemp)
        ∧ if s.pkg.thermTrip ≤ t.pkg.thermTemp then ∀ f, f < 12 → point t f = 0 else t.flasks = s.flasks)
      ∧ (fl < 12 → pt = (s.flask fl).granted →
        ∃ t, exec (.operatingPointChange fl pt) s = .next t ∧ point t fl = pt ∧ t.mem = s.mem
          ∧ (∀ f, f ≠ fl → point t f = point s f)
          ∧ (point s fl ≠ pt → (∀ x ∈ (t.die (2 * fl)).leases ++ (t.die (2 * fl + 1)).leases, x.core / 96 ≠ fl)
            ∧ ∀ c, c / 96 = fl → (t.core c).l1 = []))
      ∧ exec (.engStatW1c c v) s = .next (s.modCore c fun k =>
        { k with engNfinSticky := k.engNfinSticky && !v.getLsbD 3, engOvfSticky := k.engOvfSticky && !v.getLsbD 2,
                 engMqStop := k.engMqStop && !v.getLsbD 1, engBarStale := k.engBarStale && !v.getLsbD 0 })
      ∧ (∃ t, exec (.engNfinRead c) s = .next t ∧ t.pkg.hostData = bytes k.engNfin ∧ t.core c = { k with engNfin := 0 })
      ∧ (∃ t, exec (.engOvfcRead c) s = .next t ∧ t.pkg.hostData = bytes k.engOvfc ∧ t.core c = { k with engOvfc := 0 })

/-- R365, R366, R368, R370 to R378, R381, R382: the invocations of a slice. That the dirty bytes of every die are at their homes
when a message's handler begins is the model's choice (log 44). -/
def Obligations.LadleHandlers : Prop :=
  ∀ (s : State) (sl line : Nat) (v : DWord) (mc : BitVec 8) (mepc : BitVec 16),
    let k := s.slice sl
    let triggers := k.queue.filter fun j => j.kind != .message
    let messages := k.queue.filter fun j => j.kind == .message
    let queued (is : List Inv) (k : Slice) : Slice := { k with queue := triggers ++ is ++ messages }
    let inc (w : Word) : Word := if w = 0xffffffff then w else w + 1
    let answered (t : State) (i : Inv) (status : Nat) (value : DWord) : Prop :=
      if i.kind = .message then
        (t.core i.core).replies = (s.core i.core).replies ++
          [{ team := i.team, group := i.group, lane := i.lane, msg := i.msg, port := i.port, status := status, value := value }]
      else t.cores = s.cores
    let code (i : Inv) : Nat :=
      match i.kind with
      | .miss => 0
      | .fill => 1
      | .evict => 2
      | .message => 3
    let faultValue (i : Inv) (mc pc : Nat) : DWord :=
      BitVec.ofNat 64 (mc + 2 ^ 8 * i.tenant + 2 ^ 12 * i.handler.toNat + 2 ^ 20 * code i + 2 ^ 32 * pc)
    (∀ t, k.inv ≠ none → k.liveTrigger line = some t → k.absent sl line = true →
      let miss := trigInv t .miss line { cls := 3 }
      let fill := trigInv t .fill line { cls := 3 }
      let all : List Inv := if t.getLsbD 83 then [miss, fill] else [miss]
      let raised (is : List Inv) : State := s.modSlice sl fun k => { queued is k with busy := line :: k.busy, stall := 0 }
      let stalls (n : Nat) : State := s.modSlice sl fun k => { k with stall := n }
      (k.stalled = true → exec (.ladleMiss sl line) s = .refused .notEnabled ∧ exec (.ladleFill sl line) s = .refused .notEnabled)
        ∧ (k.stalled = false → t.getLsbD 82 = true → exec (.ladleMiss sl line) s
          = .next (if k.queue.length + all.length ≤ 64 then raised all else stalls all.length))
        ∧ (k.stalled = false → t.getLsbD 82 = false → t.getLsbD 83 = true → exec (.ladleFill sl line) s
          = .next (if k.queue.length < 64 then raised [fill] else stalls 1)))
      ∧ (∀ l, k.lines.find? line = some l → k.holds line = false → line ∉ k.busy → s.invalidating line = true →
        (k.inv ≠ none ∨ k.queue = [] → (k.liveTrigger line = none ∨ ∃ t, k.liveTrigger line = some t ∧ t.getLsbD 84 = false) →
            exec (.ladleEviction sl line) s = .next (s.modSlice sl fun k => { k with lines := k.lines.del line }))
        ∧ ∀ t, k.inv ≠ none → k.liveTrigger line = some t → t.getLsbD 84 = true → k.victims.length < 8 → k.queue.length < 64 →
          exec (.ladleEviction sl line) s = .next (s.modSlice sl fun k =>
            { queued [trigInv t .evict line l] k with lines := k.lines.del line, victims := line :: k.victims }))
      ∧ (∀ i rest, k.inv = none → k.queue = i :: rest → i.kind = .message →
        let T := k.tenants.get i.tenant {}
        let lo := 256 * T.rbase.toNat
        let size := 256 * T.rsize.toNat
        let entry := k.sram.readN (lo + 2 * i.handler.toNat) 2
        let runs : Prop := k.run = true ∧ T.en = true ∧ T.part.toNat = i.part ∧ entry ≠ 0
        let fits : Prop := entry % 2 = 0 ∧ 512 ≤ entry ∧ entry < size
        let popped : State := s.modSlice sl fun k => { k with queue := rest }
        (runs → fits → ∀ u n bad w, popped.settleDies 32 (popped.dies.map (·.1)) = some u →
          u.homeRead (128 * i.line) 128 32 i.cls .walker = some (n, bad, w) →
          let writes : Bool := quotaOf (w.slice sl).quota i.cls != 0
          let handle := i.core % 2 ^ 11 + 2 ^ 11 * (i.team % 64)
          ∃ t j, exec (.ladleMessage sl) s = .next t ∧ (t.slice sl).inv = some j ∧ (t.slice sl).queue = (w.slice sl).queue ∧ t.mem = w.mem
            ∧ j.kind = .message ∧ j.line = i.line ∧ j.handler = i.handler ∧ j.window = BitVec.ofNat 1024 n ∧ j.hasWindow = true
            ∧ j.writable = writes ∧ j.bad = bad ∧ j.cycles = 0 ∧ j.budget = (if T.budget = 0 then 0x800 else T.budget.toNat)
            ∧ j.lo = lo ∧ j.hi = lo + size ∧ j.owner = T.part.toNat ∧ j.pc = BitVec.ofNat 64 (lo + entry)
            ∧ j.posth = BitVec.ofNat 64 handle
            ∧ (List.range 32).map (fun n => j.xs.get n 0)
              = [0, 0, BitVec.ofNat 64 (lo + size), 0, 0, 0, 0, 0, 0, 0, 3, i.arg0, i.arg1, BitVec.ofNat 64 (128 * i.line),
                BitVec.ofNat 64 i.hop, i.handler.setWidth 64, BitVec.ofNat 64 handle, if writes then 3 else 1,
                0, 0, 0, 0, 0, 0, 0, 0, 0, 0, 0, 0, 0, 0]
            ∧ (t.slice sl).pmp.filter (fun q => q.1 ≥ 8)
              = [(8, { lo := lo, hi := lo + size, r := true, w := true, x := true }),
                (9, { lo := 0x20000000, hi := 0x20000080, r := true, w := writes }),
                (10, { lo := 0x10000000, hi := 0x10000040, r := true, w := true }),
                (11, { lo := 2 ^ 63, hi := 2 ^ 63 + 2 ^ 48, r := decide (T.part.toNat < 12), w := decide (T.part.toNat < 12) })]
            ∧ (t.slice sl).counters.get (4 * i.tenant) 0 = inc ((w.slice sl).counters.get (4 * i.tenant) 0))
          ∧ (¬ runs → ∃ t, exec (.ladleMessage sl) s = .next t ∧ answered t i 2 0 ∧ t.mem = s.mem
            ∧ t.slice sl = { k with queue := rest })
          ∧ (runs → ¬ fits → ∃ t, exec (.ladleMessage sl) s = .next t ∧ answered t i 4 0 ∧ t.mem = s.mem
            ∧ (t.slice sl).queue = rest ∧ (t.slice sl).inv = none ∧ (t.slice sl).fault = faultValue i 1 entry
            ∧ (t.slice sl).counters.get (4 * i.tenant) 0 = inc (k.counters.get (4 * i.tenant) 0)
            ∧ (t.slice sl).counters.get (4 * i.tenant + 2) 0 = inc (k.counters.get (4 * i.tenant + 2) 0)))
      ∧ ∀ i, k.inv = some i →
        (∃ t, exec (.done sl v) s = .next t ∧ (t.slice sl).inv = none ∧ answered t i 0 v
          ∧ t.mem = (if i.hasWindow ∧ (i.kind = .message → i.writable) then
              (s.settleLine i.line).mem.writeN (128 * i.line) 128 i.window.toNat
            else s.mem)
          ∧ (s.openLine i.line = false → s.settleLine i.line = s)
          ∧ (i.kind = .evict → (t.slice sl).victims = k.victims.erase i.line)
          ∧ (i.kind = .miss ∨ i.kind = .fill → (∀ j ∈ k.queue, j.line = i.line → j.kind = .evict ∨ j.kind = .message) →
            (t.slice sl).busy = k.busy.erase i.line ∧ (t.slice sl).served.find? i.line ≠ none
              ∧ (i.kind = .fill → i.hasWindow = true → homeSlice (128 * i.line) = sl →
                let changed := s.mem.readN (128 * i.line) 128 != i.window.toNat
                (k.lines.find? i.line = none → (t.slice sl).served.get i.line false = changed)
                ∧ ∀ l, k.lines.find? i.line = some l → (t.slice sl).lines.find? i.line
                  = some { l with dirty := l.dirty || changed || k.served.get i.line false, used := k.uses })))
        ∧ (i.budget ≤ i.cycles → ∃ t, exec (.ladleOverrun sl) s = .next t ∧ (t.slice sl).inv = none ∧ t.mem = s.mem
          ∧ answered t i 1 0 ∧ (t.slice sl).counters.get (4 * i.tenant + 1) 0 = inc (k.counters.get (4 * i.tenant + 1) 0)
          ∧ ((k.tenants.get i.tenant {}).ntfy = false → t.parts = s.parts)
          ∧ ((k.tenants.get i.tenant {}).ntfy = true → i.owner < 12 →
            ∃ r, (t.part i.owner).events = (s.part i.owner).events ++ [r] ∧ r.cause = .ladleOverrun ∧ r.addr = 128 * i.line
              ∧ r.detail = BitVec.ofNat 32 (2 ^ 8 * i.tenant + 2 ^ 12 * i.handler.toNat + 2 ^ 20 * code i + 2 ^ 22 * sl)))
        ∧ ∃ t, exec (.ladleFault sl mc mepc) s = .next t ∧ (t.slice sl).inv = none ∧ t.mem = s.mem ∧ answered t i 4 0
          ∧ (t.slice sl).fault = faultValue i mc.toNat mepc.toNat
          ∧ (t.slice sl).counters.get (4 * i.tenant + 2) 0 = inc (k.counters.get (4 * i.tenant + 2) 0)
          ∧ (i.owner < 12 → ∃ r, (t.part i.owner).events = (s.part i.owner).events ++ [r] ∧ r.cause = .ladleFault
            ∧ r.addr = 128 * i.line
            ∧ r.detail = BitVec.ofNat 32
              (mc.toNat + 2 ^ 8 * i.tenant + 2 ^ 12 * i.handler.toNat + 2 ^ 20 * code i + 2 ^ 22 * sl))

/-- R363 to R366, R374, R375, R378 to R381: the actions of a handler, and the tenant's registers. The causes of misaligned accesses
and their order before the access fault are log 45, NOHANDLER for a line that is not in HBM log 20. -/
def Obligations.LadleControl : Prop :=
  (∀ (s : State) (sl n c : Nat) (v : DWord),
    let k := s.slice sl
    let old := k.tenants.get n {}
    let lo := (v.extractLsb' 0 8).toNat
    let size := (v.extractLsb' 16 8).toNat
    let new : Tenant :=
      { en := v.getLsbD 63, ntfy := v.getLsbD 62, part := v.extractLsb' 56 4, budget := v.extractLsb' 32 16,
        rsize := v.extractLsb' 16 8, rbase := v.extractLsb' 0 8 }
    let allowed : Prop := 32 ≤ lo ∧ 2 ≤ size ∧ lo + size ≤ 256
      ∧ ∀ p ∈ k.tenants, p.1 ≠ n → p.2.en = true →
        lo + size ≤ p.2.rbase.toNat ∨ p.2.rbase.toNat + p.2.rsize.toNat ≤ lo
    (∃ t, exec (.ladleCounterRead sl n c) s = .next t ∧ (t.slice sl).counters.get (4 * n + c) 0 = 0 ∧ t.mem = s.mem
        ∧ t.pkg.hostData = (List.range 4).map fun i => BitVec.ofNat 8 ((k.counters.get (4 * n + c) 0).toNat / 256 ^ i))
      ∧ (n < 16 → old.en = true → exec (.ldTenWrite sl n v) s = .next (s.modSlice sl fun k =>
        { k with tenants := k.tenants.set n { old with en := new.en, ntfy := new.ntfy, budget := new.budget } }))
      ∧ (n < 16 → old.en = false → (new.en = false ∨ allowed) →
        exec (.ldTenWrite sl n v) s = .next (s.modSlice sl fun k => { k with tenants := k.tenants.set n new }))
      ∧ (n < 16 → old.en = false → new.en = true → ¬ allowed → exec (.ldTenWrite sl n v) s = .next s))
  ∧ ∀ (s : State) (sl : Nat) (v : DWord) (i : Inv), (s.slice sl).inv = some i →
    let run (j : Inv) : State := s.modSlice sl fun k => { k with inv := some j }
    let written : Bool := i.hasWindow && (i.kind != .message || i.writable)
    let committed (u : State) : Memory :=
      if written then (u.settleLine i.line).mem.writeN (128 * i.line) 128 i.window.toNat else u.mem
    let walk (va : DWord) (k : LadleAccess) : Walk := s.walk i.owner 32 va.toNat (Need.of (if k = .store then .write else .read))
    let faults (i : Instr) (u : State) (mc : Nat) : Prop :=
      ∃ t, exec i s = .next t ∧ (t.slice sl).inv = none ∧ t.mem = u.mem ∧ (t.slice sl).fault.toNat % 256 = mc
    let answer (status : Nat) : Reply :=
      { team := i.team, group := i.group, lane := i.lane, msg := i.msg, port := i.port, status := status, value := 0 }
    let access (a : DWord) (k : LadleAccess) (n : Nat) : Instr := .globalApertureAccess sl a k n v
    let fault (a : DWord) (k : LadleAccess) (n mc : Nat) : Prop := faults (access a k n) s mc
    let got (u : State) (m : Nat) : State :=
      u.modSlice sl fun k => { k with inv := some { i with data := BitVec.ofNat 64 m } }
    let sized (n : Nat) : Prop := n = 1 ∨ n = 2 ∨ n = 4 ∨ n = 8
    let pmp := (s.slice sl).pmp
    let guard (a n : Nat) : Option (Nat × Pmp) := List.find? (fun q => q.1 < 8 ∧ q.2.lo < a + n ∧ a < q.2.hi) pmp
    let opens (a n : Nat) (w : PmpNeed) : Prop :=
      (∃ q ∈ pmp, 8 ≤ q.1 ∧ q.2.grants a n w = true) ∧ ∀ q, guard a n = some q → q.2.grants a n w = true
    let closed (a n : Nat) (w : PmpNeed) : Prop :=
      (∀ q ∈ pmp, 8 ≤ q.1 → q.2.grants a n w = false)
        ∨ ∃ q, guard a n = some q ∧ q.2.grants a n w = false
    let low (a : DWord) : Prop := a.toNat < 0x10000
    let win (a : DWord) (n : Nat) : Prop := 0x20000000 ≤ a.toNat ∧ a.toNat + n ≤ 0x20000080
    exec (.fwda0 sl v) s = .next (run { i with fwda0 := v })
      ∧ exec (.fwda1 sl v) s = .next (run { i with fwda1 := v })
      ∧ exec (.posth sl v) s = .next (run { i with posth := v })
      ∧ (i.kind = .message → i.hop = 16 → ∃ t, exec (.fwd sl v) s = .next t ∧ (t.slice sl).inv = none ∧ t.mem = committed s
        ∧ (t.core i.core).replies = (s.core i.core).replies ++ [answer 3])
      ∧ (i.kind = .message → i.hop < 16 → i.owner < 12 → i.fwda0.toNat < 2 ^ 48 →
        (∀ y u, walk i.fwda0 .load = .ok y u →
          let pa := y.pa i.fwda0.toNat
          (isHbm pa = true → ∃ t j, exec (.fwd sl v) s = .next t ∧ (t.slice sl).inv = none ∧ t.mem = committed u
            ∧ t.cores = u.cores ∧ (t.slice (homeSlice pa)).queue = (u.slice (homeSlice pa)).queue ++ [j]
            ∧ j.kind = .message ∧ j.line = lineOf pa ∧ j.handler = v.setWidth 8 ∧ j.arg0 = i.fwda0
            ∧ j.arg1 = i.fwda1 ∧ j.hop = i.hop + 1 ∧ j.tenant = i.tenant ∧ j.core = i.core ∧ j.team = i.team
            ∧ j.group = i.group ∧ j.lane = i.lane ∧ j.msg = i.msg ∧ j.port = i.port)
          ∧ (isHbm pa = false → ∃ t, exec (.fwd sl v) s = .next t ∧ (t.slice sl).inv = none ∧ t.mem = committed u
            ∧ (t.core i.core).replies = (u.core i.core).replies ++ [answer 2]))
        ∧ ∀ c u, walk i.fwda0 .load = .fault c u → faults (.fwd sl v) u 7)
      ∧ (i.kind ≠ .message → faults (.fwd sl v) s 7)
      ∧ (let c := i.posth.toNat % 2 ^ 11
        let m := i.posth.toNat / 2 ^ 11 % 64
        let off := i.posth.toNat / 2 ^ 32
        let q := s.part (s.team c m).part
        let lands : Prop := i.posth.toNat / 2 ^ 17 % 2 ^ 15 = 0 ∧ s.hasTeam c m = true ∧ (s.team c m).over = false
          ∧ q.ldTenV = true ∧ q.ldTen.toNat = i.tenant ∧ off % 8 = 0 ∧ off + 8 ≤ (s.team c m).scratchSize
        (lands → exec (.post sl v) s
            = .next (s.scratchWrite c m off 8 (futPost (s.scratchRead c m off 8) (v.setWidth 32))))
          ∧ (¬ lands → ∃ t, exec (.post sl v) s = .next t ∧ t.cores = s.cores ∧ t.mem = s.mem
            ∧ (t.slice sl).counters.get (4 * i.tenant + 3) 0
              = (if (s.slice sl).counters.get (4 * i.tenant + 3) 0 = 0xffffffff then 0xffffffff
                else (s.slice sl).counters.get (4 * i.tenant + 3) 0 + 1)))
      ∧ (i.owner < 12 → v.toNat < 2 ^ 48 →
        (∀ y u, walk v .load = .ok y u → exec (.prefLadle sl v) s
          = .next (if u.homeFree (y.pa v.toNat) (.handler i.line) then (u.touch (y.pa v.toNat) y.cls false).getD u else u))
        ∧ ∀ c u, walk v .load = .fault c u → exec (.prefLadle sl v) s = .next u)
      ∧ (opens 0x10000000 0x40 .write →
        exec (access 0x10000000 .store 8) s = exec (.done sl v) s ∧ exec (access 0x10000008 .store 8) s = exec (.fwda0 sl v) s
          ∧ exec (access 0x10000010 .store 8) s = exec (.fwda1 sl v) s
          ∧ exec (access 0x10000018 .store 8) s = exec (.fwd sl v) s
          ∧ exec (access 0x10000020 .store 8) s = exec (.posth sl v) s
          ∧ exec (access 0x10000028 .store 8) s = exec (.post sl v) s
          ∧ exec (access 0x10000030 .store 8) s = exec (.prefLadle sl v) s)
      ∧ (∀ n, sized n → fault 0x10000038 .store n 7)
      ∧ ∀ (a : DWord) (n : Nat), sized n →
        (low a → opens a.toNat n .read → exec (access a .load n) s = .next (got s ((s.slice sl).sram.readN a.toNat n)))
          ∧ (low a → opens a.toNat n .write → ∃ t, exec (access a .store n) s = .next t ∧ t.mem = s.mem
            ∧ (t.slice sl).sram = (s.slice sl).sram.writeN a.toNat n (v.toNat % 2 ^ (8 * n)) ∧ t.cores = s.cores)
          ∧ (low a → opens a.toNat n .readWrite → 4 ≤ n → a.toNat % n = 0 → ∃ t, exec (access a .amoAdd n) s = .next t
            ∧ t.mem = s.mem ∧ t.cores = s.cores
            ∧ (t.slice sl).sram
              = (s.slice sl).sram.writeN a.toNat n (((s.slice sl).sram.readN a.toNat n + v.toNat) % 2 ^ (8 * n))
            ∧ ∃ j, (t.slice sl).inv = some j ∧ j.data = BitVec.ofNat 64 ((s.slice sl).sram.readN a.toNat n))
          ∧ (win a n → i.bad = false →
            (opens a.toNat n .read → exec (access a .load n) s
              = .next (got s (i.window.toNat / 2 ^ (8 * (a.toNat - 0x20000000)) % 2 ^ (8 * n))))
            ∧ (opens a.toNat n .write → ∃ t j, exec (access a .store n) s = .next t ∧ t.mem = s.mem
              ∧ (t.slice sl).inv = some j
              ∧ ∀ b, b < 128 → j.window.toNat / 256 ^ b % 256
                = (if 0x20000000 + b < a.toNat ∨ a.toNat + n ≤ 0x20000000 + b then i.window.toNat / 256 ^ b % 256
                  else v.toNat / 256 ^ (0x20000000 + b - a.toNat) % 256)))
          ∧ (a = 0x10000038 → opens a.toNat n .read → exec (access a .load n) s = .next (got s (i.budget - i.cycles)))
          ∧ (win a n → i.bad = true → fault a .load n 5 ∧ fault a .store n 7)
          ∧ (a.toNat < 2 ^ 63 ∨ a.toNat % n = 0 →
            (closed a.toNat n .read → fault a .load n 5) ∧ (closed a.toNat n .write → fault a .store n 7))
          ∧ (2 ^ 63 ≤ a.toNat → (a.toNat - 2 ^ 63) % n ≠ 0 → a.toNat - 2 ^ 63 < 2 ^ 48 → fault a .load n 4 ∧ fault a .store n 6)
          ∧ (2 ^ 63 ≤ a.toNat → (a.toNat - 2 ^ 63) % n = 0 → 4 ≤ n → fault a .lr n 5 ∧ fault a .sc n 7)
          ∧ ∀ (k : LadleAccess) (y : Xlat) (w : State), k = .load ∨ k = .store → 2 ^ 63 ≤ a.toNat →
            (a.toNat - 2 ^ 63) % n = 0 → a.toNat - 2 ^ 63 < 2 ^ 48 → i.owner < 12 →
            opens a.toNat n (if k = .store then .write else .read) →
            let mc := if k = .store then 7 else 5
            let pa := y.pa (a.toNat - 2 ^ 63)
            let held : Prop := i.hasWindow = true ∧ lineOf pa = i.line ∧ (i.kind ≠ .message ∨ i.writable = true)
            (∀ c, walk (a - 2 ^ 63) k = .fault c w → faults (access a k n) w mc)
            ∧ (walk (a - 2 ^ 63) k = .ok y w →
              (held → i.bad = true → faults (access a k n) w mc)
              ∧ (held → i.bad = false → k = .load → exec (access a k n) s
                = .next (got w (i.window.toNat / 2 ^ (8 * (pa % 128)) % 2 ^ (8 * n))))
              ∧ (¬ held → isRemote pa = true → w.noPath pa = false → k = .load →
                exec (access a k n) s = .next (got (w.openBytes n).2 (w.openBytes n).1))
              ∧ ∀ m bad u, ¬ held → isRemote pa = false → w.homeRead pa n 32 y.cls (.handler i.line) = some (m, bad, u) →
                (bad = true → faults (access a k n) u mc)
                ∧ (k = .load → bad = false → exec (access a k n) s = .next (got u m))
                ∧ (k = .store → bad = false → ∀ z,
                  (got u m).homeWrite pa n (v.toNat % 2 ^ (8 * n)) y.cls (.handler i.line) = some z →
                  exec (access a k n) s = .next z ∧ z.mem = (u.settleBytes pa n).mem.writeN pa n (v.toNat % 2 ^ (8 * n))))

/-- R383, R409, R410: verification, keys and attestation. The numbers of the kinds, that the command of slot 4 certifies the
identity key, and that a revocation may name any slot are the model's (log 43), the codes of the modes are RISC-V's (log 45). -/
def Obligations.FirmwareAndKeys : Prop :=
  ∀ (s : State) (sl slot signer kind hdrKind version : Nat) (fw : MonitorImage)
    (hash key nonce : BitVec 256) (ok : Bool),
    let k := s.pkg
    let accepted (k : Pkg) (n : Nat) : Prop := n < 4 ∧ (k.keys.get n {}).hash ≠ none ∧ (k.keys.get n {}).revoked = false
    let boots : Prop := fw.sigOk = true ∧ accepted k slot ∧ fw.hdrKind = monitorKind
      ∧ k.secVersions.get monitorKind 0 ≤ fw.version ∧ fw.image.length ≤ 0x2000
    let loads : Prop := ok = true ∧ accepted k slot ∧ hdrKind = kind ∧ k.secVersions.get kind 0 ≤ version
    let enrols : Prop := ok = true ∧ accepted k signer ∧ 1 ≤ slot ∧ slot < 4 ∧ (k.keys.get slot {}).hash = none
    let revokes : Prop := ok = true ∧ accepted k signer ∧ accepted k slot ∧ ∃ n, n ≠ slot ∧ accepted k n
    let others : List Nat := k.inReset.filter fun n => n != kind
    let certifies : Prop := ok = true ∧ accepted k signer ∧ signer ≠ 0
    ((s.slice sl).run = false → k.inReset.contains managerKind = false →
        ∃ t, exec (.monitorBoot sl slot fw) s = .next t ∧ t.mem = s.mem
          ∧ t.pkg.images.get (monitorImage sl) 0 = fw.hash ∧ ((t.slice sl).run = true ↔ boots)
          ∧ ((s.slice sl).sram.wf = true → ∀ i, i < fw.image.length → i < 0x2000 →
            (t.slice sl).sram.read i = fw.image.getD i 0)
          ∧ (¬ boots → (t.slice sl).pmp = (s.slice sl).pmp)
          ∧ (boots → ∀ (n addr mode : Nat) (b : BitVec 3), n < 8 → fw.rules[n]? = some (addr, mode, b) →
            let at_ (lo hi : Nat) : Prop := Table.find? (t.slice sl).pmp n
              = some { lo := lo, hi := hi, r := b.getLsbD 0, w := b.getLsbD 1, x := b.getLsbD 2, lock := true }
            let prev := if n = 0 then 0 else ((fw.rules[n - 1]?).map (·.1)).getD 0
            (mode = 0 → Table.find? (t.slice sl).pmp n = none)
              ∧ (mode = 1 → at_ (4 * prev) (4 * addr)) ∧ (mode = 2 → at_ (4 * addr) (4 * addr + 4))
              ∧ ∀ k, mode = 3 → k < 54 → addr % 2 ^ (k + 1) = 2 ^ k - 1 →
                let size := 2 ^ (k + 3)
                at_ (4 * addr / size * size) (4 * addr / size * size + size)))
      ∧ (loads → ∃ t, exec (.firmwareVerify kind hdrKind slot version hash ok) s = .next t
        ∧ Same t (s.modPkg fun k => { k with images := k.images.set kind hash, inReset := others }))
      ∧ (¬ loads → ∃ t, exec (.firmwareVerify kind hdrKind slot version hash ok) s = .next t
        ∧ t.pkg = { k with inReset := kind :: others } ∧ t.mem = s.mem ∧ t.cores = s.cores ∧ t.parts = s.parts
        ∧ (kind ≠ monitorKind → t.slices = s.slices) ∧ (kind = monitorKind → ∀ n, (t.slice n).run = false))
      ∧ exec (.keyEnrol 4 signer key ok) s = .next (if certifies then s.modPkg fun k =>
        { k with certs := k.certs.filter (fun n => n != signer) ++ [signer] } else s)
      ∧ (enrols → exec (.keyEnrol slot signer key ok) s
        = .next (s.modPkg fun k => { k with keys := k.keys.set slot { hash := some key } }))
      ∧ (slot ≠ 4 → ¬ enrols → exec (.keyEnrol slot signer key ok) s = .next s)
      ∧ (revokes → ∃ t, exec (.keyRevoke slot signer ok) s = .next t ∧ (t.pkg.keys.get slot {}).revoked = true
        ∧ (∃ n, accepted t.pkg n) ∧ t.mem = s.mem ∧ ∀ n, n ≠ slot → t.pkg.keys.get n {} = k.keys.get n {})
      ∧ (¬ revokes → exec (.keyRevoke slot signer ok) s = .next s)
      ∧ ∃ t, exec (.spdmMeasurement nonce) s = .next t ∧ t.pkg.idCounter = k.idCounter + 1 ∧ t.mem = s.mem
        ∧ t.pkg.attested.head? = some nonce ∧ (∀ p ∈ k.images, p.2 ∈ t.pkg.attested)
        ∧ (∀ n h, n < 4 → (k.keys.get n {}).hash = some h → h ∈ t.pkg.attested)
        ∧ k.owner.setWidth 256 ∈ t.pkg.attested
        ∧ ∃ m ∈ t.pkg.attested, ∀ n, n < 4 → m.getLsbD n = (k.keys.get n {}).revoked

/-- R3, R8, R275, R370, R399, R400, R403, R404: the host, the links and reset. How the functions are numbered in the offset is
the model's (log 22); that a flit changes only its port's sequence state and that a host access of several lines is one step is log
38, that a failed link stays down over a reset log 47. -/
def Obligations.HostAccess : Prop :=
  ∀ (s u : State) (port pa n m line off width : Nat) (bad w : Bool) (bs : List Byte) (hdr : BitVec 128) (v : DWord)
    (defects : List Nat),
    let q := s.pkg.ports.get port {}
    let r := s.modPkg fun k => { k with unsupported := false }
    let put (q : Sprue) : State := s.modPkg fun k => { k with ports := k.ports.set port q }
    let holds (p : Nat) : Prop := ∃ f, f < 12 ∧ s.pkg.owner.toNat / 16 ^ f % 16 = p
    let func := off / 2 ^ 27
    let served : Prop := (width = 4 ∨ width = 8) ∧ off % width = 0 ∧ (func = 0 ∨ (func ≤ 12 ∧ holds (func - 1)))
    let req (bs : Option (List Byte)) (n : Nat) : HostReq := { pa := pa, size := n, bytes := bs }
    let first : Prop := s.pkg.hostWaits = []
    let bytes (x : Nat) (n : Nat) : List Byte := (List.range n).map fun i => BitVec.ofNat 8 (x / 256 ^ i)
    let k := s.core n
    let write (off width : Nat) : Host.Outcome State Fault Refusal := exec (.registerWrite off width v) s
    let clean : Prop := ∀ d l, (s.die d).lines.find? line = some l → l.dirty = 0
    (port < 32 → q.up = true →
        (w = true → hdr.extractLsb' 32 32 = q.expect →
          exec (.sprueFlitReceive port hdr bs w) s = .next (put { q with expect := q.expect + 1, retry := false }))
        ∧ (w = false ∨ hdr.extractLsb' 32 32 ≠ q.expect →
          exec (.sprueFlitReceive port hdr bs w) s = .next (put { q with retry := true })))
      ∧ (port < 32 → exec (.spruePortFail port) s
        = .next ((put { q with up := false }).modPkg fun k => { k with failed := k.failed ++ [(4, port)] }))
      ∧ (first → pa + n ≤ 2 ^ 40 → 0 < n → pa % 128 + n ≤ 128 → s.homeRead pa n 32 3 = some (m, bad, u) →
        ∃ t, exec (.hostMemRead pa n) s = .next t ∧ t.mem = u.mem ∧ t.cores = u.cores
          ∧ t.pkg.hostData = bytes m n)
      ∧ (first → pa + n ≤ 2 ^ 40 → s.readArea pa n = some (bs, bad, u) →
        ∃ t, exec (.hostMemRead pa n) s = .next t ∧ t.mem = u.mem ∧ t.pkg.hostData = bs)
      ∧ (first → pa + bs.length ≤ 2 ^ 40 → s.writeArea pa bs = some u → exec (.hostMemWrite pa bs) s = .next u
        ∧ (s.mem.wf = true → (∀ i, i < bs.length → u.mem.read (pa + i) = bs.getD i 0)
          ∧ ∀ a, a < pa ∨ pa + bs.length ≤ a → u.mem.read a = s.mem.read a))
      ∧ (first → isHost pa = true → pa + n ≤ 2 ^ 47 → s.snoopAll pa n = some u →
        ∃ t, exec (.hostMemRead pa n) s = .next t ∧ t.mem = u.mem ∧ t.pkg.hostData = u.mem.slice pa n)
      ∧ (first → isHost pa = true → pa + bs.length ≤ 2 ^ 47 → s.snoopAll pa bs.length = some u →
        exec (.hostMemWrite pa bs) s = .next { u with mem := u.mem.writeBytes pa bs })
      ∧ (pa + n ≤ 2 ^ 40 → ¬ first → exec (.hostMemRead pa n) s
        = .next (s.modPkg fun k => { k with hostWaits := k.hostWaits ++ [req none n] }))
      ∧ (pa + bs.length ≤ 2 ^ 40 → ¬ first → exec (.hostMemWrite pa bs) s
        = .next (s.modPkg fun k => { k with hostWaits := k.hostWaits ++ [req (some bs) bs.length] }))
      ∧ (pa + n ≤ 2 ^ 40 → first → s.readArea pa n = none →
        ∃ t, exec (.hostMemRead pa n) s = .next t ∧ t.mem = s.mem ∧ t.pkg.hostWaits = [req none n])
      ∧ (pa + bs.length ≤ 2 ^ 40 → first → s.writeArea pa bs = none →
        ∃ t, exec (.hostMemWrite pa bs) s = .next t ∧ t.mem = s.mem ∧ t.pkg.hostWaits = [req (some bs) bs.length])
      ∧ (isHost (128 * line) = true → (∀ d ∈ s.dies, ∀ x ∈ d.2.leases, x.line = line → x.expiry ≤ s.now) →
        (∀ c ∈ s.cores, c.2.owes line = false) →
        ∃ t, exec (.hostSnoop line) s = .next t
          ∧ (∀ d, (t.die d).lines.find? line = none ∧ ∀ x ∈ (t.die d).leases, x.line ≠ line)
          ∧ (clean → t.mem = s.mem)
          ∧ ∀ d l, (s.die d).lines.find? line = some l → (∀ e k, e ≠ d → (s.die e).lines.find? line = some k → k.dirty = 0) →
            l.dirty ≠ 0 → s.openLine line = false → t.mem = mergeBytes s.mem line l.data l.dirty)
      ∧ (¬ served → exec (.mmioUnsupported off width w) s
        = .next (s.modPkg fun k => { k with unsupported := true, hostData := [] }))
      ∧ (served → func = 0 → s.settleCounter (off / 8 * 8) = s →
        ∃ t, exec (.mmioUnsupported off width false) s = .next t ∧ t.mem = s.mem ∧ t.pkg.unsupported = false
          ∧ t.pkg.hostData = bytes (s.window (off / 8 * 8) / 256 ^ (off % 8)) width)
      ∧ (n < 12 → holds n → (width = 4 ∨ width = 8) → ∀ o, o < 0x10000 → o % width = 0 →
        exec (.mmioUnsupported (2 ^ 27 * (n + 1) + o) width false) s
            = exec (.mmioUnsupported (0x100000 + 0x10000 * n + o) width false) s
          ∧ exec (.mmioUnsupported (2 ^ 27 * (n + 1) + 0x10000 + o) width false) s
            = exec (.mmioUnsupported (0x200000 + 0x10000 * n + o) width false) s
          ∧ write (2 ^ 27 * (n + 1) + o) width = write (0x100000 + 0x10000 * n + o) width
          ∧ write (2 ^ 27 * (n + 1) + 0x10000 + o) width = write (0x200000 + 0x10000 * n + o) width)
      ∧ (n < 1152 → ∃ t, exec (.mmioUnsupported (0x3000008 + 0x1000 * n) 8 false) s = .next t
        ∧ t.core n = { k with engNfin := 0, engOvfc := 0 } ∧ t.pkg.hostData = bytes k.engNfin.toNat 4 ++ bytes k.engOvfc.toNat 4)
      ∧ (∃ t, write 0x18 8 = .next t ∧ t.mem = s.mem ∧ t.pkg.thermTrip = v.extractLsb' 16 12
        ∧ t.pkg.thermSoft = v.extractLsb' 0 12
        ∧ if v.extractLsb' 16 12 ≤ s.pkg.thermTemp then ∀ f, f < 12 → (t.flask f).point = 0 else t.flasks = s.flasks)
      ∧ write 0x20 8 = .next (r.modPkg fun k =>
        { k with pwrCap := v.extractLsb' 0 16, breachSent := k.breachSent && k.pwrCap == v.extractLsb' 0 16 })
      ∧ write 0 8 = exec (.partCfgWrite v) r
      ∧ (n < 12 →
        write (0x30 + 8 * n) 8 = .next (r.modPkg fun k =>
            { k with floors := k.floors.set n (v.extractLsb' 0 16),
                     breachSent := k.breachSent && k.floors.get n 0 == v.extractLsb' 0 16 })
          ∧ write (0x100000 + 0x10000 * n) 8 = .next (r.modPart n fun q => { q with ptTop := v.extractLsb' 16 32 })
          ∧ write (0x100008 + 0x10000 * n) 8 = exec (.tlbInvWrite n v) r
          ∧ write (0x200008 + 0x10000 * n) 8 = exec (.lqCtlWrite n (v.setWidth 32)) r
          ∧ write (0x200010 + 0x10000 * n) 8 = exec (.lqTailWrite n (v.setWidth 32)) r
          ∧ write (0x200048 + 0x10000 * n) 8 = exec (.tqHeadWrite n (v.setWidth 32)) r
          ∧ write (0x2000b0 + 0x10000 * n) 8 = exec (.jrnBaseWrite n v) r
          ∧ write (0x300000 + 0x10000 * n) 8 = .next (r.modFlask n fun q =>
            { q with gap := v.extractLsb' 8 16, step := v.extractLsb' 0 8 }))
      ∧ (n < 24 → write (0x400000 + 0x10000 * n) 8 = .next (r.modDie n fun k =>
        { k with leaseAge := v.extractLsb' 16 12, leaseLen := v.extractLsb' 0 16 }))
      ∧ (n < 1152 →
        write (0x1000008 + 0x1000 * n) 8 = .next (r.modCore n fun k => { k with retireTh := v.extractLsb' 0 16 })
          ∧ write (0x2000000 + 0x1000 * n) 8 = .next (r.modCore n fun k => { k with qdAge := v.extractLsb' 0 16 })
          ∧ write (0x3000000 + 0x1000 * n) 8 = exec (.engStatW1c n v) r)
      ∧ (n < 384 → m < 16 → write (0x4000100 + 0x20000 * n + 8 * m) 8 = exec (.ldTenWrite n m v) r)
      ∧ (func = 0 → 0x10000 ≤ off → off + width ≤ 0x100000 → served → write off width = .next r)
      ∧ ∃ t, exec (.packageReset defects) s = .next t
        ∧ ((∀ d ∈ s.dies, ∀ l ∈ d.2.lines, l.2.dirty = 0) → t.mem = s.mem) ∧ t.cores = State.reset.cores
        ∧ t.dies = State.reset.dies ∧ t.slices = State.reset.slices ∧ t.flasks = State.reset.flasks ∧ t.now = 0
        ∧ t.pkg = { State.reset.pkg with
            keys := s.pkg.keys, secVersions := s.pkg.secVersions, idCounter := s.pkg.idCounter, certs := s.pkg.certs,
            defects := s.pkg.defects ++ defects.filter fun d => d < 24 * 56 && !s.pkg.defects.contains d,
            failed := s.pkg.failed, ports := t.pkg.ports }
        ∧ (∀ n, (t.pkg.ports.get n {}).up = !s.pkg.failed.contains (4, n))
        ∧ (∀ p, ∀ g ∈ (t.part p).grids, g.2.placed = false)
        ∧ ∀ p, (t.part p).journal = (s.part p).journal ∧ (t.part p).journalNodes = (s.part p).journalNodes
          ∧ (t.part p).ptTop = 0 ∧ (t.part p).lqEn = false
end

