-- ==== Sys2Proof/Laws/Table.lean ====
section
/-!
SUPPORT. The laws of tables: reading after writing, at the same key and at another.
-/
namespace Sys2Proof.Table
variable {α : Type}

@[simp] theorem find_set_same (t : Table α) (k : Nat) (a : α) : (Table.set t k a).find? k = some a := by
  induction t with
  | nil => simp [set, find?]
  | cons p r ih =>
    obtain ⟨j, b⟩ := p
    simp only [set]
    split
    · simp [find?]
    · split
      · simp [find?]
      · rename_i h _
        have h' : (j == k) = false := by simp at h ⊢; omega
        simp [find?, h', ih]

@[simp] theorem get_set_same (t : Table α) (k : Nat) (a d : α) : (Table.set t k a).get k d = a := by
  simp [get]

theorem find_set_other (t : Table α) {j k : Nat} (a : α) (h : j ≠ k) : (Table.set t k a).find? j = t.find? j := by
  induction t with
  | nil => simp [set, find?, Ne.symm h]
  | cons p r ih =>
    obtain ⟨i, b⟩ := p
    simp only [set]
    split
    · rename_i e
      simp at e
      subst e
      simp [find?, Ne.symm h]
    · split
      · simp [find?, Ne.symm h]
      · simp only [find?, ih]

theorem get_set_other (t : Table α) {j k : Nat} (a d : α) (h : j ≠ k) : (Table.set t k a).get j d = t.get j d := by
  simp [get, find_set_other t a h]

@[simp] theorem set_set (t : Table α) (k : Nat) (a b : α) : Table.set (Table.set t k a) k b = Table.set t k b := by
  induction t with
  | nil => simp [set]
  | cons p r ih =>
    obtain ⟨j, c⟩ := p
    simp only [set]
    split
    · simp [set]
    · split
      · simp [set]
      · rename_i h g
        simp [set, h, g, ih]

/-- Reading one key of a table after writing another or the same. -/
theorem get_set (t : Table α) (j k : Nat) (a d : α) :
    (Table.set t k a).get j d = if j = k then a else t.get j d := by
  by_cases h : j = k
  · subst h; simp
  · simp [h, get_set_other t a d h]

end Sys2Proof.Table
end

