-- ==== Sys2Proof/Laws/State.lean ====
section
/-!
SUPPORT. The laws of the updates of State: every other part stays, and the part updated reads as written.
-/
namespace Sys2Proof.Machine

/-! `setCore` -/

@[simp] theorem State.setCore_mem (s : State) (c : Nat) (k : Core) : (s.setCore c k).mem = s.mem := rfl
@[simp] theorem State.setCore_poison (s : State) (c : Nat) (k : Core) : (s.setCore c k).poison = s.poison := rfl
@[simp] theorem State.setCore_openMem (s : State) (c : Nat) (k : Core) : (s.setCore c k).openMem = s.openMem := rfl
@[simp] theorem State.setCore_dies (s : State) (c : Nat) (k : Core) : (s.setCore c k).dies = s.dies := rfl
@[simp] theorem State.setCore_slices (s : State) (c : Nat) (k : Core) : (s.setCore c k).slices = s.slices := rfl
@[simp] theorem State.setCore_parts (s : State) (c : Nat) (k : Core) : (s.setCore c k).parts = s.parts := rfl
@[simp] theorem State.setCore_flasks (s : State) (c : Nat) (k : Core) : (s.setCore c k).flasks = s.flasks := rfl
@[simp] theorem State.setCore_pkg (s : State) (c : Nat) (k : Core) : (s.setCore c k).pkg = s.pkg := rfl
@[simp] theorem State.setCore_agenda (s : State) (c : Nat) (k : Core) : (s.setCore c k).agenda = s.agenda := rfl
@[simp] theorem State.setCore_turn (s : State) (c : Nat) (k : Core) : (s.setCore c k).turn = s.turn := rfl
@[simp] theorem State.setCore_sched (s : State) (c : Nat) (k : Core) : (s.setCore c k).sched = s.sched := rfl
@[simp] theorem State.setCore_fresh (s : State) (c : Nat) (k : Core) : (s.setCore c k).fresh = s.fresh := rfl
@[simp] theorem State.setCore_now (s : State) (c : Nat) (k : Core) : (s.setCore c k).now = s.now := rfl
@[simp] theorem State.setCore_nextMsg (s : State) (c : Nat) (k : Core) : (s.setCore c k).nextMsg = s.nextMsg := rfl

/-! `modCore` -/

@[simp] theorem State.modCore_mem (s : State) (c : Nat) (f : Core → Core) : (s.modCore c f).mem = s.mem := rfl
@[simp] theorem State.modCore_poison (s : State) (c : Nat) (f : Core → Core) : (s.modCore c f).poison = s.poison := rfl
@[simp] theorem State.modCore_openMem (s : State) (c : Nat) (f : Core → Core) : (s.modCore c f).openMem = s.openMem := rfl
@[simp] theorem State.modCore_dies (s : State) (c : Nat) (f : Core → Core) : (s.modCore c f).dies = s.dies := rfl
@[simp] theorem State.modCore_slices (s : State) (c : Nat) (f : Core → Core) : (s.modCore c f).slices = s.slices := rfl
@[simp] theorem State.modCore_parts (s : State) (c : Nat) (f : Core → Core) : (s.modCore c f).parts = s.parts := rfl
@[simp] theorem State.modCore_flasks (s : State) (c : Nat) (f : Core → Core) : (s.modCore c f).flasks = s.flasks := rfl
@[simp] theorem State.modCore_pkg (s : State) (c : Nat) (f : Core → Core) : (s.modCore c f).pkg = s.pkg := rfl
@[simp] theorem State.modCore_agenda (s : State) (c : Nat) (f : Core → Core) : (s.modCore c f).agenda = s.agenda := rfl
@[simp] theorem State.modCore_turn (s : State) (c : Nat) (f : Core → Core) : (s.modCore c f).turn = s.turn := rfl
@[simp] theorem State.modCore_sched (s : State) (c : Nat) (f : Core → Core) : (s.modCore c f).sched = s.sched := rfl
@[simp] theorem State.modCore_fresh (s : State) (c : Nat) (f : Core → Core) : (s.modCore c f).fresh = s.fresh := rfl
@[simp] theorem State.modCore_now (s : State) (c : Nat) (f : Core → Core) : (s.modCore c f).now = s.now := rfl
@[simp] theorem State.modCore_nextMsg (s : State) (c : Nat) (f : Core → Core) : (s.modCore c f).nextMsg = s.nextMsg := rfl

/-! `modDie` -/

@[simp] theorem State.modDie_mem (s : State) (d : Nat) (f : Die → Die) : (s.modDie d f).mem = s.mem := rfl
@[simp] theorem State.modDie_poison (s : State) (d : Nat) (f : Die → Die) : (s.modDie d f).poison = s.poison := rfl
@[simp] theorem State.modDie_openMem (s : State) (d : Nat) (f : Die → Die) : (s.modDie d f).openMem = s.openMem := rfl
@[simp] theorem State.modDie_cores (s : State) (d : Nat) (f : Die → Die) : (s.modDie d f).cores = s.cores := rfl
@[simp] theorem State.modDie_slices (s : State) (d : Nat) (f : Die → Die) : (s.modDie d f).slices = s.slices := rfl
@[simp] theorem State.modDie_parts (s : State) (d : Nat) (f : Die → Die) : (s.modDie d f).parts = s.parts := rfl
@[simp] theorem State.modDie_flasks (s : State) (d : Nat) (f : Die → Die) : (s.modDie d f).flasks = s.flasks := rfl
@[simp] theorem State.modDie_pkg (s : State) (d : Nat) (f : Die → Die) : (s.modDie d f).pkg = s.pkg := rfl
@[simp] theorem State.modDie_agenda (s : State) (d : Nat) (f : Die → Die) : (s.modDie d f).agenda = s.agenda := rfl
@[simp] theorem State.modDie_turn (s : State) (d : Nat) (f : Die → Die) : (s.modDie d f).turn = s.turn := rfl
@[simp] theorem State.modDie_sched (s : State) (d : Nat) (f : Die → Die) : (s.modDie d f).sched = s.sched := rfl
@[simp] theorem State.modDie_fresh (s : State) (d : Nat) (f : Die → Die) : (s.modDie d f).fresh = s.fresh := rfl
@[simp] theorem State.modDie_now (s : State) (d : Nat) (f : Die → Die) : (s.modDie d f).now = s.now := rfl
@[simp] theorem State.modDie_nextMsg (s : State) (d : Nat) (f : Die → Die) : (s.modDie d f).nextMsg = s.nextMsg := rfl

/-! `modSlice` -/

@[simp] theorem State.modSlice_mem (s : State) (n : Nat) (f : Slice → Slice) : (s.modSlice n f).mem = s.mem := rfl
@[simp] theorem State.modSlice_poison (s : State) (n : Nat) (f : Slice → Slice) : (s.modSlice n f).poison = s.poison := rfl
@[simp] theorem State.modSlice_openMem (s : State) (n : Nat) (f : Slice → Slice) : (s.modSlice n f).openMem = s.openMem := rfl
@[simp] theorem State.modSlice_cores (s : State) (n : Nat) (f : Slice → Slice) : (s.modSlice n f).cores = s.cores := rfl
@[simp] theorem State.modSlice_dies (s : State) (n : Nat) (f : Slice → Slice) : (s.modSlice n f).dies = s.dies := rfl
@[simp] theorem State.modSlice_parts (s : State) (n : Nat) (f : Slice → Slice) : (s.modSlice n f).parts = s.parts := rfl
@[simp] theorem State.modSlice_flasks (s : State) (n : Nat) (f : Slice → Slice) : (s.modSlice n f).flasks = s.flasks := rfl
@[simp] theorem State.modSlice_pkg (s : State) (n : Nat) (f : Slice → Slice) : (s.modSlice n f).pkg = s.pkg := rfl
@[simp] theorem State.modSlice_agenda (s : State) (n : Nat) (f : Slice → Slice) : (s.modSlice n f).agenda = s.agenda := rfl
@[simp] theorem State.modSlice_turn (s : State) (n : Nat) (f : Slice → Slice) : (s.modSlice n f).turn = s.turn := rfl
@[simp] theorem State.modSlice_sched (s : State) (n : Nat) (f : Slice → Slice) : (s.modSlice n f).sched = s.sched := rfl
@[simp] theorem State.modSlice_fresh (s : State) (n : Nat) (f : Slice → Slice) : (s.modSlice n f).fresh = s.fresh := rfl
@[simp] theorem State.modSlice_now (s : State) (n : Nat) (f : Slice → Slice) : (s.modSlice n f).now = s.now := rfl
@[simp] theorem State.modSlice_nextMsg (s : State) (n : Nat) (f : Slice → Slice) : (s.modSlice n f).nextMsg = s.nextMsg := rfl

/-! `modPart` -/

@[simp] theorem State.modPart_mem (s : State) (p : Nat) (f : Part → Part) : (s.modPart p f).mem = s.mem := rfl
@[simp] theorem State.modPart_poison (s : State) (p : Nat) (f : Part → Part) : (s.modPart p f).poison = s.poison := rfl
@[simp] theorem State.modPart_openMem (s : State) (p : Nat) (f : Part → Part) : (s.modPart p f).openMem = s.openMem := rfl
@[simp] theorem State.modPart_cores (s : State) (p : Nat) (f : Part → Part) : (s.modPart p f).cores = s.cores := rfl
@[simp] theorem State.modPart_dies (s : State) (p : Nat) (f : Part → Part) : (s.modPart p f).dies = s.dies := rfl
@[simp] theorem State.modPart_slices (s : State) (p : Nat) (f : Part → Part) : (s.modPart p f).slices = s.slices := rfl
@[simp] theorem State.modPart_flasks (s : State) (p : Nat) (f : Part → Part) : (s.modPart p f).flasks = s.flasks := rfl
@[simp] theorem State.modPart_pkg (s : State) (p : Nat) (f : Part → Part) : (s.modPart p f).pkg = s.pkg := rfl
@[simp] theorem State.modPart_agenda (s : State) (p : Nat) (f : Part → Part) : (s.modPart p f).agenda = s.agenda := rfl
@[simp] theorem State.modPart_turn (s : State) (p : Nat) (f : Part → Part) : (s.modPart p f).turn = s.turn := rfl
@[simp] theorem State.modPart_sched (s : State) (p : Nat) (f : Part → Part) : (s.modPart p f).sched = s.sched := rfl
@[simp] theorem State.modPart_fresh (s : State) (p : Nat) (f : Part → Part) : (s.modPart p f).fresh = s.fresh := rfl
@[simp] theorem State.modPart_now (s : State) (p : Nat) (f : Part → Part) : (s.modPart p f).now = s.now := rfl
@[simp] theorem State.modPart_nextMsg (s : State) (p : Nat) (f : Part → Part) : (s.modPart p f).nextMsg = s.nextMsg := rfl

/-! `modFlask` -/

@[simp] theorem State.modFlask_mem (s : State) (n : Nat) (f : Flask → Flask) : (s.modFlask n f).mem = s.mem := rfl
@[simp] theorem State.modFlask_poison (s : State) (n : Nat) (f : Flask → Flask) : (s.modFlask n f).poison = s.poison := rfl
@[simp] theorem State.modFlask_openMem (s : State) (n : Nat) (f : Flask → Flask) : (s.modFlask n f).openMem = s.openMem := rfl
@[simp] theorem State.modFlask_cores (s : State) (n : Nat) (f : Flask → Flask) : (s.modFlask n f).cores = s.cores := rfl
@[simp] theorem State.modFlask_dies (s : State) (n : Nat) (f : Flask → Flask) : (s.modFlask n f).dies = s.dies := rfl
@[simp] theorem State.modFlask_slices (s : State) (n : Nat) (f : Flask → Flask) : (s.modFlask n f).slices = s.slices := rfl
@[simp] theorem State.modFlask_parts (s : State) (n : Nat) (f : Flask → Flask) : (s.modFlask n f).parts = s.parts := rfl
@[simp] theorem State.modFlask_pkg (s : State) (n : Nat) (f : Flask → Flask) : (s.modFlask n f).pkg = s.pkg := rfl
@[simp] theorem State.modFlask_agenda (s : State) (n : Nat) (f : Flask → Flask) : (s.modFlask n f).agenda = s.agenda := rfl
@[simp] theorem State.modFlask_turn (s : State) (n : Nat) (f : Flask → Flask) : (s.modFlask n f).turn = s.turn := rfl
@[simp] theorem State.modFlask_sched (s : State) (n : Nat) (f : Flask → Flask) : (s.modFlask n f).sched = s.sched := rfl
@[simp] theorem State.modFlask_fresh (s : State) (n : Nat) (f : Flask → Flask) : (s.modFlask n f).fresh = s.fresh := rfl
@[simp] theorem State.modFlask_now (s : State) (n : Nat) (f : Flask → Flask) : (s.modFlask n f).now = s.now := rfl
@[simp] theorem State.modFlask_nextMsg (s : State) (n : Nat) (f : Flask → Flask) : (s.modFlask n f).nextMsg = s.nextMsg := rfl

/-! `modPkg` -/

@[simp] theorem State.modPkg_mem (s : State) (f : Pkg → Pkg) : (s.modPkg f).mem = s.mem := rfl
@[simp] theorem State.modPkg_poison (s : State) (f : Pkg → Pkg) : (s.modPkg f).poison = s.poison := rfl
@[simp] theorem State.modPkg_openMem (s : State) (f : Pkg → Pkg) : (s.modPkg f).openMem = s.openMem := rfl
@[simp] theorem State.modPkg_cores (s : State) (f : Pkg → Pkg) : (s.modPkg f).cores = s.cores := rfl
@[simp] theorem State.modPkg_dies (s : State) (f : Pkg → Pkg) : (s.modPkg f).dies = s.dies := rfl
@[simp] theorem State.modPkg_slices (s : State) (f : Pkg → Pkg) : (s.modPkg f).slices = s.slices := rfl
@[simp] theorem State.modPkg_parts (s : State) (f : Pkg → Pkg) : (s.modPkg f).parts = s.parts := rfl
@[simp] theorem State.modPkg_flasks (s : State) (f : Pkg → Pkg) : (s.modPkg f).flasks = s.flasks := rfl
@[simp] theorem State.modPkg_agenda (s : State) (f : Pkg → Pkg) : (s.modPkg f).agenda = s.agenda := rfl
@[simp] theorem State.modPkg_turn (s : State) (f : Pkg → Pkg) : (s.modPkg f).turn = s.turn := rfl
@[simp] theorem State.modPkg_sched (s : State) (f : Pkg → Pkg) : (s.modPkg f).sched = s.sched := rfl
@[simp] theorem State.modPkg_fresh (s : State) (f : Pkg → Pkg) : (s.modPkg f).fresh = s.fresh := rfl
@[simp] theorem State.modPkg_now (s : State) (f : Pkg → Pkg) : (s.modPkg f).now = s.now := rfl
@[simp] theorem State.modPkg_nextMsg (s : State) (f : Pkg → Pkg) : (s.modPkg f).nextMsg = s.nextMsg := rfl

/-! `modTeam` -/

@[simp] theorem State.modTeam_mem (s : State) (c t : Nat) (f : Team → Team) : (s.modTeam c t f).mem = s.mem := rfl
@[simp] theorem State.modTeam_poison (s : State) (c t : Nat) (f : Team → Team) : (s.modTeam c t f).poison = s.poison := rfl
@[simp] theorem State.modTeam_openMem (s : State) (c t : Nat) (f : Team → Team) : (s.modTeam c t f).openMem = s.openMem := rfl
@[simp] theorem State.modTeam_dies (s : State) (c t : Nat) (f : Team → Team) : (s.modTeam c t f).dies = s.dies := rfl
@[simp] theorem State.modTeam_slices (s : State) (c t : Nat) (f : Team → Team) : (s.modTeam c t f).slices = s.slices := rfl
@[simp] theorem State.modTeam_parts (s : State) (c t : Nat) (f : Team → Team) : (s.modTeam c t f).parts = s.parts := rfl
@[simp] theorem State.modTeam_flasks (s : State) (c t : Nat) (f : Team → Team) : (s.modTeam c t f).flasks = s.flasks := rfl
@[simp] theorem State.modTeam_pkg (s : State) (c t : Nat) (f : Team → Team) : (s.modTeam c t f).pkg = s.pkg := rfl
@[simp] theorem State.modTeam_agenda (s : State) (c t : Nat) (f : Team → Team) : (s.modTeam c t f).agenda = s.agenda := rfl
@[simp] theorem State.modTeam_turn (s : State) (c t : Nat) (f : Team → Team) : (s.modTeam c t f).turn = s.turn := rfl
@[simp] theorem State.modTeam_sched (s : State) (c t : Nat) (f : Team → Team) : (s.modTeam c t f).sched = s.sched := rfl
@[simp] theorem State.modTeam_fresh (s : State) (c t : Nat) (f : Team → Team) : (s.modTeam c t f).fresh = s.fresh := rfl
@[simp] theorem State.modTeam_now (s : State) (c t : Nat) (f : Team → Team) : (s.modTeam c t f).now = s.now := rfl
@[simp] theorem State.modTeam_nextMsg (s : State) (c t : Nat) (f : Team → Team) : (s.modTeam c t f).nextMsg = s.nextMsg := rfl

/-! `modGroup` -/

@[simp] theorem State.modGroup_mem (s : State) (c t g : Nat) (f : Group → Group) : (s.modGroup c t g f).mem = s.mem := rfl
@[simp] theorem State.modGroup_poison (s : State) (c t g : Nat) (f : Group → Group) : (s.modGroup c t g f).poison = s.poison := rfl
@[simp] theorem State.modGroup_openMem (s : State) (c t g : Nat) (f : Group → Group) : (s.modGroup c t g f).openMem = s.openMem := rfl
@[simp] theorem State.modGroup_dies (s : State) (c t g : Nat) (f : Group → Group) : (s.modGroup c t g f).dies = s.dies := rfl
@[simp] theorem State.modGroup_slices (s : State) (c t g : Nat) (f : Group → Group) : (s.modGroup c t g f).slices = s.slices := rfl
@[simp] theorem State.modGroup_parts (s : State) (c t g : Nat) (f : Group → Group) : (s.modGroup c t g f).parts = s.parts := rfl
@[simp] theorem State.modGroup_flasks (s : State) (c t g : Nat) (f : Group → Group) : (s.modGroup c t g f).flasks = s.flasks := rfl
@[simp] theorem State.modGroup_pkg (s : State) (c t g : Nat) (f : Group → Group) : (s.modGroup c t g f).pkg = s.pkg := rfl
@[simp] theorem State.modGroup_agenda (s : State) (c t g : Nat) (f : Group → Group) : (s.modGroup c t g f).agenda = s.agenda := rfl
@[simp] theorem State.modGroup_turn (s : State) (c t g : Nat) (f : Group → Group) : (s.modGroup c t g f).turn = s.turn := rfl
@[simp] theorem State.modGroup_sched (s : State) (c t g : Nat) (f : Group → Group) : (s.modGroup c t g f).sched = s.sched := rfl
@[simp] theorem State.modGroup_fresh (s : State) (c t g : Nat) (f : Group → Group) : (s.modGroup c t g f).fresh = s.fresh := rfl
@[simp] theorem State.modGroup_now (s : State) (c t g : Nat) (f : Group → Group) : (s.modGroup c t g f).now = s.now := rfl
@[simp] theorem State.modGroup_nextMsg (s : State) (c t g : Nat) (f : Group → Group) : (s.modGroup c t g f).nextMsg = s.nextMsg := rfl

/-! `modThread` -/

@[simp] theorem State.modThread_mem (s : State) (x : Lane) (f : Thread → Thread) : (s.modThread x f).mem = s.mem := rfl
@[simp] theorem State.modThread_poison (s : State) (x : Lane) (f : Thread → Thread) : (s.modThread x f).poison = s.poison := rfl
@[simp] theorem State.modThread_openMem (s : State) (x : Lane) (f : Thread → Thread) : (s.modThread x f).openMem = s.openMem := rfl
@[simp] theorem State.modThread_dies (s : State) (x : Lane) (f : Thread → Thread) : (s.modThread x f).dies = s.dies := rfl
@[simp] theorem State.modThread_slices (s : State) (x : Lane) (f : Thread → Thread) : (s.modThread x f).slices = s.slices := rfl
@[simp] theorem State.modThread_parts (s : State) (x : Lane) (f : Thread → Thread) : (s.modThread x f).parts = s.parts := rfl
@[simp] theorem State.modThread_flasks (s : State) (x : Lane) (f : Thread → Thread) : (s.modThread x f).flasks = s.flasks := rfl
@[simp] theorem State.modThread_pkg (s : State) (x : Lane) (f : Thread → Thread) : (s.modThread x f).pkg = s.pkg := rfl
@[simp] theorem State.modThread_agenda (s : State) (x : Lane) (f : Thread → Thread) : (s.modThread x f).agenda = s.agenda := rfl
@[simp] theorem State.modThread_turn (s : State) (x : Lane) (f : Thread → Thread) : (s.modThread x f).turn = s.turn := rfl
@[simp] theorem State.modThread_sched (s : State) (x : Lane) (f : Thread → Thread) : (s.modThread x f).sched = s.sched := rfl
@[simp] theorem State.modThread_fresh (s : State) (x : Lane) (f : Thread → Thread) : (s.modThread x f).fresh = s.fresh := rfl
@[simp] theorem State.modThread_now (s : State) (x : Lane) (f : Thread → Thread) : (s.modThread x f).now = s.now := rfl
@[simp] theorem State.modThread_nextMsg (s : State) (x : Lane) (f : Thread → Thread) : (s.modThread x f).nextMsg = s.nextMsg := rfl

/-! `modPos` -/

@[simp] theorem State.modPos_mem (s : State) (x : Lane) (f : Pos → Pos) : (s.modPos x f).mem = s.mem := rfl
@[simp] theorem State.modPos_poison (s : State) (x : Lane) (f : Pos → Pos) : (s.modPos x f).poison = s.poison := rfl
@[simp] theorem State.modPos_openMem (s : State) (x : Lane) (f : Pos → Pos) : (s.modPos x f).openMem = s.openMem := rfl
@[simp] theorem State.modPos_dies (s : State) (x : Lane) (f : Pos → Pos) : (s.modPos x f).dies = s.dies := rfl
@[simp] theorem State.modPos_slices (s : State) (x : Lane) (f : Pos → Pos) : (s.modPos x f).slices = s.slices := rfl
@[simp] theorem State.modPos_parts (s : State) (x : Lane) (f : Pos → Pos) : (s.modPos x f).parts = s.parts := rfl
@[simp] theorem State.modPos_flasks (s : State) (x : Lane) (f : Pos → Pos) : (s.modPos x f).flasks = s.flasks := rfl
@[simp] theorem State.modPos_pkg (s : State) (x : Lane) (f : Pos → Pos) : (s.modPos x f).pkg = s.pkg := rfl
@[simp] theorem State.modPos_agenda (s : State) (x : Lane) (f : Pos → Pos) : (s.modPos x f).agenda = s.agenda := rfl
@[simp] theorem State.modPos_turn (s : State) (x : Lane) (f : Pos → Pos) : (s.modPos x f).turn = s.turn := rfl
@[simp] theorem State.modPos_sched (s : State) (x : Lane) (f : Pos → Pos) : (s.modPos x f).sched = s.sched := rfl
@[simp] theorem State.modPos_fresh (s : State) (x : Lane) (f : Pos → Pos) : (s.modPos x f).fresh = s.fresh := rfl
@[simp] theorem State.modPos_now (s : State) (x : Lane) (f : Pos → Pos) : (s.modPos x f).now = s.now := rfl
@[simp] theorem State.modPos_nextMsg (s : State) (x : Lane) (f : Pos → Pos) : (s.modPos x f).nextMsg = s.nextMsg := rfl

/-! Reading what was updated. -/

@[simp] theorem State.core_setCore_same (s : State) (c : Nat) (k : Core) : (s.setCore c k).core c = k := by
  simp [State.core, State.setCore]
theorem State.core_setCore (s : State) (c d : Nat) (k : Core) : (s.setCore c k).core d = if d = c then k else s.core d := by
  simp only [State.core, State.setCore, Table.get_set]
@[simp] theorem State.core_modCore_same (s : State) (c : Nat) (f : Core → Core) : (s.modCore c f).core c = f (s.core c) := by
  simp [State.modCore]
theorem State.core_modCore (s : State) (c d : Nat) (f : Core → Core) :
    (s.modCore c f).core d = if d = c then f (s.core c) else s.core d := by
  simp only [State.modCore, State.core_setCore]
theorem State.core_modCore_other (s : State) {c d : Nat} (f : Core → Core) (h : d ≠ c) :
    (s.modCore c f).core d = s.core d := by
  simp [State.core_modCore, h]
@[simp] theorem State.die_modDie_same (s : State) (d : Nat) (f : Die → Die) : (s.modDie d f).die d = f (s.die d) := by
  simp [State.die, State.modDie]
@[simp] theorem State.slice_modSlice_same (s : State) (n : Nat) (f : Slice → Slice) :
    (s.modSlice n f).slice n = f (s.slice n) := by simp [State.slice, State.modSlice]
@[simp] theorem State.part_modPart_same (s : State) (p : Nat) (f : Part → Part) : (s.modPart p f).part p = f (s.part p) := by
  simp [State.part, State.modPart]
@[simp] theorem State.flask_modFlask_same (s : State) (n : Nat) (f : Flask → Flask) :
    (s.modFlask n f).flask n = f (s.flask n) := by simp [State.flask, State.modFlask]

@[simp] theorem State.modCore_modCore (s : State) (c : Nat) (f g : Core → Core) :
    (s.modCore c f).modCore c g = s.modCore c fun k => g (f k) := by
  simp [State.modCore, State.setCore, State.core]

@[simp] theorem State.team_modTeam_same (s : State) (c t : Nat) (f : Team → Team) :
    (s.modTeam c t f).team c t = f (s.team c t) := by
  simp [State.team, State.modTeam, State.setTeam]
theorem State.team_modTeam_other (s : State) {c t d u : Nat} (f : Team → Team) (h : (d, u) ≠ (c, t)) :
    (s.modTeam c t f).team d u = s.team d u := by
  simp only [State.team, State.modTeam, State.setTeam, State.core_modCore]
  by_cases hd : d = c
  · subst hd
    have hu : u ≠ t := fun e => h (by rw [e])
    simp [Table.get_set_other _ _ _ hu]
  · simp [hd]

@[simp] theorem State.group_modGroup_same (s : State) (c t g : Nat) (f : Group → Group) :
    (s.modGroup c t g f).group c t g = f (s.group c t g) := by
  simp [State.group, State.modGroup]

@[simp] theorem State.thread_modThread_same (s : State) (x : Lane) (f : Thread → Thread) :
    (s.modThread x f).thread x = f (s.thread x) := by
  unfold State.thread State.modThread
  rw [State.group_modGroup_same]
  exact Table.get_set_same ..
theorem State.thread_modThread_other (s : State) {x y : Lane} (f : Thread → Thread) (h : y ≠ x) :
    (s.modThread x f).thread y = s.thread y := by
  unfold State.thread State.modThread State.modGroup State.group
  by_cases hct : (y.c, y.t) = (x.c, x.t)
  · have hc : y.c = x.c := congrArg Prod.fst hct
    have ht : y.t = x.t := congrArg Prod.snd hct
    rw [hc, ht, State.team_modTeam_same]
    dsimp only
    by_cases hg : y.g = x.g
    · rw [hg, Table.get_set_same]
      dsimp only
      have hl : y.l ≠ x.l := by
        intro hl
        cases x; cases y
        simp_all
      rw [Table.get_set_other _ _ _ hl]
    · rw [Table.get_set_other _ _ _ hg]
  · rw [State.team_modTeam_other _ _ hct]

@[simp] theorem State.modThread_modThread (s : State) (x : Lane) (f g : Thread → Thread) :
    (s.modThread x f).modThread x g = s.modThread x fun th => g (f th) := by
  simp [State.modThread, State.modGroup, State.modTeam, State.setTeam, State.team]

end Sys2Proof.Machine
end

