-- ==== Sys2Proof/Laws/Same.lean ====
section
/-!
SUPPORT. Which updates leave the machine the same, and that updates of a thread or a group preserve sameness.
-/
namespace Sys2Proof.Machine

theorem Same.refl (s : State) : Same s s := ⟨rfl, rfl, rfl, fun _ => rfl, rfl, rfl, rfl, rfl, rfl, rfl, rfl⟩

theorem Same.symm {s t : State} (h : Same s t) : Same t s :=
  ⟨h.mem.symm, h.poison.symm, h.openMem.symm, fun c => (h.core c).symm, h.dies.symm, h.slices.symm, h.parts.symm, h.flasks.symm,
    h.pkg.symm, h.now.symm, h.nextMsg.symm⟩

theorem Same.trans {s t u : State} (h : Same s t) (g : Same t u) : Same s u :=
  ⟨h.mem.trans g.mem, h.poison.trans g.poison, h.openMem.trans g.openMem, fun c => (h.core c).trans (g.core c), h.dies.trans g.dies,
    h.slices.trans g.slices, h.parts.trans g.parts, h.flasks.trans g.flasks, h.pkg.trans g.pkg, h.now.trans g.now,
    h.nextMsg.trans g.nextMsg⟩

/-- An update of a core that keeps what `quiet` keeps leaves the machine the same. -/
theorem Same.modCore (s : State) (c : Nat) (f : Core → Core) (h : (f (s.core c)).quiet = (s.core c).quiet) :
    Same (s.modCore c f) s :=
  ⟨rfl, rfl, rfl, fun d => by
    rw [State.core_modCore]
    split
    · rename_i e; subst e; exact h
    · rfl, rfl, rfl, rfl, rfl, rfl, rfl, rfl⟩

/-- The same update of a core in two states that show the same machine. -/
theorem Same.modCore_congr {s t : State} (h : Same s t) (c : Nat) (f g : Core → Core)
    (hf : (f (s.core c)).quiet = (g (t.core c)).quiet) : Same (s.modCore c f) (t.modCore c g) :=
  ⟨h.mem, h.poison, h.openMem, fun d => by
    rw [State.core_modCore, State.core_modCore]
    split
    · exact hf
    · exact h.core d, h.dies, h.slices, h.parts, h.flasks, h.pkg, h.now, h.nextMsg⟩

theorem Same.teams {s t : State} (h : Same s t) (c : Nat) : (s.core c).teams = (t.core c).teams := by
  simpa [Core.quiet] using congrArg Core.teams (h.core c)

theorem Same.team {s t : State} (h : Same s t) (c n : Nat) : s.team c n = t.team c n := by
  unfold State.team; rw [h.teams]

theorem Same.group {s t : State} (h : Same s t) (c n g : Nat) : s.group c n g = t.group c n g := by
  unfold State.group; rw [h.team]

theorem Same.thread {s t : State} (h : Same s t) (x : Lane) : s.thread x = t.thread x := by
  unfold State.thread; rw [h.group]

theorem Same.modTeam {s t : State} (h : Same s t) (c n : Nat) (f : Team → Team) : Same (s.modTeam c n f) (t.modTeam c n f) := by
  unfold State.modTeam State.setTeam
  rw [h.team]
  refine h.modCore_congr c _ _ ?_
  have hc := h.core c
  have ht := h.teams c
  simp only [Core.quiet] at hc ⊢
  rw [ht]
  have e := congrArg (fun k : Core => { k with teams := (t.core c).teams.set n (f (t.team c n)) }) hc
  exact e

theorem Same.modGroup {s t : State} (h : Same s t) (c n g : Nat) (f : Group → Group) :
    Same (s.modGroup c n g f) (t.modGroup c n g f) := h.modTeam ..

theorem Same.modThread {s t : State} (h : Same s t) (x : Lane) (f : Thread → Thread) :
    Same (s.modThread x f) (t.modThread x f) := h.modGroup ..

/-! What the core does with its waves is no part of the machine that `Same` compares. -/

@[simp] theorem Core.quiet_stepBack (k : Core) : k.stepBack.quiet = k.quiet := by
  unfold Core.stepBack; split <;> rfl

@[simp] theorem Core.quiet_refillN (n : Nat) : ∀ k : Core, (k.refillN n).quiet = k.quiet := by
  induction n with
  | zero => intro k; rfl
  | succ n ih =>
    intro k
    unfold Core.refillN
    split
    · rfl
    · split
      · rfl
      · rw [ih]; rfl

@[simp] theorem Core.quiet_refill (k : Core) : k.refill.quiet = k.quiet := by simp [Core.refill]

@[simp] theorem Core.quiet_swap (k : Core) (w : Wave) (ws : List Wave) : (k.swap w ws).quiet = k.quiet := rfl

@[simp] theorem Core.quiet_count (k : Core) (a b c : Nat) : (k.count a b c).quiet = k.quiet := by
  unfold Core.count; split <;> rfl

theorem Same.refill (s : State) (c : Nat) : Same (s.modCore c (·.refill)) s := Same.modCore _ _ _ (by simp)
theorem Same.swap (s : State) (c : Nat) (w : Wave) (ws : List Wave) : Same (s.modCore c fun k => k.swap w ws) s :=
  Same.modCore _ _ _ (by simp)
theorem Same.addWave (s : State) (c t : Nat) (ls : List (Nat × Nat)) (f : Option (Nat × Nat)) : Same (s.addWave c t ls f) s := by
  unfold State.addWave
  split
  · exact Same.refl s
  · exact Same.modCore _ _ _ (by rw [Core.quiet_refill]; rfl)
theorem Same.count (s : State) (c a t n : Nat) : Same (s.count c a t n) s := by
  unfold State.count
  split
  · exact Same.refl s
  · exact Same.modCore _ _ _ (by simp)
theorem Same.fresh (s : State) (n : Nat) : Same { s with fresh := n } s := ⟨rfl, rfl, rfl, fun _ => rfl, rfl, rfl, rfl, rfl, rfl, rfl, rfl⟩
theorem Same.opened (s : State) (x : Lane) : Same (s.opened x) s := (Same.count ..).trans (Same.count ..)

end Sys2Proof.Machine
end

