-- ==== Sys2Proof/Laws/Issue.lean ====
section
/-!
SUPPORT. What the issue of a straight instruction does in a wave of one lane: the operation is performed and the instruction
complete, or the lane waits at its slot, or it takes an exception. Statements about instructions cite these laws and unfold
nothing of the issue.
-/
namespace Sys2Proof.Machine

@[simp] theorem sortLanes_one (x : Lane) : sortLanes [x] = [x] := rfl
@[simp] theorem byGroup_one (x : Lane) : byGroup [x] = [[x]] := rfl
@[simp] theorem State.haltAll_nil (s : State) : s.haltAll [] = s := rfl
@[simp] theorem State.haltAll_one (s : State) (x : Lane) : s.haltAll [x] = s.halt x := rfl
@[simp] theorem State.takeNotes_nil (s : State) : s.takeNotes [] = s := rfl
@[simp] theorem State.takeNotes_one (s : State) (n : Note) : s.takeNotes [n] = s.takeNote n := rfl
@[simp] theorem Env.notes_nil (e : Env) : e.notes [] = [] := rfl
@[simp] theorem State.waits_one (s : State) (x : Lane) : s.waits [x] = (s.live x && (s.thread x).pos.wait.isSome) := by
  simp [State.waits]

/-- The decode conditions of a lane depend on the fields of the operation, not on its meaning (R62). -/
theorem State.laneFault_idle (s : State) (x : Lane) (f : OpF) (sh : Shape) (i2 io : Option DWord) (pt : Bool) (sem : SlotSem) :
    s.laneFault x { slots := [{ f := f, sh := sh, imm2 := i2, immOff := io, point := pt, sem := sem }] }
      = s.laneFault x { slots := [{ f := f, sh := sh, sem := idle }] } := by
  have key : ∀ (a b : Bool) (r q : SlotRun), r.arc = q.arc →
      (match (match a with | true => some (r, 0) | false => none : Option (SlotRun × Nat)) with
        | some (r, i) => some (Cause.illReg, i, arcLevel r.arc)
        | none => match (match b with | true => some (r, 0) | false => none : Option (SlotRun × Nat)) with
          | some (r, i) => some (Cause.chanUnbound, i, arcLevel r.arc)
          | none => none)
      = (match (match a with | true => some (q, 0) | false => none : Option (SlotRun × Nat)) with
        | some (r, i) => some (Cause.illReg, i, arcLevel r.arc)
        | none => match (match b with | true => some (q, 0) | false => none : Option (SlotRun × Nat)) with
          | some (r, i) => some (Cause.chanUnbound, i, arcLevel r.arc)
          | none => none) := by
    intro a b r q h
    cases a <;> cases b <;> simp [h]
  simp only [State.laneFault, List.zipIdx_cons, List.zipIdx_nil, List.find?_cons, List.find?_nil]
  exact key _ _ _ _ rfl

/-- What `begins` says, one part at a time. -/
structure Begins (s : State) (i : Instr) (f : OpF) (sh : Shape) (x : Lane) (w : Wave) : Prop where
  turn : s.turn = x.c
  issuer : s.issuer s.turn = some w
  team : w.team = x.t
  lanes : w.lanes = [(x.g, x.l)]
  ins : w.ins = none
  run : (s.thread x).run = .ready
  pos : (s.thread x).pos = {}
  timer : (s.thread x).timerDue = false
  code : i.codeFault (s.team x.c x.t).nG (s.team x.c x.t).nA = none
  lane : s.laneFault x { slots := [{ f := f, sh := sh, sem := idle }] } = none

theorem State.begins_iff (s : State) (i : Instr) (f : OpF) (sh : Shape) (x : Lane) (h : s.begins i f sh x = true) :
    ∃ w, Begins s i f sh x w := by
  simp only [State.begins, Bool.and_eq_true, beq_iff_eq, Bool.not_eq_true', Option.isNone_iff_eq_none] at h
  obtain ⟨⟨⟨⟨⟨⟨ht, hw⟩, hr⟩, hp⟩, hd⟩, hc⟩, hl⟩ := h
  split at hw
  · rename_i w e
    simp only [Bool.and_eq_true, beq_iff_eq, Option.isNone_iff_eq_none] at hw
    exact ⟨w, ht, by rw [ht, e], hw.1.1, hw.1.2, hw.2, hr, hp, hd, hc, hl⟩
  · cases hw

theorem Begins.at_ {s : State} {i : Instr} {f : OpF} {sh : Shape} {x : Lane} {w : Wave} (h : Begins s i f sh x w) :
    w.at_ s.turn = [x] := by
  simp [Wave.at_, h.lanes, h.team, h.turn]

/-- The issue counted is a change of event counters alone (R408). -/
theorem State.opened_team (s : State) (x : Lane) (c t : Nat) : (s.opened x).team c t = s.team c t := (Same.opened s x).team c t
theorem State.opened_thread (s : State) (x y : Lane) : (s.opened x).thread y = s.thread y := (Same.opened s x).thread y

/-- A wave that stands without a lane stopped loses none. -/
theorem State.dropStopped_one (s : State) (x : Lane) (w : Wave) (ht : w.team = x.t) (hl : w.lanes = [(x.g, x.l)])
    (h : (s.thread x).pos.stopped = false) :
    Same (s.dropStopped x.c w).1 s ∧ (s.dropStopped x.c w).2 = w := by
  obtain ⟨c, t, g, l⟩ := x
  simp only at ht hl
  subst ht
  have hs : s.live { c := c, t := w.team, g := g, l := l } = true := by simp [State.live, h]
  unfold State.dropStopped
  simp only [hl, List.filter_cons, hs, Bool.not_true, List.filter_nil, List.foldl_nil, Bool.false_eq_true, if_false,
    List.contains_nil, Bool.not_false, if_true, Bool.false_and]
  constructor
  · exact (Same.addWave ..).trans (Same.swap ..)
  · cases w; simp_all

/-! The parts of the issue. -/

/-- The operation of a straight instruction with a long immediate. -/
def State.envLong (s : State) (i : Instr) (f : OpF) (sh : Shape) (i2 io : Option DWord) (x : Lane) : Env :=
  { s.envOf i f sh x with imm2 := i2, immOff := io }

/-- What the wave shares while it issues. -/
def State.ctxOf (s : State) (i : Instr) (x : Lane) : Ctx :=
  { pc := (s.thread x).pc, next := (s.thread x).pc + BitVec.ofNat 48 i.bytes, preq := (s.team x.c x.t).preqAt.isSome }

/-- The one slot of a straight instruction, with its uniform destination committed, and the exceptions that it leaves to take. -/
def runOne (e : Env) (sem : SlotSem) (x : Lane) (s : State) : State × List Note :=
  let (s, fs) := sem e [x] s
  let s := s.haltAll (fs.map (·.1))
  let (s, us) := commitUniform e (fs.map (·.1)) ([x].filter s.live) s
  (s.haltAll (us.map (·.1)), e.notes (fs ++ us))

/-- What becomes of the wave after that: it stalls at the slot, or the instruction is complete. -/
def State.after (r : State × List Note) (i : Instr) (x : Lane) (w : Wave) (b : Body) (c : Ctx) : State :=
  if r.1.waits [x] then
    (r.1.takeNotes (r.2.filter (r.1.ripe b [x]))).stallWave x.c { w with notes := r.2.filter fun n => !r.1.ripe b [x] n } i c.preq true
  else (r.1.takeNotes (r.2 ++ r.1.brkNotes none c [x])).completeWave x.c { w with notes := [] } none c (r.1.passed b [x])

variable {s : State} {i : Instr} {f : OpF} {sh : Shape} {x : Lane} {w : Wave} {i2 io : Option DWord} {pt : Bool} {sem : SlotSem}

theorem Begins.issueWave (h : Begins s i f sh x w) :
    s.issueWave s.turn w i { slots := [{ f := f, sh := sh, imm2 := i2, immOff := io, point := pt, sem := sem }] }
      = State.after (runOne (s.envLong i f sh i2 io x) sem x (s.opened x)) i x w
          { slots := [{ f := f, sh := sh, imm2 := i2, immOff := io, point := pt, sem := sem }] } (s.ctxOf i x) := by
  have hl : (s.opened x).live x = true := by simp [State.live, State.opened_thread, h.pos]
  have hf := h.lane
  rw [← State.laneFault_idle s x f sh i2 io pt sem] at hf
  have hf' : (s.opened x).laneFault x { slots := [{ f := f, sh := sh, imm2 := i2, immOff := io, point := pt, sem := sem }] } = none := by
    have hg : (s.opened x).group x.c x.t x.g = s.group x.c x.t x.g := (Same.opened s x).group ..
    simpa only [State.laneFault, State.opened_team, State.chan, hg] using hf
  have ho : (s.count s.turn 0x02 w.team 1).count s.turn 0x04 w.team 1 = s.opened x := by
    rw [h.turn, h.team]; rfl
  have hpc : s.wavePc s.turn w = (s.thread x).pc := by
    simp [State.wavePc, State.headPc, h.lanes, h.team, h.turn]
  have hnt : (s.opened x).takeTimers [x] (s.thread x).pc = s.opened x := by
    simp [State.takeTimers, State.opened_thread, h.timer]
  have hdec : (s.opened x).decodeNotes [x] (s.thread x).pc i
      { slots := [{ f := f, sh := sh, imm2 := i2, immOff := io, point := pt, sem := sem }] } = [] := by
    simp [State.decodeNotes, State.decodeFault, State.opened_team, h.code, hf']
  unfold State.issueWave
  rw [h.at_, hpc]
  simp only [sortLanes_one, List.length_cons, List.length_nil, Nat.zero_add]
  rw [ho, hnt]
  rw [h.ins]
  simp only [Option.isNone_none, if_true, List.filter_cons, hl, List.filter_nil, h.turn, h.team, hdec, List.map_nil,
    State.haltAll_nil, List.nil_append, Bool.true_or]
  have hp : (s.opened x).thread x = s.thread x := State.opened_thread ..
  have hrun : runSlots (s.ctxOf i x) none false [x] [{ f := f, sh := sh, imm2 := i2, immOff := io, point := pt, sem := sem }] 0
      (s.opened x) = runOne (s.envLong i f sh i2 io x) sem x (s.opened x) := by
    unfold runSlots
    simp only [List.filter_cons, hl, hp, h.pos, List.filter_nil, Nat.le_refl, decide_true, Bool.and_self, if_true, onArc,
      List.contains_cons, beq_self_eq_true, Bool.true_or, List.foldl_cons, List.foldl_nil, List.isEmpty_cons,
      Bool.false_eq_true, if_false, Option.isSome_none, arcLevel]
    unfold runSlots runOne State.envLong State.envOf State.ctxOf
    simp only [List.filter_cons, List.filter_nil, List.append_nil, ite_self]
  unfold State.ctxOf at hrun
  simp only [hrun]
  unfold State.after State.ctxOf
  generalize runOne (s.envLong i f sh i2 io x) sem x (s.opened x) = r
  simp only [h.team, h.ins]

/-- An instruction begun by one lane is issued: it is never refused. -/
theorem Begins.issue (h : Begins s i f sh x w) :
    Machine.issue i (fun _ => { slots := [{ f := f, sh := sh, imm2 := i2, immOff := io, point := pt, sem := sem }] }) s
      = .next (State.after (runOne (s.envLong i f sh i2 io x) sem x (s.opened x)) i x w
          { slots := [{ f := f, sh := sh, imm2 := i2, immOff := io, point := pt, sem := sem }] } (s.ctxOf i x)) := by
  unfold Machine.issue
  rw [h.issuer]
  simp only [h.ins, Option.isSome_none, Bool.false_and, Bool.false_eq_true, if_false]
  rw [← h.issueWave]

/-- The lane stands at the next instruction. -/
def State.stand (s : State) (next : Addr) (x : Lane) : State :=
  s.modThread x fun th => { th with pc := th.pos.far.getD next, pos := {} }

theorem State.completeWave_one (u : State) (c : Ctx) (p : Bool) (ht : w.team = x.t) (hl : w.lanes = [(x.g, x.l)])
    (hs : (u.thread x).pos.stopped = false)
    (hy : ((u.thread x).pos.yield && c.preq) = false) (hr : (u.thread x).run = .ready) :
    Same (u.completeWave x.c { w with notes := [] } none c p) (u.stand c.next x) := by
  have hlive : u.live x = true := by simp [State.live, hs]
  have hat : Wave.at_ { w with notes := [] } x.c = [x] := by simp [Wave.at_, hl, ht]
  have hfin : u.finishLane none c x = u.stand c.next x := by
    unfold State.finishLane State.successor
    simp only [hy, Bool.false_eq_true, if_false]
    rfl
  have hrun : ((u.stand c.next x).thread x).run = .ready := by simp [State.stand, hr]
  have hstop : ((u.stand c.next x).thread x).pos.stopped = false := by simp [State.stand]
  have hd := State.dropStopped_one (u.stand c.next x) x { w with notes := [] } ht hl hstop
  unfold State.completeWave
  simp only [hat, List.filter_cons, hlive, if_true, List.filter_nil, State.successor, Option.isSome_some, sortLanes_one,
    List.foldl_cons, List.foldl_nil, hfin, hrun, beq_self_eq_true, List.map_cons, List.map_nil, Bool.false_eq_true, if_false]
  have hp : ∀ v : State, State.partition v x.c w.team (sortThreads [(x.g, x.l)]) = [[(x.g, x.l)]] := fun v => rfl
  simp only [hp, List.foldl_nil, List.isEmpty_nil, if_true]
  refine (Same.refill ..).trans ?_
  split
  · exact ((Same.modCore _ _ _ (by rfl)).trans (Same.swap ..)).trans hd.1
  · exact (Same.swap ..).trans hd.1

/-- A lane without the mark of `brk` has no exception to take at its leaf (R137). -/
theorem State.brkNotes_none (u : State) (c : Ctx) (hb : (u.thread x).pos.brk = none) : u.brkNotes none c [x] = [] := by
  unfold State.brkNotes
  by_cases h : u.live x <;> simp [h, hb]
theorem State.brkNotes_stopped (u : State) (c : Ctx) (hs : (u.thread x).pos.stopped = true) : u.brkNotes none c [x] = [] := by
  simp [State.brkNotes, State.live, hs]

theorem State.stallWave_one (u : State) (p m : Bool) (ns : List Note) (ht : w.team = x.t) (hl : w.lanes = [(x.g, x.l)])
    (hs : (u.thread x).pos.stopped = false) : Same (u.stallWave x.c { w with notes := ns } i p m) u := by
  have hd := State.dropStopped_one u x { w with notes := ns } ht hl hs
  unfold State.stallWave
  exact ((Same.refill ..).trans (Same.swap ..)).trans hd.1

/-! Uniform destinations. -/

theorem State.modGroup_modGroup (s : State) (c t g : Nat) (f f' : Group → Group) :
    (s.modGroup c t g f).modGroup c t g f' = s.modGroup c t g fun k => f' (f k) := by
  simp [State.modGroup, State.modTeam, State.setTeam, State.team]

/-- An update of a group that keeps its threads. -/
theorem State.thread_modGroup (s : State) (c t g : Nat) (f : Group → Group) (h : ∀ k, (f k).threads = k.threads) (y : Lane) :
    (s.modGroup c t g f).thread y = s.thread y := by
  unfold State.thread State.modGroup State.group
  by_cases hct : (y.c, y.t) = (c, t)
  · have hc : y.c = c := congrArg Prod.fst hct
    have ht : y.t = t := congrArg Prod.snd hct
    rw [hc, ht, State.team_modTeam_same]
    dsimp only
    by_cases hg : y.g = g
    · rw [hg, Table.get_set_same, h]
    · rw [Table.get_set_other _ _ _ hg]
  · rw [State.team_modTeam_other _ _ hct]

@[simp] theorem State.thread_setK (s : State) (x y : Lane) (b : Bool) (d : Nat) (v : DWord) :
    (s.setK x b d v).thread y = s.thread y := by
  unfold State.setK
  apply State.thread_modGroup
  intro k
  rfl
/-! What a lane observes changes no thread (R250, R262). -/

@[simp] theorem State.thread_sees (s : State) (x y : Lane) (b : PastOp → Bool) : (s.sees x b).thread y = s.thread y := by
  unfold State.sees
  split
  · rfl
  · apply State.thread_modGroup
    intro k
    rfl
@[simp] theorem State.thread_hears (s : State) (x y : Lane) (o : Nat) : (s.hears x o).thread y = s.thread y := by
  unfold State.hears
  split
  · rfl
  · apply State.thread_modGroup
    intro k
    rfl

theorem commitUniform_gone (e : Env) (s : State) (h : (s.thread x).pos.others = []) : commitUniform e [x] [] s = (s, []) := by
  simp only [commitUniform, List.filter_cons, List.filter_nil, h, List.isEmpty_nil, Bool.not_true, Bool.false_and,
    Bool.false_eq_true, if_false]
  rfl

theorem commitUniform_none (e : Env) (s : State) (h : (s.thread x).pos.uni = none) : commitUniform e [] [x] s = (s, []) := by
  simp only [commitUniform, List.filter_cons, List.filter_nil, h, Option.isSome_none, Bool.false_eq_true, if_false]
  rfl

theorem commitUniform_some (e : Env) (s : State) {v : DWord} (h : (s.thread x).pos.uni = some v)
    (hw : (s.thread x).pos.wait = none) (ho : (s.thread x).pos.others = []) :
    commitUniform e [] [x] s = ((s.modPos x fun p => { p with uni := none, others := [] }).setK x e.pairDst e.f.d.toNat v, []) := by
  simp only [commitUniform, List.filter_cons, h, Option.isSome_some, if_true, List.filter_nil, List.any_cons,
    hw, Option.isSome_none, List.any_nil, Bool.or_false, Bool.false_eq_true, if_false, byGroup_one,
    List.foldl_cons, List.foldl_nil, List.nil_append]
  simp only [commitGroup, List.map_cons, List.map_nil, h, Option.getD_some, List.flatMap_cons, List.flatMap_nil, ho,
    List.append_nil, Bool.not_true, Bool.false_eq_true, if_false, List.isEmpty_nil, byGroup,
    List.foldl_cons, List.foldl_nil]
  rfl

/-- Standing at the next instruction after the commit is landing. -/
theorem State.stand_commit (s : State) (e : Env) {v : DWord} (h : (s.thread x).pos.uni = some v) (hr : (s.thread x).run = .ready) :
    ((s.modPos x fun p => { p with uni := none, others := [] }).setK x e.pairDst e.f.d.toNat v).stand e.next x = s.landed e x := by
  simp only [State.landed, h, State.stand, State.modPos, State.modThread, State.setK, State.modGroup_modGroup]
  unfold State.modGroup State.modTeam
  congr 1
  have hr' : ((((s.team x.c x.t).groups.get x.g {}).threads).get x.l {}).run = .ready := hr
  simp only [Table.get_set_same, Table.set_set]
  revert hr'
  generalize (((s.team x.c x.t).groups.get x.g {}).threads).get x.l {} = th
  intro hr'
  rw [← hr']

theorem State.stand_landed (s : State) (e : Env) (h : (s.thread x).pos.uni = none) (hr : (s.thread x).run = .ready) :
    s.stand e.next x = s.landed e x := by
  simp only [State.landed, h, State.stand]
  unfold State.modThread State.modGroup State.modTeam
  congr 1
  have hr' : ((((s.team x.c x.t).groups.get x.g {}).threads).get x.l {}).run = .ready := hr
  dsimp only
  revert hr'
  generalize (((s.team x.c x.t).groups.get x.g {}).threads).get x.l {} = th
  intro hr'
  rw [← hr']

/-! Outcomes of the one slot. -/

/-- Performed: the operation leaves a lane that waits for nothing. -/
theorem Begins.performed (h : Begins s i f sh x w) {v : State}
    (hv : sem (s.envLong i f sh i2 io x) [x] (s.opened x) = (v, []))
    (hs : (v.thread x).pos.stopped = false) (hw : (v.thread x).pos.wait = none) (hb : (v.thread x).pos.brk = none)
    (ho : (v.thread x).pos.others = [])
    (hy : ((v.thread x).pos.yield && (s.team x.c x.t).preqAt.isSome) = false) (hr : (v.thread x).run = .ready) :
    ∃ t, Machine.issue i (fun _ => { slots := [{ f := f, sh := sh, imm2 := i2, immOff := io, point := pt, sem := sem }] }) s = .next t
      ∧ Same t (v.landed (s.envLong i f sh i2 io x) x) := by
  refine ⟨_, h.issue, ?_⟩
  have hlive : v.live x = true := by simp [State.live, hs]
  have hx : (s.ctxOf i x).next = (s.envLong i f sh i2 io x).next := rfl
  have hp : (s.ctxOf i x).preq = (s.team x.c x.t).preqAt.isSome := rfl
  have key : ∀ u : State, commitUniform (s.envLong i f sh i2 io x) [] [x] v = (u, []) →
      u.stand (s.envLong i f sh i2 io x).next x = v.landed (s.envLong i f sh i2 io x) x →
      (∃ d os, u.thread x = { v.thread x with pos := { (v.thread x).pos with uni := d, others := os } }) →
      Same (State.after (runOne (s.envLong i f sh i2 io x) sem x (s.opened x)) i x w
          { slots := [{ f := f, sh := sh, imm2 := i2, immOff := io, point := pt, sem := sem }] } (s.ctxOf i x))
        (v.landed (s.envLong i f sh i2 io x) x) := by
    intro u hc hst ⟨_, _, hth⟩
    have hone : runOne (s.envLong i f sh i2 io x) sem x (s.opened x) = (u, []) := by
      simp [runOne, hv, hlive, hc]
    rw [hone]
    unfold State.after
    have hnb := State.brkNotes_none (x := x) u (s.ctxOf i x) (by rw [hth]; exact hb)
    simp only [State.waits_one, hth, hw, Option.isSome_none, Bool.and_false, Bool.false_eq_true, if_false, hnb,
      List.append_nil, State.takeNotes_nil]
    have := fun p => State.completeWave_one (w := w) u (s.ctxOf i x) p h.team h.lanes (by rw [hth]; exact hs)
      (by rw [hth, hp]; exact hy) (by rw [hth]; exact hr)
    rw [hx, hst] at this
    exact this _
  cases hu : (v.thread x).pos.uni with
  | none =>
    exact key v (commitUniform_none _ _ hu) (State.stand_landed v _ hu hr) ⟨_, _, rfl⟩
  | some d =>
    refine key _ (commitUniform_some _ _ hu hw ho) (State.stand_commit v _ hu hr) ⟨none, [], ?_⟩
    simp [State.modPos]

/-- A lane that waits at the slot: the wave stalls, and the machine stands as the operation left it. -/
theorem Begins.waits (h : Begins s i f sh x w) {v : State}
    (hv : sem (s.envLong i f sh i2 io x) [x] (s.opened x) = (v, []))
    (hs : (v.thread x).pos.stopped = false) (hw : (v.thread x).pos.wait.isSome) :
    ∃ t, Machine.issue i (fun _ => { slots := [{ f := f, sh := sh, imm2 := i2, immOff := io, point := pt, sem := sem }] }) s = .next t
      ∧ Same t v := by
  refine ⟨_, h.issue, ?_⟩
  have hlive : v.live x = true := by simp [State.live, hs]
  have hc : commitUniform (s.envLong i f sh i2 io x) [] [x] v = (v, []) := by
    cases hu : (v.thread x).pos.uni with
    | none => exact commitUniform_none _ _ hu
    | some d => simp [commitUniform, byGroup, hu, hw]
  have hone : runOne (s.envLong i f sh i2 io x) sem x (s.opened x) = (v, []) := by
    simp [runOne, hv, hlive, hc]
  rw [hone]
  unfold State.after
  simp only [State.waits_one, hlive, hw, Bool.and_self, if_true]
  exact State.stallWave_one v _ _ _ h.team h.lanes hs

/-! Exceptions. -/

theorem State.markRec_pos (s : State) (c : Nat) (r : Rec) (id : Word) (y : Lane) :
    ((s.markRec c r id).thread y).pos = (s.thread y).pos := by
  unfold State.markRec
  induction r.lanes generalizing s with
  | nil => rfl
  | cons a as ih =>
    rw [List.foldl_cons, ih]
    by_cases h : y = { c := c, t := r.teamSlot, g := a.1, l := a.2 }
    · subst h; rw [State.thread_modThread_same]
    · rw [State.thread_modThread_other _ _ h]

theorem State.thread_of_teams {s t : State} (h : ∀ c, (s.core c).teams = (t.core c).teams) (y : Lane) : s.thread y = t.thread y := by
  unfold State.thread State.group State.team; rw [h]

theorem State.teams_modCore (s : State) (c : Nat) (g : Core → Core) (h : (g (s.core c)).teams = (s.core c).teams) (d : Nat) :
    ((s.modCore c g).core d).teams = (s.core d).teams := by
  rw [State.core_modCore]; split
  · rename_i e; subst e; exact h
  · rfl

theorem State.count_thread (s : State) (c a t n : Nat) (y : Lane) : (s.count c a t n).thread y = s.thread y :=
  (Same.count s c a t n).thread y

theorem State.takeId_core (s : State) (p d : Nat) : (s.takeId p).2.core d = s.core d := by
  unfold State.takeId
  generalize s.freshId _ _ = id
  rfl

/-- A fault given to the coalescer moves no lane (R326). -/
theorem State.coalesce_pos (s : State) (c : Nat) (r : Rec) (y : Lane) : ((s.coalesce c r).thread y).pos = (s.thread y).pos := by
  unfold State.coalesce
  dsimp only
  split
  · rw [State.count_thread, State.markRec_pos]
    refine congrArg Thread.pos (State.thread_of_teams (fun d => ?_) y)
    exact State.teams_modCore _ _ _ rfl d
  · split
    · exact congrArg Thread.pos (State.thread_of_teams (fun d => State.teams_modCore _ _ _ (by rfl) d) y)
    · have hq := State.takeId_core s (s.team c r.teamSlot).part
      revert hq
      generalize s.takeId (s.team c r.teamSlot).part = q
      intro hq
      rw [State.markRec_pos]
      exact congrArg Thread.pos (State.thread_of_teams (fun d => by rw [State.teams_modCore _ _ _ rfl, hq]) y)

/-- A lane that took an exception stands stopped: the instruction goes on without it (R117). -/
theorem State.takeException_pos (s : State) (p : At) (a : FaultInfo) (after : Bool) :
    ((s.takeException x p a after).thread x).pos = { stopped := true } := by
  have hpark : ∀ b u, ((s.park x p b u).thread x).pos = { stopped := true } := by
    intro b u
    unfold State.park
    rw [State.coalesce_pos]
    simp
  unfold State.takeException
  split
  · unfold State.userTrap
    dsimp only
    split
    · exact hpark _ _
    · split
      · exact hpark _ _
      · simp
  · exact hpark _ _

/-- What halted the lane is overwritten as it takes its exception. -/
theorem State.takeException_halt (s : State) (p : At) (a : FaultInfo) (after : Bool) :
    (s.halt x).takeException x p a after = s.takeException x p a after := by
  have hth : (s.halt x).thread x = { s.thread x with pos := { (s.thread x).pos with stopped := true, wait := none } } := by
    simp [State.halt, State.modPos]
  have hteam : ∀ c t, ((s.halt x).team c t).part = (s.team c t).part ∧ ((s.halt x).team c t).desc = (s.team c t).desc
      ∧ ((s.halt x).team c t).launch = (s.team c t).launch ∧ ((s.halt x).team c t).index = (s.team c t).index := by
    intro c t
    by_cases hct : (c, t) = (x.c, x.t)
    · have hc : c = x.c := congrArg Prod.fst hct
      have ht : t = x.t := congrArg Prod.snd hct
      subst hc; subst ht
      unfold State.halt State.modPos State.modThread State.modGroup
      rw [State.team_modTeam_same]
      exact ⟨rfl, rfl, rfl, rfl⟩
    · unfold State.halt State.modPos State.modThread State.modGroup
      rw [State.team_modTeam_other _ _ hct]
      exact ⟨rfl, rfl, rfl, rfl⟩
  have hmod : ∀ g : Thread → Thread, (∀ th, g { th with pos := { th.pos with stopped := true, wait := none } } = g th) →
      (s.halt x).modThread x g = s.modThread x g := by
    intro g hg
    unfold State.halt State.modPos
    rw [State.modThread_modThread]
    congr 1
    funext th
    exact hg th
  have hpark : ∀ b u, (s.halt x).park x p b u = s.park x p b u := by
    intro b u
    have hr : (s.halt x).recOf x p b u = s.recOf x p b u := by
      unfold State.recOf
      obtain ⟨h1, h2, h3, h4⟩ := hteam x.c x.t
      simp only [hth, h3, h4]
    unfold State.park
    rw [hr]
    dsimp only
    rw [hmod]
    intro th
    rfl
  unfold State.takeException
  split
  · unfold State.userTrap
    obtain ⟨h1, h2, h3, h4⟩ := hteam x.c x.t
    simp only [hth, h2, hpark, Team.nG]
    split
    · rfl
    · split
      · rfl
      · rw [hmod _ (fun _ => rfl)]
  · exact hpark _ _

theorem State.completeWave_stopped (u : State) (c : Ctx) (p : Bool) (ht : w.team = x.t) (hl : w.lanes = [(x.g, x.l)])
    (hs : (u.thread x).pos.stopped = true) : Same (u.completeWave x.c { w with notes := [] } none c p) (u.ended x) := by
  have hdead : u.live x = false := by simp [State.live, hs]
  have hat : Wave.at_ { w with notes := [] } x.c = [x] := by simp [Wave.at_, hl, ht]
  have hd : Same (u.dropStopped x.c { w with notes := [] }).1 (u.ended x) := by
    obtain ⟨c, t, g, l⟩ := x
    simp only at ht hl
    subst ht
    unfold State.dropStopped
    simp only [hl, List.filter_cons, hdead, Bool.not_false, List.all_nil, Bool.and_self, if_true, List.filter_nil, List.foldl_cons, List.foldl_nil]
    have hfold : ∀ (f : State → Nat × Nat → Option (Nat × Nat)) (ls : List (Nat × Nat)) (s : State),
        Same (ls.foldl (fun s y => s.addWave c w.team [y] (f s y)) s) s := by
      intro f ls
      induction ls with
      | nil => exact Same.refl
      | cons a as ih => exact fun s => (ih _).trans (Same.addWave ..)
    exact (hfold (fun s y => formOn w.native (s.headPc c w.team [y])) _ _).trans ((Same.addWave ..).trans (Same.swap ..))
  unfold State.completeWave
  simp only [hat, List.filter_cons, hdead, Bool.false_eq_true, if_false, List.filter_nil, sortLanes, List.foldl_nil,
    List.map_nil]
  have hp : ∀ v : State, State.partition v x.c w.team (sortThreads []) = [] := fun v => rfl
  simp only [hp]
  exact (Same.refill ..).trans ((Same.swap ..).trans hd)

/-- An exception: the lane takes it, and the wave goes on without the lane (R117, R325). -/
theorem Begins.excepted (h : Begins s i f sh x w) {v : State} {a : FaultInfo} {after : Bool}
    (hv : sem (s.envLong i f sh i2 io x) [x] (s.opened x) = (v, [(x, a, after)])) (ho : (v.thread x).pos.others = []) :
    ∃ t, Machine.issue i (fun _ => { slots := [{ f := f, sh := sh, imm2 := i2, immOff := io, point := pt, sem := sem }] }) s = .next t
      ∧ Same t ((v.takeException x (s.envLong i f sh i2 io x).at_ a after).ended x) := by
  refine ⟨_, h.issue, ?_⟩
  have hst : ((v.halt x).thread x).pos.stopped = true := by simp [State.halt, State.modPos]
  have hlive : (v.halt x).live x = false := by simp [State.live, hst]
  have hoth : ((v.halt x).thread x).pos.others = [] := by simp [State.halt, State.modPos, ho]
  have hone : runOne (s.envLong i f sh i2 io x) sem x (s.opened x)
      = (v.halt x, [{ lane := x, at_ := (s.envLong i f sh i2 io x).at_, info := a, after := after }]) := by
    simp [runOne, hv, hlive, commitUniform_gone _ _ hoth, Env.notes]
  rw [hone]
  unfold State.after
  simp only [State.waits_one, hlive, Bool.false_and, Bool.false_eq_true, if_false, State.brkNotes_stopped _ _ hst,
    List.append_nil, State.takeNotes_one, State.takeNote, State.takeException_halt]
  have hpos := v.takeException_pos (x := x) (s.envLong i f sh i2 io x).at_ a after
  exact State.completeWave_stopped _ _ _ h.team h.lanes (by rw [hpos])

end Sys2Proof.Machine
end

