-- ==== Sys2Proof/Laws/Lane.lean ====
section
/-!
SUPPORT. What the issue of a straight instruction does when its operation is performed lane by lane, and when its result is
calculated from its sources: the laws that the statements about results cite.
-/
namespace Sys2Proof.Machine

variable {s : State} {i : Instr} {f : OpF} {sh : Shape} {x : Lane} {w : Wave} {i2 io : Option DWord} {pt : Bool} {sem : LaneSem}

theorem Begins.atOp (h : Begins s i f sh x w) :
    (s.opened x).enter x = s.atOp x := by
  have hp : ((s.opened x).thread x).pos = {} := by rw [State.opened_thread, h.pos]
  unfold State.enter State.atOp State.modPos State.modThread State.modGroup State.modTeam
  congr 1
  have hp' : (((((s.opened x).team x.c x.t).groups.get x.g {}).threads).get x.l {}).pos = {} := hp
  dsimp only
  rw [hp']
  rfl

theorem State.atOp_pos (h : Begins s i f sh x w) : ((s.atOp x).thread x).pos = { hist := [[]] } := by
  have hp : ((s.opened x).thread x).pos = {} := by rw [State.opened_thread, h.pos]
  simp [State.atOp, State.modPos, hp]

theorem lanewise_one (e : Env) (s : State) :
    lanewise sem e [x] s = match sem e x (s.enter x) with
      | .done s' => (markDone e x s', [])
      | .wait q => (markWait e x q s, [])
      | .fault i a s' => (s', [(x, i, a)]) := by
  unfold lanewise laneStep
  simp only [List.foldl_cons, List.foldl_nil, List.takeWhile_cons, bne_self_eq_false, Bool.false_eq_true, if_false, List.filter_nil, List.any_nil]
  generalize sem e x _ = o
  cases o <;> rfl

/-! Landing. -/

theorem Same.setK {s t : State} (h : Same s t) (x : Lane) (b : Bool) (d : Nat) (v : DWord) :
    Same (s.setK x b d v) (t.setK x b d v) := h.modGroup ..

theorem Same.landed {s t : State} (h : Same s t) (e : Env) (x : Lane) : Same (s.landed e x) (t.landed e x) := by
  unfold State.landed
  rw [h.thread x]
  dsimp only
  split
  · exact (h.setK ..).modThread ..
  · exact h.modThread ..

theorem Same.leaveQueue {s t : State} (h : Same s t) (x : Lane) : Same (s.leaveQueue x) (t.leaveQueue x) := by
  unfold State.leaveQueue
  rw [h.team]
  split
  · exact h
  · exact h.modTeam ..

theorem Same.completed {s t : State} (h : Same s t) (e : Env) (x : Lane) : Same (s.completed e x) (t.completed e x) :=
  (h.leaveQueue x).landed e x

theorem State.modTeam_modTeam (s : State) (c t : Nat) (f g : Team → Team) :
    (s.modTeam c t f).modTeam c t g = s.modTeam c t fun k => g (f k) := by
  simp [State.modTeam, State.setTeam, State.team]

theorem State.leaveQueue_modThread (s : State) (x : Lane) (f : Thread → Thread) :
    (s.modThread x f).leaveQueue x = (s.leaveQueue x).modThread x f := by
  have hq : ((s.modThread x f).team x.c x.t).futWait = (s.team x.c x.t).futWait := by
    simp [State.modThread, State.modGroup]
  unfold State.leaveQueue
  rw [hq]
  split
  · rfl
  · simp only [State.modThread, State.modGroup, State.modTeam_modTeam]

theorem State.landed_modThread (s : State) (e : Env) (x : Lane) (f : Thread → Thread)
    (hu : ∀ th, (f th).pos.uni = th.pos.uni) (hf : ∀ th, (f th).pos.far = th.pos.far)
    (hr : ∀ th : Thread, { f th with run := .ready, pc := th.pos.far.getD e.next, pos := {} }
      = { th with run := .ready, pc := th.pos.far.getD e.next, pos := {} }) :
    (s.modThread x f).landed e x = s.landed e x := by
  unfold State.landed
  rw [State.thread_modThread_same, hu]
  dsimp only
  split
  · unfold State.setK State.modThread
    simp only [State.modGroup_modGroup]
    unfold State.modGroup State.modTeam
    congr 1
    dsimp only
    simp only [Table.get_set_same, Table.set_set, hf]
    rw [hr]
  · simp only [State.modThread_modThread, hf]
    unfold State.modThread State.modGroup State.modTeam
    congr 1
    dsimp only
    rw [hr]

theorem State.thread_leaveQueue (s : State) (x y : Lane) : (s.leaveQueue x).thread y = s.thread y := by
  unfold State.leaveQueue
  split
  · rfl
  · unfold State.thread State.group
    by_cases hct : (y.c, y.t) = (x.c, x.t)
    · have hc : y.c = x.c := congrArg Prod.fst hct
      have ht : y.t = x.t := congrArg Prod.snd hct
      rw [hc, ht, State.team_modTeam_same]
    · rw [State.team_modTeam_other _ _ hct]

theorem markDone_same (e : Env) (x : Lane) (s : State) :
    Same (markDone e x s) ((s.modThread x fun th => { th with
      run := .ready, pos := { th.pos with slot := e.slot + 1, wait := none, arrived := false, kpre := none } }).leaveQueue x) := by
  have hcl : ∀ (u : State), (if (u.team x.c x.t).futWait.isEmpty then u
      else u.modTeam x.c x.t fun k => { k with futWait := k.futWait.filter fun w => !(w.2.2.1 == x.g && w.2.2.2 == x.l) })
      = u.leaveQueue x := fun _ => rfl
  unfold markDone
  dsimp only
  rw [hcl]
  refine (Same.count ..).leaveQueue x |>.trans ?_
  refine (Same.modThread ?_ ..).leaveQueue x
  split
  · exact Same.fresh ..
  · exact Same.refl _

/-- A lane marked as having performed the operation lands as the instruction completes. -/
theorem markDone_landed (e : Env) (x : Lane) (s : State) : Same ((markDone e x s).landed e x) (s.completed e x) := by
  refine ((markDone_same e x s).landed e x).trans ?_
  rw [State.leaveQueue_modThread, State.landed_modThread]
  · exact Same.refl _
  · exact fun _ => rfl
  · exact fun _ => rfl
  · exact fun _ => rfl

/-! Outcomes. -/

/-- The operation is performed: the instruction is complete. -/
theorem Begins.lane_done (h : Begins s i f sh x w) {v : State}
    (hv : sem (s.envLong i f sh i2 io x) x (s.atOp x) = .done v)
    (hs : (v.thread x).pos.stopped = false) (hb : (v.thread x).pos.brk = none) (ho : (v.thread x).pos.others = [])
    (hy : ((v.thread x).pos.yield && (s.team x.c x.t).preqAt.isSome) = false) :
    ∃ t, Machine.issue i (fun _ => { slots := [{ f := f, sh := sh, imm2 := i2, immOff := io, point := pt, sem := lanewise sem }] }) s = .next t
      ∧ Same t (v.completed (s.envLong i f sh i2 io x) x) := by
  have hone : lanewise sem (s.envLong i f sh i2 io x) [x] (s.opened x) = (markDone (s.envLong i f sh i2 io x) x v, []) := by
    rw [lanewise_one, h.atOp, hv]
  have hth : (markDone (s.envLong i f sh i2 io x) x v).thread x
      = { v.thread x with run := .ready, pos := { (v.thread x).pos with slot := 1, wait := none, arrived := false, kpre := none } } := by
    rw [(markDone_same _ x v).thread x, State.thread_leaveQueue, State.thread_modThread_same]
    rfl
  obtain ⟨t, ht, hsame⟩ := h.performed hone (by rw [hth]; exact hs) (by rw [hth]) (by rw [hth]; exact hb)
    (by rw [hth]; exact ho) (by rw [hth]; exact hy) (by rw [hth])
  exact ⟨t, ht, hsame.trans (markDone_landed ..)⟩

/-- The lane waits at its slot. -/
theorem Begins.lane_waits (h : Begins s i f sh x w) {q : Wait}
    (hv : sem (s.envLong i f sh i2 io x) x (s.atOp x) = .wait q) :
    ∃ t, Machine.issue i (fun _ => { slots := [{ f := f, sh := sh, imm2 := i2, immOff := io, point := pt, sem := lanewise sem }] }) s = .next t
      ∧ Same t (markWait (s.envLong i f sh i2 io x) x q (s.opened x)) := by
  have hone : lanewise sem (s.envLong i f sh i2 io x) [x] (s.opened x)
      = (markWait (s.envLong i f sh i2 io x) x q (s.opened x), []) := by
    rw [lanewise_one, h.atOp, hv]
  have hth : ((markWait (s.envLong i f sh i2 io x) x q (s.opened x)).thread x).pos
      = { (s.thread x).pos with slot := 0, wait := some q, kpre := (s.thread x).pos.kpre.or (some ((s.opened x).group x.c x.t x.g).kregs) } := by
    have hq : ∀ (u : State) (g : Team → Team), (∀ k, (g k).groups = k.groups) → (u.modTeam x.c x.t g).thread x = u.thread x := by
      intro u g hg
      unfold State.thread State.group
      rw [State.team_modTeam_same, hg]
    unfold markWait
    dsimp only
    split
    · rw [hq, State.thread_modThread_same, State.opened_thread]
      · rfl
      · exact fun _ => rfl
    · rw [State.thread_modThread_same, State.opened_thread]; rfl
  exact h.waits hone (by rw [hth, h.pos]) (by rw [hth]; rfl)

/-- The lane takes an exception at the operation. -/
theorem Begins.lane_fault (h : Begins s i f sh x w) {v : State} {a : FaultInfo} {after : Bool}
    (hv : sem (s.envLong i f sh i2 io x) x (s.atOp x) = .fault a after v) (ho : (v.thread x).pos.others = []) :
    ∃ t, Machine.issue i (fun _ => { slots := [{ f := f, sh := sh, imm2 := i2, immOff := io, point := pt, sem := lanewise sem }] }) s = .next t
      ∧ Same t ((v.takeException x (s.envLong i f sh i2 io x).at_ a after).ended x) := by
  refine h.excepted (sem := lanewise sem) ?_ ho
  rw [lanewise_one, h.atOp, hv]

end Sys2Proof.Machine
end

