-- ==== Sys2Proof/Laws/Calc.lean ====
section
/-!
SUPPORT. Operations whose result is calculated from their sources: reading, popping and writing change nothing of the lane's
position but what the bypass and a uniform destination need, and so the instruction completes or traps (R33, R46, R143).
-/
namespace Sys2Proof.Machine

/-- The lane is as far in its instruction as before: not stopped, no `brk` or `yield` noted, no value of another wave kept. -/
def Stays (x : Lane) (s t : State) : Prop :=
  (t.thread x).pos.stopped = (s.thread x).pos.stopped ∧ (t.thread x).pos.brk = (s.thread x).pos.brk
    ∧ (t.thread x).pos.yield = (s.thread x).pos.yield ∧ (t.thread x).pos.others = (s.thread x).pos.others

theorem Stays.refl (x : Lane) (s : State) : Stays x s s := ⟨rfl, rfl, rfl, rfl⟩
theorem Stays.trans {x : Lane} {s t u : State} (h : Stays x s t) (g : Stays x t u) : Stays x s u :=
  ⟨g.1.trans h.1, g.2.1.trans h.2.1, g.2.2.1.trans h.2.2.1, g.2.2.2.trans h.2.2.2⟩
theorem Stays.of_eq {x : Lane} {s t : State} (h : t.thread x = s.thread x) : Stays x s t := by
  unfold Stays; rw [h]; exact ⟨rfl, rfl, rfl, rfl⟩
theorem Stays.modThread (x y : Lane) (s : State) (f : Thread → Thread)
    (h : ∀ th, (f th).pos.stopped = th.pos.stopped ∧ (f th).pos.brk = th.pos.brk ∧ (f th).pos.yield = th.pos.yield
      ∧ (f th).pos.others = th.pos.others) :
    Stays x s (s.modThread y f) := by
  by_cases e : x = y
  · subst e; unfold Stays; rw [State.thread_modThread_same]; exact h _
  · exact Stays.of_eq (State.thread_modThread_other _ _ e)

theorem State.thread_modTeam_groups (s : State) (c t : Nat) (f : Team → Team) (h : ∀ k, (f k).groups = k.groups) (y : Lane) :
    (s.modTeam c t f).thread y = s.thread y := by
  unfold State.thread State.group
  by_cases hct : (y.c, y.t) = (c, t)
  · have hc : y.c = c := congrArg Prod.fst hct
    have ht : y.t = t := congrArg Prod.snd hct
    rw [hc, ht, State.team_modTeam_same, h]
  · rw [State.team_modTeam_other _ _ hct]

theorem State.thread_modCore_teams (s : State) (c : Nat) (g : Core → Core) (h : ∀ k, (g k).teams = k.teams) (y : Lane) :
    (s.modCore c g).thread y = s.thread y :=
  State.thread_of_teams (fun d => State.teams_modCore s c g (h _) d) y

@[simp] theorem State.thread_modQueue (s : State) (c t q : Nat) (f : Queue → Queue) (y : Lane) :
    (s.modQueue c t q f).thread y = s.thread y := by
  unfold State.modQueue
  rw [State.thread_modTeam_groups]
  exact fun _ => rfl
@[simp] theorem State.thread_pushQueue (s : State) (c t q : Nat) (v : Word) (y : Lane) :
    (s.pushQueue c t q v).thread y = s.thread y := by
  unfold State.pushQueue
  dsimp only
  rw [State.thread_modCore_teams, State.thread_modQueue]
  exact fun _ => rfl
@[simp] theorem State.thread_scratchWrite (s : State) (c t o n v : Nat) (y : Lane) :
    (s.scratchWrite c t o n v).thread y = s.thread y := by
  unfold State.scratchWrite
  dsimp only
  rw [State.thread_modCore_teams]
  exact fun _ => rfl
@[simp] theorem State.thread_touchA (s : State) (x y : Lane) (i : Nat) : (s.touchA x i).thread y = s.thread y := by
  unfold State.touchA
  split
  · rfl
  · rw [State.thread_modCore_teams]
    exact fun _ => rfl

/-- A pop changes no thread (R198 to R201). -/
@[simp] theorem State.thread_popChan (s : State) (x y : Lane) (q : Nat) : (popChan x s q).thread y = s.thread y := by
  unfold popChan
  dsimp only
  split
  · exact State.thread_modQueue ..
  · rw [State.thread_scratchWrite, State.thread_hears]
  · rw [State.thread_modCore_teams]
    exact fun _ => rfl
  · rfl

@[simp] theorem State.thread_popAll (s : State) (x y : Lane) (qs : List Nat) : (s.popAll x qs).thread y = s.thread y := by
  unfold State.popAll
  induction qs generalizing s with
  | nil => rfl
  | cons q qs ih => rw [List.foldl_cons, ih, State.thread_popChan]

theorem Stays.setFlags (x : Lane) (s : State) (fl : Flags) : Stays x s (s.setFlags x fl) :=
  Stays.modThread _ _ _ _ fun _ => ⟨rfl, rfl, rfl, rfl⟩

theorem Stays.modPos (x y : Lane) (s : State) (f : Pos → Pos)
    (h : ∀ p, (f p).stopped = p.stopped ∧ (f p).brk = p.brk ∧ (f p).yield = p.yield ∧ (f p).others = p.others) : Stays x s (s.modPos y f) :=
  Stays.modThread _ _ _ _ fun th => h th.pos

theorem Stays.putReg (x y : Lane) (s : State) (tr : Bool) (i : Nat) (v : Word) : Stays x s (s.putReg y tr i v) := by
  have hn : Stays x s (s.note y [(i, some v)]) := by
    refine Stays.modPos _ _ _ _ fun p => ?_
    exact ⟨rfl, rfl, rfl, rfl⟩
  unfold State.putReg
  dsimp only
  split
  · exact hn
  · exact (hn.trans (Stays.of_eq (State.thread_touchA ..))).trans (Stays.modThread _ _ _ _ fun _ => ⟨rfl, rfl, rfl, rfl⟩)

theorem Stays.sendChan (x y : Lane) (s : State) (q : Nat) (v : Word) : Stays x s (sendChan y s q v) := by
  unfold Machine.sendChan
  dsimp only
  split
  · exact Stays.of_eq (State.thread_pushQueue ..)
  · exact Stays.of_eq (State.thread_scratchWrite ..)
  · split
    · exact Stays.refl ..
    · exact Stays.modThread x y { s with nextMsg := s.nextMsg + 1 } _ fun _ => ⟨rfl, rfl, rfl, rfl⟩
  · exact Stays.refl ..

/-- Writing a destination leaves the lane where it stands (R46). -/
theorem Stays.writeDst (e : Env) (x : Lane) (v : DWord) (s : State) : Stays x s (writeDst e x v s) := by
  unfold Machine.writeDst
  dsimp only
  split
  · split
    · exact Stays.sendChan ..
    · split
      · exact Stays.modPos _ _ _ _ fun _ => ⟨rfl, rfl, rfl, rfl⟩
      · exact Stays.putReg ..
  · split
    · exact Stays.modPos _ _ _ _ fun _ => ⟨rfl, rfl, rfl, rfl⟩
    · exact (Stays.putReg ..).trans (Stays.putReg ..)
  · refine Stays.modThread _ _ _ _ fun th => ?_
    unfold Thread.setPred
    split <;> exact ⟨rfl, rfl, rfl, rfl⟩
  · exact Stays.refl ..

theorem State.group_modGroup_other (s : State) {c t g d u h : Nat} (f : Group → Group) (e : (d, u, h) ≠ (c, t, g)) :
    (s.modGroup c t g f).group d u h = s.group d u h := by
  unfold State.modGroup State.group
  by_cases hct : (d, u) = (c, t)
  · have hc : d = c := congrArg Prod.fst hct
    have ht : u = t := congrArg Prod.snd hct
    subst hc ht
    rw [State.team_modTeam_same]
    dsimp only
    rw [Table.get_set_other _ _ _ (fun hg => e (by rw [hg]))]
  · rw [State.team_modTeam_other _ _ hct]

/-- A part of a group that a change of one of its threads leaves alone. -/
theorem State.group_modThread {α : Type} (s : State) (x : Lane) (f : Thread → Thread) (p : Group → α)
    (h : ∀ (k : Group) (ts : Table Thread), p { k with threads := ts } = p k) (c t g : Nat) :
    p ((s.modThread x f).group c t g) = p (s.group c t g) := by
  unfold State.modThread
  by_cases e : (c, t, g) = (x.c, x.t, x.g)
  · obtain ⟨hc, he⟩ := Prod.mk.inj e
    obtain ⟨ht, hg⟩ := Prod.mk.inj he
    rw [hc, ht, hg, State.group_modGroup_same]
    exact h _ _
  · rw [State.group_modGroup_other _ _ e]

variable {s : State} {i : Instr} {f : OpF} {sh : Shape} {x : Lane} {w : Wave} {i2 io : Option DWord}
  {pt : Bool} {g : Env → Lane → State → Src → Calc}

theorem State.sources_iff {e : Env} {v : Src} (h : s.sources e x = some v) :
    ((dstReady e x (s.atOp x)).bind fun _ => readSrcs e x (s.atOp x)) = .ok v := by
  unfold State.sources at h
  split at h
  · rename_i u hu; rw [hu]; simpa using h
  · cases h

theorem State.arith_atOp (s : State) (x : Lane) (fl : Flags) :
    ((s.atOp x).setFlags x fl).arith x fl = s.arith x fl := by
  unfold State.arith State.setFlags State.atOp State.modPos
  rw [State.group_modThread _ _ _ Group.trapen (fun _ _ => rfl), State.group_modThread _ _ _ Group.trapen (fun _ _ => rfl),
    (Same.opened s x).group]

theorem State.traps_false {fl : Flags} (h : s.traps x fl = false) : s.arith x fl = none := by
  simp only [State.traps, bne_eq_false_iff_eq] at h
  simp [State.arith, h]

/-- A result calculated from sources that can be read, with no enabled arithmetic condition: the flags are recorded, the
channels popped, the destination written, and the instruction is complete. -/
theorem Begins.calc (h : Begins s i f sh x w) {v : Src} {r : Calc}
    (hv : s.sources (s.envLong i f sh i2 io x) x = some v) (hg : g (s.envLong i f sh i2 io x) x (s.atOp x) v = r)
    (ht : s.traps x r.fl = false) :
    ∃ t, Machine.issue i (fun _ => { slots := [{ f := f, sh := sh, imm2 := i2, immOff := io, point := pt, sem := lanewise (calcLane g) }] }) s
        = .next t
      ∧ Same t (s.result (s.envLong i f sh i2 io x) x v r.val r.fl) := by
  have hp := State.atOp_pos h
  have hst := ((Stays.setFlags x (s.atOp x) r.fl).trans (Stays.of_eq (State.thread_popAll _ x x v.pops))).trans
    (Stays.writeDst (s.envLong i f sh i2 io x) x r.val _)
  unfold Stays at hst
  rw [hp] at hst
  refine h.lane_done (sem := calcLane g) ?_ hst.1 hst.2.1 hst.2.2.2 (by rw [hst.2.2.1]; rfl)
  unfold calcLane
  rw [State.sources_iff hv]
  dsimp only
  rw [hg, State.arith_atOp, State.traps_false ht]

/-- An enabled arithmetic condition: the flags are recorded and the lane takes ARITH, its destination not written (R33). -/
theorem Begins.calc_traps (h : Begins s i f sh x w) {v : Src} {r : Calc} {a : FaultInfo}
    (hv : s.sources (s.envLong i f sh i2 io x) x = some v) (hg : g (s.envLong i f sh i2 io x) x (s.atOp x) v = r)
    (ht : s.arith x r.fl = some a) :
    ∃ t, Machine.issue i (fun _ => { slots := [{ f := f, sh := sh, imm2 := i2, immOff := io, point := pt, sem := lanewise (calcLane g) }] }) s
        = .next t
      ∧ Same t ((((s.atOp x).setFlags x r.fl).takeException x (s.envLong i f sh i2 io x).at_ a false).ended x) := by
  have hst := Stays.setFlags x (s.atOp x) r.fl
  unfold Stays at hst
  rw [State.atOp_pos h] at hst
  refine h.lane_fault (sem := calcLane g) ?_ hst.2.2.2
  unfold calcLane
  rw [State.sources_iff hv]
  dsimp only
  rw [hg, State.arith_atOp, ht]

end Sys2Proof.Machine
end

