-- ==== Sys2Proof/Laws/Memory.lean ====
section
/-!
SUPPORT. The laws of memory: every operation keeps the canonical form, and reading after writing.
-/
namespace Sys2Proof.Memory

/-- The canonical form says that addresses rise and that no listed byte reads as an unlisted one. -/
theorem wf_iff (m : Memory) : m.wf = true ↔ m.Pairwise (fun x y => x.1 < y.1) ∧ ∀ c ∈ m, c.2 ≠ unlistedByte := by
  induction m with
  | nil => simp [wf]
  | cons p r ih =>
    obtain ⟨j, b⟩ := p
    cases r with
    | nil => simp [wf]
    | cons q r =>
      obtain ⟨k, c⟩ := q
      have e : Memory.wf ((j, b) :: (k, c) :: r) = (decide (j < k) && b != unlistedByte && Memory.wf ((k, c) :: r)) := rfl
      rw [e, Bool.and_eq_true, Bool.and_eq_true, ih]
      simp only [List.pairwise_cons, decide_eq_true_eq, bne_iff_ne, List.mem_cons]
      constructor
      · rintro ⟨⟨h, hb⟩, ⟨hk, hr⟩, hn⟩
        refine ⟨⟨?_, hk, hr⟩, ?_⟩
        · rintro x (rfl | hx)
          · exact h
          · exact Nat.lt_trans h (hk x hx)
        · rintro x (rfl | hx)
          · exact hb
          · exact hn x hx
      · rintro ⟨⟨h, hk, hr⟩, hn⟩
        exact ⟨⟨h _ (.inl rfl), hn _ (.inl rfl)⟩, ⟨hk, hr⟩, fun x hx => hn x (.inr hx)⟩

/-- What a written memory lists: the byte written, or what was listed. -/
theorem mem_write {m : Memory} {a : Nat} {b : Byte} {c : Host.Cell} (h : c ∈ m.write a b) :
    (c = (a, b) ∧ b ≠ unlistedByte) ∨ c ∈ m := by
  induction m with
  | nil =>
    simp only [write] at h
    split at h
    · simp at h
    · simp_all
  | cons p r ih =>
    obtain ⟨j, x⟩ := p
    simp only [write] at h
    repeat' split at h
    all_goals simp_all
    · rcases h with h | h
      · exact .inl h
      · exact .inr (.inr h)
    · rcases h with h | h
      · exact .inr (.inl h)
      · rcases ih h with h | h
        · exact .inl h
        · exact .inr (.inr h)

/-- One byte written keeps the canonical form. -/
theorem wf_write {m : Memory} (h : m.wf = true) (a : Nat) (b : Byte) : (m.write a b).wf = true := by
  rw [wf_iff] at h ⊢
  obtain ⟨hp, hn⟩ := h
  refine ⟨?_, fun c hc => (mem_write hc).elim (fun e => e.1 ▸ e.2) (hn c)⟩
  clear hn
  induction m with
  | nil => simp only [write]; split <;> simp
  | cons p r ih =>
    obtain ⟨j, x⟩ := p
    rw [List.pairwise_cons] at hp
    simp only [write]
    split
    · rename_i e
      have e : a = j := by simpa using e
      subst e
      split
      · exact hp.2
      · exact List.pairwise_cons.2 hp
    · split
      · rename_i l
        split
        · exact List.pairwise_cons.2 hp
        · refine List.pairwise_cons.2 ⟨?_, List.pairwise_cons.2 hp⟩
          rintro y hy
          rcases List.mem_cons.1 hy with rfl | hy
          · exact l
          · exact Nat.lt_trans l (hp.1 y hy)
      · rename_i e l
        have e : a ≠ j := by simpa using e
        refine List.pairwise_cons.2 ⟨?_, ih hp.2⟩
        intro y hy
        rcases mem_write hy with ⟨rfl, -⟩ | hy
        · show j < a; omega
        · exact hp.1 y hy

theorem wf_writeN {m : Memory} (h : m.wf = true) (a n v : Nat) : (m.writeN a n v).wf = true := by
  induction n generalizing m a v with
  | zero => exact h
  | succ n ih => exact ih (wf_write h _ _) _ _

theorem wf_writeBytes {m : Memory} (h : m.wf = true) (a : Nat) (bs : List Byte) : (m.writeBytes a bs).wf = true := by
  induction bs generalizing m a with
  | nil => exact h
  | cons b bs ih => exact ih (wf_write h _ _) _

theorem wf_filter {m : Memory} (h : m.wf = true) (p : Host.Cell → Bool) : Memory.wf (m.filter p) = true := by
  rw [wf_iff] at h ⊢
  exact ⟨h.1.filter p, fun c hc => h.2 c (List.mem_filter.1 hc).1⟩

theorem wf_zero {m : Memory} (h : m.wf = true) (a n : Nat) : (m.zero a n).wf = true := wf_filter h _

/-- The cells of a list of bytes lie where the bytes do. -/
theorem mem_cells {a : Nat} {bs : List Byte} {c : Host.Cell} (h : c ∈ cells a bs) :
    a ≤ c.1 ∧ c.1 < a + bs.length ∧ c.2 ≠ unlistedByte := by
  induction bs generalizing a with
  | nil => simp [cells] at h
  | cons b bs ih =>
    simp only [cells] at h
    have down (h : c ∈ cells (a + 1) bs) : a ≤ c.1 ∧ c.1 < a + (b :: bs).length ∧ c.2 ≠ unlistedByte := by
      obtain ⟨h1, h2, h3⟩ := ih h
      simp only [List.length_cons]
      exact ⟨by omega, by omega, h3⟩
    split at h
    · exact down h
    · rename_i nb
      rcases List.mem_cons.1 h with rfl | h
      · simp only [List.length_cons]
        exact ⟨Nat.le_refl _, by omega, by simpa using nb⟩
      · exact down h

theorem pairwise_cells (a : Nat) (bs : List Byte) : (cells a bs).Pairwise fun x y => x.1 < y.1 := by
  induction bs generalizing a with
  | nil => simp [cells]
  | cons b bs ih =>
    simp only [cells]
    split
    · exact ih _
    · exact List.pairwise_cons.2 ⟨fun y hy => (mem_cells hy).1, ih _⟩

/-- The bytes of a range replaced by a list: the form is kept. -/
theorem wf_replace {m : Memory} (h : m.wf = true) (a : Nat) (bs : List Byte) : (m.replace a bs).wf = true := by
  rw [wf_iff] at h ⊢
  obtain ⟨hp, hn⟩ := h
  simp only [replace]
  constructor
  · refine List.pairwise_append.2 ⟨List.pairwise_append.2 ⟨hp.filter _, pairwise_cells _ _, ?_⟩, hp.filter _, ?_⟩
    · intro x hx y hy
      have h1 : x.1 < a := by simpa using (List.mem_filter.1 hx).2
      exact Nat.lt_of_lt_of_le h1 (mem_cells hy).1
    · intro x hx y hy
      have h2 : a + bs.length ≤ y.1 := by simpa using (List.mem_filter.1 hy).2
      rcases List.mem_append.1 hx with hx | hx
      · have h1 : x.1 < a := by simpa using (List.mem_filter.1 hx).2
        omega
      · exact Nat.lt_of_lt_of_le (mem_cells hx).2.1 h2
  · intro c hc
    rcases List.mem_append.1 hc with hc | hc
    · rcases List.mem_append.1 hc with hc | hc
      · exact hn c (List.mem_filter.1 hc).1
      · exact (mem_cells hc).2.2
    · exact hn c (List.mem_filter.1 hc).1

/-- An address below every listed one reads as unlisted. -/
theorem read_below {m : Memory} {a : Nat} (h : ∀ c ∈ m, a < c.1) : m.read a = unlistedByte := by
  cases m with
  | nil => rfl
  | cons p r =>
    obtain ⟨j, b⟩ := p
    have l : a < j := h (j, b) (by simp)
    have e : (j == a) = false := by simp; omega
    simp [read, e, l]

/-- Reading a byte after writing one. -/
theorem read_write {m : Memory} (h : m.wf = true) (a c : Nat) (b : Byte) :
    (m.write a b).read c = if c = a then b else m.read c := by
  rw [wf_iff] at h
  obtain ⟨hp, -⟩ := h
  induction m with
  | nil =>
    simp only [write]
    split
    · rename_i e
      have e : b = unlistedByte := by simpa using e
      simp [read, e]
    · by_cases hc : c = a
      · simp [read, hc]
      · simp [read, hc, Ne.symm hc]
  | cons p r ih =>
    obtain ⟨j, x⟩ := p
    rw [List.pairwise_cons] at hp
    simp only [write]
    by_cases ea : a = j
    · subst ea
      simp only [beq_self_eq_true, if_true]
      split
      · rename_i e
        have e : b = unlistedByte := by simpa using e
        by_cases hc : c = a
        · subst hc
          rw [read_below hp.1]
          simp [e]
        · have hc' : (a == c) = false := by simp; omega
          by_cases l : c < a
          · rw [read_below fun y hy => Nat.lt_trans l (hp.1 y hy)]
            simp [read, hc, hc', l]
          · simp [read, hc, hc', l]
      · by_cases hc : c = a
        · simp [read, hc]
        · have hc' : (a == c) = false := by simp; omega
          simp [read, hc, hc']
    · have ea' : (a == j) = false := by simpa using ea
      simp only [ea', Bool.false_eq_true, if_false]
      by_cases l : a < j
      · simp only [l, if_true]
        split
        · rename_i e
          have e : b = unlistedByte := by simpa using e
          by_cases hc : c = a
          · subst hc
            have : (j == c) = false := by simp; omega
            simp [read, this, l, e]
          · simp [hc]
        · by_cases hc : c = a
          · simp [read, hc]
          · have hc' : (a == c) = false := by simp; omega
            by_cases lc : c < a
            · have : (j == c) = false := by simp; omega
              have l' : c < j := by omega
              simp [read, hc, hc', lc, this, l']
            · simp [read, hc, hc', lc]
      · simp only [l, if_false]
        by_cases ej : j = c
        · subst ej
          have : ¬ j = a := by omega
          simp [read, this]
        · have ej' : (j == c) = false := by simpa using ej
          by_cases lc : c < j
          · have : ¬ c = a := by omega
            simp [read, ej', lc, this]
          · simp only [read, ej', lc, if_false, Bool.false_eq_true, ih hp.2]

/-- Reading a byte after writing several: the written byte within the range, the old one outside. -/
theorem read_writeN {m : Memory} (h : m.wf = true) (a n v c : Nat) :
    (m.writeN a n v).read c = if a ≤ c ∧ c < a + n then BitVec.ofNat 8 (v / 256 ^ (c - a)) else m.read c := by
  induction n generalizing m a v with
  | zero =>
    have : ¬ (a ≤ c ∧ c < a + 0) := by omega
    rw [if_neg this, writeN]
  | succ n ih =>
    simp only [writeN]
    rw [ih (wf_write h _ _), read_write h]
    by_cases e : c = a
    · subst e
      have : ¬ (c + 1 ≤ c ∧ c < c + 1 + n) := by omega
      rw [if_neg this, if_pos rfl, if_pos (by omega), Nat.sub_self, Nat.pow_zero, Nat.div_one]
    · by_cases r : a + 1 ≤ c ∧ c < a + 1 + n
      · have r' : a ≤ c ∧ c < a + (n + 1) := by omega
        have s : c - a = c - (a + 1) + 1 := by omega
        rw [if_pos r, if_pos r', s, Nat.pow_succ, Nat.mul_comm, Nat.div_div_eq_div_mul]
      · have r' : ¬ (a ≤ c ∧ c < a + (n + 1)) := by omega
        rw [if_neg r, if_neg r', if_neg e]

end Sys2Proof.Memory
namespace Sys2Proof.Machine

/-- Dirty bytes merged into memory keep the form. -/
theorem mergeBytes_wf {m : Memory} (h : m.wf = true) (line : Nat) (data : BitVec 1024) (mask : BitVec 128) :
    (mergeBytes m line data mask).wf = true := by
  unfold mergeBytes
  generalize List.range 128 = is
  induction is generalizing m with
  | nil => exact h
  | cons i is ih =>
    simp only [List.foldl_cons]
    apply ih
    split
    · exact Memory.wf_write h _ _
    · exact h

theorem scratchPut_wf {m : Memory} (h : m.wf = true) (k : Team) (o n v : Nat) : (scratchPut m k o n v).wf = true := by
  induction n generalizing m o v with
  | zero => exact h
  | succ n ih => exact ih (Memory.wf_write h _ _) _ _

theorem scratchFill_wf {m : Memory} (h : m.wf = true) (k : Team) (p o : Nat) (bs : List Byte) :
    (scratchFill m k p o bs).wf = true := by
  induction p generalizing m o bs with
  | zero => exact h
  | succ p ih =>
    simp only [scratchFill]
    split
    · exact h
    · exact ih (Memory.wf_replace h _ _) _ _

/-- The memory right after reset lists nothing, and has the form. -/
theorem reset_mem_wf : State.reset.mem.wf = true := rfl

end Sys2Proof.Machine
end

