-- ==== Sys2Proof/Laws/PerInstr.lean ====
section
/-!
SUPPORT. Every instruction is encoded in as many slots as its length says (R42), one lemma per constructor.
-/
namespace Sys2Proof.Laws.EncodedLength

/-- The slots of the encoding, 8 bytes each, are the bytes by which the program counter moves past the instruction. -/
def Statement (i : Instr) : Prop := ∀ ws, encode i = some ws → 8 * ws.length = i.bytes

/-- An instruction of one slot, or a row that is no instruction of the ISA. -/
theorem of_one {i : Instr} (h : encode i = i.op.map fun p => [encodeSlot 0 p.1 p.2]) (b : i.bytes = 8) : Statement i := by
  intro ws e
  rw [h] at e
  cases hi : i.op with
  | none => simp [hi] at e
  | some p => simp [hi] at e; simp [← e, b]

theorem tree (h slots) : Statement (.tree h slots) := by
  intro ws e
  simp [encode] at e
  simp [← e, Instr.bytes]; omega
theorem rep (p opc f) : Statement (.rep p opc f) := by
  intro ws e
  simp [encode] at e
  simp [← e, Instr.bytes]
theorem add (f) : Statement (.add f) := of_one rfl rfl
theorem sub (f) : Statement (.sub f) := of_one rfl rfl
theorem mulLo (f) : Statement (.mulLo f) := of_one rfl rfl
theorem mulHi (f) : Statement (.mulHi f) := of_one rfl rfl
theorem mad (f) : Statement (.mad f) := of_one rfl rfl
theorem div (f) : Statement (.div f) := of_one rfl rfl
theorem rem (f) : Statement (.rem f) := of_one rfl rfl
theorem min (f) : Statement (.min f) := of_one rfl rfl
theorem max (f) : Statement (.max f) := of_one rfl rfl
theorem abs (f) : Statement (.abs f) := of_one rfl rfl
theorem and (f) : Statement (.and f) := of_one rfl rfl
theorem or (f) : Statement (.or f) := of_one rfl rfl
theorem xor (f) : Statement (.xor f) := of_one rfl rfl
theorem andn (f) : Statement (.andn f) := of_one rfl rfl
theorem not (f) : Statement (.not f) := of_one rfl rfl
theorem mov (f) : Statement (.mov f) := of_one rfl rfl
theorem shl (f) : Statement (.shl f) := of_one rfl rfl
theorem shr (f) : Statement (.shr f) := of_one rfl rfl
theorem sar (f) : Statement (.sar f) := of_one rfl rfl
theorem rot (f) : Statement (.rot f) := of_one rfl rfl
theorem bfe (f) : Statement (.bfe f) := of_one rfl rfl
theorem bfi (f) : Statement (.bfi f) := of_one rfl rfl
theorem popc (f) : Statement (.popc f) := of_one rfl rfl
theorem clz (f) : Statement (.clz f) := of_one rfl rfl
theorem ctz (f) : Statement (.ctz f) := of_one rfl rfl
theorem brev (f) : Statement (.brev f) := of_one rfl rfl
theorem sel (f) : Statement (.sel f) := of_one rfl rfl
theorem movi (f) : Statement (.movi f) := of_one rfl rfl
theorem moviLong (f imm) : Statement (.moviLong f imm) := by
  intro ws e
  simp [encode] at e
  simp [← e, Instr.bytes]
theorem longImmediateForm (opc f imm) : Statement (.longImmediateForm opc f imm) := by
  intro ws e
  simp [encode] at e
  simp [← e, Instr.bytes]
theorem lea (f) : Statement (.lea f) := of_one rfl rfl
theorem cmp (f) : Statement (.cmp f) := of_one rfl rfl
theorem fcmp (f) : Statement (.fcmp f) := of_one rfl rfl
theorem pand (f) : Statement (.pand f) := of_one rfl rfl
theorem por (f) : Statement (.por f) := of_one rfl rfl
theorem pxor (f) : Statement (.pxor f) := of_one rfl rfl
theorem pnot (f) : Statement (.pnot f) := of_one rfl rfl
theorem pmov (f) : Statement (.pmov f) := of_one rfl rfl
theorem pmovToReg (f) : Statement (.pmovToReg f) := of_one rfl rfl
theorem pmovFromReg (f) : Statement (.pmovFromReg f) := of_one rfl rfl
theorem fadd (f) : Statement (.fadd f) := of_one rfl rfl
theorem fsub (f) : Statement (.fsub f) := of_one rfl rfl
theorem fmul (f) : Statement (.fmul f) := of_one rfl rfl
theorem ffma (f) : Statement (.ffma f) := of_one rfl rfl
theorem fmin (f) : Statement (.fmin f) := of_one rfl rfl
theorem fmax (f) : Statement (.fmax f) := of_one rfl rfl
theorem fdiv (f) : Statement (.fdiv f) := of_one rfl rfl
theorem fsqrt (f) : Statement (.fsqrt f) := of_one rfl rfl
theorem frcpAp (f) : Statement (.frcpAp f) := of_one rfl rfl
theorem frsqrtAp (f) : Statement (.frsqrtAp f) := of_one rfl rfl
theorem fsinAp (f) : Statement (.fsinAp f) := of_one rfl rfl
theorem fcosAp (f) : Statement (.fcosAp f) := of_one rfl rfl
theorem fexp2Ap (f) : Statement (.fexp2Ap f) := of_one rfl rfl
theorem flog2Ap (f) : Statement (.flog2Ap f) := of_one rfl rfl
theorem hadd2 (f) : Statement (.hadd2 f) := of_one rfl rfl
theorem hmul2 (f) : Statement (.hmul2 f) := of_one rfl rfl
theorem hfma2 (f) : Statement (.hfma2 f) := of_one rfl rfl
theorem faddF64 (f) : Statement (.faddF64 f) := of_one rfl rfl
theorem fsubF64 (f) : Statement (.fsubF64 f) := of_one rfl rfl
theorem fmulF64 (f) : Statement (.fmulF64 f) := of_one rfl rfl
theorem ffmaF64 (f) : Statement (.ffmaF64 f) := of_one rfl rfl
theorem fminF64 (f) : Statement (.fminF64 f) := of_one rfl rfl
theorem fmaxF64 (f) : Statement (.fmaxF64 f) := of_one rfl rfl
theorem fdivF64 (f) : Statement (.fdivF64 f) := of_one rfl rfl
theorem fsqrtF64 (f) : Statement (.fsqrtF64 f) := of_one rfl rfl
theorem frcpApF64 (f) : Statement (.frcpApF64 f) := of_one rfl rfl
theorem frsqrtApF64 (f) : Statement (.frsqrtApF64 f) := of_one rfl rfl
theorem cvt (f) : Statement (.cvt f) := of_one rfl rfl
theorem fmset (f) : Statement (.fmset f) := of_one rfl rfl
theorem fmget (f) : Statement (.fmget f) := of_one rfl rfl
theorem shflIdx (f) : Statement (.shflIdx f) := of_one rfl rfl
theorem shflUp (f) : Statement (.shflUp f) := of_one rfl rfl
theorem shflDown (f) : Statement (.shflDown f) := of_one rfl rfl
theorem shflXor (f) : Statement (.shflXor f) := of_one rfl rfl
theorem voteAll (f) : Statement (.voteAll f) := of_one rfl rfl
theorem voteAny (f) : Statement (.voteAny f) := of_one rfl rfl
theorem ballot (f) : Statement (.ballot f) := of_one rfl rfl
theorem redux (f) : Statement (.redux f) := of_one rfl rfl
theorem scan (f) : Statement (.scan f) := of_one rfl rfl
theorem elect (f) : Statement (.elect f) := of_one rfl rfl
theorem collectiveComplete (c t g pc) : Statement (.collectiveComplete c t g pc) := of_one rfl rfl
theorem collTimeout (c t g pc) : Statement (.collTimeout c t g pc) := of_one rfl rfl
theorem ldG (f) : Statement (.ldG f) := of_one rfl rfl
theorem ldS (f) : Statement (.ldS f) := of_one rfl rfl
theorem ldR (f) : Statement (.ldR f) := of_one rfl rfl
theorem ldC (f) : Statement (.ldC f) := of_one rfl rfl
theorem ldx (f) : Statement (.ldx f) := of_one rfl rfl
theorem pref (f) : Statement (.pref f) := of_one rfl rfl
theorem stG (f) : Statement (.stG f) := of_one rfl rfl
theorem stS (f) : Statement (.stS f) := of_one rfl rfl
theorem stR (f) : Statement (.stR f) := of_one rfl rfl
theorem stx (f) : Statement (.stx f) := of_one rfl rfl
theorem loadReply (c t g l n) : Statement (.loadReply c t g l n) := of_one rfl rfl
theorem storeAck (c t g l n) : Statement (.storeAck c t g l n) := of_one rfl rfl
theorem translationWalk (c va a) : Statement (.translationWalk c va a) := of_one rfl rfl
theorem atomG (f) : Statement (.atomG f) := of_one rfl rfl
theorem atomS (f) : Statement (.atomS f) := of_one rfl rfl
theorem redG (f) : Statement (.redG f) := of_one rfl rfl
theorem redS (f) : Statement (.redS f) := of_one rfl rfl
theorem fenceAcq (f) : Statement (.fenceAcq f) := of_one rfl rfl
theorem fenceRel (f) : Statement (.fenceRel f) := of_one rfl rfl
theorem fenceAr (f) : Statement (.fenceAr f) := of_one rfl rfl
theorem wait (f) : Statement (.wait f) := of_one rfl rfl
theorem waitResume (c t g l) : Statement (.waitResume c t g l) := of_one rfl rfl
theorem bar (f) : Statement (.bar f) := of_one rfl rfl
theorem barClu (f) : Statement (.barClu f) := of_one rfl rfl
theorem barGrid (f) : Statement (.barGrid f) := of_one rfl rfl
theorem barrierOpen (c t k) : Statement (.barrierOpen c t k) := of_one rfl rfl
theorem barTimeout (c t k) : Statement (.barTimeout c t k) := of_one rfl rfl
theorem pavaneReleaseStep (fl) : Statement (.pavaneReleaseStep fl) := of_one rfl rfl
theorem arrive (f) : Statement (.arrive f) := of_one rfl rfl
theorem waitbar (f) : Statement (.waitbar f) := of_one rfl rfl
theorem waitbarResume (c t g l) : Statement (.waitbarResume c t g l) := of_one rfl rfl
theorem yield (f) : Statement (.yield f) := of_one rfl rfl
theorem cbind (f) : Statement (.cbind f) := of_one rfl rfl
theorem channelResume (c t g l) : Statement (.channelResume c t g l) := of_one rfl rfl
theorem peerSendAppend (c t g l n) : Statement (.peerSendAppend c t g l n) := of_one rfl rfl
theorem fput (f) : Statement (.fput f) := of_one rfl rfl
theorem fget (f) : Statement (.fget f) := of_one rfl rfl
theorem fgetPeek (f) : Statement (.fgetPeek f) := of_one rfl rfl
theorem futureResume (c t g l) : Statement (.futureResume c t g l) := of_one rfl rfl
theorem mma (f) : Statement (.mma f) := of_one rfl rfl
theorem mmv (f) : Statement (.mmv f) := of_one rfl rfl
theorem mqrun (f) : Statement (.mqrun f) := of_one rfl rfl
theorem mqrunBlock (c) : Statement (.mqrunBlock c) := of_one rfl rfl
theorem accz (f) : Statement (.accz f) := of_one rfl rfl
theorem accld (f) : Statement (.accld f) := of_one rfl rfl
theorem accst (f) : Statement (.accst f) := of_one rfl rfl
theorem pour (f) : Statement (.pour f) := of_one rfl rfl
theorem pourOut (f) : Statement (.pourOut f) := of_one rfl rfl
theorem engineOpStart (c e n) : Statement (.engineOpStart c e n) := of_one rfl rfl
theorem engineOpComplete (c e) : Statement (.engineOpComplete c e) := of_one rfl rfl
theorem tspawn (f) : Statement (.tspawn f) := of_one rfl rfl
theorem gnode (f) : Statement (.gnode f) := of_one rfl rfl
theorem fsopen (f) : Statement (.fsopen f) := of_one rfl rfl
theorem fsclose (f) : Statement (.fsclose f) := of_one rfl rfl
theorem fswait (f) : Statement (.fswait f) := of_one rfl rfl
theorem lmsg (f) : Statement (.lmsg f) := of_one rfl rfl
theorem lmsgReply (c t g l n) : Statement (.lmsgReply c t g l n) := of_one rfl rfl
theorem asym (f) : Statement (.asym f) := of_one rfl rfl
theorem aset (f) : Statement (.aset f) := of_one rfl rfl
theorem asetSym (f) : Statement (.asetSym f) := of_one rfl rfl
theorem asetMint (f) : Statement (.asetMint f) := of_one rfl rfl
theorem amov (f) : Statement (.amov f) := of_one rfl rfl
theorem ald (f) : Statement (.ald f) := of_one rfl rfl
theorem ast (f) : Statement (.ast f) := of_one rfl rfl
theorem aadd (f) : Statement (.aadd f) := of_one rfl rfl
theorem asub (f) : Statement (.asub f) := of_one rfl rfl
theorem aneg (f) : Statement (.aneg f) := of_one rfl rfl
theorem ascl (f) : Statement (.ascl f) := of_one rfl rfl
theorem aaddc (f) : Statement (.aaddc f) := of_one rfl rfl
theorem amul (f) : Statement (.amul f) := of_one rfl rfl
theorem asqr (f) : Statement (.asqr f) := of_one rfl rfl
theorem arcp (f) : Statement (.arcp f) := of_one rfl rfl
theorem asqrt (f) : Statement (.asqrt f) := of_one rfl rfl
theorem acond (f) : Statement (.acond f) := of_one rfl rfl
theorem acent (f) : Statement (.acent f) := of_one rfl rfl
theorem arad (f) : Statement (.arad f) := of_one rfl rfl
theorem alo (f) : Statement (.alo f) := of_one rfl rfl
theorem ahi (f) : Statement (.ahi f) := of_one rfl rfl
theorem ashfl (f) : Statement (.ashfl f) := of_one rfl rfl
theorem aredd (f) : Statement (.aredd f) := of_one rfl rfl
theorem call (f) : Statement (.call f) := of_one rfl rfl
theorem callIndirect (f) : Statement (.callIndirect f) := of_one rfl rfl
theorem ret (f) : Statement (.ret f) := of_one rfl rfl
theorem retTrap (f) : Statement (.retTrap f) := of_one rfl rfl
theorem jmpi (f) : Statement (.jmpi f) := of_one rfl rfl
theorem far (f) : Statement (.far f) := of_one rfl rfl
theorem farIndirect (f) : Statement (.farIndirect f) := of_one rfl rfl
theorem region (f) : Statement (.region f) := of_one rfl rfl
theorem regionIndirect (f) : Statement (.regionIndirect f) := of_one rfl rfl
theorem trap (f) : Statement (.trap f) := of_one rfl rfl
theorem brk (f) : Statement (.brk f) := of_one rfl rfl
theorem mfs (f) : Statement (.mfs f) := of_one rfl rfl
theorem mts (f) : Statement (.mts f) := of_one rfl rfl
theorem icinv (f) : Statement (.icinv f) := of_one rfl rfl
theorem icinvComplete (c t g l) : Statement (.icinvComplete c t g l) := of_one rfl rfl
theorem nop (f) : Statement (.nop f) := of_one rfl rfl
theorem addImm (f) : Statement (.addImm f) := of_one rfl rfl
theorem subImm (f) : Statement (.subImm f) := of_one rfl rfl
theorem mulLoImm (f) : Statement (.mulLoImm f) := of_one rfl rfl
theorem andImm (f) : Statement (.andImm f) := of_one rfl rfl
theorem orImm (f) : Statement (.orImm f) := of_one rfl rfl
theorem xorImm (f) : Statement (.xorImm f) := of_one rfl rfl
theorem shlImm (f) : Statement (.shlImm f) := of_one rfl rfl
theorem shrImm (f) : Statement (.shrImm f) := of_one rfl rfl
theorem sarImm (f) : Statement (.sarImm f) := of_one rfl rfl
theorem minImm (f) : Statement (.minImm f) := of_one rfl rfl
theorem maxImm (f) : Statement (.maxImm f) := of_one rfl rfl
theorem faddImm (f) : Statement (.faddImm f) := of_one rfl rfl
theorem fmulImm (f) : Statement (.fmulImm f) := of_one rfl rfl
theorem timer (c t g) : Statement (.timer c t g) := of_one rfl rfl
theorem activeSetRotate (c) : Statement (.activeSetRotate c) := of_one rfl rfl
theorem quadrilleAgeDrain (c b) : Statement (.quadrilleAgeDrain c b) := of_one rfl rfl
theorem lqTailWrite (p v) : Statement (.lqTailWrite p v) := of_one rfl rfl
theorem lqCtlWrite (p v) : Statement (.lqCtlWrite p v) := of_one rfl rfl
theorem launchPacketRead (p) : Statement (.launchPacketRead p) := of_one rfl rfl
theorem launchPlace (p) : Statement (.launchPlace p) := of_one rfl rfl
theorem gridEnd (p g) : Statement (.gridEnd p g) := of_one rfl rfl
theorem taskLaunch (p n k) : Statement (.taskLaunch p n k) := of_one rfl rfl
theorem copyNodeDispatch (p n c) : Statement (.copyNodeDispatch p n c) := of_one rfl rfl
theorem nodeFinish (p n) : Statement (.nodeFinish p n) := of_one rfl rfl
theorem scopeComplete (p n) : Statement (.scopeComplete p n) := of_one rfl rfl
theorem trapRecordWrite (p id) : Statement (.trapRecordWrite p id) := of_one rfl rfl
theorem tqHeadWrite (p v) : Statement (.tqHeadWrite p v) := of_one rfl rfl
theorem tqCtlWrite (p v) : Statement (.tqCtlWrite p v) := of_one rfl rfl
theorem tqServRelease (p id) : Statement (.tqServRelease p id) := of_one rfl rfl
theorem tqServEndTeam (p id) : Statement (.tqServEndTeam p id) := of_one rfl rfl
theorem tqServEndGrid (p id) : Statement (.tqServEndGrid p id) := of_one rfl rfl
theorem preReqWrite (p v) : Statement (.preReqWrite p v) := of_one rfl rfl
theorem preForced (c t) : Statement (.preForced c t) := of_one rfl rfl
theorem teamSave (c t) : Statement (.teamSave c t) := of_one rfl rfl
theorem rsSaveWrite (p v) : Statement (.rsSaveWrite p v) := of_one rfl rfl
theorem restorePlace (p) : Statement (.restorePlace p) := of_one rfl rfl
theorem tlbInvWrite (p v) : Statement (.tlbInvWrite p v) := of_one rfl rfl
theorem tlbInvComplete (p) : Statement (.tlbInvComplete p) := of_one rfl rfl
theorem bankRoleWrite (c b v) : Statement (.bankRoleWrite c b v) := of_one rfl rfl
theorem storeEccCorrected (c b) : Statement (.storeEccCorrected c b) := of_one rfl rfl
theorem storeUe (c off) : Statement (.storeUe c off) := of_one rfl rfl
theorem cacheUe (w line) : Statement (.cacheUe w line) := of_one rfl rfl
theorem leaseExpiry (d c line) : Statement (.leaseExpiry d c line) := of_one rfl rfl
theorem ageWriteback (d line) : Statement (.ageWriteback d line) := of_one rfl rfl
theorem partCfgWrite (v) : Statement (.partCfgWrite v) := of_one rfl rfl
theorem annCtlWrite (p v) : Statement (.annCtlWrite p v) := of_one rfl rfl
theorem annealTranslate (p base len) : Statement (.annealTranslate p base len) := of_one rfl rfl
theorem jrnBaseWrite (p v) : Statement (.jrnBaseWrite p v) := of_one rfl rfl
theorem failureRecovery (w) : Statement (.failureRecovery w) := of_one rfl rfl
theorem powerArbiterStep (parts flasks) : Statement (.powerArbiterStep parts flasks) := of_one rfl rfl
theorem pwrStatW1c (v) : Statement (.pwrStatW1c v) := of_one rfl rfl
theorem thermalSensorRead (first rest) : Statement (.thermalSensorRead first rest) := of_one rfl rfl
theorem operatingPointChange (fl pt) : Statement (.operatingPointChange fl pt) := of_one rfl rfl
theorem engStatW1c (c v) : Statement (.engStatW1c c v) := of_one rfl rfl
theorem engNfinRead (c) : Statement (.engNfinRead c) := of_one rfl rfl
theorem engOvfcRead (c) : Statement (.engOvfcRead c) := of_one rfl rfl
theorem ladleCounterRead (sl n k) : Statement (.ladleCounterRead sl n k) := of_one rfl rfl
theorem ldTenWrite (sl n v) : Statement (.ldTenWrite sl n v) := of_one rfl rfl
theorem ladleOverrun (sl) : Statement (.ladleOverrun sl) := of_one rfl rfl
theorem ladleMiss (sl line) : Statement (.ladleMiss sl line) := of_one rfl rfl
theorem ladleFill (sl line) : Statement (.ladleFill sl line) := of_one rfl rfl
theorem ladleEviction (sl line) : Statement (.ladleEviction sl line) := of_one rfl rfl
theorem ladleMessage (sl) : Statement (.ladleMessage sl) := of_one rfl rfl
theorem done (sl v) : Statement (.done sl v) := of_one rfl rfl
theorem fwda0 (sl v) : Statement (.fwda0 sl v) := of_one rfl rfl
theorem fwda1 (sl v) : Statement (.fwda1 sl v) := of_one rfl rfl
theorem fwd (sl v) : Statement (.fwd sl v) := of_one rfl rfl
theorem posth (sl v) : Statement (.posth sl v) := of_one rfl rfl
theorem post (sl v) : Statement (.post sl v) := of_one rfl rfl
theorem prefLadle (sl v) : Statement (.prefLadle sl v) := of_one rfl rfl
theorem ladleFault (sl mcause mepc) : Statement (.ladleFault sl mcause mepc) := of_one rfl rfl
theorem monitorBoot (sl slot fw) : Statement (.monitorBoot sl slot fw) := of_one rfl rfl
theorem firmwareVerify (kind hdrKind slot version hash sigOk) : Statement (.firmwareVerify kind hdrKind slot version hash sigOk) := of_one rfl rfl
theorem keyEnrol (slot signer key sigOk) : Statement (.keyEnrol slot signer key sigOk) := of_one rfl rfl
theorem keyRevoke (slot signer sigOk) : Statement (.keyRevoke slot signer sigOk) := of_one rfl rfl
theorem spdmMeasurement (nonce) : Statement (.spdmMeasurement nonce) := of_one rfl rfl
theorem sprueFlitReceive (port hdr payload crcOk) : Statement (.sprueFlitReceive port hdr payload crcOk) := of_one rfl rfl
theorem spruePortFail (port) : Statement (.spruePortFail port) := of_one rfl rfl
theorem hostMemRead (pa n) : Statement (.hostMemRead pa n) := of_one rfl rfl
theorem hostMemWrite (pa bytes) : Statement (.hostMemWrite pa bytes) := of_one rfl rfl
theorem hostSnoop (line) : Statement (.hostSnoop line) := of_one rfl rfl
theorem mmioUnsupported (off width write) : Statement (.mmioUnsupported off width write) := of_one rfl rfl
theorem registerWrite (off width v) : Statement (.registerWrite off width v) := of_one rfl rfl
theorem packageReset (defects) : Statement (.packageReset defects) := of_one rfl rfl
theorem globalApertureAccess (sl addr k size v) : Statement (.globalApertureAccess sl addr k size v) := of_one rfl rfl

end Sys2Proof.Laws.EncodedLength
end

