-- ==== Sys2Proof/Tests/Slice0.lean ====
section
/-!
SUPPORT. Tests: ill-formed terms for each check, words of the spec's examples, single steps on small states, and for every
statement of the certificates states and operands that meet its hypotheses.
-/
namespace Sys2Proof.Tests
open Machine
set_option Elab.async false

/-! Small states. -/

/-- The only thread of the team that `State.placeTeam` makes on core 0. -/
def x0 : Lane := { c := 0, t := 0, g := 0, l := 0 }
/-- That team with general registers and predicates listed. -/
def st (ws : List (Nat × Word)) (ps : Word := 1) : State :=
  (State.reset.placeTeam 0).modThread x0 fun th => { th with win := ws, preds := ps }
/-- The same with uniform registers listed. -/
def stk (ks : List (Nat × Word)) (ws : List (Nat × Word) := []) : State := (st ws).modGroup 0 0 0 fun g => { g with kregs := ks }
/-- The fields of an operation. -/
def op (d s1 s2 s3 mod : Nat) : OpF :=
  { tr := false, d := BitVec.ofNat 8 d, dc := false, s1 := BitVec.ofNat 10 s1, s2 := BitVec.ofNat 10 s2,
    s3 := BitVec.ofNat 10 s3, mod := BitVec.ofNat 13 mod }
/-- The lane is to perform the instruction and its sources can be read. -/
def can (i : Instr) (f : OpF) (s : State) : Bool := s.begins i f i.shape x0 && (s.sources (s.env i f x0) x0).isSome
/-- The lane is to perform the instruction. -/
def begins (i : Instr) (f : OpF) (s : State) : Bool := s.begins i f i.shape x0
/-- The state after an instruction, the same state where it stops. -/
def after (i : Instr) (s : State) : State :=
  match exec i s with
  | .next t => t
  | _ => s
/-- The instruction answers a next state. -/
def ran (i : Instr) (s : State) : Bool :=
  match exec i s with
  | .next _ => true
  | _ => false
/-- Register n of the thread. -/
def reg (s : State) (n : Nat) : Word := (s.thread x0).word n
/-- A tree header without tests: its slots, its shape and its first leaf. -/
def head (ns sh l0 : Nat) : TreeHeader :=
  { rf := false, ns := BitVec.ofNat 3 ns, sh := BitVec.ofNat 2 sh, t0 := 0, t1 := 0, t2 := 0, l0 := BitVec.ofNat 9 l0, l1 := 0,
    l2 := 0, l3 := 0, hleaf := 0, hval := false }
/-- What slots decode to. -/
def read (ws : List DWord) : Option Instr :=
  match decode ws with
  | .ok i => some i
  | .error _ => none
/-- Why slots are refused. -/
def refusal (ws : List DWord) : Option DecodeError :=
  match decode ws with
  | .ok _ => none
  | .error e => some e
/-- A value was got. -/
def isOk {α : Type} : Got α → Bool
  | .ok _ => true
  | _ => false

/-! Well-formed instructions: one ill-formed term for each check. -/

theorem test_wf_good : Instr.wellFormed (.add (op 4 5 6 0 0x85)) = true := by decide +kernel
/-- A slot count that differs from NS. -/
theorem test_wf_slot_count : Instr.wellFormed (.tree (head 1 0 0x181) []) = false := by decide +kernel
/-- The opcode of `movi` in the other long form. -/
theorem test_wf_long_movi : Instr.wellFormed (.longImmediateForm 0x1b (op 4 0 0 0 0) 0) = false := by decide +kernel
/-- A constructor that its opcode and MOD do not name: `fsub` without bit 8. -/
theorem test_wf_constructor : Instr.wellFormed (.fsub (op 4 5 6 0 10)) = false := by decide +kernel
/-- A row that is no instruction. -/
theorem test_wf_event : Instr.wellFormed (.launchPacketRead 0) = false := by decide +kernel
/-- A reserved type (R49, R61). -/
theorem test_wf_type : Instr.wellFormed (.add (op 4 5 6 0 15)) = false := by decide +kernel
/-- A field that must be zero. -/
theorem test_wf_field : Instr.wellFormed (.nop (op 1 0 0 0 0)) = false := by decide +kernel
/-- An odd pair. -/
theorem test_wf_pair : Instr.wellFormed (.lea (op 11 2 7 0 0x604)) = false := by decide +kernel

/-! Words written out in the spec, by family. -/

theorem test_decode_integer : [0x0000400a03000085, 0x0280400a03000005, 0x0380a00403800604, 0x034070280a804004].map
      (fun w => read [w])
    = [some (.add (op 4 5 6 0 0x85)), some (.bfe (op 4 5 6 0 5)), some (.lea (op 10 2 7 0 0x604)),
       some (.sel (op 7 20 21 2 4))] := by decide +kernel
theorem test_decode_predicates : [0x0400300802800405, 0x042020080300140b].map (fun w => read [w])
    = [some (.cmp (op 3 4 5 0 0x405)), some (.fcmp (op 2 4 6 0 0x140b))] := by decide +kernel
theorem test_decode_float : [0x0600400a0300010a, 0x0640400a0300e01a, 0x0a00800800001c8a, 0x0a00800800001408,
      0x0a20000800000003].map (fun w => read [w])
    = [some (.fsub (op 4 5 6 0 0x10a)), some (.ffma (op 4 5 6 7 0x1a)), some (.cvt (op 8 4 0 0 0x1c8a)),
       some (.cvt (op 8 4 0 0 0x1408)), some (.fmset (op 0 4 0 0 3))] := by decide +kernel
theorem test_decode_collectives : [0x0cc0500400000000, 0x0d00600e00000084, 0x0c40c01405800000, 0x19e0400400000001].map
      (fun w => read [w])
    = [some (.ballot (op 5 2 0 0 0)), some (.scan (op 6 7 0 0 0x84)), some (.shflDown (op 12 10 11 0 0)),
       some (.aredd (op 4 2 0 0 1))] := by decide +kernel
theorem test_decode_loads : [0x0e00a00400020004, 0x0ea0000400000800, 0x0e80501800000004].map (fun w => read [w])
    = [some (.ldG (op 10 2 0 16 4)), some (.pref (op 0 2 0 0 0x800)), some (.ldx (op 5 12 0 0 4))] := by decide +kernel
theorem test_decode_stores : [0x1020000c02002006, 0x100000040302c000, 0x1240006017000436].map (fun w => read [w])
    = [some (.stS (op 0 6 4 1 6)), some (.stG (op 0 2 6 22 0)), some (.redG (op 0 48 46 0 0x436))] := by decide +kernel
theorem test_decode_sync : [0x1420000000000030, 0x1460000000800000, 0x14c0000000000030, 0x14e0900405000030,
      0x1500000404800030].map (fun w => read [w])
    = [some (.fenceRel (op 0 0 0 0 0x30)), some (.wait (op 0 0 1 0 0)), some (.barGrid (op 0 0 0 0 0x30)),
       some (.arrive (op 9 2 10 0 0x30)), some (.waitbar (op 0 2 9 0 0x30))] := by decide +kernel
theorem test_decode_channels : [0x1540300800000201, 0x1560000c03800000, 0x1580800c00000000].map (fun w => read [w])
    = [some (.cbind (op 3 4 0 0 0x201)), some (.fput (op 0 6 7 0 0)), some (.fget (op 8 6 0 0 0))] := by decide +kernel
theorem test_decode_engines : [0x160001c800000120, 0x1660200000000000, 0x16c001ca00000000, 0x162001cc00000000,
      0x16e0000c00000000].map (fun w => read [w])
    = [some (.mma (op 0 228 0 0 0x120)), some (.accz (op 2 0 0 0 0)), some (.pour (op 0 229 0 0 0)),
       some (.mmv (op 0 230 0 0 0)), some (.pourOut (op 0 6 0 0 0))] := by decide +kernel
theorem test_decode_graph : [0x1740600000000000, 0x1700000400000000, 0x1760000c00000000, 0x1780000c00000000,
      0x17a0a00402000003].map (fun w => read [w])
    = [some (.fsopen (op 6 0 0 0 0)), some (.tspawn (op 0 2 0 0 0)), some (.fsclose (op 0 6 0 0 0)),
       some (.fswait (op 0 6 0 0 0)), some (.lmsg (op 10 2 4 0 3))] := by decide +kernel
theorem test_decode_affine : [0x1820000803010001, 0x1920200000800000, 0x18a0200200000001, 0x19a0500800000002,
      0x19c1400400000002, 0x1880002402800000, 0x1800001807000000].map (fun w => read [w])
    = [some (.asetSym (op 0 4 6 8 1)), some (.amul (op 2 0 1 0 0)), some (.asub (op 2 1 0 0 1)), some (.acond (op 5 4 0 0 2)),
       some (.alo (op 20 2 0 0 2)), some (.ast (op 0 18 5 0 0)), some (.asym (op 0 12 14 0 0))] := by decide +kernel
theorem test_decode_control : [0x1a20003c00000000, 0x1a20000000000001, 0x1c00000000000005, 0x1c40a00000000100,
      0x1c600006000001e0, 0x1ca0000000000000, 0x1a80000000000000, 0x1e00500a00000064].map (fun w => read [w])
    = [some (.ret (op 0 30 0 0 0)), some (.retTrap (op 0 0 0 0 1)), some (.trap (op 0 0 0 0 5)), some (.mfs (op 10 0 0 0 0x100)),
       some (.mts (op 0 3 0 0 0x1e0)), some (.nop (op 0 0 0 0 0)), some (.region (op 0 0 0 0 0)),
       some (.addImm (op 5 5 0 0 0x64))] := by decide +kernel
/-- The first slots of the token scanner: a tree of six slots (its header and three of them). -/
theorem test_decode_tree : (match decode [0xf60841a010896498, 0xee00600400000000, 0xe400100c0a000a04, 0x0400200c0a800a04,
      0x2400300c00000004, 0x4e00700400002000, 0x6e00700400002000] with
    | .ok (.tree h ts) => h.rf && h.sh == 3 && h.t0 == 1 && h.t1 == 2 && h.t2 == 3 && h.l0 == 0x080 && h.l1 == 0x084
        && h.l2 == 0x096 && h.l3 == 0x093 && ts.map (·.arc) == [7, 7, 0, 1, 2, 3]
        && ts.map (·.opc) == [0x70, 0x20, 0x20, 0x20, 0x70, 0x70]
    | _ => false) = true := by decide +kernel
/-- A far leaf's slot (R130): `far` on the stem. -/
theorem test_decode_far : (parseSlot 0x3a60000000000030).opc = 0xd3 ∧ opInstr 0xd3 (parseF 0x3a60000000000030)
    = some (.far (op 0 0 0 0 0x30)) := by decide +kernel
/-- Refusals by name: a reserved kind, an unassigned opcode, too few slots. -/
theorem test_decode_refusals : refusal [0x6000000000000000] = some (.bad .illOpc) ∧ refusal [0x03e0000000000000] = some (.bad .illOpc)
    ∧ refusal [0x4360600000000000] = some .short ∧ refusal [] = some .short := by decide +kernel
/-- The table's numbering of bits: the low 64 bits are the first slot. -/
theorem test_table_word : decodeTableWord 64 0x0000400a03000085 = some (.add (op 4 5 6 0 0x85))
    ∧ decodeTableWord 128 (0x4360600000000000 + 2 ^ 64 * 5) = some (.moviLong (op 6 0 0 0 0) 5) := by decide +kernel


/-! Integer, predicate and floating-point operations: the lane can perform each, and no condition is enabled. -/

/-- Registers 4 to 7, and a pair of FP64 numbers at 8 to 11. -/
def sAlu : State := st [(5, 7), (6, 3), (7, 2), (8, 0), (9, 0x3ff00000), (10, 0), (11, 0x40000000)] 3
def f32 : OpF := op 4 5 6 0 5

theorem wit_alu_no_trap : (sAlu.group 0 0 0).trapen = 0 := by decide +kernel
theorem wit_IntegerArithmetic : ([(Instr.add f32, f32), (.sub f32, f32), (.mulLo f32, f32), (.mulHi f32, f32), (.min f32, f32),
    (.max f32, f32), (.div f32, f32), (.rem f32, f32)].all fun p => can p.1 p.2 sAlu) = true := by decide +kernel
theorem wit_IntegerArithmetic_three : can (.mad (op 4 5 6 7 5)) (op 4 5 6 7 5) sAlu = true ∧ can (.abs (op 4 5 0 0 5)) (op 4 5 0 0 5) sAlu = true := by
  decide +kernel
theorem wit_BitOperations : ([(Instr.and (op 4 5 6 0 4), op 4 5 6 0 4), (.or (op 4 5 6 0 4), op 4 5 6 0 4), (.xor (op 4 5 6 0 4), op 4 5 6 0 4),
    (.andn (op 4 5 6 0 4), op 4 5 6 0 4), (.not (op 4 5 0 0 4), op 4 5 0 0 4), (.mov (op 4 5 0 0 4), op 4 5 0 0 4),
    (.shl (op 4 5 6 0 4), op 4 5 6 0 4), (.shr (op 4 5 6 0 4), op 4 5 6 0 4), (.sar (op 4 5 6 0 5), op 4 5 6 0 5),
    (.rot (op 4 5 6 0 4), op 4 5 6 0 4)].all fun p => can p.1 p.2 sAlu) = true := by decide +kernel
theorem wit_BitOperations_fields : ([(Instr.bfe (op 4 5 6 0 4), op 4 5 6 0 4), (.bfi (op 4 5 6 7 4), op 4 5 6 7 4),
    (.popc (op 4 5 0 0 4), op 4 5 0 0 4), (.clz (op 4 5 0 0 4), op 4 5 0 0 4), (.ctz (op 4 5 0 0 4), op 4 5 0 0 4),
    (.brev (op 4 5 0 0 4), op 4 5 0 0 4)].all fun p => can p.1 p.2 sAlu) = true := by decide +kernel
theorem wit_SelectMoveAddress : ([(Instr.sel (op 4 5 6 1 4), op 4 5 6 1 4), (.movi (op 4 0 0 0 9), op 4 0 0 0 9),
    (.lea (op 10 8 7 0 0x604), op 10 8 7 0 0x604)].all fun p => can p.1 p.2 sAlu) = true := by decide +kernel
theorem wit_ImmediateForms : ([Instr.addImm (op 4 5 0 0 100), .subImm (op 4 5 0 0 100), .mulLoImm (op 4 5 0 0 100),
    .andImm (op 4 5 0 0 100), .orImm (op 4 5 0 0 100), .xorImm (op 4 5 0 0 100), .minImm (op 4 5 0 0 100),
    .maxImm (op 4 5 0 0 100), .faddImm (op 4 5 0 0 100), .fmulImm (op 4 5 0 0 100)].all fun i => can i (op 4 5 0 0 100) sAlu) = true := by
  decide +kernel
theorem wit_ImmediateForms_shifts : ([Instr.shlImm (op 4 5 0 0 31), .shrImm (op 4 5 0 0 31), .sarImm (op 4 5 0 0 31)].all
    fun i => can i (op 4 5 0 0 31) sAlu) = true := by decide +kernel
theorem wit_ComparesAndPredicates : ([(Instr.cmp (op 3 5 6 0 0x405), op 3 5 6 0 0x405), (.fcmp (op 2 8 10 0 0x140b), op 2 8 10 0 0x140b),
    (.pand (op 3 1 2 0 0), op 3 1 2 0 0), (.por (op 3 1 2 0 0), op 3 1 2 0 0), (.pxor (op 3 1 2 0 0), op 3 1 2 0 0),
    (.pnot (op 3 1 0 0 0), op 3 1 0 0 0), (.pmov (op 3 1 0 0 0), op 3 1 0 0 0), (.pmovToReg (op 4 0 0 0 4), op 4 0 0 0 4),
    (.pmovFromReg (op 0 5 0 0 8), op 0 5 0 0 8)].all fun p => can p.1 p.2 sAlu) = true := by decide +kernel
theorem wit_FloatArithmetic : ([(Instr.fadd (op 4 5 6 0 10), op 4 5 6 0 10), (.fsub (op 4 5 6 0 0x10a), op 4 5 6 0 0x10a),
    (.fmul (op 4 5 6 0 10), op 4 5 6 0 10), (.ffma (op 4 5 6 7 10), op 4 5 6 7 10), (.fmin (op 4 5 6 0 10), op 4 5 6 0 10),
    (.fmax (op 4 5 6 0 10), op 4 5 6 0 10), (.fdiv (op 4 5 6 0 10), op 4 5 6 0 10),
    (.fsqrt (op 4 5 0 0 10), op 4 5 0 0 10)].all fun p => can p.1 p.2 sAlu) = true := by decide +kernel
theorem wit_FloatArithmetic_pairs : ([(Instr.faddF64 (op 12 8 10 0 11), op 12 8 10 0 11), (.fsubF64 (op 12 8 10 0 0x10b), op 12 8 10 0 0x10b),
    (.fmulF64 (op 12 8 10 0 11), op 12 8 10 0 11), (.ffmaF64 (op 12 8 10 8 11), op 12 8 10 8 11), (.fminF64 (op 12 8 10 0 11), op 12 8 10 0 11),
    (.fmaxF64 (op 12 8 10 0 11), op 12 8 10 0 11), (.fdivF64 (op 12 8 10 0 11), op 12 8 10 0 11),
    (.fsqrtF64 (op 12 8 0 0 11), op 12 8 0 0 11)].all fun p => can p.1 p.2 sAlu) = true := by decide +kernel
theorem wit_FloatArithmetic_packed : ([(Instr.hadd2 (op 4 5 6 0 8), op 4 5 6 0 8), (.hmul2 (op 4 5 6 0 9), op 4 5 6 0 9),
    (.hfma2 (op 4 5 6 7 8), op 4 5 6 7 8)].all fun p => can p.1 p.2 sAlu) = true := by decide +kernel
theorem wit_ApproximateFunctions : ([(Instr.frcpAp (op 4 5 0 0 10), op 4 5 0 0 10), (.frsqrtAp (op 4 5 0 0 10), op 4 5 0 0 10),
    (.fsinAp (op 4 5 0 0 10), op 4 5 0 0 10), (.fcosAp (op 4 5 0 0 10), op 4 5 0 0 10), (.fexp2Ap (op 4 5 0 0 10), op 4 5 0 0 10),
    (.flog2Ap (op 4 5 0 0 10), op 4 5 0 0 10), (.frcpApF64 (op 12 8 0 0 11), op 12 8 0 0 11),
    (.frsqrtApF64 (op 12 8 0 0 11), op 12 8 0 0 11)].all fun p => can p.1 p.2 sAlu) = true := by decide +kernel
theorem wit_ConversionsAndFormats : can (.cvt (op 8 4 0 0 0x1408)) (op 8 4 0 0 0x1408) sAlu = true
    ∧ can (.fmget (op 8 0 0 0 3)) (op 8 0 0 0 3) sAlu = true := by decide +kernel
/-- A legal and an illegal format value; the register is uniform over the only lane. -/
theorem wit_fmset : ([(0x318e0000 : Word), 0].all fun v =>
    let s := st (if v = 0 then [] else [(4, v)])
    let i := Instr.fmset (op 0 4 0 0 3)
    begins i (op 0 4 0 0 3) s && (match readReg (s.env i (op 0 4 0 0 3) x0) x0 s 4 with
      | .ok w => w == v && ran i s
      | _ => false)) = true ∧ fmtLegal 0x318e0000 = true ∧ fmtLegal 0 = false := by decide +kernel
theorem wit_nan : ((Fmt.ofType 10).unpack 0x7fc00000).isNan = true ∧ ((Fmt.ofType 10).unpack 0x7f800001).isSNan = true := by decide +kernel
/-- Numbers in order, and the two zeros, as the formats read them. -/
theorem wit_order : below (.fin false 1 0) (.fin false 2 0) ∧ below (.inf true) (.fin true 0 0) ∧ equal (.fin true 0 0) (.fin false 0 0) := by
  simp [below, equal, numerAt]
theorem wit_order_read : (Fmt.ofType 10).unpack 0x3f800000 = .fin false (2 ^ 23) (-23) ∧ ((Fmt.ofType 10).unpack 0x80000000).neg? = true
    ∧ ((Fmt.ofType 10).unpack 0).neg? = false ∧ ((Fmt.ofType 10).unpack 0x7f800000).isInf = true
    ∧ ((Fmt.ofType 10).unpack 0).isZero = true := by decide +kernel
/-- R156: arguments that are no power of two, a power of four, and an integer power for `exp2`. -/
theorem wit_ApproximateFunctions_numbers : Nat.log2 3 = 1 ∧ (3 : Nat) ≠ 2 ^ Nat.log2 3 ∧ powerOfFour 3 0 = none
    ∧ Fmt.f32.emin ≤ -(1 + 2) ∧ -(1 + 2) ≤ (Fmt.f32.bias : Int) ∧ numerAt false 3 0 (min 0 0) = 3 * 2 ^ (-(min (0 : Int) 0)).toNat
    ∧ Fmt.f32.qmin ≤ 3 ∧ 3 ≤ (Fmt.f32.bias : Int) := by decide +kernel
/-- R156: the climb between 2 and 5 stops where the free place of a result lies past the input. -/
theorem wit_ApproximateFunctions_climb : climb 2 5 7 (fun v => v) 3 0 = 5 ∧ climb 2 5 3 (fun v => v) 3 0 = 3 ∧ 2 < 2 ^ 3 := by decide +kernel
/-- R90 to R93: an overflow that an 8-bit format counts, a code that stands for its own number, and one of C16. -/
theorem wit_ConversionsAndFormats_narrow : fmtLegal 0x318e0000 = true
    ∧ ((Narrow.ofWord 0x318e0000).pack 0 (.fin false 1 40)).counted = true
    ∧ (match (Narrow.ofWord 0x318e0000).unpack 5 with
      | .fin .. => 5 < 2 ^ (Narrow.ofWord 0x318e0000).width
      | _ => false) = true
    ∧ (match c16Num 0x4000 with
      | .fin _ m _ => decide (m ≠ 0)
      | _ => false) = true := by decide +kernel
/-- An integer format: its numbers are rounded to integers of its scale. -/
theorem wit_ConversionsAndFormats_integer : fmtLegal 0x23800000 = true ∧ (Narrow.ofWord 0x23800000).e = 0
    ∧ ((Narrow.ofWord 0x23800000).pack 0 (.fin false 3 0)).counted = false := by decide +kernel
/-- R79: 4,097 lies between two numbers of f16, 4,096 and 4,100, and rounds to the nearer. -/
theorem wit_NearestRounding : Fmt.f16 ∈ [Fmt.f16, .bf16, .f32, .f64] ∧ (Fmt.f16.round 0 false false 4097 0).bits = 0x6c00
    ∧ (match Fmt.f16.unpack 0x6c00, Fmt.f16.unpack 0x6c01 with
      | .fin false m e, .fin false k d => m * 2 ^ e.toNat == 4096 && k * 2 ^ d.toNat == 4100
      | _, _ => false) = true := by decide +kernel

/-! Results, from the spec's worked examples and from its tables. -/

/-- R145: 0x7fff_fff0 + 0x20 under `.sat` clamps and records SAT. -/
theorem test_add_sat : let t := after (.add (op 4 5 6 0 0x85)) (st [(5, 0x7ffffff0), (6, 0x20)])
    reg t 4 = 0x7fffffff ∧ (t.thread x0).astat = 0x20 ∧ (t.thread x0).pc = 0x10008 := by decide +kernel
theorem test_add_wraps : reg (after (.add (op 4 5 6 0 4)) (st [(5, 0xffffffff), (6, 2)])) 4 = 1 := by decide +kernel
/-- R77: a zero divisor, and the most negative value over −1. -/
theorem test_div_zero : let t := after (.div (op 4 5 6 0 5)) (st [(5, 9)])
    reg t 4 = 0xffffffff ∧ (t.thread x0).astat = 2 := by decide +kernel
theorem test_div_min : let t := after (.div (op 4 5 6 0 5)) (st [(5, 0x80000000), (6, 0xffffffff)])
    reg t 4 = 0x80000000 ∧ (t.thread x0).astat = 0 := by decide +kernel
theorem test_rem_sign : reg (after (.rem (op 4 5 6 0 5)) (st [(5, 0xfffffff9), (6, 2)])) 4 = 0xffffffff := by decide +kernel
/-- R146: a shift by the width gives 0, an arithmetic one sign copies. -/
theorem test_shl_width : reg (after (.shl (op 4 5 6 0 4)) (st [(5, 1), (6, 32)])) 4 = 0 := by decide +kernel
theorem test_sar_beyond : reg (after (.sar (op 4 5 6 0 5)) (st [(5, 0x80000000), (6, 0x80000000)])) 4 = 0xffffffff := by decide +kernel
/-- R150: the index is scaled and added to the pair. -/
theorem test_lea : let t := after (.lea (op 10 2 7 0 0x605)) (st [(2, 0x10), (7, 0xffffffff)])
    reg t 10 = 8 ∧ reg t 11 = 0 := by decide +kernel
theorem test_sel_inverts : reg (after (.sel (op 7 4 5 0 0x204)) (st [(4, 1), (5, 2)])) 7 = 2 := by decide +kernel
theorem test_cmp_signed : let t := after (.cmp (op 3 4 5 0 0x405)) (st [(4, 0xffffffff), (5, 0)])
    (t.thread x0).pred 3 = true ∧ (t.thread x0).pred 2 = false := by decide +kernel
/-- R19: a write of p0 is discarded. -/
theorem test_cmp_p0 : ((after (.cmp (op 0 4 5 0 0x205)) (st [(4, 1), (5, 1)])).thread x0).pred 0 = true := by decide +kernel
/-- 1.0 − 1.0 is +0.0; a divisor of 0 gives an infinity with DZ. -/
theorem test_fsub_zero : reg (after (.fsub (op 4 5 6 0 0x10a)) (st [(5, 0x3f800000), (6, 0x3f800000)])) 4 = 0 := by decide +kernel
theorem test_fdiv_zero : let t := after (.fdiv (op 4 5 6 0 10)) (st [(5, 0xbf800000)])
    reg t 4 = 0xff800000 ∧ (t.thread x0).astat = 2 := by decide +kernel
theorem test_ffma_once : reg (after (.ffma (op 4 5 6 7 10)) (st [(5, 0x40000000), (6, 0x40400000), (7, 0x3f800000)])) 4 = 0x40e00000 := by
  decide +kernel
theorem test_fadd_f64 : let t := after (.faddF64 (op 12 8 10 0 11)) sAlu
    reg t 12 = 0 ∧ reg t 13 = 0x40080000 := by decide +kernel
theorem test_fmset_illegal : let t := after (.fmset (op 0 4 0 0 3)) (st [(4, 0xffffffff)])
    (t.thread x0).run = .parked ∧ (t.core 0).recs.map (·.cause) = [.fmtIllegal] := by decide +kernel
theorem test_movi_long : let t := after (.moviLong (op 6 0 0 0 0) 0x123456789abcdef0) (st [])
    reg t 6 = 0x9abcdef0 ∧ reg t 7 = 0x12345678 ∧ (t.thread x0).pc = 0x10010 := by decide +kernel

/-! Whole-machine statements. -/

/-- The sources that the lane reads. -/
def src (i : Instr) (f : OpF) (s : State) : Src := ((s.sources (s.env i f x0) x0).getD {})
/-- The offset that an access of n bytes of the lane names, and the global address. -/
def off (i : Instr) (f : OpF) (s : State) (n : Nat) : Nat := (s.env i f x0).addr32 (src i f s).a n
def gva (i : Instr) (f : OpF) (s : State) (n : Nat) : Nat := (s.env i f x0).addr64 (src i f s).a n
/-- What a got value is. -/
def gotOr {α : Type} (d : α) : Got α → α
  | .ok v => v
  | _ => d
/-- The state of an outcome. -/
def next (r : Host.Outcome State Fault Refusal) : Option State :=
  match r with
  | .next t => some t
  | _ => none

theorem wit_DecodeEncode : Instr.wellFormed (.tree (head 0 0 0x180) []) = true ∧ Instr.wellFormed (.moviLong (op 6 0 0 0 0) 5) = true := by decide +kernel
theorem wit_Canonical : State.reset.mem.wf = true ∧ (next (step State.reset)).isSome = true := by decide +kernel
theorem wit_Canonical_written : sAlu.mem.wf = true ∧ sAlu.mem.read 0x120008 = 0x1d := by decide +kernel
/-- The placed word is fetched through translation and runs. -/
theorem wit_StepRunsDecoded : let s := State.reset.withFetchWord 64 0x0000400a03000085
    s.agenda = [] ∧ s.sched = [0]
      ∧ (let here : State := { s with sched := [] }
        match here.issuer 0 with
        | none => false
        | some w => w.ins.isNone && (match here.fetchWords 0 0 0x10000 with
          | .ok ws s1 => read ws == some (.add (op 4 5 6 0 0x85)) && ran (.add (op 4 5 6 0 0x85)) { s1 with turn := 0 }
          | _ => false)) = true := by decide +kernel
theorem wit_StepRunsDecoded_one : let s := State.reset.withFetchWord 64 0x0000400a03000085
    (let here : State := { s with sched := [] };
      match (here.translateNow 0 0 0x10000 .fetch []) with
      | .ok y s1 => (CodeLine.at? (s1.core 0).code 0 0x10000).isNone && (match s1.loadBytes 0 (y.pa 0x10000) 64 y.cls with
        | some (m, bad, s2) => !bad && m % 2 ^ 64 == 0x0000400a03000085 && slotCount (BitVec.ofNat 64 m) == 1
          && ran (.add (op 4 5 6 0 0x85)) { s2 with turn := 0 }
        | none => false)
      | _ => false) = true := by decide +kernel
/-- The line of the instruction in the instruction cache. -/
def sCached : State :=
  let s : State := { State.reset.withFetchWord 64 0x0000400a03000085 with sched := [] }
  s.modCore 0 fun k => k.fillCode { part := 0, line := 0x400, data := 0x0000400a03000085 }
theorem wit_StepRunsDecoded_cached : (let here := sCached;
    match (here.translateNow 0 0 0x10000 .fetch []) with
      | .ok _ s1 => (CodeLine.at? (s1.core 0).code 0 0x10000).any (fun l => slotCount (l.slot 0x10000) == 1
          && read [l.slot 0x10000] == some (.add (op 4 5 6 0 0x85))) && ran (.add (op 4 5 6 0 0x85)) { s1 with turn := 0 }
      | _ => false) = true := by decide +kernel
/-- A wave that holds an instruction, and an event of the agenda. -/
theorem wit_StepRunsDecoded_held : let i := Instr.nop (op 0 0 0 0 0)
    (let s := (st []).modCore 0 (fun k => { k with active := [{ team := 0, lanes := [(0, 0)], ins := some i }] });
      ((s.issuer 0).any fun w => w.ins == some i) && ran i { s with turn := 0 }) = true
    ∧ Sys2Proof.Machine.Instr.isEvent (.launchPlace 0) = true := by decide +kernel
/-- R42: the slots placed where the next step fetches run there. -/
theorem test_step_runs : (next (step ((st [(5, 0x7ffffff0), (6, 0x20)]).withFetchWord 64 0x0000400a03000085))).any
    (fun t => reg t 4 == 0x7fffffff && (t.thread x0).pc == 0x10008) = true := by decide +kernel

/-! Frames and exceptions. -/

/-- A thread with a scratchpad offset in register 5, a global address in registers 8 and 9, and data in 6. -/
def sMem : State := st [(5, 16), (6, 0x11223344), (7, 3), (8, 0x18000)]
/-- The page of the address 0x18000 in the translations of the core, at the frame 0x13 and of class 3. -/
def withPage (s : State) : State := s.modCore 0 fun k =>
  { k with tlb := [{ part := 0, vpage := 1, size := 1, frame := 0x13, rem := false, node := 0, cls := 3, r := true, w := true, x := true, d := true }] }
def sG : State := withPage sMem
def fS : OpF := op 4 5 6 0 4

theorem wit_Frames_store : can (.stS (op 0 5 6 0 4)) (op 0 5 6 0 4) sMem = true ∧ (src (.stS (op 0 5 6 0 4)) (op 0 5 6 0 4) sMem).pops = []
    ∧ (sMem.core 0).store.wf = true ∧ off (.stS (op 0 5 6 0 4)) (op 0 5 6 0 4) sMem 4 = 16 ∧ (sMem.team 0 0).scratchSize = 65536
    ∧ ran (.stS (op 0 5 6 0 4)) sMem = true := by decide +kernel
theorem wit_Frames_load : can (.ldS (op 4 5 0 0 4)) (op 4 5 0 0 4) sMem = true ∧ (src (.ldS (op 4 5 0 0 4)) (op 4 5 0 0 4) sMem).pops = []
    ∧ off (.ldS (op 4 5 0 0 4)) (op 4 5 0 0 4) sMem 4 = 16 ∧ sMem.scratchBad 0 0 16 4 = false ∧ ran (.ldS (op 4 5 0 0 4)) sMem = true := by
  decide +kernel
theorem wit_Frames_global : let f := op 0 8 6 0 4
    can (.stG f) f sG = true ∧ (src (.stG f) f sG).pops = [] ∧ sG.mem.wf = true ∧ gva (.stG f) f sG 4 = 0x18000
      ∧ isOk (sG.translate x0 0x18000 .write) = true ∧ (gotOr (0, 0) (sG.translate x0 0x18000 .write)) = (0x138000, 3)
      ∧ isRemote 0x138000 = false ∧ (sG.team 0 0).det = false ∧ (sG.slice (homeOf 0x138000)).epochs.get (lineOf 0x138000) [] = []
      ∧ ran (.stG f) sG = true ∧ ((after (.stG f) sG).thread x0).pos.wait = none ∧ sG.inJournal 0x138000 = false
      ∧ (sG.die 0).lines.find? (lineOf 0x138000) = none
      ∧ makeWay (sG.die 0).quota ((sG.die 0).ways (lineOf 0x138000 % 16384)) 16 (classOf 0x138000 3) = some none := by decide +kernel
/-- The same with the line in the die cache, dirty or clean, and past a release. -/
def sGline (dirty : BitVec 128) (epoch : Nat) : State := (sG.modDie 0 fun k =>
  { k with lines := [(lineOf 0x138000, { data := 0x11223344, dirty := dirty, at_ := 0 })] }).modThread x0 fun th => { th with epoch := epoch }
theorem wit_Frames_global_line : ([(15, 0), (0, 0), (0, 3)].all fun q =>
    let s := sGline q.1 q.2
    let f := op 0 8 6 0 4
    can (.stG f) f s && gva (.stG f) f s 4 == 0x18000 && gotOr (0, 0) (s.translate x0 0x18000 .write) == (0x138000, 3)
      && ((s.die 0).lines.find? (lineOf 0x138000)).isSome && quotaOf (s.die 0).quota (classOf 0x138000 3) != 0
      && s.inJournal 0x138000 == false && ran (.stG f) s && ((after (.stG f) s).thread x0).pos.wait.isNone) = true := by decide +kernel
/-- Every condition enabled, with a handler and without one. -/
def sTrap (handler : Addr) : State :=
  ((st [(5, 0x7fffffff), (6, 0), (7, 0x7fffffff), (8, 1), (9, 0x7ff00000), (10, 2), (11, 0x7ff00000), (12, 0x80000001), (13, 0x7f800001)]).modGroup 0 0 0
    fun g => { g with trapen := 0x3f }).modTeam 0 0 fun k => { k with desc := { k.desc with handler := handler } }
/-- The flags that operations meet there. -/
theorem wit_TrapsAndParks : ([0x10000, 0].all fun h => [(Instr.add (op 4 5 7 0 0x85), op 4 5 7 0 0x85), (.mulLo (op 4 5 7 0 0x85), op 4 5 7 0 0x85),
    (.div (op 4 5 6 0 5), op 4 5 6 0 5), (.rem (op 4 5 6 0 5), op 4 5 6 0 5), (.fmul (op 4 13 5 0 10), op 4 13 5 0 10),
    (.fdivF64 (op 14 8 10 0 11), op 14 8 10 0 11), (.fsqrt (op 4 12 0 0 10), op 4 12 0 0 10)].all fun p => can p.1 p.2 (sTrap h)) = true
    ∧ (typeResult 5 true (typeValue 5 0x7fffffff + typeValue 5 0x7fffffff)).fl = flSAT
    ∧ (typeResult 5 true (typeValue 5 0x7fffffff * typeValue 5 0x7fffffff)).fl = flSAT ∧ typeValue 5 0 = 0
    ∧ (Fmt.f32.mul 0 false (.nan true) (.nan false)).fl = flNV ∧ (Fmt.f32.sqrt 0 false (.fin true 1 0)).fl = flNV
    ∧ (sTrap 0).core 0 = (sTrap 0).core 0 ∧ ((sTrap 0).core 0).recs = [] ∧ ((sTrap 0).team 0 0).nG = 224 := by decide +kernel
theorem wit_TrapsAndParks_misaligned : ([Instr.ldS (op 4 7 0 0 4), .stS (op 0 7 6 0 4)].all fun i =>
    match i with
    | .ldS f | .stS f => can i f sMem && off i f sMem 4 == 3
    | _ => false) = true ∧ (sMem.core 0).recs = [] := by decide +kernel
/-- A decode condition: a register beyond those of the team. -/
theorem wit_TrapsAndParks_decode : let i := Instr.far (op 0 0 0 0 8)
    (encode i).isSome = true ∧ sMem.alone x0 = true ∧ (i.codeFault 224 8).isSome = true := by decide +kernel
theorem test_trap_entry : let t := after (.div (op 4 5 6 0 5)) (sTrap 0x20000)
    (t.thread x0).pc = 0x20000 ∧ (t.thread x0).hflag = true ∧ reg t 220 = 0x10 ∧ reg t 221 = 1 ∧ reg t 222 = 0x10000 := by decide +kernel
theorem test_park : let t := after (.div (op 4 5 6 0 5)) (sTrap 0)
    (t.thread x0).run = .parked ∧ (t.thread x0).pc = 0x10000 ∧ (t.core 0).recs.map (·.cause) = [.arith] := by decide +kernel
theorem wit_PredicateZero : (op 0 0 0 0 0).d = 0 ∧ srcIdx 0 = 0 ∧ (newThread placedTeam 0 1 0x10000).pred 5 = false := by decide +kernel

/-! Collectives, memory and what completes later. -/

/-- A lone member: the mask it names, and what it brings to the collective. -/
def lone (i : Instr) (f : OpF) (s : State) : Bool :=
  let e := s.env i f x0
  match collMasks e [x0] (s.opened x0) with
  | [(x, .ok m)] => x == x0 && s.begins i f i.shape x0 && (s.group 0 0 0).presentIn m == [0] && (s.group 0 0 0).colls.isEmpty
    && isOk (dstReady e x0 (s.opened x0)) && isOk (collOperands e x0 (s.atOp x0)) && ran i s
  | _ => false
def sColl : State := st [(5, 9), (6, 1)] 3
theorem wit_Collectives : ([(Instr.shflIdx (op 4 5 6 0 0x00), op 4 5 6 0 0x00), (.shflUp (op 4 5 6 0 0), op 4 5 6 0 0), (.shflDown (op 4 5 6 0 0), op 4 5 6 0 0),
    (.shflXor (op 4 5 6 0 0), op 4 5 6 0 0), (.redux (op 4 5 0 0 4), op 4 5 0 0 4), (.voteAll (op 2 1 0 0 0), op 2 1 0 0 0),
    (.voteAny (op 2 1 0 0 0), op 2 1 0 0 0), (.ballot (op 4 1 0 0 0), op 4 1 0 0 0), (.scan (op 4 5 0 0 4), op 4 5 0 0 4),
    (.scan (op 4 5 0 0 0x84), op 4 5 0 0 0x84), (.elect (op 2 0 0 0 0), op 2 0 0 0 0), (.ashfl (op 2 1 6 0 0), op 2 1 6 0 0),
    (.aredd (op 2 1 0 0 0), op 2 1 0 0 0)].all fun p => lone p.1 p.2 sColl) = true := by decide +kernel
/-- An instance that every present member has joined, and one past its limit. -/
def sArrived (mask : Word) (first : Nat) : State := sColl.modGroup 0 0 0 fun g =>
  { g with colls := [{ pc := 0x10000, slot := 0, tree := false, opc := 0x67, f := op 4 5 0 0 4, mask := mask, arrived := [(0, 9, 0)], first := first }] }
theorem wit_Collectives_complete : let s := { sArrived 1 0 with now := 40 }
    let q := s.group 0 0 0
    (q.collAt 0x10000 q.collReady).any (fun k => k.arrived == [(0, 9, 0)] && q.presentIn k.mask == [0] && k.shape.d == .word true false false
      && (collResult k.opc k.f q.width [(0, 9, 0)] (0, 9, 0)).2 == 0) = true ∧ ran (.collectiveComplete 0 0 0 0x10000) s = true := by
  decide +kernel
theorem wit_Collectives_timeout : let s := ({ sArrived 3 0 with now := 2000000 }).modThread { c := 0, t := 0, g := 0, l := 1 } fun th => { th with run := .ready }
    let q := s.group 0 0 0
    (q.collAt 0x10000 fun k => !q.collReady k && decide (k.first + (s.team 0 0).limit ≤ s.clocks 0 0)).isSome = true
      ∧ ran (.collTimeout 0 0 0 0x10000) s = true := by decide +kernel
theorem wit_Collectives_sum : ((op 4 5 0 0 4).bits 11 8 = 0 ∧ (op 4 5 0 0 4).typ = 4)
    ∧ (collResult 0x67 (op 4 5 0 0 4) 32 [(0, 0xffffffff, 0), (3, 5, 0)] (0, 0xffffffff, 0)).1 = 4 := by decide +kernel
/-- R166: lane 1 of a segment of four reads lane 3, and keeps its own value where the source lies outside the segment; R168: an
exclusive sum of lane 3 is that of the lower lanes, of the first lane the identity. -/
theorem test_members : let ms : List Member := [(1, 11, 2), (3, 33, 2), (6, 66, 7)]
    (collResult 0x62 (op 4 5 6 0 0x300) 32 ms (1, 11, 2)).1 = 33 ∧ (collResult 0x62 (op 4 5 6 0 0x300) 32 ms (3, 33, 2)).1 = 33
      ∧ (collResult 0x60 (op 4 5 6 0 0x300) 32 ms (6, 66, 7)).1 = 66 ∧ (collResult 0x68 (op 4 5 0 0 0x84) 32 ms (6, 66, 7)).1 = 44
      ∧ (collResult 0x68 (op 4 5 0 0 0x184) 32 ms (1, 11, 2)).1 = 0xffffffff ∧ (ms.map (·.1)).Nodup := by decide +kernel

theorem wit_ScratchpadAccess : ([(Instr.ldS (op 4 5 0 0 4), op 4 5 0 0 4), (.stS (op 0 5 6 1 4), op 0 5 6 1 4), (.redS (op 0 5 6 0 4), op 0 5 6 0 4)].all
    fun p => can p.1 p.2 sMem && off p.1 p.2 sMem 4 % 4 == 0 && off p.1 p.2 sMem 4 + 4 ≤ 65536 && ran p.1 sMem) = true
    ∧ can (.atomS (op 4 5 6 7 0x1c04)) (op 4 5 6 7 0x1c04) sMem = true ∧ off (.atomS (op 4 5 6 7 0x1c04)) (op 4 5 6 7 0x1c04) sMem 0 = 16
    ∧ can (.atomS (op 4 5 6 1 4)) (op 4 5 6 1 4) sMem = true ∧ off (.atomS (op 4 5 6 1 4)) (op 4 5 6 1 4) sMem 4 = 20
    ∧ sMem.scratchBad 0 0 16 8 = false ∧ (sMem.team 0 0).det = false := by decide +kernel
/-- The release and the acquire of an atomic at every scope, and a reduction of a deterministic team, which is held. -/
theorem wit_ScratchpadAccess_scopes : ([4, 0x14, 0x24, 0x34, 0x44].all fun m => match (sMem.atOp x0).release x0 (op 4 5 6 1 m).scope with
    | .ok r => isOk ((r.scratchWrite 0 0 20 4 7).acquire x0 (op 4 5 6 1 m).scope)
    | _ => false) = true ∧ (let f := op 0 5 6 0 4
      let s := sMem.modTeam 0 0 fun k => { k with det := true }
      can (.redS f) f s && (s.team 0 0).det && isOk (holdRed (s.env (.redS f) f x0) x0 (s.atOp x0) true 16 3 1) && ran (.redS f) s) = true := by
  decide +kernel
theorem wit_AtomicValues : typeBits 5 = 32 ∧ (0xfffffffe : Nat) < 2 ^ typeBits 5 ∧ (let s := sG
    s.mem.wf = true ∧ (s.die (coreDie 0)).lines.find? (lineOf 0x138000) = none ∧ s.homeFree 0x138000 = true
      ∧ (s.slice (homeOf 0x138000)).epochs.get (lineOf 0x138000) [] = [] ∧ s.poison.contains (lineOf 0x138000) = false
      ∧ s.leasesOver 0 (lineOf 0x138000) = true ∧ (s.core 0).owes (lineOf 0x138000) = false ∧ s.inJournal 0x138000 = false
      ∧ (s.touch 0x138000 (classOf 0x138000 3) false).isSome = true
      ∧ ({ s with poison := [lineOf 0x138000] }).poison.contains (lineOf 0x138000) = true) := by decide +kernel
theorem wit_ApertureAndCluster : ([Instr.ldR (op 4 5 0 0 4), .stR (op 0 5 6 0 4)].all fun i => match i with
    | .ldR f | .stR f => can i f sMem && (apertureWords 224 8 (off i f sMem 4) 4) == some [4] && ran i sMem
    | _ => false) = true ∧ isOk (readWords x0 (sMem.atOp x0) [4]) = true := by decide +kernel
theorem wit_ApertureAndCluster_cluster : ([(Instr.ldx (op 4 5 0 0 4), op 4 5 0 0 4, Access.read), (.stx (op 0 5 6 0 4), op 0 5 6 0 4, .write)].all
    fun p => can p.1 p.2.1 sMem && isOk (clusterTarget (sMem.env p.1 p.2.1 x0) x0 sMem (src p.1 p.2.1 sMem).a 4 p.2.2) && ran p.1 sMem) = true := by
  decide +kernel
theorem wit_GlobalLoads : ([(Instr.ldG (op 4 8 0 0 4), op 4 8 0 0 4), (.ldG (op 4 8 0 0 0x184), op 4 8 0 0 0x184),
    (.ldC (op 4 8 0 0 4), op 4 8 0 0 4)].all fun p => can p.1 p.2 sG && gva p.1 p.2 sG 4 == 0x18000
      && gotOr (0, 0) (sG.translate x0 0x18000 .read) == (0x138000, 3)
      && ((sG.atOp x0).laneLoad 0 0x138000 4 3 (p.1 == .ldG p.2 && p.2.bits 8 7 != 3)).isSome && ran p.1 sG) = true
    ∧ can (.pref (op 0 8 0 0 0x800)) (op 0 8 0 0 0x800) sG = true := by decide +kernel
/-- A copy of the line in the L1 of the core, and none. -/
def sCopy : State := sG.modCore 0 fun k => { k with l1 := [(lineOf 0x138000, { data := 0x55667788, ends := 9, way := 0 })] }
theorem wit_GlobalLoads_copy : isRemote 0x138000 = false ∧ sCopy.homeFree 0x138000 .walker = true ∧ (sCopy.copyOf 0 (lineOf 0x138000)).isSome = true
    ∧ sG.copyOf 0 (lineOf 0x138000) = none ∧ (sG.fill (coreDie 0) 0x138000 (classOf 0x138000 3)).isSome = true ∧ (sG.core 0).writes.length = 0 := by
  decide +kernel
theorem test_copy_read : ((after (.ldG (op 4 8 0 0 4)) sCopy).thread x0).loads.map (·.words) = [[(4, 0x55667788)]] := by decide +kernel
theorem wit_GlobalStores : ([(Instr.stG (op 0 8 6 0 4), op 0 8 6 0 4, Access.write), (.redG (op 0 8 6 0 4), op 0 8 6 0 4, .readWrite),
    (.atomG (op 4 8 6 0 4), op 4 8 6 0 4, .readWrite)].all fun p => can p.1 p.2.1 sG && gva p.1 p.2.1 sG 4 == 0x18000
      && gotOr (0, 0) (sG.translate x0 0x18000 p.2.2) == (0x138000, 3) && !wideScope 0 (sG.team 0 0) p.2.1.scope && ran p.1 sG) = true
    ∧ ((sG.atOp x0).laneStore 0 0 0x138000 4 0x11223344 3 0).isSome = true
    ∧ ((sG.atOp x0).atomicAt 0 0x138000 4 3 0 fun m => m + 1).isSome = true := by decide +kernel
/-- An ordered atomic at the widest scope, whose earlier writes are acknowledged. -/
theorem wit_GlobalStores_ordered : let f := op 4 8 6 0 0x244
    can (.atomG f) f sG = true ∧ f.mod.getLsbD 9 = true ∧ (sG.thread x0).stores.length = 0 ∧ (sG.core 0).writes.length = 0
      ∧ (match (sG.atOp x0).release x0 f.scope with
        | .ok r => (r.atomicAt 0 0x138000 4 3 (max (r.thread x0).epoch (r.thread x0).ordEpoch) fun m => m + 1).any fun q => isOk (q.2.2.acquire x0 f.scope)
        | _ => false) = true ∧ ran (.atomG f) sG = true := by decide +kernel
/-- A team in deterministic mode that owns the page; and an address of another node with every port down. -/
def sDet : State := (sG.modTeam 0 0 fun k => { k with det := true }).modGroup 0 0 0 fun g => { g with owned := [(0x18000, 0x20000)] }
def sCut : State := (sG.modCore 0 fun k => { k with tlb := k.tlb.map fun y => { y with rem := true, node := 3 } }).modPkg fun k =>
  { k with ports := (List.range 32).map fun n => (n, { up := false }) }
theorem wit_GlobalStores_det : ([Instr.stG (op 0 8 6 0 4), .redG (op 0 8 6 0 4)].all fun i => can i (op 0 8 6 0 4) sDet && ran i sDet) = true
    ∧ (sDet.team 0 0).det = true ∧ (sDet.group 0 0 0).owns 0x18000 4 = true
    ∧ isOk (holdRed (sDet.env (.redG (op 0 8 6 0 4)) (op 0 8 6 0 4) x0) x0 (sDet.atOp x0) false 0x138000 3 1) = true := by decide +kernel
theorem wit_GlobalStores_cut : let f := op 0 8 6 0 4
    let pa := (gotOr (0, 0) (sCut.translate x0 0x18000 .write)).1
    can (.stG f) f sCut = true ∧ isOk (sCut.translate x0 0x18000 .write) = true ∧ isRemote pa = true ∧ sCut.noPath pa = true
      ∧ (sCut.team 0 0).det = false ∧ ((after (.stG f) sCut).core 0).recs.map (·.cause) = [.memError] := by decide +kernel

/-- A load, a store and a peer send outstanding. -/
def sOut : State := sG.modThread x0 fun th =>
  { th with loads := [{ words := [(4, 0xdead), (10, 7)], addr := 16 }], stores := [{}, { send := some (0, 130, 4, 0xbeef), seq := 3 }] }
/-- The send alone, the oldest of its group. -/
def sSend : State := sG.modThread x0 fun th => { th with stores := [{ send := some (0, 130, 4, 0xbeef), seq := 3 }] }
theorem wit_RepliesAndAcknowledgements : (sOut.thread x0).loads.length = 1 ∧ ran (.loadReply 0 0 0 0 0) sOut = true
    ∧ sOut.ackReady 0 {} = true ∧ ran (.storeAck 0 0 0 0 0) sOut = true
    ∧ sSend.clusterTeam 0 (sSend.team 0 0) = some 0 ∧ ((sSend.team 0 0).queue 130).words.length = 0 ∧ (sSend.team 0 0).over = false
    ∧ ((sSend.group 0 0 0).threads.all fun p => p.2.stores.all fun q => decide (3 ≤ q.seq)) = true
    ∧ ran (.peerSendAppend 0 0 0 0 0) sSend = true := by decide +kernel
theorem test_load_reply : let t := after (.loadReply 0 0 0 0 0) sOut
    reg t 4 = 0xdead ∧ reg t 10 = 7 ∧ (t.thread x0).loads = [] := by decide +kernel
/-- Lanes that wait for a walk which the tables answer, and for one that they do not. -/
def sWalk (va : Nat) : State := sMem.modPos x0 fun p => { p with wait := some (.walk va .read) }
theorem wit_TranslationWalk : (sWalk 0x18000).walkers 0 0x18000 .read = [x0] ∧ ran (.translationWalk 0 0x18000 .read) (sWalk 0x18000) = true
    ∧ (match (sWalk 0x18000).walk 0 0 0x18000 (Need.of .read) with
      | .ok y _ => y.frame == 0x13
      | _ => false) = true
    ∧ (match (sWalk 0x38000).walk 0 0 0x38000 (Need.of .read) with
      | .fault .. => true
      | _ => false) = true ∧ ran (.translationWalk 0 0x38000 .read) (sWalk 0x38000) = true := by decide +kernel
/-- A second lane that waits for the page too, with an access of its own. -/
def sWalkTwo (b : Access) : State :=
  (sWalk 0x38000).modThread { x0 with l := 1 } fun th => { th with run := .ready, pos := { th.pos with wait := some (.walk 0x38000 b) } }
theorem wit_TranslationWalk_shared : (sWalkTwo .read).walkers 0 0x38000 .read = [x0, { x0 with l := 1 }]
    ∧ ([Access.write, .readWrite].all fun b => ((sWalkTwo .read).walkers 0 0x38000 b).isEmpty) = true
    ∧ (match (sWalkTwo .write).walkFor 0 0 0x38000 .read with
      | some v => v.walkers 0 0x38000 .write == [{ x0 with l := 1 }] && (match v.walk 0 0 0x38000 (Need.of .write) with
        | .fault .. => ran (.translationWalk 0 0x38000 .read) (sWalkTwo .write)
        | _ => false)
      | none => false) = true := by decide +kernel
theorem test_walk_kinds : let t := after (.translationWalk 0 0x38000 .read) (sWalkTwo .write)
    [x0, { x0 with l := 1 }].map (fun z => (t.thread z).pos.wait) = List.replicate 2 (some (.walkFault 0x38000 .pageFault)) := by decide +kernel
/-- A leaf entry in memory, and what its walk answers: 0 for a translation, else the code of the fault. -/
def leafOf (e : Nat) (n : Need) (big : Bool := false) (bad : Bool := false) : Nat :=
  let s := { sMem with mem := sMem.mem.writeN 0x500008 8 e, poison := if bad then [lineOf 0x500008] else [] }
  match s.leafEntry 0 0 0x18000 0x500008 big n with
  | .ok y t => if y.covers 0 0x18000 && (t.mem.readN 0x500008 8 == e || e / 256 % 2 == 0 || n.dirty) then 0 else 999
  | .fault c _ => c.code.toNat
  | .blocked => 999
theorem wit_TranslationWalk_leaf : leafOf 1 (Need.of .read) false true = Cause.memError.code.toNat ∧ leafOf 0 (Need.of .read) = Cause.pageFault.code.toNat
    ∧ leafOf 0x130003 (Need.of .read) = Cause.pteBad.code.toNat ∧ leafOf 0x13010d (Need.of .read) true = Cause.pteBad.code.toNat
    ∧ leafOf 0x130101 (Need.of .read) = Cause.permFault.code.toNat ∧ leafOf 0x130105 (Need.of .write) = Cause.permFault.code.toNat
    ∧ leafOf 0x13010d (Need.of .read) = 0 ∧ leafOf 0x13000d (Need.of .read) = 0 ∧ leafOf 0x13010d (Need.of .write) = 0
    ∧ leafOf (0x8028000000130105) (Need.of .read) = 0 ∧ leafOf 0x20010d (Need.of .read) true = 0 := by decide +kernel
/-- A directory and a middle entry in memory, and the fault that the walk over them answers. -/
def tableOf (top e m : Nat) : Nat :=
  let s := sMem.modPart 0 fun q => { q with ptTop := BitVec.ofNat 32 top }
  let s := { s with mem := (s.mem.writeN (top * 2 ^ 16) 8 e).writeN 0x508000 8 m }
  match s.walkTable 0 0 0x18000 (Need.of .read) with
  | .ok .. => 0
  | .fault c _ => c.code.toNat
  | .blocked => 999
theorem wit_TranslationWalk_table : tableOf (2 ^ 24) 0 0 = Cause.pteBad.code.toNat ∧ tableOf 0x60 0 0 = Cause.pageFault.code.toNat
    ∧ tableOf 0x60 0x508003 0 = Cause.pteBad.code.toNat ∧ tableOf 0x60 0x508001 0 = Cause.pageFault.code.toNat
    ∧ tableOf 0x60 0x508001 0x520009 = Cause.pteBad.code.toNat ∧ tableOf 0x60 0x508001 0x520001 = Cause.pageFault.code.toNat
    ∧ tableOf 0x60 0x508001 0x520003 = Cause.pageFault.code.toNat := by decide +kernel

/-- A lane whose store waits for the lease of another core, and one whose team heard from the other die. -/
def sOwing : State := (sG.modThread x0 fun th => { th with stores := [{ writes := [9] }] }).modCore 0 fun k =>
  { k with writes := [{ id := 9, part := 0, pa := 0x138000, size := 4, val := 1, cls := 3, epoch := 0 }] }
def sHeard : State := sG.modTeam 0 0 fun k => { k with heard := true }
theorem wit_FencesAndWait : ([0x20, 0x30, 0x40].all fun m => [(Instr.fenceAcq (op 0 0 0 0 m), op 0 0 0 0 m), (.fenceRel (op 0 0 0 0 m), op 0 0 0 0 m),
    (.fenceAr (op 0 0 0 0 m), op 0 0 0 0 m)].all fun p => begins p.1 p.2 sG && ran p.1 sG) = true
    ∧ wideScope 0 (sG.team 0 0) (op 0 0 0 0 0x20).scope = false ∧ wideScope 0 (sG.team 0 0) (op 0 0 0 0 0x30).scope = true
    ∧ ((sG.atOp x0).acquirePkg 0).isSome = true ∧ (((sG.atOp x0).releasePkg 0).2.acquirePkg 0).isSome = true
    ∧ (((sG.atOp x0).releasePkg 0).2.releaseSys 0).isSome = true ∧ (sG.team 0 0).heard = false
    ∧ begins (.wait (op 1 2 0 0 0)) (op 1 2 0 0 0) sOut = true ∧ staleWait (op 1 2 0 0 0) (sOut.group 0 0 0) = none
    ∧ ran (.wait (op 1 2 0 0 0)) sOut = true := by decide +kernel
theorem wit_FencesAndWait_held : (sOwing.thread x0).stores.all (sOwing.ackedAt 0 1) = true ∧ sOwing.ackedAt 0 2 { writes := [9] } = false
    ∧ (match (sOwing.atOp x0).release x0 3 with
      | .wait w => w == .count
      | _ => false) = true ∧ (sHeard.team 0 0).heard = true
    ∧ ((sHeard.atOp x0).joinPkg 0).isSome = true := by decide +kernel
/-- A dirty line of die 2 that a release has tagged, known to its home; a recall for die 0 takes it home. -/
def sTagged : State := (sG.modDie 2 fun k =>
  { k with epoch := 5, lines := [(lineOf 0x138000, { data := 0x11223344, dirty := 15, epoch := 4, at_ := 0 })] }).modSlice (homeOf 0x138000) fun k =>
    { k with epochs := [(lineOf 0x138000, [(2, 5)])] }
theorem wit_FencesAndWait_recall : (sTagged.recall 0x138000 0).isSome = true
    ∧ ((sTagged.slice (homeOf 0x138000)).epochs.get (lineOf 0x138000) []) = [(2, 5)]
    ∧ ((sTagged.die 2).lines.find? (lineOf 0x138000)).any (fun l => l.dirty != 0) = true ∧ (sTagged.writeBack 2 (lineOf 0x138000)).isSome = true
    ∧ sTagged.mem.wf = true ∧ sTagged.openMem = [] := by decide +kernel
theorem test_recall : ((sTagged.recall 0x138000 0).any fun t => t.mem.readN 0x138000 4 == 0x11223344) = true := by decide +kernel

/-! Waits, barriers, channels and engines. -/

/-- A lane that waits, and its wave, stalled at the instruction. -/
def sWait (i : Instr) (q : Wait) (s : State := sMem) : State :=
  (s.modPos x0 fun p => { p with wait := some q }).modCore 0 fun k => { k with active := [{ team := 0, lanes := [(0, 0)], ins := some i, stalled := true }] }
/-- It resumes by the row. -/
def resumed (i r : Instr) (q : Wait) (s : State := sMem) : Bool :=
  let s := sWait i q s
  (s.waveOf x0).any (fun w => w.stalled && s.met w x0) && ran r s
theorem wit_WaitingLanes : ([Wait.reply, .count, .walk 0x18000 .read, .walkFault 0x18000 .pageFault, .line 0x18000, .dispatcher, .fswait].all fun q =>
    resumed (.add (op 4 5 6 0 4)) (.waitResume 0 0 0 0) q) = true := by decide +kernel
theorem wit_WaitingLanes_rows : resumed (.waitbar (op 0 8 6 0 0x30)) (.waitbarResume 0 0 0 0) .waitbar sG = true
    ∧ resumed (.add (op 4 5 6 0 4)) (.channelResume 0 0 0 0) (.chanEmpty 3) = true
    ∧ resumed (.add (op 4 5 6 0 4)) (.channelResume 0 0 0 0) (.chanFull 3) = true
    ∧ resumed (.fput (op 0 5 6 0 0)) (.futureResume 0 0 0 0) (.future 16 false false) = true := by decide +kernel
theorem wit_WaitingLanes_never : ([Wait.collective, .barrier .team, .icinv, .turn].all fun q =>
    let s := sWait (.nop (op 0 0 0 0 0)) q
    (s.waveOf x0).any (fun w => w.stalled && s.met w x0)) = true := by decide +kernel
theorem wit_WaveSets : let s := { sWait (.waitbar (op 0 8 6 0 0x30)) .waitbar with now := 40 }
    let b := (sMem.modCore 0 fun k => { k with bins := [{ team := 0, pair := 0, pc := 0x10000, lanes := [(0, 0)], filed := 0 }], active := [] })
    let b := { b with now := 0x100 }
    (s.rotates 0).isSome = true ∧ ran (.activeSetRotate 0) s = true ∧ ((b.core 0).bins[0]?.any fun q => b.binDue 0 q && !q.lanes.isEmpty) = true
      ∧ ran (.quadrilleAgeDrain 0 0) b = true := by decide +kernel

theorem wit_Barriers : ([(BarKind.team, Instr.bar (op 0 0 0 0 0), op 0 0 0 0 0), (.cluster, .barClu (op 0 0 0 0 0), op 0 0 0 0 0),
    (.grid, .barGrid (op 0 0 0 0 0x30), op 0 0 0 0 0x30)].all fun p => begins p.2.1 p.2.2 sMem && isOk (relLane x0 (barScope p.1 p.2.2) (sMem.opened x0))
      && ran p.2.1 sMem) = true ∧ ((sMem.group 0 0 0).task).isNone = true ∧ (sMem.team 0 0).bars.length = 0 := by decide +kernel
/-- One thread at a barrier that is complete. -/
def sBar : State := after (.bar (op 0 0 0 0 0)) sMem
def sRelease : State := { after (.barrierOpen 0 0 .team) sBar with now := 0x400 }
theorem wit_Barriers_open : (sBar.team 0 0).bars.any (·.kind == .team) = true ∧ sBar.barReady 0 0 .team = true
    ∧ (sBar.team 0 0).det = false ∧ ran (.barrierOpen 0 0 .team) sBar = true := by decide +kernel
theorem wit_Barriers_release : (sRelease.flask 0).release = [(0, 0, 0)] ∧ (sRelease.flask 0).nextAt ≤ sRelease.now ∧ (sRelease.flask 0).gap ≠ 0
    ∧ ([(5, 1), (5, 2), (0, 1)].all fun q =>
      let s := sRelease.modFlask 0 fun k => { k with gap := q.1, step := q.2, release := [(0, 0, 0), (0, 0, 0)] }
      (((s.flask 0).release.take 2).foldlM (fun (s : State) (d : Nat × Nat × Nat) => s.depart d.1 d.2.1 d.2.2) s).isSome && ran (.pavaneReleaseStep 0) s) = true := by decide +kernel
/-- R323: without a gap every group departs at once. -/
theorem test_release_all : let s := sRelease.modFlask 0 fun k => { k with gap := 0, step := 1, release := [(0, 0, 0), (0, 0, 0)] }
    ((after (.pavaneReleaseStep 0) s).flask 0).release = [] := by decide +kernel
/-- A second lane that never comes. -/
def sLate : State := { sBar.modThread { c := 0, t := 0, g := 0, l := 1 } (fun th => { th with run := .ready }) with now := 2000000 }
theorem wit_Barriers_timeout : (match (sLate.team 0 0).bars.find? (·.kind == .team) with
    | some b => decide (b.first + (sLate.team 0 0).limit ≤ sLate.clocks 0 0)
    | none => false) = true ∧ sLate.barReady 0 0 .team = false ∧ ran (.barTimeout 0 0 .team) sLate = true := by decide +kernel

/-- A barrier object in the scratchpad at 16: tag 0x11223344, three expected, two to come, phase 5. -/
def sObj : State := sMem.modCore 0 fun k => { k with store := k.store.writeN (65536 + 16) 16 (0x11223344 + 2 ^ 32 * 3 + 2 ^ 64 * 2 + 2 ^ 96 * 5) }
theorem wit_BarrierObjects : let f := op 4 5 6 0 0x90
    can (.arrive f) f sObj = true ∧ (sObj.thread x0).loads.length = 0 ∧ (match relLane x0 f.scope (sObj.atOp x0) with
      | .ok r => isOk (objectRmw x0 r true (objectAddr (sObj.env (.arrive f) f x0) 16) true fun o => (arrival 0x11223344 o).getD o)
      | _ => false) = true ∧ ran (.arrive f) sObj = true := by decide +kernel
theorem wit_BarrierObjects_wait : let f := op 0 5 6 0 0x90
    can (.waitbar f) f sObj = true ∧ (sObj.group 0 0 0).staleAt true 16 = false
      ∧ isOk (objectRmw x0 (sObj.atOp x0) true 16 false id) = true ∧ ran (.waitbar f) sObj = true
      ∧ (let s := sObj.modThread x0 fun th => { th with win := th.win.set 6 5 }
        can (.waitbar f) f s && ran (.waitbar f) s) = true := by decide +kernel
theorem test_arrive : let t := after (.arrive (op 4 5 6 0 0x90)) sObj
    (t.core 0).store.readN (65536 + 16) 16 = 0x11223344 + 2 ^ 32 * 3 + 2 ^ 64 * 1 + 2 ^ 96 * 5
      ∧ (t.thread x0).loads.map (·.words) = [[(4, 5)]] := by decide +kernel
theorem wit_BarrierObjects_values : arrival 7 (7 + 2 ^ 32 * 3 + 2 ^ 64 * 1 + 2 ^ 96 * 9) = some (7 + 2 ^ 32 * 3 + 2 ^ 64 * 3 + 2 ^ 96 * 10)
    -- a REMAIN of 0, or above EXPECT, counts as EXPECT
    ∧ ([0, 5].all fun r => arrival 7 (7 + 2 ^ 32 * 3 + 2 ^ 64 * r + 2 ^ 96 * 9) == some (7 + 2 ^ 32 * 3 + 2 ^ 64 * 2 + 2 ^ 96 * 9)
      && arrival 7 (7 + 2 ^ 32 + 2 ^ 64 * r + 2 ^ 96 * 9) == some (7 + 2 ^ 32 + 2 ^ 64 + 2 ^ 96 * 10)) = true := by
  decide +kernel

theorem wit_Binding : begins (.yield (op 0 0 0 0 0)) (op 0 0 0 0 0) sMem = true ∧ (sMem.team 0 0).preqAt = none
    ∧ begins (.yield (op 0 0 0 0 0)) (op 0 0 0 0 0) (sMem.modTeam 0 0 fun k => { k with preqAt := some 0 }) = true
    ∧ (let f := op 3 7 0 0 0x81
      begins (.cbind f) f sMem && isOk (readSrc (sMem.env (.cbind f) f x0) x0 (sMem.opened x0) (Instr.cbind f).shape.s1 f.s1)
        && (bindTarget sMem x0 3 1 4 3).isSome && ran (.cbind f) sMem) = true := by decide +kernel
/-- A full slot at 16 and an empty one at 24. -/
def sFut : State := (sMem.modCore 0 fun k => { k with store := k.store.writeN (65536 + 16) 8 (2 ^ 63 + 0xcafe) }).modThread x0 fun th => { th with win := th.win.set 7 24 }
theorem wit_Futures : ([(Instr.fput (op 0 7 6 0 0), op 0 7 6 0 0, 24), (.fput (op 0 5 6 0 0), op 0 5 6 0 0, 16), (.fget (op 4 5 0 0 0), op 4 5 0 0 0, 16),
    (.fget (op 4 7 0 0 0), op 4 7 0 0 0, 24), (.fgetPeek (op 4 5 0 0 1), op 4 5 0 0 1, 16)].all fun p =>
      can p.1 p.2.1 sFut && (sFut.env p.1 p.2.1 x0).addr32 (src p.1 p.2.1 sFut).a 8 == p.2.2 && ran p.1 sFut) = true
    ∧ futFull (sFut.future x0 16) = true ∧ futFull (sFut.future x0 24) = false ∧ sFut.futTurn x0 24 false = true
    ∧ sFut.futTurn x0 16 true = true ∧ sFut.scratchBad 0 0 16 8 = false ∧ sFut.scratchBad 0 0 24 8 = false := by decide +kernel
theorem test_fget : let t := after (.fget (op 4 5 0 0 0)) sFut
    reg t 4 = 0xcafe ∧ futFull (t.future x0 16) = false := by decide +kernel

/-! Engines: blocks in the scratchpad, operations in the queues. -/

/-- A block from fields: the lowest bit of each and its value. -/
def block (fs : List (Nat × Nat)) : BitVec 512 := fs.foldl (fun b q => b ||| BitVec.ofNat 512 (q.2 * 2 ^ q.1)) 0
def mmaBlock : BitVec 512 := block [(259, 1), (288, 1), (32, 1024), (262, 1)]
def mmvBlock : BitVec 512 := block [(284, 1), (288, 1), (280, 1), (64, 0x1000), (448, 0x318e0000), (128, 0x18000)]
def pourAt (va : Nat) : BitVec 512 := block [(0, va), (64, 0x800), (160, 4), (288, 1), (355, 5), (358, 4), (364, 0)]
def pourBlock : BitVec 512 := pourAt 0x18000
/-- The three blocks at 0, 64 and 128 of the scratchpad, their offsets in uniform registers 1 to 3; a block of end kind in the queue at 9. -/
def sEng : State :=
  (stk [(1, 64), (2, 128), (3, 0x01ff), (4, 0x0100), (5, 9)] [(8, 0x18000)]).modCore 0 fun k =>
    { k with store := ((k.store.writeN 65536 64 mmaBlock.toNat).writeN (65536 + 64) 64 mmvBlock.toNat).writeN (65536 + 128) 64 pourBlock.toNat }
def engOps : List (Instr × OpF × Engine) := [(.accz (op 2 0 0 0 0), op 2 0 0 0 0, .matrix), (.accld (op 2 225 228 0 0), op 2 225 228 0 0, .matrix),
  (.accst (op 0 225 228 2 0), op 0 225 228 2 0, .matrix), (.mma (op 0 224 0 0 0), op 0 224 0 0 0, .matrix), (.mmv (op 0 225 0 0 0), op 0 225 0 0 0, .matrix),
  (.mqrun (op 0 229 228 0 0), op 0 229 228 0 0, .matrix), (.pour (op 0 226 0 0 0), op 0 226 0 0 0, .pour), (.pourOut (op 0 226 0 0 0), op 0 226 0 0 0, .pour)]
/-- The lane begins and holds both uniform operands. -/
def pairs (i : Instr) (f : OpF) (s : State) : Bool := begins i f s && (match operandPairs (s.env i f x0) [x0] (s.opened x0) i.shape.s2 with
  | [(x, .ok _)] => x == x0
  | _ => false)
theorem wit_EngineIssue : (engOps.all fun p => pairs p.1 p.2.1 sEng && ((sEng.core 0).queue p.2.2).length == 0 && ran p.1 sEng) = true ∧ (sEng.group 0 0 0).tCount = 0 ∧ (sEng.group 0 0 0).cCount = 0 := by decide +kernel
theorem wit_EngineIssue_blocks : let k := sEng.team 0 0
    tileRangeBad k 64 0x100 = false ∧ mmaBad k (sEng.group 0 0 0) mmaBlock 0 = false ∧ mmvBad k mmvBlock = false ∧ pourBad k pourBlock 0 false = false
      ∧ pourBad k pourBlock 0 true = false ∧ 9 / 64 < k.fifoBanks.length ∧ gotOr 0 (readBlock x0 (sEng.opened x0) 0) = mmaBlock
      ∧ gotOr 0 (readBlock x0 (sEng.opened x0) 64) = mmvBlock ∧ gotOr 0 (readBlock x0 (sEng.opened x0) 128) = pourBlock
      ∧ isOk (captureTag x0 (sEng.opened x0) false 0) = true := by decide +kernel
/-- Both queues full: each waits. -/
def sFull : State := sEng.modCore 0 fun k =>
  let os := List.replicate 8 ({ kind := .accz, team := 0, group := 0, addr := 0 } : EngOp)
  { k with mq := os, pq := os }
theorem wit_EngineIssue_full : (engOps.all fun p => pairs p.1 p.2.1 sFull && ((sFull.core 0).queue p.2.2).length == 8 && ran p.1 sFull) = true := by
  decide +kernel

/-! One step of an engine, and completion. -/

/-- An operation at the head of a queue of the engine state. -/
def sMat (o : EngOp) (s : State := sEng) : State := (s.modCore 0 fun k => { k with mq := [o] }).modGroup 0 0 0 fun g => { g with tCount := 1 }
def engOp (kind : EngKind) : EngOp := { kind := kind, team := 0, group := 0, addr := 512, tile := 2, rows := 0x100 }
theorem wit_EngineSteps : ([EngKind.accz, .accst, .accld].all fun k =>
    let s := sMat (engOp k)
    (s.core 0).mayRun (engOp k) && !(engOp k).hot && ran (.engineOpStart 0 .matrix 1) s) = true ∧ sEng.scratchBad 0 0 512 512 = false := by decide +kernel
theorem wit_EngineSteps_mma : ([EngKind.mma, .mqrun].all fun k =>
    let o : EngOp := { engOp k with block := mmaBlock, inBlock := true }
    ((sMat o).core 0).mayRun o && !(sMat o).scratchBad 0 0 1024 (groupBytes 0) && !(sMat o).scratchBad 0 0 0 (groupBytes 0)) = true
      ∧ mmaBlock.getLsbD 259 = true ∧ blkBits mmaBlock 285 284 = 0
      ∧ ran (.engineOpStart 0 .matrix 1) (sMat { engOp .mma with block := mmaBlock }) = true := by decide +kernel
/-- The weights, and a bias, come from the mapped page. -/
theorem wit_EngineSteps_mmv : ([mmvBlock, mmvBlock ||| block [(265, 1), (192, 0x18400)]].all fun b =>
    let o : EngOp := { engOp .mmv with block := b }
    let s := sMat o (withPage sEng)
    let begun : EngOp := { o with begun := true }
    let s1 := s.setHead 0 .matrix begun
    let wf := Narrow.ofWord (b.extractLsb' 448 32)
    let rows := blkBits b 279 273 + 1
    let path : EngPath := { c := 0, t := 0, es := (s.group 0 0 0).extents }
    let r := if b.getLsbD 265 then weightRead path 4 (blkBits b 255 192) ((rows * wf.width + 7) / 8) [] begun s1 else (begun, .ok [] s1)
    (s.core 0).mayRun o && !mmvBad (s.team 0 0) b && !s.scratchBad 0 0 (blkBits b 63 32) 256 && blkBits b 285 284 == 1
      && (match r with
        | (o1, .ok _ u) => (match readWeights path wf.width rows [] o1 u with
          | (_, .ok _) => true
          | _ => false)
        | _ => false)) = true := by decide +kernel
/-- A Pour operation at the head. -/
def sPq (kind : EngKind) (b : BitVec 512) (prog : Nat := 0) : State :=
  (withPage sEng).modCore 0 fun k => { k with pq := [{ engOp kind with block := b, prog := prog }] }
/-- Its head may run, and its elements are read well or end in a fault. -/
def pours (s : State) (good : Bool) : Bool :=
  match (s.core 0).pq with
  | o :: _ => (s.core 0).mayRun o && !s.pkg.inReset.contains pourKind
    && (match pourElems 0 { o with begun := true } (s.setHead 0 .pour { o with begun := true }) with
      | (_, .ok _ _) => good
      | (_, .fault ..) => !good
      | _ => false) && ran (.engineOpStart 0 .pour 1) s
  | [] => false
theorem wit_EngineSteps_pour : pours (sPq .pour pourBlock) true = true ∧ pours (sPq .pour (pourAt 0x38000)) false = true := by decide +kernel
/-- A copy within the page, and one whose destination is not mapped. -/
def copyBlock (to_ : Nat) : BitVec 512 := block [(0, 0x18000), (64, to_), (160, 4), (288, 1), (184, 1), (355, 5), (358, 4)]
/-- What an engine's write of n bytes ends in. -/
def writes (va n : Nat) (s : State) : Bool × Bool :=
  match engWrite { c := 0, t := 0 } (n / 128 + 2) va (List.replicate n 0) [] s with
  | .ok d _ => (true, d.length == n)
  | .fault .. => (false, true)
  | _ => (false, false)
theorem wit_EngineSteps_copy : pours (sPq .copy (copyBlock 0x19000)) true = true ∧ writes 0x19000 16 (sPq .copy (copyBlock 0x19000)) = (true, true)
    ∧ pours (sPq .copy (copyBlock 0x39000)) true = true ∧ writes 0x39000 16 (sPq .copy (copyBlock 0x39000)) = (false, true) := by decide +kernel
/-- A row written out, a row that faults, and the overflow word after the last row. -/
theorem wit_EngineSteps_out : ([(0x18000, true), (0x38000, false)].all fun q => let s := sPq .pourOut (pourAt q.1)
      (s.core 0).pq.all (fun o => (s.core 0).mayRun o && o.prog < blkBits (pourAt q.1) 303 288) && !s.scratchBad 0 0 0x800 16
        && writes q.1 16 s == (q.2, true) && ran (.engineOpStart 0 .pour 1) s) = true
    ∧ pourBlock.getLsbD 363 = false ∧ blkBits pourBlock 303 288 = 1
    ∧ (let s := sPq .pourOut pourBlock 1
      (s.core 0).pq.all (fun o => (s.core 0).mayRun o) && writes 0x18010 4 s == (true, true) && ran (.engineOpStart 0 .pour 1) s) = true := by decide +kernel
theorem wit_EngineCompletion : ([EngKind.accz, .accld, .accst].all fun k =>
    let s := sMat { engOp k with done := true }
    ((s.team 0 0).groups.find? 0).isSome && !(s.group 0 0 0).done && ran (.engineOpComplete 0 .matrix) s) = true := by decide +kernel
/-- An operation that signals a barrier object at 16 and a future slot at 48. -/
def signalled : BitVec 512 := mmaBlock ||| block [(263, 1), (320, 2 ^ 63 + 16), (264, 1), (384, 48), (416, 0xcafe)]
theorem wit_EngineCompletion_signals : let o : EngOp := { engOp .mma with block := signalled, tag := 0x77, done := true }
    let s := (sMat o).scratchWrite 0 0 16 16 (0x77 + 2 ^ 32 * 3 + 2 ^ 64 * 2 + 2 ^ 96 * 5)
    o.signals.barv = true ∧ o.signals.bar.testBit 63 = true ∧ o.signals.bar % 2 ^ 48 = 16 ∧ s.scratchBad 0 0 16 16 = false
      ∧ (arrival 0x77 (s.scratchRead 0 0 16 16)).isSome = true ∧ o.signals.fut = true ∧ o.signals.foff = 48
      ∧ s.scratchBad 0 0 48 8 = false ∧ (s.scratchRead 0 0 48 8).testBit 63 = false ∧ ran (.engineOpComplete 0 .matrix) s = true := by decide +kernel
/-- A run at a queue that holds a block. -/
def sRun (b : BitVec 512) : State :=
  let ws : List Word := (List.range 16).map fun i => b.extractLsb' (32 * i) 32
  sMat { engOp .mqrun with addr := 130 } (sEng.modTeam 0 0 fun k => { k with queues := [(130, { words := ws })] })
theorem wit_EngineCompletion_run : ran (.mqrunBlock 0) (sRun (block [(284, 2)])) = true ∧ ran (.mqrunBlock 0) (sRun mmaBlock) = true
    ∧ ran (.mqrunBlock 0) (sRun mmvBlock) = true ∧ ((sRun mmvBlock).team 0 0).queue 130 ≠ {} ∧ blkBits mmvBlock 285 284 = 1
    ∧ mmvBlock.getLsbD 263 = false ∧ mmaBlock.getLsbD 263 = false
    ∧ mmaBad (sEng.team 0 0) (sEng.group 0 0 0) mmaBlock 0 = false ∧ mmvBad (sEng.team 0 0) mmvBlock = false
    ∧ ((List.range 16).all fun i => !(sEng.core 0).badWords.contains ((sEng.team 0 0).entryWord 130 i)) = true
    -- a kind that fits neither form stops the run
    ∧ blkBits (block [(284, 3)]) 285 284 = 3 ∧ ran (.mqrunBlock 0) (sRun (block [(284, 3)])) = true := by decide +kernel

/-! Graph instructions, messages and affine operations. -/

/-- A team whose group reads a token or an address from uniform registers 1 and 2, with a task record and a copy record. -/
def copyRecord : BitVec 512 := copyBlock 0x19000
def taskRecord (scope gen : Nat) : BitVec 512 := block [(0, 0x10000), (176, scope), (480, gen)]
def sGraph (tok : Nat) (rec_ : BitVec 512 := taskRecord 0 0) : State :=
  let s := withPage (stk (if tok = 0 then [] else [(2, BitVec.ofNat 32 tok)]))
  let s := { s with mem := s.mem.writeN 0x138000 64 (rec_.toNat % 2 ^ 512) }
  s.modPart 0 fun q => { q with scopes := [(1, { launch := 1, state := 1 })] }
/-- The lane begins, its operands are uniform, and its release is performed. -/
def graphOk (i : Instr) (f : OpF) (s : State) : Bool :=
  pairs i f s && isOk (graphRelease [x0] (s.opened x0)) && ran i s
/-- The machine after the release of the instruction. -/
def released (s : State) : State := gotOr s (graphRelease [x0] (s.opened x0))
theorem wit_Graph_tspawn : ([taskRecord 0 0, taskRecord 1 0, copyRecord].all fun b =>
    let s := sGraph 0x18000 b
    let r := released s
    graphOk (.tspawn (op 0 226 0 0 0)) (op 0 226 0 0 0) s && gotOr (0, 0) (r.translate x0 0x18000 .read) == (0x138000, 3)
      && !(if recCopy b then copyBad b else taskBad b) && (match readRecord (r.counted x0 0x18000 .read) 0x138000 0x18000 3 with
        | .ok (v, u) => v == b && (recScope b == 0 || (u.part 0).scopeOpen (recScope b) (recSgen b) 1) && (match recordRegions u 0 0x18000 v with
          | .ok (_, w) => ((w.part 0).nodeAt 0x18000).isNone && decide ((w.part 0).nodes.length < 65536)
          | _ => false)
        | _ => false)) = true := by decide +kernel
/-- A record of a scope that is not open. -/
theorem wit_Graph_scope : let s := sGraph 0x18000 (taskRecord 2 0)
    graphOk (.tspawn (op 0 226 0 0 0)) (op 0 226 0 0 0) s = true ∧ recScope (taskRecord 2 0) = 2
      ∧ (match readRecord ((released s).counted x0 0x18000 .read) 0x138000 0x18000 3 with
        | .ok (v, u) => v == taskRecord 2 0 && !(u.part 0).scopeOpen 2 0 1
        | _ => false) = true ∧ (s.core 0).recs.length = 0 := by decide +kernel
theorem wit_Graph_gnode : ([1, 2].all fun n =>
    let s := sGraph 0x18000 (taskRecord 0 0 ||| block [(320, n)])
    graphOk (.gnode (op 0 226 0 0 0)) (op 0 226 0 0 0) s && gotOr (0, 0) ((released s).translate x0 0x18000 .readWrite) == (0x138000, 3)
      && (match (released s).atomicAt 0 (predAt 0x138000) 4 3 ((released s).thread x0).epoch (fun m => m - 1) with
        | some (m, bad, _) => m == n && !bad
        | none => false)) = true := by decide +kernel
/-- A count of 0, and a dispatcher that stands in reset. -/
theorem wit_Graph_count : let s := sGraph 0x18000
    graphOk (.gnode (op 0 226 0 0 0)) (op 0 226 0 0 0) s = true ∧ s.dispOff = false ∧ (s.core 0).recs.length = 0
      ∧ (match (released s).atomicAt 0 (predAt 0x138000) 4 3 ((released s).thread x0).epoch (fun m => m - 1) with
        | some (m, bad, _) => m == 0 && !bad
        | none => false) = true := by decide +kernel
theorem test_gnode_count : let t := after (.gnode (op 0 226 0 0 0)) (sGraph 0x18000)
    (t.thread x0).run = .parked ∧ (t.core 0).recs.map (fun r => (r.cause, r.addr)) = [(.graphCount, 0x18000)] := by decide +kernel
theorem wit_Graph_off : let s := (sGraph 0x18000).modPkg fun k => { k with inReset := [dispatcherKind] }
    s.dispOff = true ∧ ([(Instr.tspawn (op 0 226 0 0 0), op 0 226 0 0 0), (.gnode (op 0 226 0 0 0), op 0 226 0 0 0), (.fsopen (op 4 226 0 0 0), op 4 226 0 0 0),
      (.fsclose (op 0 226 0 0 0), op 0 226 0 0 0), (.fswait (op 0 226 0 0 0), op 0 226 0 0 0)].all fun p => graphOk p.1 p.2 s) = true := by decide +kernel
theorem wit_Graph_scopes : graphOk (.fsopen (op 4 226 0 0 0)) (op 4 226 0 0 0) (sGraph 0) = true
    ∧ graphOk (.fsopen (op 4 226 0 0 0)) (op 4 226 0 0 0) (sGraph 1) = true ∧ ((released (sGraph 1)).part 0).freeScope.isSome = true
    ∧ graphOk (.fsclose (op 0 226 0 0 0)) (op 0 226 0 0 0) (sGraph 1) = true ∧ ((released (sGraph 1)).part 0).scopeOpen 1 0 1 = true
    ∧ graphOk (.fswait (op 0 226 0 0 0)) (op 0 226 0 0 0) (sGraph 2) = true ∧ ((released (sGraph 2)).part 0).scopeLive 2 0 = false
    ∧ isOk ((released (sGraph 2)).rejoin x0 3) = true := by decide +kernel

/-- A tenant number, and a channel bound to a reply port. -/
def sMsg (tenant : Bool) : State :=
  ((sG.modPart 0 fun q => { q with ldTenV := tenant }).modGroup 0 0 0 fun g => { g with chans := [(3, { tgt := 5, depth := 6, kind := 3 })] }).modThread x0
    fun th => { th with win := th.win.set 10 2 }
def lmsgOps : List OpF := [op 12 8 10 0 3, { op 3 8 10 0 3 with dc := true }]
theorem wit_LadleMessages : ([true, false].all fun b => lmsgOps.all fun f =>
    can (.lmsg f) f (sMsg b) && (src (.lmsg f) f (sMsg b)).a == 0x18000 && isOk ((sMsg b).translate x0 0x18000 .read) && ran (.lmsg f) (sMsg b)) = true
    ∧ isHbm 0x138000 = true ∧ ((sMsg true).chan x0 3).kind = 3 ∧ portRoom (((sMsg true).core 0).ports.get 5 {}) 6 = true := by decide +kernel
/-- Replies to a lane and to a port. -/
def sReply (port : Option Nat) : State :=
  (sMsg true).modCore 0 (fun k => { k with replies := [{ team := 0, group := 0, lane := 0, msg := 9, port := port, status := 0, value := 0xaabbccdd11223344 }] })
    |>.modThread x0 fun th => { th with loads := [{ words := [(12, 0), (13, 1), (14, 2)], addr := 0x18000, pending := some 9 }] }
theorem wit_LadleMessages_reply : ([none, some 5].all fun p => ran (.lmsgReply 0 0 0 0 0) (sReply p)) = true
    ∧ (((sReply none).thread x0).loads.find? fun o => o.pending == some 9).isSome = true := by decide +kernel
/-- A reply of before the port passed on is dropped. -/
theorem test_lmsg_late : [9, 10].map (fun n => ((after (.lmsgReply 0 0 0 0 0) ((sReply (some 5)).modCore 0 fun k =>
    { k with ports := [(5, { since := n })] })).core 0).ports.map fun q => q.2.words.length) = [[3], [0]] := by decide +kernel
theorem test_lmsg_reply : let t := after (.lmsgReply 0 0 0 0 0) (sReply none)
    reg t 12 = 0x11223344 ∧ reg t 13 = 0xaabbccdd ∧ reg t 14 = 0 ∧ (t.thread x0).loads = [] := by decide +kernel

/-- The lane begins and reads its affine operands. -/
def aff (i : Instr) (f : OpF) (s : State) : Bool :=
  begins i f s && isOk (affOperand x0 (s.atOp x0) f.s1) && isOk (affOperand x0 (s.atOp x0) f.s2) && ran i s
/-- Affine registers: 1 is 2.0 + 0.5·e3, 2 is 3.0; the pair 8 is 2.0; a window of symbols. -/
def sAff : State :=
  let s := (st [(5, 16), (9, 0x40000000), (11, 0x3fe00000), (12, 3), (14, 0x18000)]).putAff x0 1 (affSetSym 0x4000000000000000 0x3fe0000000000000 3)
  (s.putAff x0 2 (affSet 0x4008000000000000)).modGroup 0 0 0 fun g => { g with symNext := 8, symEnd := 16 }
theorem wit_AffineLinear_set : can (.aset (op 2 8 0 0 0)) (op 2 8 0 0 0) sAff = true ∧ can (.asetSym (op 2 8 10 12 1)) (op 2 8 10 12 1) sAff = true
    ∧ ran (.aset (op 2 8 0 0 0)) sAff = true ∧ ran (.asetSym (op 2 8 10 12 1)) sAff = true := by decide +kernel
theorem wit_AffineLinear : ([(Instr.amov (op 3 1 0 0 0), op 3 1 0 0 0), (.aneg (op 3 1 0 0 0), op 3 1 0 0 0), (.aadd (op 3 1 2 0 0), op 3 1 2 0 0),
    (.asub (op 3 1 2 0 1), op 3 1 2 0 1)].all fun p => aff p.1 p.2 sAff) = true
    ∧ ([(Instr.ascl (op 3 1 8 0 0), op 3 1 8 0 0), (.aaddc (op 3 1 8 0 0), op 3 1 8 0 0)].all fun p => begins p.1 p.2 sAff
      && isOk (affOperand x0 (sAff.atOp x0) p.2.s1) && isOk (readSrc (sAff.env p.1 p.2 x0) x0 (sAff.atOp x0) p.1.shape.s2 p.2.s2) && ran p.1 sAff) = true := by
  decide +kernel
theorem wit_AffineLinear_reads : ([Instr.acent (op 4 1 0 0 0), .arad (op 4 1 0 0 1), .alo (op 4 1 0 0 2), .ahi (op 4 1 0 0 3)].all fun i => match i with
    | .acent f | .arad f | .alo f | .ahi f => begins i f sAff && isOk (readAff x0 (sAff.atOp x0) (srcIdx f.s1)) && ran i sAff
    | _ => false) = true := by decide +kernel
theorem test_aadd : let t := after (.aadd (op 3 1 2 0 0)) sAff
    let u := after (.alo (op 4 3 0 0 2)) (t.modThread x0 fun th => { th with pc := 0x10000 })
    -- 2.0 + 0.5·e3 + 3.0 is at least 4.5
    reg u 4 = 0 ∧ reg u 5 = 0x40120000 := by decide +kernel
/-- R241: a centre of −0 is carried as it stands; an operand that reads as U gives U. -/
theorem test_amov : affMov (affSet 0x8000000000000000) = 0x8000000000000000 ∧ affMov (affSet 0x7ff0000000000000) = affU := by decide +kernel
theorem wit_AffineMinting : ([(Instr.amul (op 3 1 1 0 0), op 3 1 1 0 0), (.asqr (op 3 1 0 0 0), op 3 1 0 0 0), (.arcp (op 3 1 0 0 0), op 3 1 0 0 0),
    (.asqrt (op 3 1 0 0 0), op 3 1 0 0 0), (.acond (op 3 1 0 0 2), op 3 1 0 0 2)].all fun p => aff p.1 p.2 sAff) = true
    ∧ affMints (affMulParts ((gotOr none (affOperand x0 sAff 1))) (gotOr none (affOperand x0 sAff 1))) = true
    ∧ affMints (affMulParts ((gotOr none (affOperand x0 sAff 1))) (gotOr none (affOperand x0 sAff 2))) = false := by decide +kernel
/-- A register of one term, kept whole by a count of 2 and condensed by a count of 0. -/
theorem wit_AffineMinting_cond : (match readAff x0 (sAff.atOp x0) 1 with
    | .ok r => (affRead r).any (fun y => y.terms.length == 1) && affMints (affCondParts (affRead r) 0) && !affMints (affCondParts (affRead r) 2)
    | _ => false) = true := by decide +kernel
theorem wit_AffineMinting_fresh : let f := op 2 8 10 0 2
    begins (.asetMint f) f sAff = true ∧ isOk (readSrcs (sAff.env (.asetMint f) f x0) x0 (sAff.atOp x0)) = true
      ∧ affSetMints 0x4000000000000000 0x3fe0000000000000 = true ∧ affSetMints 0x4000000000000000 0 = false ∧ ran (.asetMint f) sAff = true
      ∧ ran (.asetMint f) (sAff.modGroup 0 0 0 fun g => { g with symNext := 16 }) = true := by decide +kernel

/-! Affine moves, control, system instructions, trees. -/

theorem wit_AffineMoves : can (.ald (op 3 5 0 0 1)) (op 3 5 0 0 1) sMem = true ∧ off (.ald (op 3 5 0 0 1)) (op 3 5 0 0 1) sMem 128 = 16
    ∧ sMem.scratchBad 0 0 16 128 = false ∧ ran (.ald (op 3 5 0 0 1)) sMem = true
    ∧ can (.ast (op 0 5 1 0 1)) (op 0 5 1 0 1) sMem = true ∧ isOk (readAff x0 (sMem.atOp x0) 1) = true ∧ ran (.ast (op 0 5 1 0 1)) sMem = true := by
  decide +kernel
theorem wit_AffineMoves_global : can (.ald (op 3 8 0 0 0)) (op 3 8 0 0 0) sG = true ∧ gva (.ald (op 3 8 0 0 0)) (op 3 8 0 0 0) sG 128 = 0x18000
    ∧ isOk (rangeOk x0 (sG.atOp x0) 0x18000 .read 16) = true ∧ isOk (readRange x0 0x18000 16 (sG.atOp x0)) = true ∧ ran (.ald (op 3 8 0 0 0)) sG = true
    ∧ can (.ast (op 0 8 1 0 0)) (op 0 8 1 0 0) sG = true ∧ isOk (rangeOk x0 (sG.atOp x0) 0x18000 .write 16) = true
    ∧ isOk (writeRange x0 0x18000 5 16 (sG.atOp x0)) = true ∧ ran (.ast (op 0 8 1 0 0)) sG = true := by decide +kernel
/-- The allocator word holds 5; the group takes four symbols. -/
def sSym : State := let s := withPage (stk [(2, 0x18000), (4, 4)])
  { s with mem := s.mem.writeN 0x138000 8 5 }
theorem wit_AffineMoves_symbols : let f := op 0 226 228 0 0
    begins (.asym f) f sSym = true ∧ pairs (.asym f) f sSym = true ∧ (operandPairs (sSym.env (.asym f) f x0) [x0] (sSym.opened x0) (Instr.asym f).shape.s2).map (fun q => gotOr (0, 0) q.2) = [(0x18000, 4)]
      ∧ gotOr (0, 0) (sSym.translate x0 0x18000 .readWrite) = (0x138000, 3)
      ∧ (match (sSym.opened x0).atomicAt 0 0x138000 8 3 0 (fun w => (allocNext w 4).getD w) with
        | some (w, bad, _) => w == 5 && !bad
        | none => false) = true ∧ ran (.asym f) sSym = true := by decide +kernel
/-- The allocator's end: four symbols more do not fit. -/
theorem wit_AffineMoves_exhaust : ([0, 0xffffe, 2 ^ 20].all fun w =>
    let s := { sSym with mem := sSym.mem.writeN 0x138000 8 w }
    pairs (.asym (op 0 226 228 0 0)) (op 0 226 228 0 0) s && (match (s.opened x0).atomicAt 0 0x138000 8 3 0 (fun w => (allocNext w 4).getD w) with
      | some (v, bad, _) => v == w && !bad
      | none => false) && ran (.asym (op 0 226 228 0 0)) s && (s.core 0).recs.isEmpty) = true := by decide +kernel
theorem test_asym : let t := after (.asym (op 0 226 228 0 0)) sSym
    (t.group 0 0 0).symNext = 5 ∧ (t.group 0 0 0).symEnd = 9 := by decide +kernel

/-- Targets in the pair 8, good and bad ones. -/
def sGo (a : Word) : State := sMem.modThread x0 fun th => { th with win := th.win.set 8 a }
theorem wit_Transfers : ([0x20000, 0x20001].all fun a => can (.callIndirect (op 30 8 0 0 1)) (op 30 8 0 0 1) (sGo a) && can (.ret (op 0 8 0 0 0)) (op 0 8 0 0 0) (sGo a)
    && can (.jmpi (op 0 8 0 0 0)) (op 0 8 0 0 0) (sGo a) && can (.regionIndirect (op 0 8 0 0 1)) (op 0 8 0 0 1) (sGo a)) = true
    ∧ begins (.call (op 30 0 0 0 0)) (op 30 0 0 0 0) sMem = true ∧ begins (.region (op 0 0 0 4 0)) (op 0 0 0 4 0) sMem = true
    -- an offset below address 0
    ∧ (0x10008 + BitVec.ofInt 64 (8 * ((op 30 0 512 0 0).s2 ++ (op 30 0 512 0 0).s3 : BitVec 20).toInt) : DWord).toNat ≥ 2 ^ 48
    ∧ begins (.call (op 30 0 512 0 0)) (op 30 0 512 0 0) sMem = true := by decide +kernel
theorem test_call : let t := after (.call (op 30 0 0 4 0)) sMem
    (t.thread x0).pc = 0x10028 ∧ reg t 30 = 0x10008 := by decide +kernel
theorem test_region : let t := after (.region (op 0 0 0 4 0)) sMem
    (t.thread x0).pc = 0x10008 ∧ (t.thread x0).rentry = 0x10028 ∧ (t.thread x0).rcount = 1 := by decide +kernel

theorem wit_TrapEntry : ([0x20000, 0].all fun h => begins (.trap (op 0 0 0 0 5)) (op 0 0 0 0 5) (sTrap h)) = true ∧ ((sTrap 0).team 0 0).nG = 224 := by
  decide +kernel
/-- In a handler, with a frame that returns to 0x10018. -/
def sHandler : State := (sTrap 0x20000).modThread x0 fun th => { th with hflag := true, win := th.win ++ [(220, 0x50), (221, 5), (222, 0x10018)] }
theorem wit_TrapReturn : begins (.retTrap (op 0 0 0 0 1)) (op 0 0 0 0 1) sHandler = true ∧ (sHandler.thread x0).hflag = true
    ∧ ([220, 221, 222, 223].map fun n => gotOr 9 ((sHandler.opened x0).readWord x0 n)) = [0x50, 5, 0x10018, 0]
    ∧ ran (.retTrap (op 0 0 0 0 1)) sHandler = true := by decide +kernel
theorem test_ret_trap : let t := after (.retTrap (op 0 0 0 0 1)) sHandler
    (t.thread x0).pc = 0x10018 ∧ (t.thread x0).hflag = false := by decide +kernel

/-- In a handler, with a frame into the instruction i at 0x10000. -/
def sFrame (headWord : Word) (i : Instr) : State :=
  ((sTrap 0x20000).putSlots 0 0 0x10000 (((encode i).getD []).map BitVec.toNat)).modThread x0 fun th =>
    { th with hflag := true, pc := 0x20000, win := th.win ++ [(220, headWord), (222, 0x10000)],
              marks := some { pc := 0x10000, far := some 0x30000, brk := none, yield := true } }
/-- The frame passes the checks of R134. -/
def frameOk (headWord : Word) (i : Instr) : Bool :=
  let s := sFrame headWord i
  let fr : Frame := { head := headWord, pc := 0x10000 }
  begins (.retTrap (op 0 0 0 0 1)) (op 0 0 0 0 1) s && [220, 222, 223].map (fun n => gotOr 9 ((s.opened x0).readWord x0 n)) == [headWord, 0x10000, 0]
    && fr.ok && (fr.tree || fr.rep != 0 || fr.after) && (match (s.opened x0).fetchWords 0 0 0x10000 with
      | .ok ws _ => fr.fits ws
      | _ => false) && ran (.retTrap (op 0 0 0 0 1)) s
def aTree : Instr := .tree (head 2 0 0x080) [{ arc := 7, opc := 0, f := op 4 5 6 0 4 }, { arc := 7, opc := 0, f := op 7 4 4 0 4 }]
def aRep : Instr := .rep { cnt := 2, dStep := 1, s1Step := 1, s2Step := 1, s3Step := 0, rsv := 0 } 0 (op 10 5 6 0 4)
/-- Into a tree before and after slot 1, into a repetition before and after number 2, and behind a straight instruction. -/
theorem wit_TrapReturn_into : ([((0x40150, aTree) : Word × Instr), (0x40950, aTree), (0x2050, aRep), (0x1850, aRep), (0x2850, aRep),
    (0x850, .add (op 4 5 6 0 4))].all fun p => frameOk p.1 p.2) = true := by decide +kernel
theorem test_ret_trap_marks : let t := after (.retTrap (op 0 0 0 0 1)) (sFrame 0x40950 aTree)
    (t.thread x0).pos.far = some 0x30000 ∧ (t.thread x0).pos.slot = 2 ∧ (t.thread x0).pc = 0x10000 := by decide +kernel

/-- The number of a special register in MOD. -/
def special (code : Nat) : OpF := op 4 0 0 0 (32 * code)
theorem wit_mfs : ((List.range 17).all fun n => can (.mfs (special n)) (special n) sMem && ran (.mfs (special n)) sMem) = true := by decide +kernel
theorem wit_mts : ([(0x0e, 7), (0x0f, 7), (0x10, 8)].all fun p =>
    let f := op 0 p.2 0 0 (32 * p.1)
    can (.mts f) f sMem && isOk (readSrc (sMem.env (.mts f) f x0) x0 (sMem.opened x0) (Instr.mts f).shape.s1 f.s1) && ran (.mts f) sMem) = true
    ∧ (src (.mts (op 0 7 0 0 0x1c0)) (op 0 7 0 0 0x1c0) sMem).a = 3 := by decide +kernel
theorem wit_system : begins (.nop (op 0 0 0 0 0)) (op 0 0 0 0 0) sMem = true ∧ begins (.brk (op 0 0 0 0 9)) (op 0 0 0 0 9) sMem = true
    ∧ can (.icinv (op 0 8 0 0 0)) (op 0 8 0 0 0) sMem = true ∧ ran (.icinv (op 0 8 0 0 0)) sMem = true
    ∧ (let s := after (.icinv (op 0 8 0 0 0)) sMem
      (s.thread x0).pos.wait == some .icinv && s.settleCode.isSome && ran (.icinvComplete 0 0 0 0) s) = true := by decide +kernel
theorem wit_timer : let s := { sMem.modGroup 0 0 0 (fun g => { g with alarm := 5 }) with now := 9 }
    (s.group 0 0 0).alarm.toNat ≤ s.clocks 0 0 ∧ ran (.timer 0 0 0) s = true := by decide +kernel
theorem test_mfs_tid : let t := after (.mfs (special 3)) sMem
    reg t 4 = 0 ∧ (t.thread x0).pc = 0x10008 := by decide +kernel

/-! Instructions of several operations. -/

/-- An operation on the stem of a tree. -/
def stem (opc : Nat) (f : OpF) : TreeSlot := { arc := 7, opc := BitVec.ofNat 8 opc, f := f }
/-- A straight tree of two operations that leaves by leaf l. -/
def stemTree (l : Nat) : Instr := .tree (head 2 0 l) [stem 0 (op 4 5 6 0 4), stem 0 (op 7 4 4 0 4)]
/-- Its lane goes along its path. -/
theorem wit_Trees_leaves : ([0x000, 0x080, 0x180].all fun l => sMem.alone x0 && ((stemTree l).codeFault 224 8).isNone
    && (sMem.laneFault x0 (bodyOf (stemTree l) 224)).isNone && ran (stemTree l) sMem) = true := by decide +kernel
/-- One operation after another, as `goes` follows them. -/
def stepOp (i : Instr) (n : Nat) (s : State) : State :=
  let b := bodyOf i 224
  match b.slots[n]? with
  | none => s
  | some r => (r.sem (r.env { pc := (s.thread x0).pc, next := (s.thread x0).pc + BitVec.ofNat 48 i.bytes, preq := false } b.header.isSome b.rep n s) [x0] s).1
/-- The operation was performed and the lane goes on. -/
def wentOn (n : Nat) (s : State) : Bool :=
  let p := (s.thread x0).pos
  p.wait.isNone && !p.stopped && p.uni.isNone && p.slot ≤ n
/-- The same with the tests evaluated before each operation. -/
def evalAt (i : Instr) (n : Nat) (s : State) : State :=
  match i, (bodyOf i 224).slots[n]? with
  | .tree h _, some r => s.modThread x0 fun th => { th with pos := evalTests h (arcLevel r.arc) th }
  | _, _ => s
theorem wit_Trees_path : let i := stemTree 0x080
    let a := evalAt i 0 (sMem.opened x0)
    let u := stepOp i 0 a
    let b := evalAt i 1 u
    let v := stepOp i 1 b
    wentOn 1 u = true ∧ wentOn 2 v = true ∧ onArc (a.thread x0).pos 7 = true ∧ onArc (b.thread x0).pos 7 = true
      ∧ ((bodyOf i 224).slots.all fun r => !r.bad && r.arc == 7) = true ∧ (v.thread x0).pos.brk = none ∧ (v.thread x0).run = .ready := by decide +kernel
theorem test_tree_bypass : let t := after (stemTree 0x082) sMem
    reg t 4 = 0x11223354 ∧ reg t 7 = 0x224466a8 ∧ (t.thread x0).pc = 0x10028 := by decide +kernel
/-- The tree with a reform at its leaf, and n bins of the core, the last at its target with m lanes. -/
def formTree : Instr := .tree { head 2 0 0x080 with rf := true } [stem 0 (op 4 5 6 0 4), stem 0 (op 7 4 4 0 4)]
def sBins (n m : Nat) : State := sMem.modCore 0 fun k =>
  { k with bins := ((List.range n).map fun i => ({ team := 0, pair := 0, pc := BitVec.ofNat 48 (8 * i), lanes := [(0, 9)], filed := i } : Bin))
    ++ if m = 0 then [] else [{ team := 0, pair := 0, pc := 0x10018, lanes := (List.range m).map fun i => (1, i), filed := 0 }] }
/-- R114: no bin, a bin with room, a full one, and 64 others. -/
theorem wit_Trees_filed : ([(0, 0), (3, 5), (3, 30), (3, 31), (64, 0)].all fun q =>
    let s := sBins q.1 q.2
    s.alone x0 && (formTree.codeFault 224 8).isNone && (s.laneFault x0 (bodyOf formTree 224)).isNone && ran formTree s
      && (((s.core 0).bins.find? fun b => b.team == 0 && b.pair == 0 && b.pc == 0x10018).map fun b => b.lanes.length) == (if q.2 = 0 then none else some q.2)
      && (q.1 < 64 || (oldestBin (s.core 0).bins).isSome)) = true := by decide +kernel
theorem test_filed : let t := after formTree (sBins 3 5)
    ((t.core 0).bins.find? fun b => b.pc == 0x10018).map (fun b => b.lanes.getLast?) = some (some (0, 0)) ∧ (t.core 0).active = [] := by decide +kernel
/-- Two threads of a group that differ in p1, or do not, with m other waves. -/
def sTwo (p : Word) (m : Nat := 0) : State :=
  ((st [] 3).modGroup 0 0 0 fun g => { g with threads := g.threads.set 1 { pc := 0x10000, rentry := 0x10000, preds := p } }).modCore 0 fun k =>
    { k with active := { team := 0, lanes := [(0, 0), (0, 1)] } :: List.replicate m { team := 0, lanes := [] } }
def x1 : Lane := { c := 0, t := 0, g := 0, l := 1 }
/-- A header that tests p1: its leaf 0 is the next instruction, its leaf 1 two slots further. -/
def twoWay (rf : Bool) : TreeHeader := { head 0 1 0 with rf := rf, t0 := 1, l1 := 0x082 }
theorem wit_Trees_two : ([((1 : Word), 0, false), (3, 0, false), (1, 7, false), (1, 0, true), (3, 0, true)].all fun q =>
    let s := sTwo q.1 q.2.1
    let h := twoWay q.2.2
    s.turn == 0 && (s.issuer 0).any (fun w => w.team == 0 && w.lanes == [(0, 0), (0, 1)] && w.ins.isNone)
      && [x0, x1].all (fun z => (s.thread z).run == .ready && (s.thread z).pos == {} && !(s.thread z).timerDue
        && leafKind (leafAt h (evalTests h 2 (s.thread z))) ≤ 1)
      && (Instr.tree h []).codeFault 224 8 == none && (s.core 0).teams.all (fun q => !q.2.forced) && (s.core 0).active.length == q.2.1 + 1
      && (s.core 0).bins.isEmpty && ran (.tree h []) s) = true := by decide +kernel
theorem test_split : let t := after (.tree (twoWay false) []) (sTwo 1 7)
    (t.thread x0).pc = 0x10008 ∧ (t.thread x1).pc = 0x10018 ∧ ((t.core 0).pending.getLast?).map (·.lanes) = some [(0, 1)] := by decide +kernel
/-- Two lanes whose loads meet one page that is not mapped. -/
def sTwoWalk : State := [x0, x1].foldl (fun s z => s.modThread z fun th => { th with win := [(8, 0x38000)] }) (sTwo 1)
/-- Both wait for one walk, and park with one record (R293, R326). -/
theorem test_walk_shared : let i : Instr := .ldG (op 4 8 0 0 4)
    let s := after i sTwoWalk
    let t := after i (after (.translationWalk 0 0x38000 .read) s)
    (s.walkers 0 0x38000 .read).length = 2 ∧ (t.core 0).recs.map (fun r => (r.cause, r.lanes)) = [(.pageFault, [(0, 0), (0, 1)])]
      ∧ (t.thread x1).run = .parked := by decide +kernel
/-- A repeated add: the fields step. -/
def repAdd : Instr := .rep { cnt := 2, dStep := 1, s1Step := 1, s2Step := 1, s3Step := 0, rsv := 0 } 0 (op 10 5 6 0 4)
theorem wit_Repetition : sMem.alone x0 = true ∧ (repAdd.codeFault 224 8).isNone = true ∧ (sMem.laneFault x0 (bodyOf repAdd 224)).isNone = true
    ∧ (let u := stepOp repAdd 0 (sMem.opened x0)
      wentOn 1 u && wentOn 2 (stepOp repAdd 1 u)) = true ∧ ran repAdd sMem = true := by decide +kernel
theorem test_rep : let t := after repAdd sMem
    reg t 10 = 0x11223354 ∧ reg t 11 = 0x11223347 ∧ (t.thread x0).pc = 0x10010 := by decide +kernel

def farTree (opc : Nat) (f : OpF) : Instr := .tree (head 1 0 0x100) [stem opc f]
theorem wit_FarLeaves : ([(0xd3, op 0 0 0 8 0), (0xd3, op 0 8 0 0 1)].all fun p => ((farTree p.1 p.2).codeFault 224 8).isNone
    && (sGo 0x20000).alone x0 && ((sGo 0x20000).laneFault x0 (treeBody (head 1 0 0x100) [stem p.1 p.2])).isNone && ran (farTree p.1 p.2) (sGo 0x20000)) = true
    ∧ leafKind 0x100 = 2 ∧ opInstr 0xd3 (op 0 0 0 8 0) = some (.far (op 0 0 0 8 0)) ∧ opInstr 0xd3 (op 0 8 0 0 1) = some (.farIndirect (op 0 8 0 0 1))
    ∧ (Instr.far (op 0 0 0 8 0)).codeFault 224 8 = some ⟨.illTree, 1, 0⟩ ∧ (Instr.farIndirect (op 0 8 0 0 1)).codeFault 224 8 = some ⟨.illTree, 1, 0⟩ := by
  decide +kernel
theorem wit_LongImmediates : sMem.begins (.moviLong (op 6 0 0 0 0) 5) (op 6 0 0 0 0) moviLongShape x0 = true
    ∧ (let f := op 4 5 0 0 4
      let j := Instr.longImmediateForm 0 f 0x8000_0001
      match opInstr 0 f, longShape 0 f with
      | some i, some (sh, _, off) => !off && sMem.begins j f sh x0
        && (let e := { sMem.envOf j f sh x0 with imm2 := some 0x8000_0001 }
          let r := semOf i e [x0] (sMem.opened x0)
          r.2.isEmpty && wentOn 1 r.1 && (r.1.thread x0).run == .ready && ran j sMem)
      | _, _ => false) = true := by decide +kernel
theorem wit_LongImmediates_offset : (let f := op 4 8 0 0 4
    let j := Instr.longImmediateForm 0x70 f 0
    match opInstr 0x70 f, longShape 0x70 f with
    | some i, some (sh, _, off) => off && sG.begins j f sh x0
      && (let r := semOf i { sG.envOf j f sh x0 with immOff := some 0 } [x0] (sG.opened x0)
        r.2.isEmpty && wentOn 1 r.1 && (r.1.thread x0).run == .ready && ran j sG)
    | _, _ => false) = true := by decide +kernel

/-! The dispatcher. -/

/-- A page table of partition 0, its flask 0, and in memory a packet at 0x200000 (its ring) with the descriptor at 0x138000 (its
address 0x18000) and the map at 0x138040. -/
def descBlock : BitVec 512 := block ([(0, 2), (9, 2), (32, 1024), (48, 1), (64, 0x10000)] ++ (List.range 8).map fun i => (256 + 32 * i, 0x318e0000))
def packet (dva : Nat) : BitVec 512 := block [(0, dva), (64, 0xabcd), (128, 0x18040), (192, 1), (224, 1), (256, 0x18100)]
def sDisp (dva : Nat := 0x18000) (desc : BitVec 512 := descBlock) : State :=
  let s := State.reset.placeTeam 0
  let s := { s with cores := [], mem := ((s.mem.writeN 0x138000 64 desc.toNat).writeN 0x200000 64 (packet dva).toNat) }
  s.modPart 0 fun q => { q with lqBase := 0x200, lqLogn := 2, lqEn := true, lqTail := 1, jrnBase := 0xff000, jrnV := true, grids := [] }
/-- After the packet is read. -/
def sQueued : State := after (.launchPacketRead 0) (sDisp)
theorem wit_LaunchQueue : let q := (sDisp).part 0
    q.lqEn = true ∧ q.lqLogn ≠ 0 ∧ q.jrnV = true ∧ q.waiting.isNone = true ∧ q.grids.length = 0 ∧ q.lqHead.toNat % 4 ≠ q.lqTail.toNat % 4
      ∧ (match (sDisp).readAt 0x200000 64 3 with
        | some (n, bad, u) => !bad && n == (packet 0x18000).toNat && (match u.checkPacket 0 1 (BitVec.ofNat 512 n) with
          | .ok _ _ => true
          | _ => false)
        | none => false) = true ∧ ran (.launchPacketRead 0) (sDisp) = true := by decide +kernel
theorem wit_LaunchQueue_reject : (match (sDisp 0x18001).checkPacket 0 1 (packet 0x18001) with
    | .reject st w => st == 1 && ((w.modPart 0 fun q => { q with lqHead := 1, nextLaunch := 2 }).complete 0 1 0x18100 st 0).isSome
    | _ => false) = true ∧ ran (.launchPacketRead 0) (sDisp 0x18001) = true := by decide +kernel
/-- The page stands in another package, and every port is down. -/
def sFar : State := ({ (sDisp) with mem := (sDisp).mem.writeN 0x120008 8 (2 ^ 63 + 0x130f0d) }).modPkg fun k =>
  { k with ports := (List.range 32).map fun n => (n, { up := false }) }
/-- A completion record written, one whose page is not mapped, one without a path, and one not aligned. -/
def recordEnds (cpl : Nat) (s : State) : Nat :=
  match dispWrite 0 { dirty := true } 2 cpl (leBytes 4 [0, 1] ++ leBytes 8 [9]) s with
  | .ok .. => 0
  | .fault .. => 1
  | .error .. => 2
  | .blocked => 3
theorem wit_LaunchQueue_record : recordEnds 0x18100 (sDisp) = 0 ∧ recordEnds 0x38100 (sDisp) = 1
    ∧ recordEnds 0x18100 sFar = 2
    ∧ [0x18100, 0x38100, 0x18101, 2 ^ 48].map (fun a => ((sDisp).complete 0 1 a 0 9).isSome) = [true, true, true, true] := by decide +kernel
theorem test_lqTailWrite : ((after (.lqTailWrite 0 7) (sDisp)).part 0).lqTail = 7 := by decide +kernel
theorem wit_LaunchPlacement : (match (sQueued.part 0).waiting with
    | some (gk, g) => sQueued.mayPlace 0 g.map && (mapCounts g.map).all (fun q => sQueued.fits q.1 g.desc g.det q.2)
      && (match sQueued.dispBytes 0 g.desc.preload (64 * g.desc.plen) with
        | .ok data u => (u.launchTeams 0 gk g data (mapSpots g.map)).isSome
        | _ => false)
    | none => false) = true ∧ ran (.launchPlace 0) sQueued = true := by decide +kernel
/-- The grid in place, with a task record and a copy node registered. -/
def sPlaced (b : BitVec 512) (finished : Bool := false) : State := (after (.launchPlace 0) sQueued).modPart 0 fun q =>
  { q with nodes := [(1, { addr := 0x18000, grid := 1, record := b, ready := true, finished := finished, launched := finished })] }
theorem test_launch_thread : let t := sPlaced 0
    (t.thread x0).pc = 0x10000 ∧ (t.group 0 0 0).k 0 = 0xabcd ∧ (t.core 0).active.map (·.lanes.length) = [32] := by decide +kernel
theorem wit_TasksAndCopyNodes_task : let s := sPlaced (taskRecord 0 0)
    ((s.part 0).firstTask 1).any (fun r => r.1 == 1) = true ∧ (s.taskTeams 0 1)[0]? = some (0, 0)
      ∧ (match s.buildExtents 0 [] ([], false) with
        | some (_, u) => (u.joinPkg 0).isSome
        | none => false) = true ∧ ((s.part 0).grids.get 1 { launch := 0, packet := 0 }).placed = true
      ∧ (let gr := (s.part 0).grids.get 1 { launch := 0, packet := 0 }
        !gr.saved && !gr.preReq) = true ∧ ran (.taskLaunch 0 1 0) s = true := by decide +kernel
theorem wit_TasksAndCopyNodes_copy : let s := sPlaced copyRecord
    (s.gridTeams 0 1).find? (fun d => d.1 == 0 && !(s.team d.1 d.2).over && !(s.team d.1 d.2).ended) = some (0, 0) ∧ s.dispOff = false ∧ recCopy copyRecord = true ∧ (s.core 0).pq.length = 0
      ∧ (match s.joinPkg 0 with
        | some u => (match u.copyTag 0 0 copyRecord with
          | .ok _ _ => true
          | _ => false)
        | none => false) = true ∧ ran (.copyNodeDispatch 0 1 0) s = true := by decide +kernel
theorem wit_FinishOfWork_node : let s := sPlaced (taskRecord 1 0) true
    (match s.homeAll with
    | some u => ((u.modPart 0 fun k => ({ k with nodes := [], journalNodes := [] } : Machine.Part).modScope 1 fun e => { e with members := e.members - 1 }).successors 0 1
        (taskRecord 1 0)).isSome
    | none => false) = true ∧ ran (.nodeFinish 0 1) s = true := by decide +kernel
/-- A closed scope without members, below another one. -/
def sScope : State := (sPlaced 0).modPart 0 fun q =>
  { q with scopes := [(2, { state := 1, children := 1, launch := 1 }), (5, { state := 2, parent := 2, gen := 7, launch := 1 })] }
theorem wit_FinishOfWork_scope : let e := (sScope.part 0).scopes.get 5 {}
    e.state = 2 ∧ e.members = 0 ∧ e.children = 0 ∧ e.parent.toNat = 2 ∧ (sScope.cores.all fun k => k.2.held.isEmpty) = true
      ∧ ((sScope.part 0).grids.get e.grid { launch := 0, packet := 0 }).savedHeld = []
      ∧ ran (.scopeComplete 0 5) sScope = true := by decide +kernel
/-- A grid whose teams have ended. -/
def sOver : State := (sPlaced 0).modPart 0 fun q =>
  { q with nodes := [], grids := q.grids.map fun g => (g.1, { g.2 with teamsLeft := 0 }) }
theorem wit_FinishOfWork_grid : (sOver.part 0).quietNodes 1 = true ∧ ((sOver.part 0).grids.find? 1).any (fun k => k.placed && !k.saved && k.teamsLeft == 0) = true
    ∧ (match sOver.flush (fun c r => (sOver.team c r.team).part == 0 && (sOver.team c r.team).grid == 1) true with
      | some u => u.homeAll.isSome
      | none => false) = true ∧ sOver.owesGrid 0 1 = false ∧ sOver.dispOff = false ∧ ran (.gridEnd 0 1) sOver = true := by decide +kernel

/-! Records, pre-emption, restore. -/

/-- A record of the dispatcher waits for the trap queue of partition 0, whose ring is at 0x300000. -/
def sEvent (tail : BitVec 16) : State := (State.reset.event 0 { id := 0, cause := .graphSucc, event := true, addr := 64 }).modPart 0 fun q =>
  { q with tqBase := 0x300, tqLogn := 1, tqEn := true, tqVec := 9, tqTail := tail }
theorem wit_TrapQueue : ([0, 1].all fun n => ((sEvent n).part 0).events.map (·.id) == [1] && (sEvent n).homeFree (0x300000 + 256 * n.toNat)
    && (sEvent n).homeFree (0x300080 + 256 * n.toNat) && ran (.trapRecordWrite 0 1) (sEvent n)) = true
    ∧ ¬ ((0 + 1) % 2 = (0 : Nat)) ∧ (1 + 1) % 2 = (0 : Nat) ∧ ((sEvent 1).part 0).tqOvf = false ∧ (sEvent 0).openMem = [] := by decide +kernel
/-- The record of a lane that parked, and the ring enabled. -/
def sCoreRec : State := (after (.brk (op 0 0 0 0 9)) sMem).modPart 0 fun q => { q with tqBase := 0x300, tqLogn := 1, tqEn := true }
theorem wit_TrapQueue_core : (match sCoreRec.nextRecord 0 1 with
    | some (.core 0, r) => r.lanes.all (fun l => (sCoreRec.thread { c := 0, t := r.teamSlot, g := l.1, l := l.2 }).stores.isEmpty)
      && (match sCoreRec.releaseSys (coreDie 0) with
        | some z => ((z.homeWrite 0x300000 128 (r.bits % 2 ^ 1024) 3).bind fun z => z.homeWrite 0x300080 128 (r.bits / 2 ^ 1024) 3).isSome
        | none => false)
    | _ => false) = true ∧ ran (.trapRecordWrite 0 1) sCoreRec = true := by decide +kernel
theorem test_trap_record : let t := after (.trapRecordWrite 0 1) (sEvent 0)
    (t.part 0).tqTail = 1 ∧ (t.part 0).events = [] ∧ t.pkg.msix = [(0, 9)] ∧ t.mem.readN 0x300000 4 = 1 := by decide +kernel
/-- A lane that parked with an open record, and an event record of an engine. -/
def sParked : State := after (.brk (op 0 0 0 0 9)) sMem
def sEvRec : State := sMem.modCore 0 fun k =>
  { k with recs := [{ id := 77, cause := .memError, event := true, key := 0, written := some 0 }], mq := [{ engOp .mma with stopped := true }] }
theorem wit_RecordService : ((sParked.core 0).recs.map fun r => (r.id, r.event)) = [(1, false)] ∧ (sParked.openRec 0 1).isSome = true
    ∧ (sParked.team 0 0).savedAt = none ∧ (sParked.core 0).overflow.length = 0 ∧ ran (.tqServRelease 0 1) sParked = true
    ∧ ran (.tqServEndTeam 0 1) sParked = true ∧ ran (.tqServEndGrid 0 1) sParked = true := by decide +kernel
theorem wit_RecordService_event : (sEvRec.openRec 0 77).isSome = true ∧ ran (.tqServRelease 0 77) sEvRec = true
    ∧ sEvRec.openRec 0 78 = none ∧ (sEvRec.part 0).savedRec 78 = none := by decide +kernel
/-- The same of the Pour engine, and of a store error of either engine. -/
theorem wit_RecordService_pour : let s := sMem.modCore 0 fun k =>
      { k with recs := [{ id := 77, cause := .memError, event := true, key := 1, written := some 0 }], pq := [{ engOp .pour with stopped := true }] }
    (s.openRec 0 77).isSome = true ∧ ran (.tqServRelease 0 77) s = true
      ∧ ((after (.tqServRelease 0 77) s).core 0).pq.map (·.stopped) = [false] := by decide +kernel
theorem wit_RecordService_store : let s := sEvRec.modCore 0 fun k => { k with recs := [{ id := 77, cause := .storeUe, event := true, written := some 0 }] }
    (s.openRec 0 77).isSome = true ∧ (s.team 0 0).savedAt = none ∧ (s.team 0 0).over = false ∧ (s.core 0).overflow.length = 0
      ∧ ran (.tqServRelease 0 77) s = true ∧ ((after (.tqServRelease 0 77) s).core 0).mq.length = 0 := by decide +kernel
/-- The record of a grid that is saved. -/
def sHeldService : State := State.reset.modPart 0 fun q =>
  { q with grids := [(1, { launch := 1, packet := 0, saved := true, savedRecs := [(0, { id := 77, cause := .memError, event := true })] })] }
theorem wit_RecordService_saved : sHeldService.openRec 0 77 = none ∧ ((sHeldService.part 0).savedRec 77).isSome = true
    ∧ ran (.tqServEndGrid 0 77) sHeldService = true := by decide +kernel
theorem test_release : let t := after (.tqServRelease 0 1) sParked
    (t.thread x0).run = .ready ∧ (t.thread x0).pc = 0x10008 := by decide +kernel

theorem wit_Preemption_request : let s := sPlaced 0
    (List.find? (fun r => r.2.launch == 1 && r.2.placed && !r.2.saved) (s.part 0).grids).isSome = true ∧ (s.part 0).preState = 0
      ∧ ran (.preReqWrite 0 1) s = true ∧ ran (.preReqWrite 0 9) s = true ∧ ((after (.preReqWrite 0 1) s).part 0).preState = 1 := by decide +kernel
/-- A grid of one team of one group of eight registers, and a request for it that has stood past its deadline. -/
def smallDesc : BitVec 512 := block ([(0, 1), (9, 1), (32, 1024), (48, 1), (64, 0x10000)] ++ (List.range 8).map fun i => (256 + 32 * i, 0x318e0000))
def sSmall : State := after (.launchPlace 0) (after (.launchPacketRead 0) (sDisp 0x18000 smallDesc))
def sLateReq : State := { after (.preReqWrite 0 1) sSmall with now := 0x20000 }
theorem wit_Preemption_forced : (sLateReq.team 0 0).preqAt.isSome = true ∧ (sLateReq.team 0 0).over = false ∧ (sLateReq.team 0 0).forced = false
    ∧ (sLateReq.team 0 0).savedAt = none ∧ 0x10000 ≤ sLateReq.clocks 0 0 ∧ ran (.preForced 0 0) sLateReq = true := by decide +kernel
/-- The team's positions as a save finds them. -/
def sSaving : State := (after (.preForced 0 0) sLateReq).modPart 0 fun q => { q with grids := q.grids.map fun g => (g.1, { g.2 with saveAddr := 0x400000 }) }
theorem wit_Preemption_save : sSaving.canSave 0 0 = true ∧ (sSaving.markSaved 0 0).isSome = true ∧ ran (.teamSave 0 0) sSaving = true := by decide +kernel
def sSaved1 : State := after (.teamSave 0 0) sSaving
theorem wit_Preemption_area : (sSaved1.team 0 0).savedAt.isSome = true ∧ sSaved1.allSaved 0 1 = true ∧ sSaved1.mem.wf = true
    ∧ (match (sSaved1.part 0).grids.find? 1 with
      | some g => let img := sSaved1.imageOf 0 1 g
        (sSaved1.writeArea g.saveAddr img).isSome && decide (g.saveAddr + img.length ≤ 2 ^ 48)
      | none => false) = true := by decide +kernel
/-- A saved grid without teams, its area at 0x400000. -/
def sSavedGrid : State := State.reset.modPart 0 fun q =>
  { q with jrnBase := 0xff000, jrnV := true, grids := [(1, { launch := 1, packet := 0, saved := true, resumes := true })] }
def sRestore : State := { sSavedGrid with mem := sSavedGrid.mem.writeN 0x400000 8 (1 + 2 ^ 32) }
/-- A bad version word, and a line of the area in the hands of a handler. -/
theorem wit_Restore_bad : (match sRestore.readArea 0x500000 128 with
    | some (hd, _, z) => numAt hd 0 4 != 1 && (z.writeAt 0x500010 4 8 3).isSome
    | none => false) = true ∧ (let s := sRestore.modSlice (homeSlice 0x400000) fun k =>
        { k with inv := some { kind := .message, line := 0x400000 / 128, tenant := 2, handler := 5, hasWindow := true, writable := true } }
      (match s.checkRestore 0 0x400000 with
      | .blocked => true
      | _ => false) && ran (.rsSaveWrite 0 0x400000) s) = true := by decide +kernel
theorem wit_Restore_check : (match sRestore.checkRestore 0 0x400000 with
    | .ok r _ => r.area == 0x400000
    | _ => false) = true ∧ (match sRestore.checkRestore 0 0x500000 with
    | .bad st _ => st == 8
    | _ => false) = true ∧ ran (.rsSaveWrite 0 0x400000) sRestore = true ∧ ran (.rsSaveWrite 0 0x500000) sRestore = true := by decide +kernel
/-- A saved grid of one team whose restore is accepted: its area holds one group slot in use and threads at address 0. -/
def sAsked : State :=
  let map : List MapEntry := [{ flask := 0, x0 := 0, y0 := 0, w := 1, h := 1 }]
  let s := State.reset.modPart 0 fun q =>
    { q with jrnBase := 0xff000, jrnV := true, preState := 4, restore := some { grid := 1, area := 0x400000, map := map },
             grids := [(1, { launch := 1, packet := 0, saved := true, resumes := true, map := map })] }
  let m := (s.mem.writeN (0x400000 + dirAt 1) 16 (0x200 + 2 ^ 64 * 1024)).writeN (0x400200 + 428) 1 1
  { s with mem := m.writeN (0x400200 + 64 + 8) 8 1024 }
theorem wit_Restore_place : (match (sAsked.part 0).restore with
    | none => false
    | some r => (match (sAsked.part 0).grids.find? r.grid, sAsked.readTeams r.area r.map.length (mapSpots r.map).length with
      | some g, some (areas, _, z) =>
        let xs := (mapSpots r.map).zip areas
        g.services.isEmpty && g.savedFaults.isEmpty && !(sAsked.part 0).rsCheck && z.mayPlace 0 r.map
          && (mapCounts r.map).all (fun n => z.fits n.1 g.desc g.det n.2) && z.restoreRoom g xs
          && (z.makeTeams 0 r.grid g xs []).any (fun q => q.1.map (fun x => (x.c, x.t, numAt ((x.bytes.drop (offsetAt x.bytes 0)).take 1024) 428 4)) == [(0, 0, 1)])
      | _, _ => false)) = true := by decide +kernel
theorem test_restore : let t := after (.restorePlace 0) sAsked
    (t.part 0).preState = 5 ∧ (t.thread x0).run = .ready ∧ (t.team 0 0).grid = 1
      ∧ (t.core 0).active.map (fun w => w.lanes.length) ++ (t.core 0).bins.map (fun b => b.lanes.length) = [32] := by decide +kernel

/-! Memory system, package, Ladle, host. -/

theorem wit_Memory_tlb : let s := sG.modPart 0 fun q => { q with tlbInvGo := true, tlbInvScope := 1, tlbInvPage := 3 }
    (s.part 0).tlbInvGo = true ∧ s.storesOut 0 = false ∧ (s.homeAll.bind (·.leaveSlices)).isSome = true ∧ ran (.tlbInvComplete 0) s = true := by decide +kernel
/-- Banks near their threshold: way 5, scratchpad bank 1, a small threshold. -/
def sBanks : State := sMem.modCore 0 fun k => { k with retireTh := 1 }
theorem wit_Memory_banks : ([1, 5].all fun b => ran (.storeEccCorrected 0 b) sBanks && ran (.bankRoleWrite 0 b 0) sBanks && ran (.storeEccCorrected 0 b) sMem) = true
    ∧ ((sBanks.core 0).banks.get 5 {}).role = 2 ∧ ((sBanks.core 0).banks.get 1 {}).role = 3 ∧ (sMem.core 0).retireTh = 0x100 := by decide +kernel
/-- R277: a write of role 000 drains a way of the L1, whose copies and leases go. -/
theorem test_bank_drains : let s := sMem.modCore 0 fun k => { k with l1 := [(7, { data := 0, ends := 9, way := 21 }), (8, { data := 0, ends := 9, way := 3 })] }
    let t := after (.bankRoleWrite 0 5 0) s
    ((t.core 0).banks.get 5 {}).drain = true ∧ (t.core 0).l1.map (·.1) = [8] := by decide +kernel
theorem test_bank_retires : let t := after (.storeEccCorrected 0 5) sBanks
    ((t.core 0).banks.get 5 {}).role = 0 ∧ ((t.core 0).banks.get 5 {}).cec = 1 := by decide +kernel
theorem wit_Memory_ue : ((sMem.core 0).banks.get 1 {}).role = 3 ∧ ran (.storeUe 0 (65536 + 16)) sMem = true ∧ ran (.storeUe 0 (5 * 65536)) sMem = true := by
  decide +kernel
/-- R281: the line that stands at the place of the error leaves the L1; a retired bank shows nothing. -/
theorem wit_Memory_ue_l1 : let s := sMem.modCore 0 fun k =>
      { k with l1 := [(7, { data := 0, ends := 9, way := 21 }), (8, { data := 0, ends := 9, way := 20 })], banks := k.banks.set 6 { role := 0 } }
    ((s.core 0).banks.get 5 {}).role = 2 ∧ ((s.core 0).banks.get 6 {}).role = 0 ∧ ran (.storeUe 0 (6 * 65536)) s = true
      ∧ ((after (.storeUe 0 (21 * 16384 + 7 * 128 + 4)) s).core 0).l1.map (·.1) = [8] := by decide +kernel
/-- A line of a die, dirty in its first four bytes or clean, and a lease. -/
def sLine (dirty : BitVec 128) : State := sG.modDie 0 fun k =>
  { k with lines := [(lineOf 0x138000, { data := 0x11223344, dirty := dirty, at_ := 0 })], leases := [{ line := lineOf 0x138000, core := 3, expiry := 7 }] }
theorem wit_Memory_lines : ([0, 15].all fun d => ((sLine d).die 0).lines.find? (lineOf 0x138000) |>.isSome) = true
    ∧ ([0, 15].all fun d => ran (.cacheUe (.dieCache 0) (lineOf 0x138000)) (sLine d) && ran (.ageWriteback 0 (lineOf 0x138000)) (sLine d)) = true
    ∧ (sLine 15).homeFree 0x138000 = true ∧ isHbm (128 * lineOf 0x138000) = true ∧ ran (.cacheUe .hbm (lineOf 0x138000)) (sLine 0) = true
    ∧ ran (.leaseExpiry 0 3 (lineOf 0x138000)) { sLine 0 with now := 9 } = true := by decide +kernel
theorem wit_Memory_l2 : ([true, false].all fun d => ran (.cacheUe (.l2 4) 9) (sG.modSlice 4 fun k => { k with lines := [(9, { dirty := d })] })) = true := by
  decide +kernel
theorem wit_Memory_bit : (((sLine 0).die 0).lines.find? (lineOf 0x138000)).isSome = true ∧ ran (.cacheUe (.dieCacheBit 0) (lineOf 0x138000)) (sLine 0) = true := by
  decide +kernel
theorem wit_Memory_age : (sLine 15).openMem = [] ∧ ((sLine 15).writeBack 0 (lineOf 0x138000)).isSome = true := by decide +kernel
theorem test_age_writeback : let t := after (.ageWriteback 0 (lineOf 0x138000)) (sLine 3)
    t.mem.readN 0x138000 4 = 0x3344 ∧ ((t.die 0).lines.find? (lineOf 0x138000)).any (fun l => l.dirty == 0) = true := by decide +kernel

theorem wit_Package_kept : let s := (sPlaced 0)
    s.pkg.owner.toNat / 16 ^ 0 % 16 = 0 ∧ ((s.part 0).grids.any fun g => g.2.placed && !g.2.saved) = true ∧ ran (.partCfgWrite 1) s = true
      ∧ ran (.partCfgWrite 1) State.reset = true ∧ ran (.jrnBaseWrite 0 0x100001) State.reset = true := by decide +kernel
theorem wit_Package_anneal : let s := after (.annCtlWrite 0 1) State.reset
    (s.part 0).annEn = true ∧ ran (.annealTranslate 0 0x10000 64) s = true := by decide +kernel
/-- What fails: a core, a link and a slice; a grid that runs, and one saved before. -/
theorem wit_Package_failure : ([Sys2Proof.Part.core 0, .link 5].all fun w => ran (.failureRecovery w) sMem) = true ∧ (sMem.pkg.siteOf 0).isSome = true
    ∧ (sMem.part 0).grids.length = 1 := by decide +kernel
/-- R403: a grid that runs goes on from the area of its last completed save, not from one that a later request named. -/
theorem test_failure_area : let s := (sPlaced 0).modPart 0 fun q =>
      { q with grids := q.grids.map fun g => (g.1, { g.2 with last := some { addr := 64 }, saveAddr := 128 }) }
    ((after (.failureRecovery (.core 0)) s).part 0).grids.map (fun g => (g.2.saved, g.2.resumes, g.2.saveAddr)) = [(true, true, 64)] := by decide +kernel
/-- R402: the region that the journal leaves is no longer what it was. -/
theorem test_journal_leaves : let s := after (.jrnBaseWrite 0 0) (after (.jrnBaseWrite 0 0x100001) State.reset)
    s.openLine 0x2000 = true ∧ s.openLine 0x1fff = false ∧ ((after (.jrnBaseWrite 0 0x100001) State.reset).part 0).jrnBase = 1 := by decide +kernel
/-- Powers under the cap, floors above it, and a tripped sensor. -/
def sHot (temp : BitVec 12) : State := State.reset.modPkg fun k => { k with thermTemp := temp, thermCore := 100 }
theorem wit_Package_power : ([0, 0x600, 0x700].all fun t => ran (.powerArbiterStep [⟨5, 2⟩, ⟨6, 1⟩] [⟨1, 3⟩, ⟨1, 4⟩]) (sHot t)) = true
    ∧ State.reset.pkg.inReset.contains arbiterKind = false ∧ ran (.powerArbiterStep [] [⟨4801, 0⟩]) State.reset = true
    ∧ (0x600 : BitVec 12) < State.reset.pkg.thermTrip ∧ State.reset.pkg.thermSoft ≤ (0x600 : BitVec 12) ∧ State.reset.pkg.thermTrip ≤ (0x700 : BitVec 12)
    ∧ State.reset.pkg.floorSum = 0 ∧ ((State.reset.modPkg fun k => { k with floors := [(3, 5000)] }).pkg.floorSum) = 5000
    ∧ ran (.thermalSensorRead 7 [0x6e0]) sMem = true ∧ ran (.thermalSensorRead 7 [0x100]) sMem = true := by decide +kernel
theorem wit_Package_point : (∀ fl < 12, ran (.operatingPointChange fl (State.reset.flask fl).granted) State.reset = true) := by decide +kernel
theorem test_hottest : let t := after (.thermalSensorRead 3 [9, 2, 9]) State.reset
    t.pkg.thermTemp = 9 ∧ t.pkg.thermCore = 1 := by decide +kernel
theorem test_operating_point : ((after (.operatingPointChange 3 6) (State.reset.modFlask 3 fun q => { q with granted := 6 })).flask 3).point = 6 := by
  decide +kernel

/-- Slice 0 with a running monitor, a trigger of tenant 2 over lines 0 to 31, an invocation under way where one is given,
and a queue. -/
def sTrig (bits : Nat) (inv : Option Inv) (queue : List Inv := []) (lines : Table SliceLine := []) : State :=
  State.reset.modSlice 0 fun k =>
    { k with run := true, inv := inv, queue := queue, lines := lines, tenants := [(2, { en := true, rsize := 16, rbase := 32 })],
             trigs := [(0, BitVec.ofNat 128 (2 ^ 127 + 2 ^ 112 * 3 + 2 ^ 104 * 4 + 2 ^ 96 * 5 + 2 ^ 85 * 2 + bits * 2 ^ 82 + 31 * 2 ^ 41))] }
/-- A message to line 0 of slice 0, the invocation that runs there. -/
def aMsg : Inv := { kind := .message, line := 0, tenant := 2, handler := 5 }
theorem wit_Ladle_miss : ([1, 2, 3].all fun b => let s := sTrig b (some { aMsg with line := 7 })
      let k := s.slice 0
      k.inv.isSome && k.liveTrigger 0 != none && k.absent 0 0 && (k.liveTrigger 0).any fun t =>
        (t.getLsbD 82 == (b % 2 == 1)) && (t.getLsbD 83 == (b / 2 == 1))
          && if b == 2 then ran (.ladleFill 0 0) s else ran (.ladleMiss 0 0) s) = true := by decide +kernel
/-- The same with the line's page under invalidation. -/
def sEvict (bits : Nat) (inv : Option Inv) (n : Nat) : State :=
  ((sTrig bits inv [] [(n, {})]).modPart 0 fun q => { q with tlbInvGo := true, tlbInvScope := 2 }).modDie 0 fun k =>
    { k with tlb := [{ part := 0, vpage := 1, size := 1, frame := 0, rem := false, node := 0, cls := 3, r := true, w := true, x := true, d := true }] }
theorem wit_Ladle_evict : ([(4, some { aMsg with line := 7 }, 0), (3, none, 0), (3, none, 99)].all fun q =>
    let s := sEvict q.1 q.2.1 q.2.2
    s.invalidating q.2.2 && !(s.slice 0).holds q.2.2 && (s.slice 0).busy.isEmpty && ((s.slice 0).lines.find? q.2.2).isSome
      && ((s.slice 0).liveTrigger q.2.2).map (·.getLsbD 84) == (if q.2.2 = 99 then none else some (q.1 == 4))
      && ran (.ladleEviction 0 q.2.2) s) = true := by decide +kernel
/-- A miss that finds the queue full, with nothing stalled before it. -/
theorem wit_Ladle_stall : let s := sTrig 3 (some { aMsg with line := 7 }) (List.replicate 63 { aMsg with line := 9 })
    (s.slice 0).queue.length = 63 ∧ (s.slice 0).stalled = false ∧ (s.slice 0).absent 0 0 = true ∧ ran (.ladleMiss 0 0) s = true := by decide +kernel
/-- A slice that is stalled takes no new miss; a miss of two handlers finds the queue full of one. -/
theorem wit_Ladle_stalled : let s := (sTrig 3 (some { aMsg with line := 7 }) (List.replicate 63 { aMsg with line := 9 })).modSlice 0 fun k => { k with stall := 2 }
    (s.slice 0).stalled = true ∧ (s.slice 0).inv.isSome = true ∧ (s.slice 0).absent 0 0 = true ∧ ran (.ladleMiss 0 0) s = false
      ∧ ran (.ladleFill 0 0) (sTrig 2 (some { aMsg with line := 7 }) (List.replicate 64 { aMsg with line := 9 })) = true := by decide +kernel
/-- R370: a miss with both handlers registered queues the miss handler and behind it the fill handler. -/
theorem test_miss_queues : ((after (.ladleMiss 0 0) (sTrig 3 (some { aMsg with line := 7 }))).slice 0).queue.map (fun i => (i.kind, i.handler, i.tenant))
    = [(.miss, 5, 2), (.fill, 4, 2)] := by decide +kernel

/-- R370: a fetch of code whose line raises a miss handler raises it, where the core waits. -/
theorem test_fetch_raises : (let s := State.reset.withFetchWord 64 0x0000400a03000085
    let n := homeSlice 0x130000
    let s := s.modSlice n fun k =>
      { k with run := true, tenants := [(2, { en := true, rsize := 16, rbase := 32 })],
               trigs := [(0, BitVec.ofNat 128 (2 ^ 127 + 2 ^ 96 * 5 + 2 ^ 85 * 2 + 2 ^ 82 + 10400 * 2 ^ 41))],
               sram := Memory.writeN [] 0x200a 2 0x200 }
    (next (step s)).any fun t => (t.slice n).inv.any fun i => i.kind == InvKind.miss && i.line == 9728) = true := by decide +kernel

/-- A slice with a message at the head of its queue, and the entry of its handler. -/
def sHead (entry : Nat) : State := (sTrig 0 none [aMsg]).modSlice 0 fun k => { k with sram := Memory.writeN [] (0x2000 + 10) 2 entry }
theorem wit_Ladle_message : (let s := sHead 0x200
      ((s.settleDies 32 (s.dies.map (·.1))).bind fun u => u.homeRead 0 128 32 3 .walker).isSome && ran (.ladleMessage 0) s) = true
    ∧ ([0, 0x100, 0x201].all fun e => ran (.ladleMessage 0) (sHead e)) = true := by decide +kernel
/-- R373, R375: the registers at a handler's first instruction. -/
theorem test_message_entry : ((after (.ladleMessage 0) (sHead 0x200)).slice 0).inv.any (fun i =>
    i.pc == 0x2200 && i.xs.get 2 0 == 0x3000 && i.xs.get 10 0 == 3 && i.xs.get 15 0 == 5 && i.xs.get 17 0 == 3) = true := by decide +kernel
theorem test_message_no_handler : ((after (.ladleMessage 0) (sHead 0)).core 0).replies.map (·.status) = [2] := by decide +kernel

/-- A handler of partition 0 that runs in slice 0 over a window of the line 0, for a lane of the placed team. -/
def running : Inv :=
  { aMsg with hop := 3, window := 0x8877665544332211, hasWindow := true, writable := true, budget := 5, cycles := 2,
              lo := 0x2000, hi := 0x3000, owner := 0, pc := 0x2204 }
def sLadle (i : Inv) : State := (sG.modPart 0 fun q => { q with ldTenV := true, ldTen := 2 }).modSlice 0 fun k =>
  { k with run := true, inv := some i, pmp := i.pmp, tenants := [(2, { en := true, ntfy := true, rsize := 16, rbase := 32 })],
           sram := Memory.writeN [] 0x2010 4 0xfffffffe }
def ladleRuns (i : Instr) (j : Inv := running) : Bool := ran i (sLadle j)
theorem wit_Ladle_ends : ([running, { running with kind := .evict }, { running with kind := .miss, hasWindow := false }].all fun j =>
      ladleRuns (.done 0 7) j && ladleRuns (.ladleFault 0 5 0x204) j) = true
    ∧ ladleRuns (.ladleOverrun 0) { running with cycles := 5 } = true := by decide +kernel
/-- A fill whose line stands in its slice, and one whose line does not. -/
theorem wit_Ladle_fill : ([([(0, {})], true), ([], false)].all fun q =>
    let t := after (.done 0 7) ((sLadle { running with kind := .fill }).modSlice 0 fun k => { k with lines := q.1 })
    ((t.slice 0).lines.get 0 {}).dirty == q.2 && (t.slice 0).served.get 0 false == !q.2) = true
    ∧ homeSlice (128 * running.line) = 0 ∧ (sLadle running).openLine running.line = false := by decide +kernel
/-- R374: `done` commits the window and answers OK with the value. -/
theorem test_done : let t := after (.done 0 7) (sLadle running)
    t.mem.readN 0 8 = 0x8877665544332211 ∧ (t.core 0).replies.map (fun r => (r.status, r.value)) = [(0, 7)]
      ∧ (t.slice 0).inv = none := by decide +kernel
theorem test_overrun : let t := after (.ladleOverrun 0) (sLadle { running with cycles := 5 })
    (t.core 0).replies.map (·.status) = [1] ∧ (t.part 0).events.map (fun r => (r.cause, r.detail.toNat)) = [(.ladleOverrun, 0x305200)] := by
  decide +kernel

theorem wit_Ladle_tenants : ran (.ladleCounterRead 0 2 1) (sLadle running) = true
    ∧ ([0, 2 ^ 63 + 2 ^ 16 * 2 + 48, 2 ^ 63 + 2 ^ 16 * 2 + 31].all fun v => ran (.ldTenWrite 0 3 (BitVec.ofNat 64 v)) (sLadle running)) = true
    ∧ ran (.ldTenWrite 0 2 0) (sLadle running) = true := by decide +kernel
theorem test_tenant_region : ((after (.ldTenWrite 0 3 0x800000000002002f) (sLadle running)).slice 0).tenants.find? 3 = none
    ∧ ((after (.ldTenWrite 0 3 0x8000000000020030) (sLadle running)).slice 0).tenants.find? 3
      = some { en := true, budget := 0, rsize := 2, rbase := 0x30 } := by decide +kernel
/-- A forward and its five outcomes: 17 hops, a line of HBM, a host line, a fault, and no message. -/
theorem wit_Ladle_fwd : ladleRuns (.fwd 0 6) { running with hop := 16 } = true
    ∧ (match (sLadle running).walk 0 32 0x18000 (Need.of .read) with
      | .ok y _ => isHbm (y.pa 0x18000)
      | _ => false) = true ∧ ladleRuns (.fwd 0 6) { running with fwda0 := 0x18000 } = true
    ∧ (match (sLadle running).walk 0 32 0x38000 (Need.of .read) with
      | .fault .. => true
      | _ => false) = true ∧ ladleRuns (.fwd 0 6) { running with fwda0 := 0x38000 } = true
    ∧ ladleRuns (.fwd 0 6) { running with kind := .fill } = true := by decide +kernel
theorem test_fwd : ((after (.fwd 0 6) (sLadle { running with fwda0 := 0x18000 })).slice (homeSlice 0x138000)).queue.map
    (fun i => (i.kind, i.handler, i.hop, i.line)) = [(.message, 6, 4, 0x138000 / 128)] := by decide +kernel
theorem wit_Ladle_post : (let s := sLadle { running with posth := 8 * 2 ^ 32 }
      s.hasTeam 0 0 && !(s.team 0 0).over && (s.part (s.team 0 0).part).ldTenV && decide (16 ≤ (s.team 0 0).scratchSize)) = true
    ∧ ladleRuns (.post 0 9) { running with posth := 8 * 2 ^ 32 } = true ∧ ladleRuns (.post 0 9) { running with posth := 4 * 2 ^ 32 } = true := by
  decide +kernel
theorem test_post : (after (.post 0 9) (sLadle { running with posth := 8 * 2 ^ 32 })).scratchRead 0 0 8 8 = 0x8000000000000009
    ∧ ((after (.post 0 9) (sLadle { running with posth := 4 * 2 ^ 32 })).slice 0).counters.get 11 0 = 1 := by decide +kernel
theorem wit_Ladle_pref : ladleRuns (.prefLadle 0 0x18000) = true ∧ ladleRuns (.prefLadle 0 0x38000) = true
    ∧ ladleRuns (.fwda0 0 1) = true ∧ ladleRuns (.fwda1 0 1) = true ∧ ladleRuns (.posth 0 1) = true := by decide +kernel
/-- Accesses to every part of the address space of a handler. -/
theorem wit_Ladle_access : ([0x2000, 0x2ff8, 0x20000000, 0x20000078, 0x10000038, 0x1ff8, 0x2ffc, 0x8000000000018000, 0x8000000000018001,
      0x8000000000038000].all fun a => [LadleAccess.load, .store].all fun k => ladleRuns (.globalApertureAccess 0 (BitVec.ofNat 64 a) k 8 1)) = true
    ∧ ladleRuns (.globalApertureAccess 0 0x2010 .amoAdd 4 3) = true
    ∧ ([LadleAccess.lr, .sc].all fun k => ladleRuns (.globalApertureAccess 0 0x8000000000018000 k 8 1)) = true
    ∧ ([{ running with hasWindow := false }, { running with bad := true }].all fun j =>
      ladleRuns (.globalApertureAccess 0 0x20000000 .load 8 0) j && ladleRuns (.globalApertureAccess 0 0x20000000 .store 8 0) j) = true := by
  decide +kernel
/-- A handler that holds the line 0x138000, sound or poisoned, reaches it through the aperture too. -/
theorem wit_Ladle_held : ([true, false].all fun b => [LadleAccess.load, .store].all fun k =>
    ladleRuns (.globalApertureAccess 0 0x8000000000018000 k 4 1) { running with line := 0x138000 / 128, bad := b }) = true := by decide +kernel
theorem wit_Ladle_home : (match (sLadle running).walk 0 32 0x18000 (Need.of .write) with
    | .ok y w => (w.homeRead (y.pa 0x18000) 8 32 y.cls (.handler 0)).isSome
    | _ => false) = true := by decide +kernel
/-- The PMP opens the tenant's region, and closes what lies outside it and what a locked entry covers without a right. -/
def ruled (rule : List (Nat × Pmp)) : State := (sLadle running).modSlice 0 fun k => { k with pmp := rule ++ k.pmp }
theorem wit_Ladle_pmp : ((sLadle running).slice 0).pmp.any (fun q => 8 ≤ q.1 && q.2.grants 0x2010 8 .read) = true
    ∧ ((sLadle running).slice 0).pmp.any (fun q => 8 ≤ q.1 && q.2.grants 0x10000000 0x40 .write) = true
    ∧ (((ruled []).slice 0).pmp.all fun q => !q.2.grants 0x3000 8 .read) = true ∧ ran (.globalApertureAccess 0 0x3000 .load 8 0) (ruled []) = true
    ∧ (let s := ruled [(0, { lo := 0x2000, hi := 0x2100, lock := true })]
      (s.slice 0).pmp.any (fun q => q.1 < 8 && q.2.lo < 0x2018 && 0x2010 < q.2.hi && !q.2.grants 0x2010 8 .read)
        && ran (.globalApertureAccess 0 0x2010 .load 8 0) (ruled [(0, { lo := 0x2000, hi := 0x2100, r := true }), (1, { lo := 0x2000, hi := 0x2100 })])
        && ran (.globalApertureAccess 0 0x2010 .load 8 0) s) = true := by decide +kernel
theorem test_sram_amo : let t := after (.globalApertureAccess 0 0x2010 .amoAdd 4 3) (sLadle running)
    (t.slice 0).sram.readN 0x2010 4 = 1 ∧ (t.slice 0).inv.any (fun j => j.data == 0xfffffffe) = true := by decide +kernel
theorem test_aperture : (after (.globalApertureAccess 0 0x8000000000018000 .store 4 0xabcd) (sLadle running)).mem.readN 0x138000 4 = 0xabcd
    ∧ ((after (.globalApertureAccess 0 0x8000000000018001 .load 8 0) (sLadle running)).slice 0).fault.toNat % 256 = 4 := by decide +kernel

/-! Keys. -/

/-- A second key enrolled in slot 1. -/
def sKeys : State := State.reset.modPkg fun k => { k with keys := k.keys.set 1 { hash := some 77 } }
theorem wit_Keys : (State.reset.slice 3).run = false ∧ State.reset.pkg.inReset.contains managerKind = false
    ∧ ([true, false].all fun b => ran (.monitorBoot 3 0 ⟨0, 7, [1, 2], [(0x9ff, 3, 5)], 9, b⟩) State.reset
      && ran (.firmwareVerify 2 2 0 5 9 b) State.reset && ran (.keyEnrol 1 0 77 b) State.reset && ran (.keyEnrol 4 1 0 b) sKeys
      && ran (.keyRevoke 0 1 b) sKeys) = true
    ∧ ran (.spdmMeasurement 5) State.reset = true := by decide +kernel
/-- Entries of the PMP that are off, TOR, of one unit and NAPOT; a monitor that fails is loaded and does not run. -/
def rules : List (Nat × Nat × BitVec 3) := [(9, 0, 7), (0x800, 1, 5), (0x900, 2, 1), (0x9ff, 3, 3)]
theorem test_boot : let t := after (.monitorBoot 3 0 ⟨0, 7, [1, 2], rules, 9, true⟩) State.reset
    (t.slice 3).run = true ∧ (t.slice 3).pmp.map (fun q => (q.1, q.2.lo, q.2.hi, [q.2.r, q.2.w, q.2.x, q.2.lock]))
      = [(1, 36, 0x2000, [true, false, true, true]), (2, 0x2400, 0x2404, [true, false, false, true]), (3, 0x2000, 0x3000, [true, true, false, true])] := by
  decide +kernel
theorem test_boot_fails : let t := after (.monitorBoot 3 0 ⟨0, 7, [1, 2], rules, 9, false⟩) State.reset
    (t.slice 3).run = false ∧ t.pkg.images.map (·.2) = [9] := by decide +kernel
theorem test_keys : ((after (.monitorBoot 3 0 ⟨2, 7, [], [], 9, true⟩) State.reset).slice 3).run = false
    ∧ ((after (.keyRevoke 0 1 true) sKeys).pkg.keys.get 0 {}).revoked = true
    ∧ ((after (.keyRevoke 0 0 true) State.reset).pkg.keys.get 0 {}).revoked = false
    ∧ (after (.firmwareVerify 2 2 0 5 9 false) State.reset).pkg.inReset = [2] := by decide +kernel

/-! The host. -/

theorem wit_Host_links : (State.reset.pkg.ports.get 5 {}).up = true ∧ ran (.sprueFlitReceive 5 0 [] true) State.reset = true
    ∧ (0 : BitVec 128).extractLsb' 32 32 = (State.reset.pkg.ports.get 5 {}).expect ∧ ran (.sprueFlitReceive 5 0 [] false) State.reset = true
    ∧ ran (.spruePortFail 5) State.reset = true := by decide +kernel
theorem wit_Host_memory : (State.reset.homeRead 0x1004 8 32 3).isSome = true ∧ ran (.hostMemRead 0x1004 8) State.reset = true
    ∧ (State.reset.readArea 0x1070 40).isSome = true ∧ ran (.hostMemRead 0x1070 40) State.reset = true
    ∧ State.reset.mem.wf = true ∧ State.reset.homeFree 0x1004 = true ∧ ran (.hostMemWrite 0x1004 [1, 2]) State.reset = true
    ∧ (State.reset.writeArea 0x107f [1, 2, 3]).isSome = true := by decide +kernel
theorem test_host_bytes : (after (.hostMemRead 0x107e 4) (after (.hostMemWrite 0x107f [1, 2]) State.reset)).pkg.hostData = [0, 1, 2, 0] := by
  decide +kernel
/-- A line of host memory in a die cache. -/
def sHost (dirty : BitVec 128) : State := State.reset.modDie 2 fun k =>
  { k with lines := [(2 ^ 46 / 128, { data := 0x55, dirty := dirty, at_ := 0 })], leases := [{ line := 2 ^ 46 / 128, core := 200, expiry := 0 }] }
theorem wit_Host_snoop : isHost (128 * (2 ^ 46 / 128)) = true ∧ ran (.hostSnoop (2 ^ 46 / 128)) (sHost 0) = true ∧ ran (.hostSnoop (2 ^ 46 / 128)) (sHost 1) = true
    ∧ (after (.hostSnoop (2 ^ 46 / 128)) (sHost 1)).mem.read (2 ^ 46) = 0x55 := by decide +kernel
/-- A read that waits for the line a handler holds, one behind it, and an access of host memory. -/
def sBusy : State := State.reset.modSlice (homeSlice 0x1000) fun k =>
  { k with inv := some { kind := .message, line := 0x1000 / 128, tenant := 2, handler := 5, hasWindow := true, writable := true } }
theorem wit_Host_waits : (sBusy.readArea 0x1000 8).isNone = true ∧ (sBusy.writeArea 0x1000 [1]).isNone = true ∧ sBusy.pkg.hostWaits = []
    ∧ ran (.hostMemRead 0x1000 8) sBusy = true ∧ (after (.hostMemRead 0x1000 8) sBusy).pkg.hostWaits.length = 1
    ∧ ran (.hostMemWrite 0x2000 [1]) (after (.hostMemRead 0x1000 8) sBusy) = true
    ∧ isHost (2 ^ 46) = true ∧ (State.reset.snoopAll (2 ^ 46) 8).isSome = true ∧ ran (.hostMemRead (2 ^ 46) 8) State.reset = true
    ∧ ran (.hostMemWrite (2 ^ 46) [1]) State.reset = true := by decide +kernel
/-- Plain reads of a register by the package function and by a partition's own function, where the partition holds a flask. -/
theorem wit_Host_reads : ([(0x18, 4), (0x100000, 8), (2 ^ 27, 8), (2 ^ 27 + 0x10000, 4), (0x3000008, 8)].all fun q =>
      ran (.mmioUnsupported q.1 q.2 false) State.reset && State.reset.settleCounter (q.1 / 8 * 8) == State.reset) = true
    ∧ State.reset.pkg.owner.toNat % 16 = 0 := by decide +kernel
theorem test_function : (after (.mmioUnsupported (2 ^ 27) 8 false) (State.reset.modPart 0 fun q => { q with ptTop := 0x10 })).pkg.hostData
    = [0, 0, 16, 0, 0, 0, 0, 0] := by decide +kernel
theorem wit_Host_window : ([(1, 8), (0, 2), (2 ^ 27 - 4, 8)].all fun a => ran (.mmioUnsupported a.1 a.2 true) State.reset) = true
    ∧ ([0, 0x18, 0x20, 0x30, 0x88, 0x100000, 0x1b0008, 0x200008, 0x2b0010, 0x200048, 0x2000b0, 0x3b0000, 0x570000, 0x147f008,
      0x247f000, 0x3000000, 0x4000100, 0x6fe0178, 0x10000, 0xffff8].all fun o => ran (.registerWrite o 8 0x123456789abcdef0) State.reset) = true
    ∧ ran (.registerWrite 0xffffc 4 0) State.reset = true := by decide +kernel
theorem test_window : let t := after (.registerWrite 0x18 4 0x05550123) State.reset
    t.pkg.thermSoft = 0x123 ∧ t.pkg.thermTrip = 0x555 := by decide +kernel
theorem wit_Host_reset : ran (.packageReset [3]) (sLine 0) = true ∧ ((sLine 0).dies.all fun d => d.2.lines.all fun l => l.2.dirty == 0) = true := by
  decide +kernel
theorem test_reset_salvages : let t := after (.packageReset [3]) (sLine 3)
    t.mem.readN 0x138000 4 = 0x3344 ∧ t.pkg.defects = [3] ∧ (t.core 0).teams = [] := by decide +kernel

end Sys2Proof.Tests
end

section
/-!
PROOFS. Decoding reads back what encoding writes (R6, R42, R44, R52, R54, R55).
-/
namespace Sys2Proof

theorem getLsbD_of_extractLsb' {w i : Nat} {x : BitVec w} {b : Bool} (h : x.extractLsb' i 1 = BitVec.ofBool b) :
    x.getLsbD i = b := by
  simpa using congrArg (·.getLsbD 0) h

theorem encodeSlot_arc (arc : BitVec 3) (opc : BitVec 8) (f : OpF) : (encodeSlot arc opc f).extractLsb' 61 3 = arc := by
  unfold encodeSlot
  repeat refine (BitVec.extractLsb'_append_eq_of_le (by decide)).trans ?_
  exact BitVec.extractLsb'_eq_self

theorem parseOpc_encodeSlot (arc : BitVec 3) (opc : BitVec 8) (f : OpF) : parseOpc (encodeSlot arc opc f) = opc := by
  unfold parseOpc encodeSlot
  repeat refine (BitVec.extractLsb'_append_eq_of_le (by decide)).trans ?_
  exact BitVec.extractLsb'_append_eq_right

theorem parseF_encodeSlot (arc : BitVec 3) (opc : BitVec 8) (f : OpF) : parseF (encodeSlot arc opc f) = f := by
  unfold parseF encodeSlot
  cases f
  refine (OpF.mk.injEq ..).mpr ⟨getLsbD_of_extractLsb' ?_, ?_, getLsbD_of_extractLsb' ?_, ?_, ?_, ?_, ?_⟩
  all_goals
    repeat refine (BitVec.extractLsb'_append_eq_of_le (by decide)).trans ?_
    exact BitVec.extractLsb'_append_eq_right

theorem parseHeader_encodeHeader (h : TreeHeader) : parseHeader (encodeHeader h) = h := by
  unfold parseHeader encodeHeader
  cases h
  refine (TreeHeader.mk.injEq ..).mpr ⟨getLsbD_of_extractLsb' ?_, ?_, ?_, ?_, ?_, ?_, ?_, ?_, ?_, ?_, ?_, getLsbD_of_extractLsb' ?_⟩
  all_goals
    repeat refine (BitVec.extractLsb'_append_eq_of_le (by decide)).trans ?_
    exact BitVec.extractLsb'_append_eq_right

theorem parseRep_encodeRep (p : RepPrefix) : parseRep (encodeRep p) = p := by
  unfold parseRep encodeRep
  cases p
  refine (RepPrefix.mk.injEq ..).mpr ⟨?_, ?_, ?_, ?_, ?_, ?_⟩
  all_goals
    repeat refine (BitVec.extractLsb'_append_eq_of_le (by decide)).trans ?_
    exact BitVec.extractLsb'_append_eq_right

theorem encodeHeader_tree (h : TreeHeader) : (encodeHeader h).getLsbD 63 = true := by
  refine getLsbD_of_extractLsb' ?_
  unfold encodeHeader
  repeat refine (BitVec.extractLsb'_append_eq_of_le (by decide)).trans ?_
  exact BitVec.extractLsb'_eq_self

theorem encodeRep_kind (p : RepPrefix) : (encodeRep p).extractLsb' 61 3 = 1 := by
  unfold encodeRep
  repeat refine (BitVec.extractLsb'_append_eq_of_le (by decide)).trans ?_
  exact BitVec.extractLsb'_eq_self

/-! The kind of a slot, bits [63:61] (R42). -/

theorem getLsbD_63_of_kind {w : DWord} {k : BitVec 3} (h : w.extractLsb' 61 3 = k) : w.getLsbD 63 = k.getLsbD 2 := by
  simp [← h]
theorem extractLsb'_61_of_kind {w : DWord} {k : BitVec 3} (h : w.extractLsb' 61 3 = k) :
    w.extractLsb' 61 2 = k.extractLsb' 0 2 := by
  subst h
  ext i hi
  simp
  omega

/-! Bytes (R6). -/

theorem length_bytesOfSlot (w : DWord) : (bytesOfSlot w).length = 8 := by simp [bytesOfSlot]

theorem slotOfBytes_bytesOfSlot (w : DWord) (bs : List Byte) : slotOfBytes (bytesOfSlot w ++ bs) = w := by
  have front : (bytesOfSlot w ++ bs).take 8 = bytesOfSlot w := by simp [bytesOfSlot]
  rw [slotOfBytes, front]
  apply BitVec.eq_of_getLsbD_eq
  intro i hi
  simp only [bytesOfSlot, List.range, List.range.loop, List.map_cons, List.map_nil, List.foldr_cons, List.foldr_nil]
  simp
  grind

theorem slotsOfBytes_flatMap (ws : List DWord) {n : Nat} (h : ws.length ≤ n) :
    slotsOfBytes n (ws.flatMap bytesOfSlot) = ws := by
  induction ws generalizing n with
  | nil => cases n <;> simp [slotsOfBytes]
  | cons w ws ih =>
    obtain ⟨n, rfl⟩ : ∃ m, n = m + 1 := Nat.exists_eq_add_one.2 (by simp at h; omega)
    have enough : ¬ (bytesOfSlot w ++ ws.flatMap bytesOfSlot).length < 8 := by simp [length_bytesOfSlot]
    have back : (bytesOfSlot w ++ ws.flatMap bytesOfSlot).drop 8 = ws.flatMap bytesOfSlot := by
      rw [← length_bytesOfSlot w, List.drop_left]
    rw [List.flatMap_cons, slotsOfBytes, if_neg enough, slotOfBytes_bytesOfSlot, back, ih (by simpa using h)]

/-! Decoding each form of an encoding, with any slots after it (R42). -/

theorem parseSlot_encodeSlot (t : TreeSlot) : parseSlot (encodeSlot t.arc t.opc t.f) = t := by
  simp [parseSlot, encodeSlot_arc, parseOpc_encodeSlot, parseF_encodeSlot]

theorem decode_tree {h : TreeHeader} {slots : List TreeSlot} (n : slots.length = h.ns.toNat) (rest : List DWord) :
    decode (encodeHeader h :: (slots.map fun t => encodeSlot t.arc t.opc t.f) ++ rest) = .ok (.tree h slots) := by
  simp [decode, encodeHeader_tree, parseHeader_encodeHeader, ← n, Function.comp_def, parseSlot_encodeSlot]

theorem decode_rep (p : RepPrefix) (opc : BitVec 8) (f : OpF) (rest : List DWord) :
    decode (encodeRep p :: encodeSlot 0 opc f :: rest) = .ok (.rep p opc f) := by
  simp only [decode, getLsbD_63_of_kind (encodeRep_kind p), extractLsb'_61_of_kind (encodeRep_kind p), encodeSlot_arc,
    parseRep_encodeRep, parseOpc_encodeSlot, parseF_encodeSlot]
  rfl

theorem decode_long (opc : BitVec 8) (f : OpF) (imm : DWord) (rest : List DWord) :
    decode (encodeSlot 2 opc f :: imm :: rest)
      = .ok (if opc == 0x1b then .moviLong f imm else .longImmediateForm opc f imm) := by
  simp only [decode, getLsbD_63_of_kind (encodeSlot_arc 2 opc f), extractLsb'_61_of_kind (encodeSlot_arc 2 opc f),
    parseOpc_encodeSlot, parseF_encodeSlot]
  cases opc == 0x1b <;> rfl

theorem decode_straight {i : Instr} {opc : BitVec 8} {f : OpF} (h : opInstr opc f = some i) (rest : List DWord) :
    decode (encodeSlot 0 opc f :: rest) = .ok i := by
  simp only [decode, getLsbD_63_of_kind (encodeSlot_arc 0 opc f), extractLsb'_61_of_kind (encodeSlot_arc 0 opc f),
    parseOpc_encodeSlot, parseF_encodeSlot, h]
  rfl

/-- The forms of a canonical instruction: each with its encoding. -/
inductive Instr.Form : Instr → List DWord → Prop where
  | tree {h slots} : slots.length = h.ns.toNat →
      Form (.tree h slots) (encodeHeader h :: slots.map fun t => encodeSlot t.arc t.opc t.f)
  | rep (p opc f) : Form (.rep p opc f) [encodeRep p, encodeSlot 0 opc f]
  | moviLong (f imm) : Form (.moviLong f imm) [encodeSlot 2 0x1b f, imm]
  | long (f imm) {opc} : (opc == 0x1b) = false → Form (.longImmediateForm opc f imm) [encodeSlot 2 opc f, imm]
  | straight {i opc f} : opInstr opc f = some i → Form i [encodeSlot 0 opc f]

theorem Instr.form_of_op {i : Instr} (c : i.canonical = match i.op with
      | none => false
      | some (opc, f) => opInstr opc f == some i) (e : encode i = i.op.map fun q => [encodeSlot 0 q.1 q.2])
    (h : i.canonical = true) : ∃ ws, encode i = some ws ∧ i.Form ws := by
  rw [c] at h
  cases o : i.op with
  | none => simp [o] at h
  | some q =>
    obtain ⟨opc, f⟩ := q
    refine ⟨_, by rw [e, o]; rfl, .straight (opc := opc) (f := f) ?_⟩
    simpa [o] using h

/-- A canonical instruction has an encoding. -/
theorem Instr.exists_form {i : Instr} (h : i.canonical = true) : ∃ ws, encode i = some ws ∧ i.Form ws := by
  cases i with
  | tree hd slots => exact ⟨_, rfl, .tree (by simpa [Instr.canonical] using h)⟩
  | rep p opc f => exact ⟨_, rfl, .rep p opc f⟩
  | moviLong f imm => exact ⟨_, rfl, .moviLong f imm⟩
  | longImmediateForm opc f imm => exact ⟨_, rfl, .long f imm (by simpa [Instr.canonical] using h)⟩
  | _ => exact Instr.form_of_op rfl rfl h

theorem Instr.Form.decode_append {i : Instr} {ws : List DWord} (h : i.Form ws) (rest : List DWord) :
    decode (ws ++ rest) = .ok i := by
  cases h with
  | tree n => exact decode_tree n rest
  | rep p opc f => exact decode_rep p opc f rest
  | moviLong f imm => exact decode_long 0x1b f imm rest
  | long f imm n => exact (decode_long _ f imm rest).trans (by rw [n]; rfl)
  | straight h => exact decode_straight h rest

theorem Instr.Form.length_le {i : Instr} {ws : List DWord} (h : i.Form ws) : ws.length ≤ 8 := by
  cases h with
  | @tree h slots n => simp only [List.length_cons, List.length_map]; omega
  | _ => simp

theorem Instr.encodedLength (i : Instr) : Laws.EncodedLength.Statement i := by
  cases i with
  | tree h slots => exact Laws.EncodedLength.tree h slots
  | rep p opc f => exact Laws.EncodedLength.rep p opc f
  | moviLong f imm => exact Laws.EncodedLength.moviLong f imm
  | longImmediateForm opc f imm => exact Laws.EncodedLength.longImmediateForm opc f imm
  | _ => exact Laws.EncodedLength.of_one rfl rfl

/-- Settles O3: every canonical instruction has one of five forms, and each form is read back. -/
theorem decodeEncode : Obligations.DecodeEncode := by
  unfold Obligations.DecodeEncode
  intro i hw
  have hc : i.canonical = true := (Bool.and_eq_true _ _ ▸ hw).1
  obtain ⟨ws, he, hf⟩ := Instr.exists_form hc
  have bytes : decodeBytes (ws.flatMap bytesOfSlot) = .ok i := by
    rw [decodeBytes, slotsOfBytes_flatMap ws hf.length_le]
    simpa using hf.decode_append []
  exact ⟨ws, he, i.encodedLength ws he, hf.decode_append, bytes⟩

end Sys2Proof
end

section
/-!
PROOFS. The functions of the model that leave memory as it is, each with its lemma.
-/
namespace Sys2Proof.Machine

/-- What a step of a fold leaves, the fold leaves. -/
theorem foldl_leaves {α β γ : Type} (p : β → γ) (f : β → α → β) (hf : ∀ b a, p (f b a) = p b) (l : List α) (b : β) :
    p (l.foldl f b) = p b :=
  List.foldlRecOn l f (motive := fun c => p c = p b) rfl fun c h a _ => (hf c a).trans h

theorem foldl_mem {α : Type} (f : State → α → State) (hf : ∀ s a, (f s a).mem = s.mem) (l : List α) (s : State) :
    (l.foldl f s).mem = s.mem :=
  foldl_leaves State.mem f hf l s

/-- The same for a fold that gathers a list beside the state. -/
theorem foldl_fst_mem {α β : Type} (f : State × β → α → State × β) (hf : ∀ b a, (f b a).1.mem = b.1.mem) (l : List α)
    (b : State × β) : (l.foldl f b).1.mem = b.1.mem :=
  foldl_leaves (·.1.mem) f hf l b

theorem Got.bind_eq_ok {α β : Type} {g : Got α} {f : α → Got β} {b : β} :
    g.bind f = .ok b ↔ ∃ a, g = .ok a ∧ f a = .ok b := by
  cases g <;> simp [Got.bind]

/-! Functions of Machine/Ops. -/

@[simp] theorem State.setTeam_mem (s : State) (c t : Nat) (k : Team) : (s.setTeam c t k).mem = s.mem := rfl
@[simp] theorem State.free_mem (s : State) : (s.free).2.mem = s.mem := rfl
@[simp] theorem State.choose_mem (s : State) (n : Nat) : (s.choose n).2.mem = s.mem := rfl

@[simp] theorem State.count_mem (s : State) (c src t n : Nat) : (s.count c src t n).mem = s.mem := by
  unfold State.count
  split <;> rfl

@[simp] theorem State.sees_mem (s : State) (x : Lane) (b : PastOp → Bool) : (s.sees x b).mem = s.mem := by
  unfold State.sees
  split <;> rfl

@[simp] theorem State.seesCount_mem (s : State) (x : Lane) (t : Nat) : (s.seesCount x t).mem = s.mem := by
  unfold State.seesCount
  grind [State.sees_mem]

@[simp] theorem State.observe_mem (s : State) (x : Lane) : (s.observe x).mem = s.mem := by
  unfold State.observe
  grind [State.sees_mem]

@[simp] theorem State.seesBar_mem (s : State) (x : Lane) (spc : Bool) (a : Nat) : (s.seesBar x spc a).mem = s.mem := by
  unfold State.seesBar
  grind [State.sees_mem]

@[simp] theorem State.hears_mem (s : State) (x : Lane) (off : Nat) : (s.hears x off).mem = s.mem := by
  unfold State.hears
  split <;> rfl

@[simp] theorem State.tells_mem (s : State) (x : Lane) : (s.tells x).mem = s.mem := by
  unfold State.tells
  split <;> rfl

@[simp] theorem State.takeId_mem (s : State) (p : Nat) : (s.takeId p).2.mem = s.mem := rfl

@[simp] theorem State.markRec_mem (s : State) (c : Nat) (r : Rec) (id : Word) : (s.markRec c r id).mem = s.mem := by
  unfold State.markRec
  grind [State.modThread_mem, foldl_mem, State.modThread_mem]

@[simp] theorem State.coalesce_mem (s : State) (c : Nat) (new : Rec) : (s.coalesce c new).mem = s.mem := by
  unfold State.coalesce
  grind [State.modCore_mem, State.modCore_mem, State.count_mem, State.markRec_mem, State.takeId_mem]

@[simp] theorem State.recoalesce_mem (s : State) (c : Nat) : (s.recoalesce c).mem = s.mem := by
  unfold State.recoalesce
  grind [State.modCore_mem, foldl_mem, State.coalesce_mem, State.modCore_mem]

@[simp] theorem State.event_mem (s : State) (p : Nat) (r : Rec) : (s.event p r).mem = s.mem := rfl

@[simp] theorem State.park_mem (s : State) (x : Lane) (p : At) (i : FaultInfo) (user : optParam Bool false) :
    (s.park x p i user).mem = s.mem := by
  unfold State.park
  grind [State.modThread_mem, State.coalesce_mem, State.modThread_mem]

@[simp] theorem State.userTrap_mem (s : State) (x : Lane) (p : At) (c : Cause) (detail : Word) (after : Bool) :
    (s.userTrap x p c detail after).mem = s.mem := by
  unfold State.userTrap
  grind [State.modThread_mem, State.park_mem, State.modThread_mem]

@[simp] theorem State.takeException_mem (s : State) (x : Lane) (p : At) (i : FaultInfo) (after : optParam Bool false) :
    (s.takeException x p i after).mem = s.mem := by
  unfold State.takeException
  grind [State.userTrap_mem, State.park_mem]

@[simp] theorem State.returnTrap_mem (s : State) (x : Lane) (fr : Frame) (ws : List DWord) : (s.returnTrap x fr ws).mem = s.mem
    := rfl

/-! Functions of Machine/Flags. -/

@[simp] theorem State.setFlags_mem (s : State) (x : Lane) (fl : Flags) : (s.setFlags x fl).mem = s.mem := rfl

/-! Functions of Machine/Mem. -/

theorem State.evictLine_mem {s : State} {n line : Nat} {t} (e : s.evictLine n line = some t) : t.mem = s.mem := by
  unfold State.evictLine at e
  grind [= Option.map_eq_some_iff, = Option.bind_eq_some_iff, State.modSlice_mem, State.modSlice_mem]

theorem State.touch_mem {s : State} {pa cls : Nat} {write : Bool} {t} (e : s.touch pa cls write = some t) : t.mem = s.mem := by
  unfold State.touch at e
  grind [= Option.map_eq_some_iff, = Option.bind_eq_some_iff, State.modSlice_mem, State.modSlice_mem, → State.evictLine_mem]

@[simp] theorem State.setLine_mem (s : State) (d line : Nat) (l : DieLine) : (s.setLine d line l).mem = s.mem := rfl
@[simp] theorem State.setEpochs_mem (s : State) (n line : Nat) (es : List (Nat × Nat)) : (s.setEpochs n line es).mem = s.mem := rfl

@[simp] theorem State.record_mem (s : State) (pa d epoch : Nat) : (s.record pa d epoch).mem = s.mem := by
  unfold State.record
  split <;> rfl

@[simp] theorem State.openBytes_mem (s : State) (n : Nat) : (s.openBytes n).2.mem = s.mem := by
  induction n generalizing s with
  | zero => rfl
  | succ n ih => exact ih _

@[simp] theorem State.wroteOver_mem (s : State) (d line : Nat) : (s.wroteOver d line).mem = s.mem := by
  unfold State.wroteOver
  split <;> rfl

@[simp] theorem State.dropL1Copies_mem (s : State) (d line : Nat) : (s.dropL1Copies d line).mem = s.mem := by
  unfold State.dropL1Copies
  split <;> rfl

@[simp] theorem State.useLine_mem (s : State) (d line : Nat) (l : DieLine) : (s.useLine d line l).2.mem = s.mem := rfl

@[simp] theorem State.leaveL1_mem (s : State) (c : Nat) (bs : List Nat) : (s.leaveL1 c bs).mem = s.mem := by
  unfold State.leaveL1
  grind [State.modCore_mem, State.modDie_mem, State.modCore_mem, State.modDie_mem]

@[simp] theorem State.grant_mem (s : State) (c line : Nat) (l : DieLine) : (s.grant c line l).mem = s.mem := by
  unfold State.grant
  grind [State.modCore_mem, State.modDie_mem, State.modDie_mem, State.modCore_mem]

@[simp] theorem State.copyWrite_mem (s : State) (c pa n v : Nat) : (s.copyWrite c pa n v).mem = s.mem := by
  unfold State.copyWrite
  split <;> rfl

@[simp] theorem State.releasePkg_mem (s : State) (d : Nat) : (s.releasePkg d).2.mem = s.mem := rfl
@[simp] theorem State.dropL1s_mem (s : State) (d : Nat) : (s.dropL1s d).mem = s.mem := rfl

/-! Functions of Machine/Xlat. -/

@[simp] theorem State.keepDir_mem (s : State) (d p : Nat) (mid : Bool) (a e : Nat) : (s.keepDir d p mid a e).mem = s.mem := by
  unfold State.keepDir
  split <;> rfl

@[simp] theorem State.counted_mem (s : State) (x : Lane) (va : Nat) (a : Access) : (s.counted x va a).mem = s.mem := by
  unfold State.counted
  grind [State.count_mem]

/-! Functions of Machine/Operands. -/

@[simp] theorem State.scratchWrite_mem (s : State) (c t o n v : Nat) : (s.scratchWrite c t o n v).mem = s.mem := rfl

@[simp] theorem State.touchA_mem (s : State) (x : Lane) (i : Nat) : (s.touchA x i).mem = s.mem := by
  unfold State.touchA
  split <;> rfl

theorem futurePut_mem {x : Lane} {s : State} {off : Nat} {w : Word} {t} (e : futurePut x s off w = .ok t) : t.mem = s.mem := by
  unfold futurePut at e
  grind [Got.bind_eq_ok, State.scratchWrite_mem]

@[simp] theorem State.modQueue_mem (s : State) (c t key : Nat) (f : Queue → Queue) : (s.modQueue c t key f).mem = s.mem := rfl
@[simp] theorem State.pushQueue_mem (s : State) (c t key : Nat) (w : Word) : (s.pushQueue c t key w).mem = s.mem := rfl

@[simp] theorem popChan_mem (x : Lane) (s : State) (q : Nat) : (popChan x s q).mem = s.mem := by
  unfold popChan
  grind [State.modCore_mem, State.modQueue_mem, State.scratchWrite_mem, State.hears_mem, State.modCore_mem]

@[simp] theorem sendChan_mem (x : Lane) (s : State) (q : Nat) (w : Word) : (sendChan x s q w).mem = s.mem := by
  unfold sendChan
  grind [State.modThread_mem, State.pushQueue_mem, State.scratchWrite_mem, State.modThread_mem]

@[simp] theorem State.popAll_mem (s : State) (x : Lane) (qs : List Nat) : (s.popAll x qs).mem = s.mem := by
  unfold State.popAll
  grind [foldl_mem, popChan_mem]

@[simp] theorem State.enter_mem (s : State) (x : Lane) : (s.enter x).mem = s.mem := rfl
@[simp] theorem State.note_mem (s : State) (x : Lane) (ds : List (Nat × Option Word)) : (s.note x ds).mem = s.mem := rfl

@[simp] theorem State.putReg_mem (s : State) (x : Lane) (tr : Bool) (i : Nat) (w : Word) : (s.putReg x tr i w).mem = s.mem := by
  unfold State.putReg
  grind [State.modThread_mem, State.note_mem, State.modThread_mem, State.touchA_mem]

@[simp] theorem State.putAff_mem (s : State) (x : Lane) (n : Nat) (v : BitVec 1024) : (s.putAff x n v).mem = s.mem := rfl

@[simp] theorem writeDst_mem (e : Env) (x : Lane) (v : DWord) (s : State) : (writeDst e x v s).mem = s.mem := by
  unfold writeDst
  grind [State.modPos_mem, State.modThread_mem, sendChan_mem, State.modPos_mem, State.putReg_mem, State.modThread_mem]

/-! Functions of Machine/Life. -/

@[simp] theorem State.addWave_mem (s : State) (c t : Nat) (lanes : List (Nat × Nat)) (form : optParam (Option (Nat × Nat)) none)
    : (s.addWave c t lanes form).mem = s.mem := by
  unfold State.addWave
  split <;> rfl

@[simp] theorem State.addSafe_mem (s : State) (c t : Nat) (lanes : List (Nat × Nat)) : (s.addSafe c t lanes).mem = s.mem := by
  unfold State.addSafe
  split <;> rfl

@[simp] theorem State.drainBin_mem (s : State) (c : Nat) (b : Bin) : (s.drainBin c b).mem = s.mem := by
  unfold State.drainBin
  grind [State.modCore_mem, State.modCore_mem, State.addSafe_mem, State.addWave_mem]

@[simp] theorem State.fileOne_mem (s : State) (c t : Nat) (pc : Addr) (x : Nat × Nat) (safe : optParam Bool true) :
    (s.fileOne c t pc x safe).mem = s.mem := by
  unfold State.fileOne
  grind [State.modCore_mem, State.drainBin_mem, State.modCore_mem, State.count_mem]

@[simp] theorem State.file_mem (s : State) (c t : Nat) (xs : List (Nat × Nat)) : (s.file c t xs).mem = s.mem := by
  unfold State.file
  grind [foldl_mem, State.count_mem, State.fileOne_mem]

@[simp] theorem State.exitThread_mem (s : State) (x : Lane) : (s.exitThread x).mem = s.mem := rfl

@[simp] theorem State.freeCluster_mem (s : State) (c t : Nat) : (s.freeCluster c t).mem = s.mem := by
  unfold State.freeCluster
  grind [State.modCore_mem, State.modTeam_mem, foldl_mem, State.modTeam_mem, State.modCore_mem]

@[simp] theorem State.endTeam_mem (s : State) (c t : Nat) : (s.endTeam c t).mem = s.mem := by
  unfold State.endTeam
  grind [State.modCore_mem, State.modPart_mem, State.modTeam_mem, State.modCore_mem, State.modTeam_mem, State.freeCluster_mem,
    State.modPart_mem]

@[simp] theorem State.settle_mem (s : State) (c t g : Nat) : (s.settle c t g).mem = s.mem := by
  unfold State.settle
  grind [State.modCore_mem, State.modPart_mem, State.modTeam_mem, State.modTeam_mem, State.modCore_mem, State.modPart_mem,
    State.endTeam_mem]

@[simp] theorem State.leave_mem (s : State) (x : Lane) : (s.leave x).mem = s.mem := by
  unfold State.leave
  grind [State.settle_mem, State.exitThread_mem]

@[simp] theorem State.leaveWave_mem (s : State) (c : Nat) (w : Wave) (xs : List OutFault) : (s.leaveWave c w xs).mem = s.mem := by
  unfold State.leaveWave
  grind [State.modCore_mem, State.modPos_mem, foldl_mem, State.modPos_mem, State.modCore_mem, State.addWave_mem]

@[simp] theorem State.noteOut_mem (s : State) (c : Nat) (q : OutFault) : (s.noteOut c q).mem = s.mem := rfl

@[simp] theorem State.exceptAll_mem (s : State) (c : Nat) (xs : List OutFault) : (s.exceptAll c xs).mem = s.mem := by
  unfold State.exceptAll
  grind [foldl_mem, State.takeException_mem, State.leaveWave_mem, State.noteOut_mem]

@[simp] theorem State.wake_mem (s : State) (x : Lane) : (s.wake x).mem = s.mem := rfl

/-! Functions of Machine/Issue. -/

@[simp] theorem markDone_mem (e : Env) (x : Lane) (s : State) : (markDone e x s).mem = s.mem := by
  unfold markDone
  grind [State.modTeam_mem, State.modThread_mem, State.modThread_mem, State.count_mem, State.modTeam_mem]

@[simp] theorem markWait_mem (e : Env) (x : Lane) (w : Wait) (s : State) : (markWait e x w s).mem = s.mem := by
  unfold markWait
  split <;> rfl

@[simp] theorem keepBack_mem (e : Env) (x : Lane) (o : Out) (s : State) : (keepBack e x o s).mem = s.mem := by
  unfold keepBack
  split <;> rfl

@[simp] theorem performAll_mem (e : Env) (lanes : List Lane) (s : State) (f : Lane → State → State)
    (hf : ∀ x s, (f x s).mem = s.mem) : (performAll e lanes s f).mem = s.mem := by
  unfold performAll
  exact foldl_mem _ (fun s x => by simp [hf]) lanes s

@[simp] theorem doneAll_mem (e : Env) (lanes : List Lane) (s : State) : (doneAll e lanes s).mem = s.mem := by
  unfold doneAll
  grind [performAll_mem]

@[simp] theorem waitAll_mem (e : Env) (lanes : List Lane) (w : Wait) (s : State) : (waitAll e lanes w s).mem = s.mem := by
  unfold waitAll
  grind [foldl_mem, markWait_mem]

@[simp] theorem State.setK_mem (s : State) (x : Lane) (pair : Bool) (d : Nat) (v : DWord) : (s.setK x pair d v).mem = s.mem := rfl

@[simp] theorem commitGroup_mem (e : Env) (held : Bool) (gone g : List Lane) (s : State) :
    (commitGroup e held gone g s).1.mem = s.mem := by
  unfold commitGroup
  have bare (s' : State) : (g.foldl (fun s x => s.modPos x fun p => { p with uni := none, others := [] }) s').mem = s'.mem :=
    foldl_mem _ (fun s x => State.modPos_mem s x _) g s'
  dsimp only
  repeat' split
  all_goals simp [bare, -List.foldl_cons]

@[simp] theorem commitGone_mem (e : Env) (g : List Lane) (s : State) : (commitGone e g s).mem = s.mem := by
  unfold commitGone
  grind [State.setK_mem]

@[simp] theorem commitUniform_mem (e : Env) (gone all : List Lane) (s : State) :
    (commitUniform e gone all s).1.mem = s.mem := by
  unfold commitUniform
  refine (foldl_fst_mem _ (fun b g => ?_) _ _).trans (foldl_mem _ (fun s g => commitGone_mem e g s) _ s)
  dsimp only
  split
  · rfl
  · exact commitGroup_mem ..

@[simp] theorem State.halt_mem (s : State) (x : Lane) : (s.halt x).mem = s.mem := rfl

@[simp] theorem State.haltAll_mem (s : State) (xs : List Lane) : (s.haltAll xs).mem = s.mem := by
  unfold State.haltAll
  grind [foldl_mem, State.halt_mem]

@[simp] theorem State.takeNote_mem (s : State) (n : Note) : (s.takeNote n).mem = s.mem := by
  unfold State.takeNote
  grind [State.modThread_mem, State.park_mem, State.modThread_mem, State.takeException_mem]

@[simp] theorem State.takeNotes_mem (s : State) (ns : List Note) : (s.takeNotes ns).mem = s.mem := by
  unfold State.takeNotes
  grind [foldl_mem, State.takeNote_mem]

@[simp] theorem State.finishLane_mem (s : State) (h : Option TreeHeader) (c : Ctx) (x : Lane) : (s.finishLane h c x).mem = s.mem
    := by
  unfold State.finishLane
  grind [State.modThread_mem, State.leave_mem, State.modThread_mem]

@[simp] theorem State.dropStopped_mem (s : State) (c : Nat) (w : Wave) : (s.dropStopped c w).1.mem = s.mem := by
  unfold State.dropStopped
  grind [State.modCore_mem, State.modPos_mem, foldl_mem, State.modPos_mem, State.modCore_mem, State.addWave_mem]

@[simp] theorem State.stallWave_mem (s : State) (c : Nat) (w : Wave) (i : Instr) (preq moved : Bool) :
    (s.stallWave c w i preq moved).mem = s.mem := by
  unfold State.stallWave
  grind [State.modCore_mem, State.dropStopped_mem, State.modCore_mem]

@[simp] theorem State.completeWave_mem (s : State) (c : Nat) (w : Wave) (h : Option TreeHeader) (x : Ctx) (point : Bool) :
    (s.completeWave c w h x point).mem = s.mem := by
  unfold State.completeWave
  grind [State.modCore_mem, foldl_mem, State.finishLane_mem, State.dropStopped_mem, State.modCore_mem, State.file_mem,
    State.addWave_mem, State.count_mem]

@[simp] theorem State.takeTimers_mem (s : State) (lanes : List Lane) (pc : Addr) : (s.takeTimers lanes pc).mem = s.mem := by
  unfold State.takeTimers
  grind [State.modThread_mem, foldl_mem, State.takeException_mem, State.modThread_mem]

/-! Functions of Machine/Collective. -/

@[simp] theorem State.receive_mem (s : State) (e : Env) (x : Lane) (r : BitVec 1024 × Flags) : (s.receive e x r).1.mem = s.mem := by
  unfold State.receive
  grind [State.setFlags_mem, State.putAff_mem, writeDst_mem, State.wake_mem, markDone_mem]

@[simp] theorem State.deliver_mem (s : State) (e : Env) (x : Lane) (r : BitVec 1024 × Flags) : (s.deliver e x r).1.mem = s.mem := by
  unfold State.deliver
  grind [State.modPos_mem, State.receive_mem, State.modPos_mem]

@[simp] theorem State.deliverAll_mem (s : State) (e : Env) (rs : List (Lane × BitVec 1024 × Flags)) :
    (s.deliverAll e rs).1.mem = s.mem := by
  induction rs generalizing s with
  | nil => rfl
  | cons r rs ih => simp [State.deliverAll, ih]

@[simp] theorem State.completeColl_mem (s : State) (c t g : Nat) (k : Coll) (own : List Lane) :
    (s.completeColl c t g k own).1.mem = s.mem := by
  unfold State.completeColl
  grind [State.modGroup_mem, foldl_mem, State.modGroup_mem, State.deliverAll_mem, State.exceptAll_mem]

theorem arriveLane_mem {opc : BitVec 8} {e : Env} {mask : Word} {x : Lane} {s : State} {t}
    (h : arriveLane opc e mask x s = .ok t) : t.mem = s.mem := by
  unfold arriveLane at h
  grind [Got.bind_eq_ok, State.enter_mem, markWait_mem, State.modPos_mem, State.modGroup_mem]

@[simp] theorem State.receiveHeld_mem (s : State) (e : Env) (x : Lane) : (s.receiveHeld e x).1.mem = s.mem := by
  unfold State.receiveHeld
  grind [State.modPos_mem, State.receive_mem, State.modPos_mem]

@[simp] theorem arriveAll_mem (opc : BitVec 8) (e : Env) (mask : Word) (lanes : List Lane) (s : State) :
    (arriveAll opc e mask lanes s).1.mem = s.mem := by
  unfold arriveAll
  refine foldl_fst_mem _ (fun b x => ?_) lanes _
  grind [→ arriveLane_mem, markWait_mem]

@[simp] theorem State.completeHere_mem (s : State) (e : Env) (lanes : List Lane) : (s.completeHere e lanes).1.mem = s.mem := by
  unfold State.completeHere
  grind [State.completeColl_mem]

@[simp] theorem roomFirst_mem (e : Env) (lanes : List Lane) (s : State) : (roomFirst e lanes s).2.1.mem = s.mem := by
  unfold roomFirst
  refine foldl_leaves (fun b : List Lane × State × Faults => b.2.1.mem) _ (fun b x => ?_) lanes _
  grind [markWait_mem]

/-! Functions of Machine/Memory. -/

@[simp] theorem State.hear_mem (s : State) (c t from_ : Nat) : (s.hear c t from_).mem = s.mem := by
  unfold State.hear
  split <;> rfl

@[simp] theorem State.issueLoad_mem (s : State) (x : Lane) (o : Load) : (s.issueLoad x o).mem = s.mem := by
  unfold State.issueLoad
  grind [State.modThread_mem, foldl_mem, State.touchA_mem, State.note_mem, State.modThread_mem]

@[simp] theorem State.issueStore_mem (s : State) (x : Lane) (o : Store) : (s.issueStore x o).mem = s.mem := rfl

@[simp] theorem writeWords_mem (x : Lane) (s : State) (v : Nat) (is : List Nat) : (writeWords x s v is).mem = s.mem := by
  induction is generalizing s v with
  | nil => rfl
  | cons i is ih => simp [writeWords, ih]

@[simp] theorem State.afterOrdered_mem (s : State) (e : Env) (x : Lane) : (s.afterOrdered e x).mem = s.mem := by
  unfold State.afterOrdered
  split <;> rfl

@[simp] theorem State.shuffle_mem (s : State) (xs : List Lane) : (s.shuffle xs).2.mem = s.mem := by
  induction xs with
  | nil => rfl
  | cons x xs ih => grind [State.shuffle, State.choose_mem]

/-! Functions of Machine/Sync. -/

@[simp] theorem State.heldUe_mem (s : State) (c : Nat) (r : HeldRed) : (s.heldUe c r).mem = s.mem := rfl

@[simp] theorem State.merge_mem (s : State) (n : Nat) (qs : List (List (Nat × HeldRed))) : (s.merge n qs).2.mem = s.mem := by
  induction n generalizing s qs with
  | zero => rfl
  | succ n ih => grind [State.merge, State.choose_mem]

@[simp] theorem State.openBar_mem (s : State) (c t : Nat) (k : BarKind) (pc : Addr) (tree : Bool) :
    (s.openBar c t k pc tree).mem = s.mem := by
  unfold State.openBar
  grind [State.modTeam_mem, foldl_mem, State.modTeam_mem]

@[simp] theorem State.dropBar_mem (s : State) (c t : Nat) (k : BarKind) : (s.dropBar c t k).mem = s.mem := by
  unfold State.dropBar
  grind [State.modTeam_mem, foldl_mem, State.modTeam_mem]

@[simp] theorem State.bindChan_mem (s : State) (x : Lane) (q kind tgt depth : Nat) : (s.bindChan x q kind tgt depth).mem = s.mem
    := by
  unfold State.bindChan
  split <;> rfl

/-! Functions of Machine/AffineOps. -/

@[simp] theorem mintAll_mem (e : Env) (room : Bool) (lack : Nat) (ms : List (Lane × Mint)) (n : Nat) (s : State) :
    (mintAll e room lack ms n s).1.mem = s.mem := by
  induction ms generalizing n s with
  | nil => rfl
  | cons m ms ih => grind [mintAll, doneAll_mem, State.putAff_mem]

/-! Functions of Machine/Control. -/

@[simp] theorem State.jump_mem (s : State) (x : Lane) (a : Addr) : (s.jump x a).mem = s.mem := rfl
@[simp] theorem State.enterRegion_mem (s : State) (x : Lane) (a : Addr) : (s.enterRegion x a).mem = s.mem := rfl

@[simp] theorem State.finishWait_mem (s : State) (x : Lane) : (s.finishWait x).mem = s.mem := by
  unfold State.finishWait
  grind [State.modThread_mem, State.count_mem, State.wake_mem, State.modThread_mem]

/-! Functions of Machine/Engine. -/

@[simp] theorem State.scratchFill_mem (s : State) (c t o : Nat) (bs : List Byte) : (s.scratchFill c t o bs).mem = s.mem := rfl
@[simp] theorem State.freeBytes_mem (s : State) (n : Nat) : (s.freeBytes n).2.mem = s.mem := rfl
@[simp] theorem State.setTile_mem (s : State) (c t o : Nat) (bs : List Byte) : (s.setTile c t o bs).mem = s.mem := rfl
@[simp] theorem State.setHead_mem (s : State) (c : Nat) (e : Engine) (o : EngOp) : (s.setHead c e o).mem = s.mem := rfl

@[simp] theorem State.onGroup_mem (s : State) (c t g : Nat) (f : Group → Group) : (s.onGroup c t g f).mem = s.mem := by
  unfold State.onGroup
  split <;> rfl

@[simp] theorem State.engRecord_mem (s : State) (c : Nat) (e : Engine) (o : EngOp) (i : FaultInfo) (isOpen : Bool) :
    (s.engRecord c e o i isOpen).mem = s.mem := by
  unfold State.engRecord
  grind [State.coalesce_mem]

@[simp] theorem State.engStop_mem (s : State) (c : Nat) (e : Engine) (o : EngOp) (va : Nat) (cause : Cause) (a : Access) :
    (s.engStop c e o va cause a).mem = s.mem := by
  unfold State.engStop
  grind [State.engRecord_mem, State.setHead_mem]

@[simp] theorem State.engStick_mem (s : State) (c : Nat) (e : Engine) (o : EngOp) (i : FaultInfo) : (s.engStick c e o i).mem =
    s.mem := rfl

@[simp] theorem State.enqueue_mem (s : State) (x : Lane) (e : Engine) (o : EngOp) : (s.enqueue x e o).mem = s.mem := by
  unfold State.enqueue
  split <;> rfl

@[simp] theorem EngPath.counted_mem (p : EngPath) (va : Nat) (a : Access) (s : State) : (EngPath.counted p va a s).mem = s.mem := by
  unfold EngPath.counted
  grind [State.count_mem]

@[simp] theorem State.countRow_mem (s : State) (c : Nat) (o o' : EngOp) : (s.countRow c o o').mem = s.mem := by
  unfold State.countRow
  grind [State.modCore_mem, State.count_mem, State.modCore_mem]

@[simp] theorem State.spoilTile_mem (s : State) (c : Nat) (o : EngOp) : (s.spoilTile c o).mem = s.mem := by
  unfold State.spoilTile
  split <;> rfl

@[simp] theorem State.signalCount_mem (s : State) (c : Nat) (e : Engine) (o : EngOp) : (s.signalCount c e o).mem = s.mem := by
  unfold State.signalCount
  grind [State.modCore_mem, State.spoilTile_mem, State.modCore_mem, State.count_mem, State.releasePkg_mem, State.onGroup_mem]

@[simp] theorem State.dropArrival_mem (s : State) (c : Nat) (e : Engine) (o : EngOp) (bar : Nat) : (s.dropArrival c e o bar).mem
    = s.mem := by
  unfold State.dropArrival
  grind [State.modCore_mem, State.modCore_mem, State.onGroup_mem]

@[simp] theorem State.unseen_mem (s : State) (c : Nat) (o : EngOp) : (s.unseen c o).mem = s.mem := rfl

/-! Functions of Machine/Launch. -/

@[simp] theorem State.wakePart_mem (s : State) (p : Nat) (w : Wait) : (s.wakePart p w).mem = s.mem := rfl

@[simp] theorem State.dropTeams_mem (s : State) (p gk : Nat) : (s.dropTeams p gk).mem = s.mem := by
  unfold State.dropTeams
  grind [State.modCore_mem, foldl_mem, State.modCore_mem]

/-! Functions of Machine/Ladle. -/

@[simp] theorem State.sendReply_mem (s : State) (c : Nat) (r : Reply) : (s.sendReply c r).mem = s.mem := rfl
@[simp] theorem State.sendMessage_mem (s : State) (n : Nat) (i : Inv) : (s.sendMessage n i).mem = s.mem := rfl

@[simp] theorem State.owe_mem (s : State) (e : Env) (x : Lane) (va msg : Nat) (a : Option Nat) : (s.owe e x va msg a).mem =
    s.mem := by
  unfold State.owe
  grind [State.modCore_mem, State.issueLoad_mem, State.modCore_mem]

@[simp] theorem State.putReply_mem (s : State) (x : Lane) (r : Reply) : (s.putReply x r).mem = s.mem := by
  unfold State.putReply
  grind [State.modThread_mem, foldl_mem, State.touchA_mem, State.wake_mem, State.modThread_mem]

@[simp] theorem State.bump_mem (s : State) (sl tenant n : Nat) : (s.bump sl tenant n).mem = s.mem := rfl

@[simp] theorem State.answer_mem (s : State) (i : Inv) (status : Nat) (value : DWord) : (s.answer i status value).mem = s.mem := by
  unfold State.answer
  split <;> rfl

@[simp] theorem State.endInv_mem (s : State) (sl : Nat) (i : Inv) : (s.endInv sl i).mem = s.mem := rfl

@[simp] theorem State.ladleEvent_mem (s : State) (sl : Nat) (i : Inv) (c : Cause) (mcause : Nat) :
    (s.ladleEvent sl i c mcause).mem = s.mem := by
  unfold State.ladleEvent
  grind [State.event_mem]

@[simp] theorem State.ladleAbort_mem (s : State) (sl : Nat) (i : Inv) (mcause mepc : Nat) : (s.ladleAbort sl i mcause mepc).mem
    = s.mem := by
  unfold State.ladleAbort
  grind [State.modSlice_mem, State.modSlice_mem, State.endInv_mem, State.answer_mem, State.ladleEvent_mem, State.bump_mem]

@[simp] theorem State.modInv_mem (s : State) (sl : Nat) (i : Inv) : (s.modInv sl i).mem = s.mem := rfl

@[simp] theorem State.ladleTrap_mem (s : State) (sl : Nat) (i : Inv) (mcause : Nat) : (s.ladleTrap sl i mcause).mem = s.mem := by
  unfold State.ladleTrap
  grind [State.ladleAbort_mem]

@[simp] theorem State.sramAccess_mem (s : State) (sl : Nat) (i : Inv) (a : Nat) (k : LadleAccess) (n v : Nat) :
    (s.sramAccess sl i a k n v).mem = s.mem := by
  unfold State.sramAccess
  grind [State.modSlice_mem, State.modInv_mem, State.modSlice_mem]

@[simp] theorem State.windowAccess_mem (s : State) (sl : Nat) (i : Inv) (o : Nat) (k : LadleAccess) (n v : Nat) :
    (s.windowAccess sl i o k n v).mem = s.mem := rfl

/-! Functions of Machine/Traps. -/

@[simp] theorem State.pushTail_mem (s : State) (p : Nat) : (s.pushTail p).mem = s.mem := by
  unfold State.pushTail
  grind [State.modPart_mem, State.modPkg_mem, State.modPkg_mem, State.modPart_mem]

@[simp] theorem State.closeRec_mem (s : State) (c : Nat) (id : Word) : (s.closeRec c id).mem = s.mem := by
  unfold State.closeRec
  grind [State.modCore_mem, State.recoalesce_mem, State.modCore_mem]

@[simp] theorem State.releaseLanes_mem (s : State) (c : Nat) (r : Rec) : (s.releaseLanes c r).mem = s.mem := by
  unfold State.releaseLanes
  grind [State.modCore_mem, State.modThread_mem, foldl_mem, State.modThread_mem, State.modCore_mem, State.file_mem]

@[simp] theorem State.settleAll_mem (s : State) (c t : Nat) : (s.settleAll c t).mem = s.mem := by
  unfold State.settleAll
  grind [foldl_mem, State.settle_mem]

@[simp] theorem State.dropTeamCopies_mem (s : State) (c t : Nat) : (s.dropTeamCopies c t).mem = s.mem := by
  unfold State.dropTeamCopies
  grind [State.modCore_mem, State.modPart_mem, State.modPart_mem, State.modCore_mem]

@[simp] theorem State.hostEnd_mem (s : State) (c t : Nat) : (s.hostEnd c t).mem = s.mem := by
  unfold State.hostEnd
  grind [State.modCore_mem, State.modPart_mem, State.modTeam_mem, State.modPart_mem, State.dropTeamCopies_mem, State.recoalesce_mem,
    State.modCore_mem, State.modTeam_mem, State.settleAll_mem]

@[simp] theorem State.dropCopies_mem (s : State) (p gk : Nat) : (s.dropCopies p gk).mem = s.mem := rfl

@[simp] theorem State.hostEndGrid_mem (s : State) (p gk : Nat) : (s.hostEndGrid p gk).mem = s.mem := by
  unfold State.hostEndGrid
  grind [foldl_mem, State.dropCopies_mem, State.hostEnd_mem]

@[simp] theorem State.serveAt_mem (s : State) (p c : Nat) (r : Rec) (act : Nat) : (s.serveAt p c r act).mem = s.mem := by
  unfold State.serveAt
  grind [State.modCore_mem, State.closeRec_mem, State.hostEndGrid_mem, State.hostEnd_mem, State.modCore_mem, State.releaseLanes_mem]

@[simp] theorem State.serve_mem (s : State) (p : Nat) (id : Word) (act : Nat) : (s.serve p id act).mem = s.mem := by
  unfold State.serve
  grind [State.modPart_mem, State.modPart_mem, State.serveAt_mem]

/-! Functions of Machine/Save. -/

@[simp] theorem State.requestTeams_mem (s : State) (p gk : Nat) : (s.requestTeams p gk).mem = s.mem := by
  unfold State.requestTeams
  grind [State.modTeam_mem, foldl_mem, State.modTeam_mem]

@[simp] theorem State.force_mem (s : State) (c t : Nat) : (s.force c t).mem = s.mem := by
  unfold State.force
  grind [State.modCore_mem, State.modPart_mem, State.modTeam_mem, State.modCore_mem, State.modTeam_mem, State.modPart_mem,
    State.event_mem]

@[simp] theorem State.restUniform_mem (s : State) (c : Nat) (w : Wave) (b : Body) : (s.restUniform c w b).mem = s.mem := by
  unfold State.restUniform
  grind [State.modPos_mem, foldl_mem, State.modPos_mem, State.setK_mem]

@[simp] theorem State.restNotes_mem (s : State) (w : Wave) : (s.restNotes w).mem = s.mem := by
  unfold State.restNotes
  grind [State.takeNotes_mem]

@[simp] theorem State.unloadGrid_mem (s : State) (p gk : Nat) : (s.unloadGrid p gk).mem = s.mem := by
  unfold State.unloadGrid
  grind [State.modCore_mem, State.modPart_mem, foldl_mem, State.modPart_mem, State.modCore_mem, State.recoalesce_mem]

@[simp] theorem State.loadTeam_mem (s : State) (p gk : Nat) (g : Grid) (x : Placed) : (s.loadTeam p gk g x).mem = s.mem := by
  unfold State.loadTeam
  grind [State.modCore_mem, State.modTeam_mem, foldl_mem, State.modCore_mem, State.modTeam_mem]

@[simp] theorem State.fileStarts_mem (s : State) (x : Placed) (ys : List Start) : (s.fileStarts x ys).mem = s.mem := by
  unfold State.fileStarts
  grind [foldl_mem, State.count_mem, State.fileOne_mem]

@[simp] theorem State.dropNodes_mem (s : State) (p gk : Nat) (ops : List (Nat × Nat)) : (s.dropNodes p gk ops).mem = s.mem := rfl

@[simp] theorem State.freeEnded_mem (s : State) (x : Placed) : (s.freeEnded x).mem = s.mem := by
  unfold State.freeEnded
  grind [State.modCore_mem, State.modTeam_mem, State.endTeam_mem, State.modCore_mem, State.freeCluster_mem, State.modTeam_mem]

/-! Functions of Machine/Device. -/

theorem State.leaveSlices_mem {s : State} {t} (e : s.leaveSlices = some t) : t.mem = s.mem := by
  unfold State.leaveSlices at e
  grind [= Option.map_eq_some_iff, = Option.bind_eq_some_iff]

@[simp] theorem State.dropL1At_mem (s : State) (c off : Nat) : (s.dropL1At c off).mem = s.mem := by
  unfold State.dropL1At
  grind [State.modCore_mem, State.modDie_mem, State.modCore_mem, State.modDie_mem]

@[simp] theorem State.poisonLine_mem (s : State) (line : Nat) : (s.poisonLine line).mem = s.mem := by
  unfold State.poisonLine
  split <;> rfl

@[simp] theorem State.resumeAll_mem (s : State) : (s.resumeAll).mem = s.mem := rfl

@[simp] theorem State.mapOut_mem (s : State) (w : Sys2Proof.Part) : (s.mapOut w).mem = s.mem := by
  unfold State.mapOut
  cases w <;> rfl

@[simp] theorem State.setPoint_mem (s : State) (fl pt : Nat) : (s.setPoint fl pt).mem = s.mem := by
  unfold State.setPoint
  split <;> rfl

@[simp] theorem State.grantPoint_mem (s : State) (fl pt : Nat) : (s.grantPoint fl pt).mem = s.mem := rfl

@[simp] theorem State.allSlow_mem (s : State) : (s.allSlow).mem = s.mem := by
  unfold State.allSlow
  grind [foldl_mem, State.grantPoint_mem, State.setPoint_mem]

@[simp] theorem State.heat_mem (s : State) : (s.heat).mem = s.mem := by
  unfold State.heat
  grind [State.allSlow_mem]

@[simp] theorem State.breach_mem (s : State) : (s.breach).mem = s.mem := by
  unfold State.breach
  grind [State.modPkg_mem, foldl_mem, State.modPkg_mem, State.event_mem]

@[simp] theorem State.grantPoints_mem (s : State) (points : List Nat) : (s.grantPoints points).mem = s.mem := by
  unfold State.grantPoints
  grind [foldl_mem, State.grantPoint_mem, State.setPoint_mem]

@[simp] theorem State.hostGets_mem (s : State) (bs : List Byte) : (s.hostGets bs).mem = s.mem := rfl

@[simp] theorem State.wakeDispatcher_mem (s : State) : (s.wakeDispatcher).mem = s.mem := by
  unfold State.wakeDispatcher
  grind [foldl_mem, State.wakePart_mem]

/-! Functions of Machine/Host. -/

@[simp] theorem State.clears_mem (s : State) (off : Nat) (lo hi : Bool) : (s.clears off lo hi).mem = s.mem := by
  unfold State.clears
  grind [State.modCore_mem, State.modSlice_mem, State.modCore_mem, State.modSlice_mem]

@[simp] theorem State.settleCounter_mem (s : State) (off : Nat) : (s.settleCounter off).mem = s.mem := by
  unfold State.settleCounter
  grind [State.modCore_mem, State.modCore_mem]

@[simp] theorem State.hostReads_mem (s : State) (off width : Nat) : (s.hostReads off width).mem = s.mem := by
  unfold State.hostReads
  grind [State.settleCounter_mem, State.hostGets_mem, State.clears_mem]

@[simp] theorem writeDie_mem (d o : Nat) (v : DWord) (s : State) : (writeDie d o v s).mem = s.mem := by
  unfold writeDie
  split <;> rfl

@[simp] theorem State.setEvsel_mem (s : State) (c n : Nat) (v : Word) : (s.setEvsel c n v).mem = s.mem := by
  unfold State.setEvsel
  grind [State.modCore_mem, State.modCore_mem, State.free_mem]

/-! Functions of Machine/Cycle. -/

@[simp] theorem State.failWave_mem (s : State) (c : Nat) (w : Wave) (i : FaultInfo) : (s.failWave c w i).mem = s.mem := by
  unfold State.failWave
  grind [State.takeTimers_mem, State.completeWave_mem, State.takeNotes_mem, State.haltAll_mem]

end Sys2Proof.Machine
end

section
/-!
PROOFS. The functions of the model that write memory, or call one that does, each with its lemma: from a canonical memory
they come to a canonical memory (R6). A lemma follows the branches of its function and cites the lemmas of those that it calls.
-/
namespace Sys2Proof.Machine

def Walk.Wf : Walk → Prop
  | .ok _ s | .fault _ s => s.mem.wf
  | .blocked => True

def FetchSlot.Wf : FetchSlot → Prop
  | .ok _ s | .fault _ s => s.mem.wf
  | .blocked => True

def FetchWords.Wf : FetchWords → Prop
  | .ok _ s | .fault _ _ s => s.mem.wf
  | .blocked => True

def Fetch.Wf : Fetch → Prop
  | .ok _ s | .fault _ _ s | .bad _ s => s.mem.wf
  | .blocked => True

def EngIo.Wf : EngIo → Prop
  | .ok _ s | .fault _ _ _ s | .error _ s => s.mem.wf
  | .blocked => True

def EngStep.Wf : EngStep → Prop
  | .on _ s | .stop s => s.mem.wf
  | _ => True

def RegionList.Wf : RegionList → Prop
  | .ok _ s | .bad s => s.mem.wf
  | _ => True

def LaunchCheck.Wf : LaunchCheck → Prop
  | .ok _ s | .reject _ s => s.mem.wf
  | _ => True

def RestoreCheck.Wf : RestoreCheck → Prop
  | .ok _ s | .bad _ s => s.mem.wf
  | _ => True

theorem foldl_wf {α : Type} {f : State → α → State} (hf : ∀ s a, s.mem.wf → (f s a).mem.wf) {s : State} (h : s.mem.wf)
    (l : List α) : (l.foldl f s).mem.wf :=
  List.foldlRecOn l f (motive := fun s : State => s.mem.wf) h fun s h a _ => hf s a h

theorem Got.ofOption_eq_ok {α : Type} {o : Option α} {w : Wait} {a : α} : Got.ofOption o w = .ok a ↔ o = some a := by
  cases o <;> simp [Got.ofOption]

/-- A fold over states that may wait keeps a canonical memory where each of its steps does. -/
theorem foldl_option_wf {α : Type} {f : Option State → α → Option State}
    (hf : ∀ acc a t, (∀ u, acc = some u → u.mem.wf) → f acc a = some t → t.mem.wf) (l : List α) {acc : Option State}
    (h : ∀ u, acc = some u → u.mem.wf) : ∀ t, l.foldl f acc = some t → t.mem.wf :=
  List.foldlRecOn l f (motive := fun acc => ∀ u, acc = some u → u.mem.wf) h fun acc h a _ t => hf acc a t h

/-- What every step of a fold that may wait keeps, the fold keeps. -/
theorem foldl_bind_keeps {α β : Type} (p : β → Prop) {f : β → α → Option β} (hf : ∀ b a c, p b → f b a = some c → p c)
    {l : List α} {b c : β} (h : p b) (e : l.foldl (fun acc a => acc.bind fun b => f b a) (some b) = some c) : p c := by
  revert c
  refine List.foldlRecOn l _ (motive := fun acc : Option β => ∀ {c}, acc = some c → p c) (fun {c} e => ?_) fun acc ha a _ {c} e => ?_
  · cases e; exact h
  · obtain ⟨u, hu, e⟩ := Option.bind_eq_some_iff.mp e
    exact hf u a c (ha hu) e

theorem foldl_bind_wf {α : Type} {f : State → α → Option State} (hf : ∀ s a t, s.mem.wf → f s a = some t → t.mem.wf)
    {l : List α} {s t : State} (h : s.mem.wf) (e : l.foldl (fun acc a => acc.bind fun s => f s a) (some s) = some t) : t.mem.wf :=
  foldl_bind_keeps (·.mem.wf) hf h e

theorem Got.foldl_bind_wf {α : Type} {f : State → α → Got State} (hf : ∀ s a t, s.mem.wf → f s a = .ok t → t.mem.wf)
    {l : List α} {s : State} (h : s.mem.wf) : ∀ t, l.foldl (fun (acc : Got State) a => acc.bind fun s => f s a) (.ok s) = .ok t → t.mem.wf := by
  refine List.foldlRecOn l _ (motive := fun acc : Got State => ∀ t, acc = .ok t → t.mem.wf) (fun t e => ?_) fun acc ha a _ t e => ?_
  · cases e; exact h
  · obtain ⟨u, hu, e⟩ := Got.bind_eq_ok.mp e
    exact hf u a t (ha u hu) e

/-! Functions of Machine/Launch. -/

theorem checkRead_wf {r : EngIo} {status : Nat} {k : List Byte → State → LaunchCheck} (hr : r.Wf)
    (hk : ∀ bs s, s.mem.wf → (k bs s).Wf) : (checkRead r status k).Wf := by
  cases r with
  | ok bs s => exact hk bs s hr
  | blocked => trivial
  | error _ s => exact hr
  | fault _ _ _ s => exact hr

/-! Functions of Machine/Save. -/

theorem checkArea_wf {r : Option (List Byte × Bool × State)} {k : List Byte → Bool → State → RestoreCheck}
    (hr : ∀ q, r = some q → q.2.2.mem.wf) (hk : ∀ bs b s, s.mem.wf → (k bs b s).Wf) : (checkArea r k).Wf := by
  cases r with
  | none => trivial
  | some q => exact hk _ _ _ (hr q rfl)

/-- The state in which a reading of weights ends keeps a canonical memory. -/
def weightsWf : Except EngIo (List (List Nat) × State) → Prop
  | .ok (_, s) => s.mem.wf
  | .error r => r.Wf

/-! Functions of Machine/Mem. -/

theorem State.settleLine_wf (s : State) (line : Nat) (h : s.mem.wf) : (s.settleLine line).mem.wf := by
  unfold State.settleLine
  grind [Memory.wf_writeN, State.openBytes_mem]

theorem State.settleBytes_wf (s : State) (pa n : Nat) (h : s.mem.wf) : (s.settleBytes pa n).mem.wf := by
  unfold State.settleBytes
  grind [foldl_wf, foldl_mem, State.settleLine_wf]

theorem State.homeBytes_wf (s : State) (pa n : Nat) (h : s.mem.wf) : (s.homeBytes pa n).2.mem.wf := by
  unfold State.homeBytes
  grind [State.openBytes_mem, State.settleLine_wf]

theorem State.writeBack_wf {s : State} {d line : Nat} {t} (h : s.mem.wf) (e : s.writeBack d line = some t) : t.mem.wf := by
  unfold State.writeBack at e
  grind [= Option.map_eq_some_iff, = Option.bind_eq_some_iff, mergeBytes_wf, State.settleLine_wf, State.wroteOver_mem,
    State.setLine_mem, → State.touch_mem]

theorem State.writeBackAll_wf {s : State} {d : Nat} {lines : List Nat} {t} (h : s.mem.wf) (e : s.writeBackAll d lines = some t)
    : t.mem.wf := by
  induction lines generalizing s with
  | nil => grind [State.writeBackAll]
  | cons lines l ih => grind [State.writeBackAll, = Option.map_eq_some_iff, = Option.bind_eq_some_iff, Got.bind_eq_ok,
    Got.ofOption_eq_ok, → State.writeBack_wf]

theorem State.recallFrom_wf {s : State} {n line d : Nat} {es : List (Nat × Nat)} {t} (h : s.mem.wf)
    (e : s.recallFrom n line d es = some t) : t.mem.wf := by
  induction es generalizing s with
  | nil => grind [State.recallFrom]
  | cons es l ih => grind [State.recallFrom, = Option.map_eq_some_iff, = Option.bind_eq_some_iff, Got.bind_eq_ok,
    Got.ofOption_eq_ok, State.setEpochs_mem, → State.writeBackAll_wf]

theorem State.recall_wf {s : State} {pa d : Nat} {t} (h : s.mem.wf) (e : s.recall pa d = some t) : t.mem.wf := by
  unfold State.recall at e
  grind [→ State.recallFrom_wf]

theorem State.homeRead_wf {s : State} {pa n d cls : Nat} {who : Asker} {r} (h : s.mem.wf)
    (e : s.homeRead pa n d cls who = some r) : r.2.2.mem.wf := by
  unfold State.homeRead at e
  grind [= Option.map_eq_some_iff, = Option.bind_eq_some_iff, → State.recall_wf, State.homeBytes_wf, → State.touch_mem]

theorem State.homeWrite_wf {s : State} {pa n v cls : Nat} {who : Asker} {t} (h : s.mem.wf)
    (e : s.homeWrite pa n v cls who = some t) : t.mem.wf := by
  unfold State.homeWrite at e
  grind [Memory.wf_writeN, State.settleBytes_wf, → State.touch_mem]

theorem State.makeRoom_wf {s : State} {d line cls : Nat} {t} (h : s.mem.wf) (e : s.makeRoom d line cls = some t) : t.mem.wf := by
  unfold State.makeRoom at e
  grind [= Option.map_eq_some_iff, = Option.bind_eq_some_iff, State.modDie_mem, → State.writeBack_wf]

theorem State.fill_wf {s : State} {d pa cls : Nat} {r} (h : s.mem.wf) (e : s.fill d pa cls = some r) : r.2.mem.wf := by
  unfold State.fill at e
  grind [= Option.map_eq_some_iff, = Option.bind_eq_some_iff, State.useLine_mem, → State.makeRoom_wf, State.dropL1Copies_mem,
    → State.homeRead_wf]

theorem State.loadBytes_wf {s : State} {c pa n cls : Nat} {r} (h : s.mem.wf) (e : s.loadBytes c pa n cls = some r) :
    r.2.2.mem.wf := by
  unfold State.loadBytes at e
  grind [= Option.map_eq_some_iff, = Option.bind_eq_some_iff, State.openBytes_mem, → State.fill_wf]

theorem State.laneLoad_wf {s : State} {c pa n cls : Nat} {cached : Bool} {r} (h : s.mem.wf)
    (e : s.laneLoad c pa n cls cached = some r) : r.2.2.mem.wf := by
  unfold State.laneLoad at e
  grind [= Option.map_eq_some_iff, = Option.bind_eq_some_iff, State.modCore_mem, foldl_wf, foldl_mem, → State.loadBytes_wf,
    State.grant_mem, → State.fill_wf]

theorem State.performWrite_wf {s : State} {d pa n v cls epoch : Nat} {t} (h : s.mem.wf)
    (e : s.performWrite d pa n v cls epoch = some t) : t.mem.wf := by
  unfold State.performWrite at e
  dsimp only at e
  split at e
  · cases e
  split at e
  · obtain ⟨u, hu, e⟩ := Option.bind_eq_some_iff.mp e
    obtain ⟨v, hv, rfl⟩ := Option.map_eq_some_iff.mp e
    have := State.homeWrite_wf (State.writeBack_wf h hu) hv
    grind [State.setLine_mem, State.wroteOver_mem, State.record_mem]
  · obtain ⟨u, hu, rfl⟩ := Option.map_eq_some_iff.mp e
    exact State.fill_wf h hu

theorem State.storeBytes_wf {s : State} {c pa n v cls epoch : Nat} {t} (h : s.mem.wf)
    (e : s.storeBytes c pa n v cls epoch = some t) : t.mem.wf := by
  unfold State.storeBytes at e
  grind [= Option.map_eq_some_iff, = Option.bind_eq_some_iff, Memory.wf_writeN, State.copyWrite_mem, → State.performWrite_wf]

theorem State.laneStore_wf {s : State} {c part pa n v cls epoch : Nat} {r} (h : s.mem.wf)
    (e : s.laneStore c part pa n v cls epoch = some r) : r.2.mem.wf := by
  unfold State.laneStore at e
  grind [= Option.map_eq_some_iff, = Option.bind_eq_some_iff, State.modCore_mem, → State.storeBytes_wf, State.copyWrite_mem]

theorem State.drainWrites_wf (s : State) (c : Nat) (ws : List Write) (wait : List Nat) (h : s.mem.wf) :
    (s.drainWrites c ws wait).mem.wf := by
  induction ws generalizing s wait with
  | nil => grind [State.drainWrites]
  | cons ws l ih => grind [State.drainWrites, = Option.map_eq_some_iff, = Option.bind_eq_some_iff, Got.bind_eq_ok,
    Got.ofOption_eq_ok, State.modCore_mem, → State.performWrite_wf]

theorem State.expel_wf {s : State} {c pa : Nat} {t} (h : s.mem.wf) (e : s.expel c pa = some t) : t.mem.wf := by
  unfold State.expel at e
  grind [= Option.map_eq_some_iff, = Option.bind_eq_some_iff, State.modCore_mem, State.modDie_mem, → State.writeBack_wf]

theorem State.atomicAt_wf {s : State} {c pa n cls epoch : Nat} {g : Nat → Nat} {r} (h : s.mem.wf)
    (e : s.atomicAt c pa n cls epoch g = some r) : r.2.2.mem.wf := by
  unfold State.atomicAt at e
  grind [Memory.wf_writeN, State.openBytes_mem, → State.expel_wf, → State.homeRead_wf, → State.homeWrite_wf, State.record_mem]

theorem State.releaseSys_wf {s : State} {d : Nat} {t} (h : s.mem.wf) (e : s.releaseSys d = some t) : t.mem.wf := by
  unfold State.releaseSys at e
  grind [= Option.map_eq_some_iff, = Option.bind_eq_some_iff, → State.writeBackAll_wf]

theorem State.refresh_wf {s : State} {d : Nat} {lines : List Nat} {t} (h : s.mem.wf) (e : s.refresh d lines = some t) : t.mem.wf
    := by
  induction lines generalizing s with
  | nil => grind [State.refresh]
  | cons lines l ih => grind [State.refresh, = Option.map_eq_some_iff, = Option.bind_eq_some_iff, Got.bind_eq_ok,
    Got.ofOption_eq_ok, State.dropL1Copies_mem, State.setLine_mem, → State.homeRead_wf]

theorem State.takeLate_wf {s : State} {d : Nat} {lines : List Nat} {t} (h : s.mem.wf) (e : s.takeLate d lines = some t) :
    t.mem.wf := by
  induction lines generalizing s with
  | nil => cases e; exact h
  | cons l ls ih =>
    obtain ⟨u, hu, e⟩ := Option.bind_eq_some_iff.mp e
    exact ih (State.recall_wf h hu) e

theorem State.acquirePkg_wf {s : State} {c : Nat} {t} (h : s.mem.wf) (e : s.acquirePkg c = some t) : t.mem.wf := by
  unfold State.acquirePkg at e
  grind [= Option.map_eq_some_iff, = Option.bind_eq_some_iff, State.modDie_mem, → State.takeLate_wf, State.dropL1s_mem,
    → State.refresh_wf]

theorem State.settleDies_wf {s : State} {d : Nat} {ds : List Nat} {t} (h : s.mem.wf) (e : s.settleDies d ds = some t) : t.mem.wf
    := by
  induction ds generalizing s with
  | nil => grind [State.settleDies]
  | cons ds l ih => grind [State.settleDies, = Option.map_eq_some_iff, = Option.bind_eq_some_iff, Got.bind_eq_ok,
    Got.ofOption_eq_ok, → State.writeBackAll_wf]

theorem State.joinPkg_wf {s : State} {c : Nat} {t} (h : s.mem.wf) (e : s.joinPkg c = some t) : t.mem.wf := by
  unfold State.joinPkg at e
  grind [= Option.map_eq_some_iff, = Option.bind_eq_some_iff, → State.settleDies_wf, → State.acquirePkg_wf]

/-! Functions of Machine/Xlat. -/

theorem State.leafEntry_wf (s : State) (p d va pa : Nat) (big : Bool) (n : Need) (h : s.mem.wf) :
    (s.leafEntry p d va pa big n).Wf := by
  unfold State.leafEntry
  grind [= Option.map_eq_some_iff, = Option.bind_eq_some_iff, Got.bind_eq_ok, Got.ofOption_eq_ok, Walk.Wf, Memory.wf_writeN,
    → State.homeRead_wf]

theorem State.dirEntry_wf {s : State} {d p : Nat} {mid : Bool} {a pa : Nat} {r} (h : s.mem.wf)
    (e : s.dirEntry d p mid a pa = some r) : r.2.2.mem.wf := by
  unfold State.dirEntry at e
  grind [→ State.homeRead_wf]

theorem State.walkTable_wf (s : State) (p d va : Nat) (n : Need) (h : s.mem.wf) : (s.walkTable p d va n).Wf := by
  unfold State.walkTable
  dsimp only
  repeat' split
  all_goals grind [Walk.Wf, !State.leafEntry_wf, State.keepDir_mem, → State.dirEntry_wf]

theorem State.walk_wf (s : State) (p d va : Nat) (n : Need) (h : s.mem.wf) : (s.walk p d va n).Wf := by
  unfold State.walk
  grind [= Option.map_eq_some_iff, = Option.bind_eq_some_iff, Got.bind_eq_ok, Got.ofOption_eq_ok, State.modDie_mem, Walk.Wf,
    !State.walkTable_wf]

theorem State.translateNow_wf (s : State) (c p va : Nat) (a : Access) (es : List Extent) (h : s.mem.wf) :
    (s.translateNow c p va a es).Wf := by
  unfold State.translateNow
  grind [= Option.map_eq_some_iff, = Option.bind_eq_some_iff, Got.bind_eq_ok, Got.ofOption_eq_ok, State.modCore_mem, Walk.Wf,
    !State.walk_wf]

theorem State.fetchSlot_wf (s : State) (c p va : Nat) (h : s.mem.wf) : (s.fetchSlot c p va).Wf := by
  unfold State.fetchSlot
  have hw := State.translateNow_wf s c p va .fetch [] h
  grind [Walk.Wf, FetchSlot.Wf, → State.loadBytes_wf, State.modCore_mem]

theorem State.fetchMore_wf (s : State) (c p va n : Nat) (ws : List DWord) (h : s.mem.wf) : (s.fetchMore c p va n ws).Wf := by
  induction n generalizing s ws with
  | zero => exact h
  | succ n ih =>
    unfold State.fetchMore
    have hw := State.fetchSlot_wf s c p (va + 8 * ws.length) h
    split
    · next e => rw [e] at hw; exact ih _ _ hw
    · next e => rwa [e] at hw
    · trivial

theorem State.fetchWords_wf (s : State) (c p va : Nat) (h : s.mem.wf) : (s.fetchWords c p va).Wf := by
  unfold State.fetchWords
  have hw := State.fetchSlot_wf s c p va h
  split
  · next e => rw [e] at hw; exact State.fetchMore_wf _ _ _ _ _ _ hw
  · next e => rwa [e] at hw
  · trivial

theorem State.fetch_wf (s : State) (c p va : Nat) (h : s.mem.wf) : (s.fetch c p va).Wf := by
  unfold State.fetch
  have hw := State.fetchWords_wf s c p va h
  split
  · trivial
  · next e => rwa [e] at hw
  · next e =>
    rw [e] at hw
    split <;> exact hw

/-! Functions of Machine/Memory. -/

theorem State.release_wf {s : State} {x : Lane} {scope : Nat} {t} (h : s.mem.wf) (e : s.release x scope = .ok t) : t.mem.wf := by
  unfold State.release at e
  grind [= Option.map_eq_some_iff, = Option.bind_eq_some_iff, Got.bind_eq_ok, Got.ofOption_eq_ok, State.modThread_mem,
    State.releasePkg_mem, State.tells_mem, → State.releaseSys_wf]

theorem State.acquire_wf {s : State} {x : Lane} {scope : Nat} {t} (h : s.mem.wf) (e : s.acquire x scope = .ok t) : t.mem.wf := by
  unfold State.acquire at e
  grind [= Option.map_eq_some_iff, = Option.bind_eq_some_iff, Got.bind_eq_ok, Got.ofOption_eq_ok, State.modTeam_mem,
    State.observe_mem, → State.acquirePkg_wf, → State.joinPkg_wf]

theorem State.rejoin_wf {s : State} {x : Lane} {scope : Nat} {t} (h : s.mem.wf) (e : s.rejoin x scope = .ok t) : t.mem.wf := by
  unfold State.rejoin at e
  grind [= Option.map_eq_some_iff, = Option.bind_eq_some_iff, Got.bind_eq_ok, Got.ofOption_eq_ok, State.observe_mem,
    → State.joinPkg_wf]

theorem holdRed_wf {e : Env} {x : Lane} {s : State} {scratch : Bool} {addr cls : Nat} {v : DWord} {t} (h : s.mem.wf)
    (e : holdRed e x s scratch addr cls v = .ok t) : t.mem.wf := by
  unfold holdRed at e
  grind [State.modCore_mem, State.modThread_mem, Got.bind_eq_ok, → State.release_wf]

theorem readRange_wf {x : Lane} {va n : Nat} {s : State} {r} (h : s.mem.wf) (e : readRange x va n s = .ok r) : r.2.2.mem.wf := by
  induction n generalizing va s r with
  | zero => cases e; exact h
  | succ k ih =>
    obtain ⟨pc, -, e⟩ := Got.bind_eq_ok.mp e
    dsimp only at e
    split at e
    · cases e
    · next hl =>
      obtain ⟨w, hw, e⟩ := Got.bind_eq_ok.mp e
      have hw := ih (State.laneLoad_wf h hl) hw
      cases e
      exact hw

theorem writeRange_wf {x : Lane} {va v n : Nat} {s : State} {r} (h : s.mem.wf) (e : writeRange x va v n s = .ok r) : r.2.mem.wf
    := by
  induction n generalizing va v s r with
  | zero => cases e; exact h
  | succ k ih =>
    obtain ⟨pc, -, e⟩ := Got.bind_eq_ok.mp e
    obtain ⟨_, -, e⟩ := Got.bind_eq_ok.mp e
    obtain ⟨w, hw, e⟩ := Got.bind_eq_ok.mp e
    obtain ⟨q, hq, e⟩ := Got.bind_eq_ok.mp e
    have hq := ih (State.laneStore_wf h (Got.ofOption_eq_ok.mp hw)) hq
    cases e
    exact hq

theorem State.walkFor_wf {s : State} {c p va : Nat} {a : Access} {t} (h : s.mem.wf) (e : s.walkFor c p va a = some t) : t.mem.wf
    := by
  unfold State.walkFor at e
  grind [= Option.map_eq_some_iff, = Option.bind_eq_some_iff, Got.bind_eq_ok, Got.ofOption_eq_ok, State.modCore_mem,
    State.modPos_mem, Walk.Wf, foldl_wf, foldl_mem, !State.walk_wf, State.wake_mem]

/-! Functions of Machine/Sync. -/

theorem relLane_wf {x : Lane} {scope : Nat} {s : State} {t} (h : s.mem.wf) (e : relLane x scope s = .ok t) : t.mem.wf := by
  unfold relLane at e
  grind [Got.bind_eq_ok, → State.release_wf]

theorem acqLane_wf {x : Lane} {scope : Nat} {s : State} {t} (h : s.mem.wf) (e : acqLane x scope s = .ok t) : t.mem.wf := by
  unfold acqLane at e
  grind [Got.bind_eq_ok, → State.acquire_wf]

theorem State.applyHeld_wf {s : State} {c : Nat} {r : HeldRed} {t} (h : s.mem.wf) (e : s.applyHeld c r = some t) : t.mem.wf := by
  unfold State.applyHeld at e
  grind [= Option.map_eq_some_iff, = Option.bind_eq_some_iff, State.heldUe_mem, State.scratchWrite_mem, → State.atomicAt_wf]

theorem State.applyAll_wf {s : State} {rs : List (Nat × HeldRed)} {t} (h : s.mem.wf) (e : s.applyAll rs = some t) : t.mem.wf := by
  induction rs generalizing s with
  | nil => grind [State.applyAll]
  | cons rs l ih => grind [State.applyAll, = Option.map_eq_some_iff, = Option.bind_eq_some_iff, Got.bind_eq_ok, Got.ofOption_eq_ok,
    → State.applyHeld_wf]

theorem State.flush_wf {s : State} {p : Nat → HeldRed → Bool} {homes : Bool} {t} (h : s.mem.wf) (e : s.flush p homes = some t) :
    t.mem.wf := by
  unfold State.flush at e
  dsimp only at e
  split at e
  · grind
  · refine State.applyAll_wf ?_ e
    grind [State.merge_mem]

theorem arriveBar_wf {k : BarKind} {e : Env} {x : Lane} {s : State} {t} (h : s.mem.wf) (e : arriveBar k e x s = .ok t) :
    t.mem.wf := by
  unfold arriveBar at e
  grind [State.modPos_mem, Got.bind_eq_ok, → relLane_wf, State.openBar_mem, markWait_mem]

theorem State.flushBar_wf {s : State} {c t : Nat} {k : BarKind} {u} (h : s.mem.wf) (e : s.flushBar c t k = some u) : u.mem.wf := by
  unfold State.flushBar at e
  grind [→ State.flush_wf]

theorem State.depart_wf {s : State} {c t g : Nat} {u} (h : s.mem.wf) (e : s.depart c t g = some u) : u.mem.wf := by
  refine foldl_option_wf (fun acc a t h e => ?_) _ (fun u hu => ?_) u e
  · grind [→ State.rejoin_wf, State.count_mem, State.wake_mem, State.modThread_mem]
  · cases hu; exact h

/-! Functions of Machine/Control. -/

theorem returnCheck_wf {x : Lane} {s : State} {r} (h : s.mem.wf) (e : returnCheck x s = .ok r) : r.2.2.mem.wf := by
  unfold returnCheck at e
  dsimp only at e
  split at e
  · cases e
  obtain ⟨head, -, e⟩ := Got.bind_eq_ok.mp e
  obtain ⟨lo, -, e⟩ := Got.bind_eq_ok.mp e
  obtain ⟨hi, -, e⟩ := Got.bind_eq_ok.mp e
  obtain ⟨_, -, e⟩ := Got.bind_eq_ok.mp e
  obtain ⟨_, -, e⟩ := Got.bind_eq_ok.mp e
  split at e
  · cases e; exact h
  have hw := State.fetchWords_wf s x.c (s.team x.c x.t).part (hi ++ lo).toNat h
  grind [FetchWords.Wf]

theorem icinvLane_wf {e : Env} {x : Lane} {s : State} {t} (h : s.mem.wf) (e : icinvLane e x s = .ok t) : t.mem.wf := by
  unfold icinvLane at e
  grind [State.modPart_mem, Got.bind_eq_ok, → relLane_wf]

theorem State.settleCode_wf {s : State} {t} (h : s.mem.wf) (e : s.settleCode = some t) : t.mem.wf := by
  refine foldl_bind_wf (fun s a t h e => ?_) h e
  grind [= Option.map_eq_some_iff, State.modDie_mem, → State.releaseSys_wf]

/-! Functions of Machine/Engine. -/

theorem captureTag_wf {x : Lane} {s : State} {barv : Bool} {bar : Nat} {r} (h : s.mem.wf) (e : captureTag x s barv bar = .ok r)
    : r.2.mem.wf := by
  unfold captureTag at e
  grind [= Option.map_eq_some_iff, = Option.bind_eq_some_iff, Got.bind_eq_ok, Got.ofOption_eq_ok, State.counted_mem,
    → State.loadBytes_wf]

theorem EngIo.walk_wf (acc : List Byte) (va : Nat) (k : Cause) (s : State) (h : s.mem.wf) : (EngIo.walk acc va k s).Wf := by
  unfold EngIo.walk
  grind [= Option.map_eq_some_iff, = Option.bind_eq_some_iff, Got.bind_eq_ok, Got.ofOption_eq_ok, EngIo.Wf]

theorem engRead_wf (p : EngPath) (fuel va n : Nat) (acc : List Byte) (s : State) (h : s.mem.wf) : (engRead p fuel va n acc s).Wf
    := by
  induction fuel generalizing va n acc s with
  | zero => exact h
  | succ m ih =>
    unfold engRead
    split
    · exact h
    extract_lets len
    have hw := State.translateNow_wf s p.c (s.team p.c p.t).part va .read p.es h
    split
    · trivial
    · next e =>
      rw [e] at hw
      exact EngIo.walk_wf _ _ _ _ hw
    next e =>
    rw [e] at hw
    split
    · trivial
    next e =>
    have hl := State.loadBytes_wf hw e
    split
    · exact hl
    · exact ih _ _ _ _ (by rwa [EngPath.counted_mem])

theorem engWrite_wf (p : EngPath) (fuel va : Nat) (bs acc : List Byte) (s : State) (h : s.mem.wf) :
    (engWrite p fuel va bs acc s).Wf := by
  induction fuel generalizing va bs acc s with
  | zero => exact h
  | succ m ih =>
    unfold engWrite
    split
    · exact h
    extract_lets len v
    have hw := State.translateNow_wf s p.c (s.team p.c p.t).part va .write p.es h
    split
    · trivial
    · next e =>
      rw [e] at hw
      exact EngIo.walk_wf _ _ _ _ hw
    next e =>
    rw [e] at hw
    split
    · exact hw
    split
    · trivial
    next e =>
    exact ih _ _ _ _ (by rw [EngPath.counted_mem]; exact State.storeBytes_wf hw e)

theorem mmaGroup_wf (c : Nat) (o : EngOp) (s : State) (h : s.mem.wf) : (mmaGroup c o s).Wf := by
  unfold mmaGroup
  grind [= Option.map_eq_some_iff, = Option.bind_eq_some_iff, Got.bind_eq_ok, Got.ofOption_eq_ok, EngStep.Wf, State.engStick_mem,
    State.setTile_mem]

theorem weightRead_wf (p : EngPath) (m va n : Nat) (acc : List Byte) (o : EngOp) (s : State) (h : s.mem.wf) :
    (weightRead p m va n acc o s).2.Wf := by
  induction m generalizing va n acc o s with
  | zero => exact h
  | succ m ih =>
    unfold weightRead
    split
    · exact h
    extract_lets len part
    split
    · exact ih _ _ _ _ _ h
    have hr := engRead_wf p 2 (va / 128 * 128) 128 [] s h
    split
    · next e => rw [e] at hr; exact ih _ _ _ _ _ hr
    · next e => rwa [e] at hr
    · next e => rwa [e] at hr
    · trivial

theorem readWeights_wf (p : EngPath) (w n : Nat) (rows : List (List Nat)) (o : EngOp) (s : State) (h : s.mem.wf) :
    weightsWf (readWeights p w n rows o s).2 := by
  induction n generalizing rows o s with
  | zero => exact h
  | succ n ih =>
    unfold readWeights
    extract_lets bit va
    have hr := weightRead_wf p 4 va ((bit % 8 + 16 * w + 7) / 8) [] o s h
    split
    · next e =>
      rw [e] at hr
      exact ih _ _ _ hr
    · next e => rwa [e] at hr

theorem State.engFail_wf (s : State) (c : Nat) (e : Engine) (o : EngOp) (a : Access) {r : EngIo} (h : r.Wf) :
    (s.engFail c e o a r).Wf := by
  cases r with
  | blocked => trivial
  | ok => exact h
  | fault bs va k s => simpa [State.engFail, EngStep.Wf, EngIo.Wf] using h
  | error va s => simpa [State.engFail, EngStep.Wf, EngIo.Wf] using h

theorem mmvGroup_wf (c : Nat) (o : EngOp) (s : State) (h : s.mem.wf) : (mmvGroup c o s).Wf := by
  unfold mmvGroup
  extract_lets b p fm w rows first boff nb
  split
  · exact h
  have hr : (if first && b.getLsbD 265 then weightRead p 4 (blkBits b 255 192) nb [] o s else (o, .ok [] s)).2.Wf := by
    split
    · exact weightRead_wf _ _ _ _ _ _ _ h
    · exact h
  generalize (if first && b.getLsbD 265 then weightRead p 4 (blkBits b 255 192) nb [] o s else (o, .ok [] s)) = r at hr ⊢
  obtain ⟨o, r⟩ := r
  cases r with
  | ok bs s =>
    have hq := readWeights_wf p w rows [] o s hr
    dsimp only
    split
    · next e => 
      rw [e] at hq
      exact State.engFail_wf _ _ _ _ _ hq
    · next e =>
      rw [e] at hq
      simpa [EngStep.Wf, weightsWf] using hq
  | _ => exact State.engFail_wf _ _ _ _ _ hr

theorem tileStep_wf (c : Nat) (o : EngOp) (s : State) (h : s.mem.wf) : (tileStep c o s).Wf := by
  unfold tileStep
  grind [= Option.map_eq_some_iff, = Option.bind_eq_some_iff, Got.bind_eq_ok, Got.ofOption_eq_ok, EngStep.Wf, State.engStick_mem,
    State.freeBytes_mem, State.scratchFill_mem, State.setTile_mem]

theorem matrixStep_wf (c : Nat) (o : EngOp) (s : State) (h : s.mem.wf) : (matrixStep c o s).Wf := by
  unfold matrixStep
  grind [= Option.map_eq_some_iff, = Option.bind_eq_some_iff, Got.bind_eq_ok, Got.ofOption_eq_ok, State.modCore_mem, EngStep.Wf,
    !mmaGroup_wf, !mmvGroup_wf, !tileStep_wf, State.count_mem]

theorem pourElems_wf (c : Nat) (o : EngOp) (s : State) (h : s.mem.wf) : (pourElems c o s).2.Wf := by
  unfold pourElems
  extract_lets b fm w bit va n r take
  have hr : r.Wf := engRead_wf _ _ _ _ _ _ h
  clear_value r
  split <;> exact hr

theorem pourRow_wf (c : Nat) (o : EngOp) (s : State) (h : s.mem.wf) : (pourRow c o s).Wf := by
  unfold pourRow
  have hr := pourElems_wf c o s h
  grind [EngStep.Wf, EngIo.Wf, State.countRow_mem, State.scratchFill_mem, State.engStop_mem, State.engFail_wf]

theorem copyRow_wf (c : Nat) (o : EngOp) (s : State) (h : s.mem.wf) : (copyRow c o s).Wf := by
  unfold copyRow
  have hr := pourElems_wf c o s h
  generalize pourElems c o s = q at hr ⊢
  obtain ⟨es, r⟩ := q
  cases r with
  | ok bs s | fault bs va k s =>
    have hw (p : EngPath) (m va : Nat) (bs acc : List Byte) := engWrite_wf p m va bs acc s hr
    grind [EngStep.Wf, EngIo.Wf, State.engFail_wf, State.countRow_mem, State.engStop_mem]
  | _ => exact State.engFail_wf _ _ _ _ _ hr

theorem pourOutRow_wf (c : Nat) (o : EngOp) (s : State) (h : s.mem.wf) : (pourOutRow c o s).Wf := by
  unfold pourOutRow
  grind [= Option.map_eq_some_iff, = Option.bind_eq_some_iff, Got.bind_eq_ok, Got.ofOption_eq_ok, EngIo.Wf, EngStep.Wf,
    !State.engFail_wf, !engWrite_wf, State.countRow_mem, State.engStick_mem, State.engStop_mem]

theorem pourStep_wf (c : Nat) (o : EngOp) (s : State) (h : s.mem.wf) : (pourStep c o s).Wf := by
  unfold pourStep
  grind [= Option.map_eq_some_iff, = Option.bind_eq_some_iff, Got.bind_eq_ok, Got.ofOption_eq_ok, EngStep.Wf, !copyRow_wf,
    !pourOutRow_wf, !pourRow_wf]

theorem engRun_wf (c : Nat) (e : Engine) (fuel : Nat) (s : State) (h : s.mem.wf) : (engRun c e fuel s).mem.wf := by
  induction fuel generalizing s with
  | zero => grind [engRun]
  | succ n ih => grind [engRun, = Option.map_eq_some_iff, = Option.bind_eq_some_iff, Got.bind_eq_ok, Got.ofOption_eq_ok, EngStep.Wf,
    !matrixStep_wf, !pourStep_wf, State.setHead_mem]

theorem signalBar_wf (c : Nat) (e : Engine) (o : EngOp) (s : State) (h : s.mem.wf) : (signalBar c e o s).Wf := by
  unfold signalBar
  grind [= Option.map_eq_some_iff, = Option.bind_eq_some_iff, Got.bind_eq_ok, Got.ofOption_eq_ok, EngStep.Wf, Walk.Wf,
    !State.translateNow_wf, EngPath.counted_mem, State.dropArrival_mem, State.engStick_mem, State.engStop_mem,
    State.scratchWrite_mem, → State.atomicAt_wf]

theorem signalFuture_wf (c : Nat) (e : Engine) (o : EngOp) (s : State) (h : s.mem.wf) : (signalFuture c e o s).Wf := by
  unfold signalFuture
  grind [= Option.map_eq_some_iff, = Option.bind_eq_some_iff, Got.bind_eq_ok, Got.ofOption_eq_ok, EngStep.Wf, State.engStick_mem,
    State.scratchWrite_mem]

theorem State.retireOp_wf {s : State} {c : Nat} {e : Engine} {o : EngOp} {t} (h : s.mem.wf) (e : s.retireOp c e o = some t) :
    t.mem.wf := by
  unfold State.retireOp at e
  grind [= Option.map_eq_some_iff, = Option.bind_eq_some_iff, State.modCore_mem, State.modPart_mem, State.modQueue_mem,
    State.unseen_mem, State.setHead_mem, → State.releaseSys_wf, State.settle_mem]

/-! Functions of Machine/Graph. -/

theorem State.readAt_wf {s : State} {pa n cls : Nat} {r} (h : s.mem.wf) (e : s.readAt pa n cls = some r) : r.2.2.mem.wf := by
  unfold State.readAt at e
  grind [State.openBytes_mem, → State.homeRead_wf]

theorem State.writeAt_wf {s : State} {pa n v cls : Nat} {t} (h : s.mem.wf) (e : s.writeAt pa n v cls = some t) : t.mem.wf := by
  unfold State.writeAt at e
  grind [Memory.wf_writeN, → State.homeWrite_wf]

theorem dispRead_wf (p fuel va n : Nat) (acc : List Byte) (s : State) (h : s.mem.wf) : (dispRead p fuel va n acc s).Wf := by
  induction fuel generalizing va n acc s with
  | zero => exact h
  | succ m ih =>
    unfold dispRead
    split
    · exact h
    extract_lets len
    split
    · exact h
    have hw := State.walk_wf s p 32 va (Need.of .read) h
    split
    · trivial
    · next e => rwa [e] at hw
    next e =>
    rw [e] at hw
    split
    · trivial
    next e =>
    have hl := State.readAt_wf hw e
    split
    · exact hl
    · exact ih _ _ _ _ hl

theorem State.dispBytes_wf (s : State) (p va n : Nat) (h : s.mem.wf) : (s.dispBytes p va n).Wf := by
  unfold State.dispBytes
  grind [= Option.map_eq_some_iff, = Option.bind_eq_some_iff, Got.bind_eq_ok, Got.ofOption_eq_ok, EngIo.Wf, !dispRead_wf]

theorem dispWrite_wf (p : Nat) (need : Need) (fuel va : Nat) (bs : List Byte) (s : State) (h : s.mem.wf) :
    (dispWrite p need fuel va bs s).Wf := by
  induction fuel generalizing va bs s with
  | zero => exact h
  | succ m ih =>
    unfold dispWrite
    split
    · exact h
    extract_lets len
    have hw := State.walk_wf s p 32 va need h
    split
    · trivial
    · next e => rwa [e] at hw
    next e =>
    rw [e] at hw
    split
    · exact hw
    split
    · trivial
    next e =>
    exact ih _ _ _ (State.writeAt_wf hw e)

theorem readRegions_wf (p va fuel : Nat) (rs : List Region) (s : State) (h : s.mem.wf) : (readRegions p va fuel rs s).Wf := by
  induction fuel generalizing va rs s with
  | zero => exact h
  | succ m ih =>
    unfold readRegions
    have hw := State.dispBytes_wf s p va 16 h
    split
    · trivial
    · next e => rwa [e] at hw
    · next e => rwa [e] at hw
    next e =>
    rw [e] at hw
    extract_lets v
    split
    · exact hw
    split
    · exact hw
    · exact ih _ _ _ hw

theorem State.regionList_wf (s : State) (p va : Nat) (h : s.mem.wf) : (s.regionList p va).Wf := by
  unfold State.regionList
  grind [= Option.map_eq_some_iff, = Option.bind_eq_some_iff, Got.bind_eq_ok, Got.ofOption_eq_ok, RegionList.Wf, !readRegions_wf]

theorem graphRelease_wf {lanes : List Lane} {s : State} {t} (h : s.mem.wf) (e : graphRelease lanes s = .ok t) : t.mem.wf := by
  obtain ⟨u, hu, e⟩ := Got.bind_eq_ok.mp e
  have hu := Got.foldl_bind_wf (fun _ _ _ h e => relLane_wf h e) h _ hu
  grind [= Got.ofOption_eq_ok, → State.releaseSys_wf]

theorem readRecord_wf {s : State} {pa va cls : Nat} {r} (h : s.mem.wf) (e : readRecord s pa va cls = .ok r) : r.2.mem.wf := by
  unfold readRecord at e
  grind [= Option.map_eq_some_iff, = Option.bind_eq_some_iff, Got.bind_eq_ok, Got.ofOption_eq_ok, → State.readAt_wf]

theorem recordRegions_wf {s : State} {p va : Nat} {b : BitVec 512} {r} (h : s.mem.wf) (e : recordRegions s p va b = .ok r) :
    r.2.mem.wf := by
  unfold recordRegions at e
  grind [= Option.map_eq_some_iff, = Option.bind_eq_some_iff, Got.bind_eq_ok, Got.ofOption_eq_ok, RegionList.Wf,
    !State.regionList_wf]

/-! Functions of Machine/Launch. -/

theorem State.makeTeam_wf {s : State} {p gk : Nat} {g : Grid} {x : Spot} {r} (h : s.mem.wf) (e : s.makeTeam p gk g x = some r) :
    r.2.mem.wf := by
  unfold State.makeTeam at e
  grind [= Option.map_eq_some_iff, = Option.bind_eq_some_iff, State.modCore_mem, State.setTeam_mem, State.leaveL1_mem,
    → State.joinPkg_wf]

theorem State.launchTeam_wf {s : State} {p gk : Nat} {g : Grid} {data : List Byte} {x : Spot} {t} (h : s.mem.wf)
    (e : s.launchTeam p gk g data x = some t) : t.mem.wf := by
  unfold State.launchTeam at e
  grind [= Option.map_eq_some_iff, = Option.bind_eq_some_iff, State.modTeam_mem, foldl_wf, foldl_mem, → State.makeTeam_wf,
    State.scratchFill_mem, State.addSafe_mem]

theorem State.complete_wf {s : State} {p : Nat} {launch : Word} {cpl status clocks : Nat} {t} (h : s.mem.wf)
    (e : s.complete p launch cpl status clocks = some t) : t.mem.wf := by
  unfold State.complete at e
  grind [= Option.map_eq_some_iff, = Option.bind_eq_some_iff, Got.bind_eq_ok, Got.ofOption_eq_ok, EngIo.Wf, !dispWrite_wf,
    State.event_mem]

theorem State.checkPacket_wf (s : State) (p : Nat) (launch : Word) (b : BitVec 512) (h : s.mem.wf) :
    (s.checkPacket p launch b).Wf := by
  unfold State.checkPacket
  dsimp only
  split
  · exact h
  refine checkRead_wf (State.dispBytes_wf _ _ _ _ h) fun bs s h => ?_
  split
  · exact h
  split
  · exact h
  split
  · exact h
  refine checkRead_wf (State.dispBytes_wf _ _ _ _ h) fun bs s h => ?_
  split
  · exact h
  split
  · exact h
  have hr := State.regionList_wf s p (blkBits b 383 320) h
  cases e : s.regionList p (blkBits b 383 320) with
  | blocked => trivial
  | bad s => rwa [e] at hr
  | ok rs s =>
    rw [e] at hr
    dsimp only
    split <;> exact hr

theorem State.launchTeams_wf {s : State} {p gk : Nat} {g : Grid} {data : List Byte} {spots : List Spot} {t} (h : s.mem.wf)
    (e : s.launchTeams p gk g data spots = some t) : t.mem.wf := by
  induction spots generalizing s with
  | nil => grind [State.launchTeams]
  | cons spots l ih => grind [State.launchTeams, = Option.map_eq_some_iff, = Option.bind_eq_some_iff, Got.bind_eq_ok,
    Got.ofOption_eq_ok, → State.launchTeam_wf]

theorem regionPages_wf {p : Nat} {r : Region} {last fuel va : Nat} {acc : List Extent × Bool} {s : State} {q} (h : s.mem.wf)
    (e : regionPages p r last fuel va acc s = some q) : q.2.mem.wf := by
  induction fuel generalizing va acc s with
  | zero => grind [regionPages]
  | succ n ih => grind [regionPages, = Option.map_eq_some_iff, = Option.bind_eq_some_iff, Got.bind_eq_ok, Got.ofOption_eq_ok,
    Walk.Wf, !State.walk_wf]

theorem State.buildExtents_wf {s : State} {p : Nat} {rs : List Region} {acc : List Extent × Bool} {r} (h : s.mem.wf)
    (e : s.buildExtents p rs acc = some r) : r.2.mem.wf := by
  induction rs generalizing s acc with
  | nil => grind [State.buildExtents]
  | cons rs l ih => grind [State.buildExtents, = Option.map_eq_some_iff, = Option.bind_eq_some_iff, Got.bind_eq_ok,
    Got.ofOption_eq_ok, → regionPages_wf]

theorem State.reregister_wf (s : State) (p n : Nat) (nd : Node) (h : s.mem.wf) : (s.reregister p n nd).mem.wf := by
  unfold State.reregister
  grind [= Option.map_eq_some_iff, = Option.bind_eq_some_iff, Got.bind_eq_ok, Got.ofOption_eq_ok, State.modPart_mem, Walk.Wf,
    !State.walk_wf, → State.readAt_wf]

theorem State.reregisterAll_wf (s : State) (p : Nat) (h : s.mem.wf) : (s.reregisterAll p).mem.wf := by
  unfold State.reregisterAll
  grind [foldl_wf, foldl_mem, State.reregister_wf]

theorem State.copyTag_wf (s : State) (c t : Nat) (b : BitVec 512) (h : s.mem.wf) : (s.copyTag c t b).Wf := by
  unfold State.copyTag
  grind [= Option.map_eq_some_iff, = Option.bind_eq_some_iff, Got.bind_eq_ok, Got.ofOption_eq_ok, EngIo.Wf, !engRead_wf]

theorem State.homeAll_wf {s : State} {t} (h : s.mem.wf) (e : s.homeAll = some t) : t.mem.wf :=
  foldl_bind_wf (fun _ _ _ h e => State.releaseSys_wf h e) h e

theorem State.decrement_wf {s : State} {p : Nat} {launch : Word} {va : Nat} {t} (h : s.mem.wf)
    (e : s.decrement p launch va = some t) : t.mem.wf := by
  unfold State.decrement at e
  grind [= Option.map_eq_some_iff, = Option.bind_eq_some_iff, Got.bind_eq_ok, Got.ofOption_eq_ok, State.modPart_mem, Walk.Wf,
    !State.walk_wf, State.event_mem, → State.readAt_wf, → State.writeAt_wf]

theorem State.decrementAll_wf {s : State} {p : Nat} {launch : Word} {nodes : List Nat} {t} (h : s.mem.wf)
    (e : s.decrementAll p launch nodes = some t) : t.mem.wf := by
  induction nodes generalizing s with
  | nil => grind [State.decrementAll]
  | cons nodes l ih => grind [State.decrementAll, = Option.map_eq_some_iff, = Option.bind_eq_some_iff, Got.bind_eq_ok,
    Got.ofOption_eq_ok, → State.decrement_wf]

theorem State.successors_wf {s : State} {p : Nat} {launch : Word} {b : BitVec 512} {t} (h : s.mem.wf)
    (e : s.successors p launch b = some t) : t.mem.wf := by
  unfold State.successors at e
  grind [= Option.map_eq_some_iff, = Option.bind_eq_some_iff, Got.bind_eq_ok, Got.ofOption_eq_ok, EngIo.Wf, !State.dispBytes_wf,
    State.event_mem, → State.decrementAll_wf, → State.decrement_wf]

/-! Functions of Machine/Ladle. -/

theorem State.commit_wf (s : State) (i : Inv) (h : s.mem.wf) : (s.commit i).mem.wf := by
  unfold State.commit
  grind [State.modSlice_mem, Memory.wf_writeN, State.settleLine_wf]

theorem State.openWindow_wf {s : State} {sl : Nat} {i : Inv} {r} (h : s.mem.wf) (e : s.openWindow sl i = some r) : r.2.mem.wf := by
  unfold State.openWindow at e
  grind [= Option.map_eq_some_iff, = Option.bind_eq_some_iff, → State.homeRead_wf, State.homeBytes_wf, → State.touch_mem]

theorem State.beginHead_wf {s : State} {sl : Nat} {t} (h : s.mem.wf) (e : s.beginHead sl = some t) : t.mem.wf := by
  unfold State.beginHead at e
  grind [= Option.map_eq_some_iff, = Option.bind_eq_some_iff, State.modSlice_mem, State.endInv_mem, State.answer_mem,
    State.ladleAbort_mem, State.bump_mem, → State.settleDies_wf, → State.openWindow_wf]

theorem State.beginTrigger_wf {s : State} {sl : Nat} {kind : InvKind} {line : Nat} {t} (h : s.mem.wf)
    (e : s.beginTrigger sl kind line = some t) : t.mem.wf := by
  unfold State.beginTrigger at e
  grind [→ State.beginHead_wf]

theorem State.tryTrigger_wf (s : State) (sl : Nat) (kind : InvKind) (line : Nat) (h : s.mem.wf) :
    (s.tryTrigger sl kind line).mem.wf := by
  unfold State.tryTrigger
  cases e : s.beginTrigger sl kind line
  · exact h
  · exact State.beginTrigger_wf h e

theorem State.raiseLine_wf {s : State} {sl line : Nat} {kind : InvKind} {cls : Nat} {t} (h : s.mem.wf)
    (e : s.raiseLine sl line kind cls = some t) : t.mem.wf := by
  unfold State.raiseLine at e
  grind [= Option.map_eq_some_iff, = Option.bind_eq_some_iff, State.modSlice_mem, State.tryTrigger_wf, → State.beginTrigger_wf]

theorem State.ladleWalk_wf (s : State) (i : Inv) (va : Nat) (n : Need) (h : s.mem.wf) : (s.ladleWalk i va n).Wf := by
  unfold State.ladleWalk
  grind [= Option.map_eq_some_iff, = Option.bind_eq_some_iff, Got.bind_eq_ok, Got.ofOption_eq_ok, Walk.Wf, !State.walk_wf]

/-! Functions of Machine/Resume. -/

theorem State.readyWaves_wf (s : State) (c : Nat) (h : s.mem.wf) : (s.readyWaves c).mem.wf := by
  unfold State.readyWaves
  grind [foldl_wf, foldl_mem, State.wake_mem]

/-! Functions of Machine/Traps. -/

theorem State.recordStores_wf {s : State} {c : Nat} {r : Rec} {t} (h : s.mem.wf) (e : s.recordStores c r = some t) : t.mem.wf := by
  unfold State.recordStores at e
  grind [→ State.releaseSys_wf]

theorem State.putRecord_wf {s : State} {p n : Nat} {r : Rec} {t} (h : s.mem.wf) (e : s.putRecord p n r = some t) : t.mem.wf := by
  obtain ⟨u, hu, e⟩ := Option.bind_eq_some_iff.mp e
  exact State.homeWrite_wf (State.homeWrite_wf h hu) e

theorem State.rewriteRec_wf {s : State} {a : Nat} {r : Rec} {t} (h : s.mem.wf) (e : s.rewriteRec a r = some t) : t.mem.wf := by
  unfold State.rewriteRec at e
  grind [= Option.map_eq_some_iff, = Option.bind_eq_some_iff, → State.homeWrite_wf]

theorem State.rewriteRecs_wf (s : State) (c : Nat) (h : s.mem.wf) : (s.rewriteRecs c).mem.wf := by
  unfold State.rewriteRecs
  grind [= Option.map_eq_some_iff, = Option.bind_eq_some_iff, Got.bind_eq_ok, Got.ofOption_eq_ok, State.modCore_mem, foldl_wf,
    foldl_mem, → State.rewriteRec_wf]

/-! Functions of Machine/Image. -/

theorem writeArea_wf {fuel at_ : Nat} {bs : List Byte} {s : State} {t} (h : s.mem.wf) (e : writeArea fuel at_ bs s = some t) :
    t.mem.wf := by
  induction fuel generalizing at_ bs s with
  | zero => grind [writeArea]
  | succ n ih => grind [writeArea, = Option.map_eq_some_iff, = Option.bind_eq_some_iff, Got.bind_eq_ok, Got.ofOption_eq_ok,
    → State.writeAt_wf]

theorem State.writeArea_wf {s : State} {a : Nat} {bs : List Byte} {t} (h : s.mem.wf) (e : s.writeArea a bs = some t) : t.mem.wf :=
  Machine.writeArea_wf h e

theorem readArea_wf {fuel at_ n : Nat} {acc : List Byte} {bad : Bool} {s : State} {r} (h : s.mem.wf)
    (e : readArea fuel at_ n acc bad s = some r) : r.2.2.mem.wf := by
  induction fuel generalizing at_ n acc bad s with
  | zero => grind [readArea]
  | succ k ih => grind [readArea, = Option.map_eq_some_iff, = Option.bind_eq_some_iff, Got.bind_eq_ok, Got.ofOption_eq_ok,
    → State.readAt_wf]

theorem State.readArea_wf {s : State} {a n : Nat} {r} (h : s.mem.wf) (e : s.readArea a n = some r) : r.2.2.mem.wf :=
  Machine.readArea_wf h e

/-! Functions of Machine/Save. -/

theorem State.restWave_wf (s : State) (c : Nat) (w : Wave) (fin : List Lane) (h : s.mem.wf) : (s.restWave c w fin).mem.wf := by
  unfold State.restWave
  grind [foldl_wf, foldl_mem, State.takeNotes_mem, State.finishLane_mem]

theorem State.writeProg_wf {s : State} {c : Nat} {o : EngOp} {t} (h : s.mem.wf) (e : s.writeProg c o = some t) : t.mem.wf := by
  unfold State.writeProg at e
  grind [= Option.map_eq_some_iff, = Option.bind_eq_some_iff, Got.bind_eq_ok, Got.ofOption_eq_ok, EngIo.Wf, !dispWrite_wf,
    State.modQueue_mem, State.scratchWrite_mem]

theorem State.markSaved_wf {s : State} {c t : Nat} {u} (h : s.mem.wf) (e : s.markSaved c t = some u) : u.mem.wf := by
  unfold State.markSaved at e
  extract_lets ws s1 fin s2 s3 k at e
  have h1 : s1.mem.wf := foldl_wf (fun s w h => by simpa using h) h ws
  have h2 : s2.mem.wf := foldl_wf (fun s w h => by split <;> simpa using h) h1 ws
  have h3 : s3.mem.wf := foldl_wf (fun s w h => State.restWave_wf s c w fin h) h2 ws
  split at e
  · rw [← Option.some.inj e]; exact h3
  · obtain ⟨v, hv, e⟩ := Option.bind_eq_some_iff.mp e
    obtain ⟨w, hw, rfl⟩ := Option.map_eq_some_iff.mp e
    dsimp only
    rw [State.modPart_mem, State.modCore_mem, State.modTeam_mem]
    exact State.releaseSys_wf (foldl_bind_wf (fun _ _ _ h e => State.writeProg_wf h e) h3 hv) hw

theorem State.saveGrid_wf {s : State} {p gk : Nat} {g : Grid} {t} (h : s.mem.wf) (e : s.saveGrid p gk g = some t) : t.mem.wf := by
  unfold State.saveGrid at e
  grind [= Option.map_eq_some_iff, = Option.bind_eq_some_iff, State.modPart_mem, State.unloadGrid_mem, State.event_mem,
    → State.writeArea_wf]

theorem State.readTeams_wf {s : State} {a nclu n : Nat} {r} (h : s.mem.wf) (e : s.readTeams a nclu n = some r) : r.2.2.mem.wf := by
  obtain ⟨⟨dir, bad, u⟩, hd, e⟩ := Option.bind_eq_some_iff.mp e
  refine foldl_bind_keeps (fun r : List (List Byte) × Bool × State => r.2.2.mem.wf) (fun b a c hb e => ?_)
    (State.readArea_wf h hd) e
  obtain ⟨v, hv, rfl⟩ := Option.map_eq_some_iff.mp e
  exact State.readArea_wf (s := b.2.2) hb hv

theorem State.checkRestore_wf (s : State) (p a : Nat) (h : s.mem.wf) : (s.checkRestore p a).Wf := by
  unfold State.checkRestore
  refine checkArea_wf (fun _ e => State.readArea_wf h e) fun bs b s h => ?_
  extract_lets hd n nteams packet live
  split
  · exact h
  refine checkArea_wf (fun _ e => State.readArea_wf h e) fun bs b s h => ?_
  split
  · trivial
  next e =>
  have h := State.readTeams_wf h e
  extract_lets wrong pmap
  clear_value live wrong
  split
  · exact h
  split
  · exact h
  split
  · exact h
  split
  · exact h
  refine checkArea_wf (fun _ e => ?_) fun bs b s h => ?_
  · split at e
    · cases e; exact h
    · exact State.readArea_wf h e
  · grind [RestoreCheck.Wf]

theorem State.checkNow_wf {s : State} {p : Nat} {t} (h : s.mem.wf) (e : s.checkNow p = some t) : t.mem.wf := by
  unfold State.checkNow at e
  grind [= Option.map_eq_some_iff, = Option.bind_eq_some_iff, Got.bind_eq_ok, Got.ofOption_eq_ok, State.modPart_mem,
    RestoreCheck.Wf, !State.checkRestore_wf, State.event_mem, → State.writeAt_wf]

theorem State.startRestore_wf (s : State) (p a : Nat) (h : s.mem.wf) : (s.startRestore p a).mem.wf := by
  unfold State.startRestore
  dsimp only
  have ha : (s.askRestore p a).mem.wf := h
  cases e : (s.askRestore p a).checkNow p
  · exact ha
  · exact State.checkNow_wf ha e

theorem State.reissue_wf (s : State) (p gk c t v : Nat) (written hot : Bool) (h : s.mem.wf) :
    (s.reissue p gk c t v written hot).mem.wf := by
  unfold State.reissue
  grind [State.modCore_mem, State.enqueue_mem]

theorem State.startTeam_wf (s : State) (p gk : Nat) (x : Placed) (done : List (Nat × Nat)) (h : s.mem.wf) :
    (s.startTeam p gk x done).mem.wf := by
  unfold State.startTeam
  grind [State.modCore_mem, foldl_wf, foldl_mem, State.dropNodes_mem, State.reissue_wf, State.addWave_mem, State.recoalesce_mem,
    State.fileStarts_mem]

theorem State.makeTeams_wf {s : State} {p gk : Nat} {g : Grid} {spots : List (Spot × List Byte)} {acc : List Placed} {r}
    (h : s.mem.wf) (e : s.makeTeams p gk g spots acc = some r) : r.2.mem.wf := by
  induction spots generalizing s acc with
  | nil => grind [State.makeTeams]
  | cons spots l ih => grind [State.makeTeams, = Option.map_eq_some_iff, = Option.bind_eq_some_iff, Got.bind_eq_ok,
    Got.ofOption_eq_ok, State.modCore_mem, → State.makeTeam_wf]

theorem State.placeRestore_wf {s : State} {p : Nat} {r : Restore} {g : Grid} {t} (h : s.mem.wf)
    (e : s.placeRestore p r g = some t) : t.mem.wf := by
  unfold State.placeRestore at e
  grind [= Option.map_eq_some_iff, = Option.bind_eq_some_iff, State.modPart_mem, foldl_wf, foldl_mem, → State.readTeams_wf,
    → State.makeTeams_wf, State.loadTeam_mem, State.serve_mem, State.freeEnded_mem, State.startTeam_wf, → State.writeAt_wf]

/-! Functions of Machine/Host. -/

theorem State.surrender_wf {s : State} {line : Nat} {t} (h : s.mem.wf) (e : s.surrender line = some t) : t.mem.wf := by
  refine foldl_bind_wf (fun s a t h e => ?_) h e
  grind [= Option.map_eq_some_iff, State.modDie_mem, State.dropL1Copies_mem, → State.writeBack_wf]

theorem State.snoop_wf {s : State} {line : Nat} {t} (h : s.mem.wf) (e : s.snoop line = some t) : t.mem.wf := by
  unfold State.snoop at e
  grind [= Option.map_eq_some_iff, = Option.bind_eq_some_iff, Got.bind_eq_ok, Got.ofOption_eq_ok, → State.surrender_wf]

theorem State.snoopAll_wf {s : State} {pa n : Nat} {t} (h : s.mem.wf) (e : s.snoopAll pa n = some t) : t.mem.wf :=
  foldl_bind_wf (fun _ _ _ h e => State.snoop_wf h e) h e

theorem State.hostAccess_wf {s : State} {r : HostReq} {t} (h : s.mem.wf) (e : s.hostAccess r = some t) : t.mem.wf := by
  unfold State.hostAccess at e
  grind [= Option.map_eq_some_iff, = Option.bind_eq_some_iff, Memory.wf_writeBytes, State.hostGets_mem, → State.snoopAll_wf,
    → State.readArea_wf, → State.writeArea_wf]

theorem State.hostRaise_wf (s : State) (r : HostReq) (h : s.mem.wf) : (s.hostRaise r).mem.wf := by
  refine foldl_wf (fun s i h => ?_) h _
  dsimp only
  split
  · split
    · cases e : s.raiseLine _ _ _ 3
      · exact h
      · exact State.raiseLine_wf h e
    · exact h
  · exact h

theorem State.hostDo_wf (s : State) (r : HostReq) (h : s.mem.wf) : (s.hostDo r).mem.wf := by
  unfold State.hostDo
  dsimp only
  split
  · cases e : s.hostAccess r
    · exact State.hostRaise_wf s r h
    · exact State.hostAccess_wf h e
  · exact h

theorem State.hostRetry_wf (s : State) (h : s.mem.wf) : (s.hostRetry).mem.wf := by
  unfold State.hostRetry
  grind [State.modPkg_mem, → State.hostAccess_wf, State.hostRaise_wf]

theorem State.salvage_wf (s : State) (h : s.mem.wf) : (s.salvage).mem.wf := by
  unfold State.salvage
  grind [foldl_wf, foldl_mem, mergeBytes_wf, State.settleLine_wf, State.poisonLine_mem]

/-! Functions of Machine/Cycle. -/

theorem State.missNow_wf {s : State} {n l cls : Nat} {t} (h : s.mem.wf) (e : s.missNow n l cls = some t) : t.mem.wf := by
  rcases Option.or_eq_some_iff.mp e with e | ⟨-, e⟩ <;> exact State.raiseLine_wf h e

theorem State.raiseMiss_wf {s : State} {f : State → Option State} {t} (h : s.mem.wf) (e : s.raiseMiss f = some t) : t.mem.wf := by
  unfold State.raiseMiss at e
  split at e
  · cases e
  rcases Option.or_eq_some_iff.mp e with e | ⟨-, e⟩
  · obtain ⟨u, -, e⟩ := Option.bind_eq_some_iff.mp e
    obtain ⟨v, -, e⟩ := Option.bind_eq_some_iff.mp e
    exact State.missNow_wf h e
  · obtain ⟨u, -, e⟩ := Option.bind_eq_some_iff.mp e
    obtain ⟨v, -, rfl⟩ := Option.map_eq_some_iff.mp e
    exact h

theorem State.nodesAgain_wf (s : State) (h : s.mem.wf) : (s.nodesAgain).mem.wf := by
  unfold State.nodesAgain
  grind [foldl_wf, foldl_mem, State.reregisterAll_wf]

end Sys2Proof.Machine
end

section
/-!
PROOFS. The operations of instructions keep memory canonical: lane by lane, slot by slot, and over the body of an instruction.
-/
namespace Sys2Proof.Machine

/-- The states that the outcome of a lane carries hold a canonical memory. -/
def Out.Wf : Out → Prop
  | .done s | .fault _ _ s => s.mem.wf
  | .wait _ => True

/-- The operation of a lane keeps memory canonical. -/
def KeepsLane (sem : LaneSem) : Prop := ∀ e x s, s.mem.wf → (sem e x s).Wf

/-- The operation of a slot keeps memory canonical. -/
def KeepsSlot (sem : SlotSem) : Prop := ∀ e xs s, s.mem.wf → (sem e xs s).1.mem.wf

theorem Got.out_wf {g : Got State} {s : State} (h : s.mem.wf) (hg : ∀ t, g = .ok t → t.mem.wf) : (g.out s).Wf := by
  cases g with
  | ok t => exact hg t rfl
  | wait => trivial
  | fault => exact h

/-! Folds and guards. -/

theorem foldl_fst_wf {α β : Type} {f : State × β → α → State × β} (hf : ∀ b a, b.1.mem.wf → (f b a).1.mem.wf) {b : State × β}
    (h : b.1.mem.wf) (l : List α) : (l.foldl f b).1.mem.wf :=
  List.foldlRecOn l f (motive := fun b : State × β => b.1.mem.wf) h fun b h a _ => hf b a h

theorem laneStep_wf {sem : LaneSem} (hs : KeepsLane sem) (e : Env) (lanes : List Lane) (b : State × Faults) (x : Lane)
    (h : b.1.mem.wf) : (laneStep sem e lanes b x).1.mem.wf := by
  have ho := hs e x (b.1.enter x) h
  unfold laneStep
  grind [Out.Wf, keepBack_mem, markDone_mem, markWait_mem]

theorem lanewise_keeps {sem : LaneSem} (hs : KeepsLane sem) : KeepsSlot (lanewise sem) := fun e _ _ h =>
  foldl_fst_wf (laneStep_wf hs e _) h _

theorem groupwise_keeps {sem : SlotSem} (hs : KeepsSlot sem) : KeepsSlot (groupwise sem) := by
  intro e xs s h
  refine foldl_fst_wf (fun b g hb => ?_) h _
  exact hs e g b.1 hb

theorem waitAll_wf (e : Env) (xs : List Lane) (w : Wait) {s : State} (h : s.mem.wf) : (waitAll e xs w s).mem.wf := by
  rwa [waitAll_mem]

theorem withEach_wf {α : Type} (e : Env) {s : State} (rs : List (Lane × Got α)) {k : List (Lane × α) → State → State × Faults}
    (h : s.mem.wf) (hk : ∀ ls s, s.mem.wf → (k ls s).1.mem.wf) : (withEach e s rs k).1.mem.wf := by
  unfold withEach
  dsimp only
  split
  · exact waitAll_wf e _ _ h
  · exact hk _ _ h

theorem ifUniform_wf {α : Type} [BEq α] (ls : List (Lane × α)) {s : State} {k : Lane → List Lane → α → State × Faults}
    (h : s.mem.wf) (hk : ∀ x xs v, (k x xs v).1.mem.wf) : (ifUniform ls s k).1.mem.wf := by
  unfold ifUniform
  split
  · exact h
  · split
    · exact hk _ _ _
    · exact h

theorem withGot_wf {α : Type} (e : Env) (lanes : List Lane) {s : State} {g : Got α} {k : α → State × Faults}
    (h : s.mem.wf) (hk : ∀ a, g = .ok a → (k a).1.mem.wf) : (withGot e lanes s g k).1.mem.wf := by
  cases g with
  | ok a => exact hk a rfl
  | wait w => exact waitAll_wf e lanes w h
  | fault => exact h

theorem performAll_wf (e : Env) (lanes : List Lane) {s : State} {f : Lane → State → State} (hf : ∀ x s, s.mem.wf → (f x s).mem.wf)
    (h : s.mem.wf) : (performAll e lanes s f).mem.wf :=
  foldl_wf (fun s x h => by rw [markDone_mem]; exact hf x _ h) h _

theorem doneAll_wf (e : Env) (lanes : List Lane) {s : State} (h : s.mem.wf) : (doneAll e lanes s).mem.wf := by
  rwa [doneAll_mem]

theorem calcLane_keeps (g : Env → Lane → State → Src → Calc) : KeepsLane (calcLane g) := by
  intro e x s h
  unfold calcLane
  grind [Out.Wf, writeDst_mem, State.popAll_mem, State.setFlags_mem]

/-- An operation that computes for each lane by itself keeps memory canonical. -/
theorem calcSlot_keeps (g : Env → Lane → State → Src → Calc) : KeepsSlot (lanewise (calcLane g)) := lanewise_keeps
    (calcLane_keeps g)

theorem instanceOp_keeps {act : Env → Lane → List Lane → State → DWord × DWord → State × Faults}
    (ha : ∀ e x xs s v, s.mem.wf → (act e x xs s v).1.mem.wf) : KeepsSlot (instanceOp act) :=
  groupwise_keeps fun e _ _ h => withEach_wf e _ h fun _ _ h => ifUniform_wf _ h fun _ _ _ => ha _ _ _ _ _ h

theorem mintAll_wf (e : Env) (room : Bool) (lack : Nat) (ms : List (Lane × Mint)) (n : Nat) {s : State} (h : s.mem.wf) :
    (mintAll e room lack ms n s).1.mem.wf := by rwa [mintAll_mem]

theorem minting_keeps (prep : Env → Lane → State → Got Mint) : KeepsSlot (minting prep) := by
  refine groupwise_keeps fun e _ _ h => withEach_wf e _ h fun ms s h => ?_
  split
  · exact h
  · dsimp only
    split
    · exact mintAll_wf e _ _ _ _ h
    · exact mintAll_wf e _ _ _ _ h

theorem engIssue_keeps {en : Engine} {make : Env → Lane → State → DWord × DWord → Got (EngOp × State)}
    (hm : ∀ e x s v r, s.mem.wf → make e x s v = .ok r → r.2.mem.wf) : KeepsSlot (engIssue en make) := by
  refine instanceOp_keeps fun e x xs s v h => withGot_wf e xs h fun r hr => ?_
  obtain ⟨_, -, hr⟩ := Got.bind_eq_ok.mp hr
  exact doneAll_wf e xs (by rw [State.enqueue_mem]; exact hm _ _ _ _ _ h hr)

theorem graphOp_keeps {act : Env → Lane → State → DWord → Got (DWord × State)}
    (ha : ∀ e x s v r, s.mem.wf → act e x s v = .ok r → r.2.mem.wf) : KeepsSlot (graphOp act) := by
  refine instanceOp_keeps fun e x xs s v h => withGot_wf e xs h fun r hr => ?_
  obtain ⟨u, hu, hr⟩ := Got.bind_eq_ok.mp hr
  obtain ⟨_, -, hr⟩ := Got.bind_eq_ok.mp hr
  exact performAll_wf e xs (fun x s h => by rwa [writeDst_mem]) (ha _ _ _ _ _ (graphRelease_wf h hu) hr)

theorem collective_keeps (opc : BitVec 8) : KeepsSlot (collective opc) := by
  refine groupwise_keeps fun e xs s h => ?_
  dsimp only
  rw [State.completeHere_mem]
  refine withEach_wf e _ ?_ fun ls s h => ifUniform_wf _ h fun x xs v => by rwa [arriveAll_mem]
  rw [roomFirst_mem]
  refine foldl_fst_wf (fun b x hb => ?_) h _
  exact (State.receiveHeld_mem b.1 e x).symm ▸ hb

theorem semBarrier_keeps (k : BarKind) : KeepsSlot (semBarrier k) := fun e _ _ h => by
  refine foldl_fst_wf (fun b x hb => ?_) h _
  dsimp only
  split
  · exact hb
  · split
    · next e1 => exact arriveBar_wf hb e1
    · rwa [markWait_mem]
    · exact hb

theorem semIcinv_keeps : KeepsSlot semIcinv := fun e _ _ h => by
  refine foldl_fst_wf (fun b x hb => ?_) h _
  dsimp only
  split
  · exact hb
  · split
    · next e1 => rw [markWait_mem]; exact icinvLane_wf hb e1
    · rwa [markWait_mem]
    · exact hb

theorem semRetTrap_keeps : KeepsSlot semRetTrap := fun e _ _ h => by
  refine foldl_fst_wf (fun b x hb => ?_) h _
  dsimp only
  split
  · rwa [markWait_mem]
  · exact hb
  · next e1 => rw [State.count_mem, State.returnTrap_mem]; exact returnCheck_wf hb e1

theorem anyOrder_keeps {sem : Reads → LaneSem} (hs : ∀ r, KeepsLane (sem r)) : KeepsSlot (anyOrder sem) := by
  intro e xs s h
  unfold anyOrder
  have hp := lanewise_keeps (hs readSrcs) e xs s h
  dsimp only
  split
  · exact hp
  split
  · exact hp
  · refine foldl_fst_wf (laneStep_wf (hs readSrcs) e _) ?_ _
    exact foldl_fst_wf (laneStep_wf (hs _) e _) (by simpa using h) _

theorem redOrder_keeps {sem : Reads → LaneSem} (hs : ∀ r, KeepsLane (sem r)) : KeepsSlot (redOrder sem) := by
  intro e xs s h
  unfold redOrder
  split
  · exact anyOrder_keeps hs e xs s h
  · exact lanewise_keeps (hs _) e xs s h

theorem objectRmw_wf {x : Lane} {s : State} {spc : Bool} {a : Nat} {owner : Bool} {g : Nat → Nat} {r} (h : s.mem.wf)
    (e : objectRmw x s spc a owner g = .ok r) : r.2.2.mem.wf := by
  unfold objectRmw at e
  split at e
  · obtain ⟨_, -, e⟩ := Got.bind_eq_ok.mp e
    obtain ⟨_, -, e⟩ := Got.bind_eq_ok.mp e
    cases e
    dsimp only
    split
    · exact h
    · rwa [State.scratchWrite_mem]
  · obtain ⟨_, -, e⟩ := Got.bind_eq_ok.mp e
    obtain ⟨_, -, e⟩ := Got.bind_eq_ok.mp e
    obtain ⟨_, -, e⟩ := Got.bind_eq_ok.mp e
    obtain ⟨w, hw, e⟩ := Got.bind_eq_ok.mp e
    have hw := State.atomicAt_wf h (Got.ofOption_eq_ok.mp hw)
    cases e
    rwa [State.counted_mem]

theorem loadGlobal_keeps (const : Bool) : KeepsLane (loadGlobal const) := fun e x s h => by
  refine Got.out_wf h fun t ht => ?_
  grind [Got.bind_eq_ok, Got.ofOption_eq_ok, Out.Wf, !Got.out_wf, State.counted_mem, State.issueLoad_mem, → State.laneLoad_wf]

theorem loadScratch_keeps : KeepsLane loadScratch := fun e x s h => by
  refine Got.out_wf h fun t ht => ?_
  grind [Got.bind_eq_ok, Got.ofOption_eq_ok, Out.Wf, !Got.out_wf, State.issueLoad_mem]

theorem loadCluster_keeps : KeepsLane loadCluster := fun e x s h => by
  refine Got.out_wf h fun t ht => ?_
  grind [Got.bind_eq_ok, Got.ofOption_eq_ok, Out.Wf, !Got.out_wf, State.hear_mem, State.issueLoad_mem]

theorem loadAperture_keeps : KeepsLane loadAperture := fun e x s h => by
  refine Got.out_wf h fun t ht => ?_
  grind [Got.bind_eq_ok, Got.ofOption_eq_ok, Out.Wf, !Got.out_wf, writeDst_mem]

theorem storeGlobal_keeps : KeepsLane storeGlobal := fun e x s h => by
  refine Got.out_wf h fun t ht => ?_
  simp only [Got.bind_eq_ok] at ht
  grind [Got.bind_eq_ok, Got.ofOption_eq_ok, Out.Wf, !Got.out_wf, State.counted_mem, State.issueStore_mem, State.popAll_mem,
    → State.laneStore_wf]

theorem storeScratch_keeps : KeepsLane storeScratch := fun e x s h => by
  refine Got.out_wf h fun t ht => ?_
  grind [Got.bind_eq_ok, Got.ofOption_eq_ok, Out.Wf, !Got.out_wf, State.issueStore_mem, State.popAll_mem, State.scratchWrite_mem]

theorem storeCluster_keeps : KeepsLane storeCluster := fun e x s h => by
  refine Got.out_wf h fun t ht => ?_
  grind [Got.bind_eq_ok, Got.ofOption_eq_ok, Out.Wf, !Got.out_wf, State.hear_mem, State.issueStore_mem, State.popAll_mem,
    State.scratchWrite_mem]

theorem storeAperture_keeps : KeepsLane storeAperture := fun e x s h => by
  refine Got.out_wf h fun t ht => ?_
  grind [Got.bind_eq_ok, Got.ofOption_eq_ok, Out.Wf, !Got.out_wf, State.popAll_mem, writeWords_mem]

theorem atomGlobal_keeps (reads : Reads) : KeepsLane (atomGlobal reads) := fun e x s h => by
  refine Got.out_wf h fun t ht => ?_
  simp only [Got.bind_eq_ok] at ht
  grind [Got.bind_eq_ok, Got.ofOption_eq_ok, Out.Wf, !Got.out_wf, State.afterOrdered_mem, State.counted_mem, State.issueLoad_mem,
    State.popAll_mem, → State.acquire_wf, → State.atomicAt_wf, → State.release_wf]

theorem atomScratch_keeps (reads : Reads) : KeepsLane (atomScratch reads) := fun e x s h => by
  refine Got.out_wf h fun t ht => ?_
  grind [Got.bind_eq_ok, Got.ofOption_eq_ok, Out.Wf, !Got.out_wf, State.issueLoad_mem, State.popAll_mem, State.scratchWrite_mem,
    → State.acquire_wf, → State.release_wf]

theorem redGlobal_keeps (reads : Reads) : KeepsLane (redGlobal reads) := fun e x s h => by
  refine Got.out_wf h fun t ht => ?_
  simp only [Got.bind_eq_ok] at ht
  grind [Got.bind_eq_ok, Got.ofOption_eq_ok, Out.Wf, !Got.out_wf, State.counted_mem, State.issueStore_mem, State.popAll_mem,
    → State.atomicAt_wf, → State.release_wf, → holdRed_wf]

theorem redScratch_keeps (reads : Reads) : KeepsLane (redScratch reads) := fun e x s h => by
  refine Got.out_wf h fun t ht => ?_
  grind [Got.bind_eq_ok, Got.ofOption_eq_ok, Out.Wf, !Got.out_wf, State.issueStore_mem, State.popAll_mem, State.scratchWrite_mem,
    → State.release_wf, → holdRed_wf]

theorem waitLane_keeps : KeepsLane waitLane := fun e x s h => by
  refine Got.out_wf h fun t ht => ?_
  grind [Got.bind_eq_ok, Got.ofOption_eq_ok, Out.Wf, !Got.out_wf, State.seesCount_mem]

theorem fgetLane_keeps (peek : Bool) : KeepsLane (fgetLane peek) := fun e x s h => by
  refine Got.out_wf h fun t ht => ?_
  grind [Got.bind_eq_ok, Got.ofOption_eq_ok, Out.Wf, !Got.out_wf, State.hears_mem, State.scratchWrite_mem, writeDst_mem]

theorem mtsAstat_keeps : KeepsLane mtsAstat := fun e x s h => by
  refine Got.out_wf h fun t ht => ?_
  grind [Got.bind_eq_ok, Got.ofOption_eq_ok, Out.Wf, !Got.out_wf, State.modThread_mem]

theorem semPref_keeps : KeepsSlot semPref := lanewise_keeps fun e x s h => by
  refine Got.out_wf h fun t ht => ?_
  grind [Got.bind_eq_ok, Got.ofOption_eq_ok, Out.Wf, !Got.out_wf, lanewise_keeps]

theorem semAld_keeps : KeepsSlot semAld := lanewise_keeps fun e x s h => by
  refine Got.out_wf h fun t ht => ?_
  grind [Got.bind_eq_ok, Got.ofOption_eq_ok, Out.Wf, !Got.out_wf, State.counted_mem, State.issueLoad_mem, lanewise_keeps,
    → readRange_wf]

theorem semAst_keeps : KeepsSlot semAst := lanewise_keeps fun e x s h => by
  refine Got.out_wf h fun t ht => ?_
  grind [Got.bind_eq_ok, Got.ofOption_eq_ok, Out.Wf, !Got.out_wf, State.counted_mem, State.issueStore_mem, State.scratchWrite_mem,
    lanewise_keeps, → writeRange_wf]

theorem semFenceAcq_keeps : KeepsSlot semFenceAcq := lanewise_keeps fun e x s h => by
  refine Got.out_wf h fun t ht => ?_
  grind [Got.bind_eq_ok, Got.ofOption_eq_ok, Out.Wf, !Got.out_wf, lanewise_keeps, → acqLane_wf]

theorem semFenceRel_keeps : KeepsSlot semFenceRel := lanewise_keeps fun e x s h => by
  refine Got.out_wf h fun t ht => ?_
  grind [Got.bind_eq_ok, Got.ofOption_eq_ok, Out.Wf, !Got.out_wf, lanewise_keeps, → relLane_wf]

theorem semFenceAr_keeps : KeepsSlot semFenceAr := lanewise_keeps fun e x s h => by
  refine Got.out_wf h fun t ht => ?_
  grind [Got.bind_eq_ok, Got.ofOption_eq_ok, Out.Wf, !Got.out_wf, lanewise_keeps, → acqLane_wf, → relLane_wf]

theorem semYield_keeps : KeepsSlot semYield := lanewise_keeps fun _ _ _ h => h

theorem semFput_keeps : KeepsSlot semFput := lanewise_keeps fun e x s h => by
  refine Got.out_wf h fun t ht => ?_
  grind [Got.bind_eq_ok, Got.ofOption_eq_ok, Out.Wf, !Got.out_wf, State.popAll_mem, lanewise_keeps, → futurePut_mem]

theorem semRet_keeps : KeepsSlot semRet := lanewise_keeps fun e x s h => by
  refine Got.out_wf h fun t ht => ?_
  grind [Got.bind_eq_ok, Got.ofOption_eq_ok, Out.Wf, !Got.out_wf, State.jump_mem, lanewise_keeps]

theorem semJmpi_keeps : KeepsSlot semJmpi := lanewise_keeps fun e x s h => by
  refine Got.out_wf h fun t ht => ?_
  grind [Got.bind_eq_ok, Got.ofOption_eq_ok, Out.Wf, !Got.out_wf, State.jump_mem, lanewise_keeps]

theorem semFar_keeps : KeepsSlot semFar := lanewise_keeps fun e x s h => by
  refine Got.out_wf h fun t ht => ?_
  grind [Got.bind_eq_ok, Got.ofOption_eq_ok, Out.Wf, !Got.out_wf, State.jump_mem, lanewise_keeps]

theorem semFarIndirect_keeps : KeepsSlot semFarIndirect := lanewise_keeps fun e x s h => by
  refine Got.out_wf h fun t ht => ?_
  grind [Got.bind_eq_ok, Got.ofOption_eq_ok, Out.Wf, !Got.out_wf, State.jump_mem, lanewise_keeps]

theorem semRegion_keeps : KeepsSlot semRegion := lanewise_keeps fun e x s h => by
  refine Got.out_wf h fun t ht => ?_
  grind [Got.bind_eq_ok, Got.ofOption_eq_ok, Out.Wf, !Got.out_wf, State.enterRegion_mem, lanewise_keeps]

theorem semRegionIndirect_keeps : KeepsSlot semRegionIndirect := lanewise_keeps fun e x s h => by
  refine Got.out_wf h fun t ht => ?_
  grind [Got.bind_eq_ok, Got.ofOption_eq_ok, Out.Wf, !Got.out_wf, State.enterRegion_mem, lanewise_keeps]

theorem semTrap_keeps : KeepsSlot semTrap := lanewise_keeps fun _ _ _ h => h
theorem semBrk_keeps : KeepsSlot semBrk := lanewise_keeps fun _ _ _ h => h
theorem semNop_keeps : KeepsSlot semNop := lanewise_keeps fun _ _ _ h => h

theorem semLmsg_keeps : KeepsSlot semLmsg := lanewise_keeps fun e x s h => by
  refine Got.out_wf h fun t ht => ?_
  grind [Got.bind_eq_ok, Got.ofOption_eq_ok, Out.Wf, !Got.out_wf, State.counted_mem, State.owe_mem, State.sendMessage_mem,
    State.sendReply_mem, lanewise_keeps]

theorem semPmovFromReg_keeps : KeepsSlot semPmovFromReg := lanewise_keeps fun e x s h => by
  refine Got.out_wf h fun t ht => ?_
  grind [Got.bind_eq_ok, Got.ofOption_eq_ok, Out.Wf, !Got.out_wf, State.modThread_mem, lanewise_keeps]

theorem waitbarLane_keeps : KeepsLane waitbarLane := fun e x s h => by
  refine Got.out_wf h fun t ht => ?_
  obtain ⟨_, -, ht⟩ := Got.bind_eq_ok.mp ht
  obtain ⟨_, -, ht⟩ := Got.bind_eq_ok.mp ht
  obtain ⟨r, hr, ht⟩ := Got.bind_eq_ok.mp ht
  have hr := objectRmw_wf h hr
  grind [→ acqLane_wf, State.seesBar_mem]

theorem semArrive_keeps : KeepsSlot semArrive := lanewise_keeps fun e x s h => by
  refine Got.out_wf h fun t ht => ?_
  obtain ⟨_, -, ht⟩ := Got.bind_eq_ok.mp ht
  obtain ⟨_, -, ht⟩ := Got.bind_eq_ok.mp ht
  obtain ⟨u, hu, ht⟩ := Got.bind_eq_ok.mp ht
  obtain ⟨r, hr, ht⟩ := Got.bind_eq_ok.mp ht
  have hr := objectRmw_wf (relLane_wf h hu) hr
  grind [State.issueLoad_mem]

theorem semMfs_keeps : KeepsSlot semMfs := lanewise_keeps fun e x s h => by
  have hc := calcLane_keeps (fun e x s _ => { val := BitVec.ofNat 64 (special e x s) }) e x s h
  grind [Out.Wf]

theorem callTo_wf (e : Env) (x : Lane) {s : State} (a : Got Addr) (h : s.mem.wf) : (callTo e x s a).Wf := by
  refine Got.out_wf h fun t ht => ?_
  obtain ⟨u, -, ht⟩ := Got.bind_eq_ok.mp ht
  cases ht
  rwa [State.jump_mem, writeDst_mem]

theorem semCall_keeps : KeepsSlot semCall := lanewise_keeps fun e x _ h => callTo_wf e x (goodTarget e.relative) h
theorem semCallIndirect_keeps : KeepsSlot semCallIndirect := lanewise_keeps fun e x s h => callTo_wf e x (pairTarget e x s) h
theorem semAsetMint_keeps : KeepsSlot semAsetMint := minting_keeps _
theorem semAmul_keeps : KeepsSlot semAmul := minting_keeps _
theorem semAsqr_keeps : KeepsSlot semAsqr := minting_keeps _
theorem semArcp_keeps : KeepsSlot semArcp := minting_keeps _
theorem semAsqrt_keeps : KeepsSlot semAsqrt := minting_keeps _
theorem semAcond_keeps : KeepsSlot semAcond := minting_keeps _

theorem affLane_keeps (g : Env → Lane → State → Got AffReg) : KeepsSlot (affLane g) := lanewise_keeps fun e x s h => by
  refine Got.out_wf h fun t ht => ?_
  obtain ⟨u, -, ht⟩ := Got.bind_eq_ok.mp ht
  cases ht
  exact h

theorem affOut_keeps (g : AffReg → Nat) : KeepsSlot (affOut g) := lanewise_keeps fun e x s h => by
  refine Got.out_wf h fun t ht => ?_
  obtain ⟨u, -, ht⟩ := Got.bind_eq_ok.mp ht
  cases ht
  rwa [writeDst_mem]

theorem semFmset_keeps : KeepsSlot semFmset := groupwise_keeps fun e _ _ h =>
  withEach_wf e _ h fun _ _ h => ifUniform_wf _ h fun _ _ _ => by
    split
    · exact h
    · exact doneAll_wf e _ h

theorem semCbind_keeps : KeepsSlot semCbind := groupwise_keeps fun e _ _ h =>
  withEach_wf e _ h fun _ _ h => ifUniform_wf _ h fun _ _ _ => by
    split
    · exact h
    · exact doneAll_wf e _ (by rwa [State.bindChan_mem])

theorem semWait_keeps : KeepsSlot semWait := groupwise_keeps fun e xs s h => by
  have hw := lanewise_keeps waitLane_keeps e xs s h
  grind [State.modGroup_mem]

theorem semWaitbar_keeps : KeepsSlot semWaitbar := groupwise_keeps fun e xs s h => by
  have hw := lanewise_keeps waitbarLane_keeps e xs s h
  grind [State.modGroup_mem]

theorem mtsGroup_wf (e : Env) (xs : List Lane) {s : State} (h : s.mem.wf) : (mtsGroup e xs s).1.mem.wf :=
  withEach_wf e _ h fun _ _ h => ifUniform_wf _ h fun _ _ _ => doneAll_wf e _ h

theorem semMts_keeps : KeepsSlot semMts := fun e xs s h => by
  unfold semMts
  split
  · exact lanewise_keeps mtsAstat_keeps e xs s h
  · exact groupwise_keeps (fun e xs s h => mtsGroup_wf e xs h) e xs s h

theorem semAsym_keeps : KeepsSlot semAsym := instanceOp_keeps fun e x xs s v h => by
  refine withGot_wf e xs h fun r hr => doneAll_wf e xs ?_
  obtain ⟨_, -, hr⟩ := Got.bind_eq_ok.mp hr
  obtain ⟨_, -, hr⟩ := Got.bind_eq_ok.mp hr
  obtain ⟨_, -, hr⟩ := Got.bind_eq_ok.mp hr
  obtain ⟨w, hw, hr⟩ := Got.bind_eq_ok.mp hr
  have hw := State.atomicAt_wf h (Got.ofOption_eq_ok.mp hw)
  grind [State.counted_mem, State.modGroup_mem]

theorem semMma_keeps : KeepsSlot semMma := engIssue_keeps fun e x s v r h hr => by
  obtain ⟨_, -, hr⟩ := Got.bind_eq_ok.mp hr
  obtain ⟨_, -, hr⟩ := Got.bind_eq_ok.mp hr
  obtain ⟨w, hw, hr⟩ := Got.bind_eq_ok.mp hr
  have hw := captureTag_wf h hw
  cases hr
  exact hw

theorem semMmv_keeps : KeepsSlot semMmv := engIssue_keeps fun e x s v r h hr => by
  obtain ⟨_, -, hr⟩ := Got.bind_eq_ok.mp hr
  obtain ⟨_, -, hr⟩ := Got.bind_eq_ok.mp hr
  obtain ⟨w, hw, hr⟩ := Got.bind_eq_ok.mp hr
  have hw := captureTag_wf h hw
  cases hr
  exact hw

theorem semMqrun_keeps : KeepsSlot semMqrun := engIssue_keeps fun e x s v r h hr => by
  obtain ⟨_, -, hr⟩ := Got.bind_eq_ok.mp hr
  cases hr
  exact h

theorem tileOp_keeps (kind : EngKind) (tile : Env → Nat) : KeepsSlot (tileOp kind tile) := engIssue_keeps fun e x s v r h hr => by
  obtain ⟨_, -, hr⟩ := Got.bind_eq_ok.mp hr
  cases hr
  exact h

theorem pourOp_keeps (out : Bool) : KeepsSlot (pourOp out) := engIssue_keeps fun e x s v r h hr => by
  obtain ⟨_, -, hr⟩ := Got.bind_eq_ok.mp hr
  obtain ⟨_, -, hr⟩ := Got.bind_eq_ok.mp hr
  obtain ⟨w, hw, hr⟩ := Got.bind_eq_ok.mp hr
  have hw := captureTag_wf h hw
  cases hr
  exact hw

theorem semTspawn_keeps : KeepsSlot semTspawn := graphOp_keeps fun e x s v r h hr => by
  obtain ⟨_, -, hr⟩ := Got.bind_eq_ok.mp hr
  obtain ⟨_, -, hr⟩ := Got.bind_eq_ok.mp hr
  obtain ⟨w, hw, hr⟩ := Got.bind_eq_ok.mp hr
  obtain ⟨_, -, hr⟩ := Got.bind_eq_ok.mp hr
  obtain ⟨_, -, hr⟩ := Got.bind_eq_ok.mp hr
  obtain ⟨u, hu, hr⟩ := Got.bind_eq_ok.mp hr
  obtain ⟨_, -, hr⟩ := Got.bind_eq_ok.mp hr
  obtain ⟨_, -, hr⟩ := Got.bind_eq_ok.mp hr
  have hu := recordRegions_wf (readRecord_wf (by rwa [State.counted_mem]) hw) hu
  cases hr
  exact hu

theorem semGnode_keeps : KeepsSlot semGnode := graphOp_keeps fun e x s v r h hr => by
  obtain ⟨_, -, hr⟩ := Got.bind_eq_ok.mp hr
  obtain ⟨_, -, hr⟩ := Got.bind_eq_ok.mp hr
  obtain ⟨w, hw, hr⟩ := Got.bind_eq_ok.mp hr
  have hw := State.atomicAt_wf h (Got.ofOption_eq_ok.mp hw)
  grind [State.counted_mem, State.modPart_mem]

theorem semFsopen_keeps : KeepsSlot semFsopen := graphOp_keeps fun e x s v r h hr => by
  obtain ⟨_, -, hr⟩ := Got.bind_eq_ok.mp hr
  split at hr
  · cases hr
  · cases hr
    exact h

theorem semFsclose_keeps : KeepsSlot semFsclose := graphOp_keeps fun e x s v r h hr => by
  obtain ⟨_, -, hr⟩ := Got.bind_eq_ok.mp hr
  cases hr
  exact h

theorem semFswait_keeps : KeepsSlot semFswait := graphOp_keeps fun e x s v r h hr => by
  obtain ⟨_, -, hr⟩ := Got.bind_eq_ok.mp hr
  obtain ⟨_, -, hr⟩ := Got.bind_eq_ok.mp hr
  obtain ⟨u, hu, hr⟩ := Got.bind_eq_ok.mp hr
  have hu := State.rejoin_wf h hu
  cases hr
  exact hu

theorem semOf_keeps (i : Instr) : KeepsSlot (semOf i) := by
  cases i with
  | add | sub | mulLo | mulHi | mad | div | rem | min | max | abs | and | or | xor | andn | not | mov | shl | shr | sar | rot | bfe | bfi
  | popc | clz | ctz | brev | sel | movi | lea | cmp | fcmp | pand | por | pxor | pnot | pmov | pmovToReg | fadd | fsub | fmul | ffma |
  fmin | fmax | fdiv | fsqrt | frcpAp | frsqrtAp | fsinAp | fcosAp | fexp2Ap | flog2Ap | hadd2 | hmul2 | hfma2 | faddF64 | fsubF64 |
  fmulF64 | ffmaF64 | fminF64 | fmaxF64 | fdivF64 | fsqrtF64 | frcpApF64 | frsqrtApF64 | cvt | fmget | addImm | subImm | mulLoImm | andImm
  | orImm | xorImm | shlImm | shrImm | sarImm | minImm | maxImm | faddImm | fmulImm => exact calcSlot_keeps _
  | pmovFromReg => exact semPmovFromReg_keeps
  | fmset => exact semFmset_keeps
  | shflIdx | shflUp | shflDown | shflXor | voteAll | voteAny | ballot | redux | scan | elect | ashfl | aredd => exact collective_keeps _
  | ldG | ldC => exact lanewise_keeps (loadGlobal_keeps _)
  | ldS => exact lanewise_keeps loadScratch_keeps
  | ldR => exact lanewise_keeps loadAperture_keeps
  | ldx => exact lanewise_keeps loadCluster_keeps
  | pref => exact semPref_keeps
  | stG => exact lanewise_keeps storeGlobal_keeps
  | stS => exact lanewise_keeps storeScratch_keeps
  | stR => exact lanewise_keeps storeAperture_keeps
  | stx => exact lanewise_keeps storeCluster_keeps
  | atomG => exact anyOrder_keeps atomGlobal_keeps
  | atomS => exact anyOrder_keeps atomScratch_keeps
  | redG => exact redOrder_keeps redGlobal_keeps
  | redS => exact redOrder_keeps redScratch_keeps
  | fenceAcq => exact semFenceAcq_keeps
  | fenceRel => exact semFenceRel_keeps
  | fenceAr => exact semFenceAr_keeps
  | wait => exact semWait_keeps
  | bar | barClu | barGrid => exact semBarrier_keeps _
  | arrive => exact semArrive_keeps
  | waitbar => exact semWaitbar_keeps
  | yield => exact semYield_keeps
  | cbind => exact semCbind_keeps
  | fput => exact semFput_keeps
  | fget | fgetPeek => exact lanewise_keeps (fgetLane_keeps _)
  | mma => exact semMma_keeps
  | mmv => exact semMmv_keeps
  | mqrun => exact semMqrun_keeps
  | accz | accld | accst => exact tileOp_keeps _ _
  | pour | pourOut => exact pourOp_keeps _
  | tspawn => exact semTspawn_keeps
  | gnode => exact semGnode_keeps
  | fsopen => exact semFsopen_keeps
  | fsclose => exact semFsclose_keeps
  | fswait => exact semFswait_keeps
  | lmsg => exact semLmsg_keeps
  | asym => exact semAsym_keeps
  | aset | asetSym | amov | aadd | asub | aneg | ascl | aaddc => exact affLane_keeps _
  | asetMint => exact semAsetMint_keeps
  | amul => exact semAmul_keeps
  | asqr => exact semAsqr_keeps
  | arcp => exact semArcp_keeps
  | asqrt => exact semAsqrt_keeps
  | acond => exact semAcond_keeps
  | ald => exact semAld_keeps
  | ast => exact semAst_keeps
  | acent | arad | alo | ahi => exact affOut_keeps _
  | call => exact semCall_keeps
  | callIndirect => exact semCallIndirect_keeps
  | ret => exact semRet_keeps
  | retTrap => exact semRetTrap_keeps
  | jmpi => exact semJmpi_keeps
  | far => exact semFar_keeps
  | farIndirect => exact semFarIndirect_keeps
  | region => exact semRegion_keeps
  | regionIndirect => exact semRegionIndirect_keeps
  | trap => exact semTrap_keeps
  | brk => exact semBrk_keeps
  | mfs => exact semMfs_keeps
  | mts => exact semMts_keeps
  | icinv => exact semIcinv_keeps
  | nop => exact semNop_keeps
  | _ => exact fun _ _ _ h => h

/-- Every operation of an instruction's body keeps memory canonical. -/
def Body.Keeps (b : Body) : Prop := ∀ r ∈ b.slots, KeepsSlot r.sem

theorem runSlots_wf (c : Ctx) (hd : Option TreeHeader) (rep : Bool) (lanes : List Lane) {rs : List SlotRun}
    (hr : ∀ r ∈ rs, KeepsSlot r.sem) (n : Nat) {s : State} (h : s.mem.wf) : (runSlots c hd rep lanes rs n s).1.mem.wf := by
  induction rs generalizing n s with
  | nil => exact h
  | cons r rs ih =>
    obtain ⟨hs, hrs⟩ := List.forall_mem_cons.mp hr
    unfold runSlots
    extract_lets level e here s1 on s2
    split
    · rwa [State.haltAll_mem]
    have h1 : s1.mem.wf := by
      dsimp only [s1]
      split
      · exact h
      · refine foldl_wf (fun s x h => ?_) h _
        exact h
    have h2 : s2.mem.wf := foldl_wf (fun s x h => by split <;> exact h) h1 _
    split
    · exact ih hrs _ h2
    have h3 := hs { e with pre := s2 } on s2 h2
    grind [State.haltAll_mem, commitUniform_mem]

theorem State.issueWave_wf {s : State} (c : Nat) (w : Wave) (i : Instr) {b : Body} (hb : b.Keeps) (h : s.mem.wf) :
    (s.issueWave c w i b).mem.wf := by
  unfold State.issueWave
  extract_lets pc fresh preq x lanes s1 here ds before
  have h1 : s1.mem.wf := by
    dsimp only [s1]
    split
    · rwa [State.takeTimers_mem, State.count_mem, State.count_mem]
    · exact h
  have h2 := runSlots_wf x b.header b.rep here hb 0 (s := s1.haltAll (ds.map (·.lane))) (by rwa [State.haltAll_mem])
  dsimp only
  split
  · rwa [State.stallWave_mem, State.takeNotes_mem]
  · rwa [State.completeWave_mem, State.takeNotes_mem]

theorem issue_wf {i : Instr} {b : Nat → Body} {s t : State} (hb : ∀ n, (b n).Keeps) (h : s.mem.wf) (e : issue i b s = .next t) :
    t.mem.wf := by
  unfold issue at e
  split at e
  · cases e
  · split at e
    · cases e
    · cases e
      exact State.issueWave_wf _ _ i (hb _) h

theorem issueOp_wf {i : Instr} {f : OpF} {sem : SlotSem} {s t : State} (hs : KeepsSlot sem) (h : s.mem.wf)
    (e : issueOp i f sem s = .next t) : t.mem.wf :=
  issue_wf (fun _ _ hr => by rw [List.mem_singleton.mp hr]; exact hs) h e

theorem treeRun_keeps (t : TreeSlot) : KeepsSlot (treeRun t).sem := by
  unfold treeRun
  split <;> exact semOf_keeps _

theorem treeBody_keeps (hd : TreeHeader) (slots : List TreeSlot) : (treeBody hd slots).Keeps := by
  intro r hr
  obtain ⟨t, -, rfl⟩ := List.mem_map.mp hr
  exact treeRun_keeps t

theorem repRun_keeps (nG : Nat) (p : RepPrefix) (i : Instr) (f : OpF) (n : Nat) : KeepsSlot (repRun nG p i f n).sem := by
  unfold repRun
  split <;> exact semOf_keeps _

theorem repBody_keeps (p : RepPrefix) (opc : BitVec 8) (f : OpF) (nG : Nat) : (repBody p opc f nG).Keeps := by
  unfold repBody
  split
  · intro r hr; cases hr
  · intro r hr
    obtain ⟨n, -, rfl⟩ := List.mem_map.mp hr
    exact repRun_keeps nG p _ f n

theorem semMoviLong_keeps : KeepsSlot semMoviLong := calcSlot_keeps _

theorem longBody_keeps (opc : BitVec 8) (f : OpF) (imm : DWord) : (longBody opc f imm).Keeps := by
  unfold longBody
  split
  · intro r hr
    rw [List.mem_singleton.mp hr]
    exact semOf_keeps _
  · intro r hr; cases hr

theorem bodyOf_keeps (i : Instr) (nG : Nat) : (bodyOf i nG).Keeps := by
  unfold bodyOf
  split
  · exact treeBody_keeps _ _
  · exact repBody_keeps _ _ _ _
  · intro r hr
    rw [List.mem_singleton.mp hr]
    exact semMoviLong_keeps
  · exact longBody_keeps _ _ _
  · split
    · intro r hr
      rw [List.mem_singleton.mp hr]
      exact semOf_keeps _
    · intro r hr; cases hr

end Sys2Proof.Machine
end

section
/-!
PROOFS. The events keep memory canonical, each with its lemma.
-/
namespace Sys2Proof.Machine

theorem getD_wf {o : Option State} {s : State} (h : s.mem.wf) (ho : ∀ t, o = some t → t.mem.wf) : (o.getD s).mem.wf := by
  cases o with
  | none => exact h
  | some t => exact ho t rfl

theorem stepOf_eq_next {o : Option State} {t : State} : stepOf o = .next t ↔ o = some t := by
  cases o <;> simp [stepOf]

/-! Functions of Machine/Memory. -/

theorem execTranslationWalk_wf {c : Nat} {va : Addr} {a : Access} {s t : State} (h : s.mem.wf)
    (e : execTranslationWalk c va a s = .next t) : t.mem.wf := by
  unfold execTranslationWalk at e
  split at e
  · cases e
  · dsimp only at e
    split at e
    · cases e
    · next hw =>
      cases e
      refine foldl_wf (fun s b h => ?_) (State.walkFor_wf h hw) _
      exact getD_wf h fun t ht => State.walkFor_wf h ht

/-! Functions of Machine/Sync. -/

theorem execPavaneReleaseStep_wf {fl : Nat} {s t : State} (h : s.mem.wf) (e : execPavaneReleaseStep fl s = .next t) : t.mem.wf := by
  unfold execPavaneReleaseStep at e
  dsimp only at e
  split at e
  · cases e
  · split at e
    · cases e
    · next hd =>
      cases e
      rw [State.modFlask_mem]
      exact foldl_bind_wf (fun _ _ _ h e => State.depart_wf h e) h hd

/-! Functions of Machine/Ladle. -/

theorem execLadleMiss_wf {sl line : Nat} {s t : State} (h : s.mem.wf) (e : execLadleMiss sl line s = .next t) : t.mem.wf :=
  State.raiseLine_wf h (stepOf_eq_next.mp e)

theorem execLadleFill_wf {sl line : Nat} {s t : State} (h : s.mem.wf) (e : execLadleFill sl line s = .next t) : t.mem.wf :=
  State.raiseLine_wf h (stepOf_eq_next.mp e)

theorem execLadleEviction_wf {sl line : Nat} {s t : State} (h : s.mem.wf) (e : execLadleEviction sl line s = .next t) : t.mem.wf
    := by
  have e := stepOf_eq_next.mp e
  split at e
  · obtain ⟨u, hu, rfl⟩ := Option.map_eq_some_iff.mp e
    exact State.tryTrigger_wf _ _ _ _ (by rwa [State.evictLine_mem hu])
  · exact State.beginTrigger_wf h e

theorem execPrefLadle_wf {sl : Nat} {v : DWord} {s t : State} (h : s.mem.wf) (e : execPrefLadle sl v s = .next t) : t.mem.wf := by
  unfold execPrefLadle at e
  split at e
  · cases e
  next i hi =>
  have hw := State.ladleWalk_wf s i v.toNat (Need.of .read) h
  split at e
  · next hy =>
    rw [hy] at hw
    cases e
    split
    · exact getD_wf hw fun t ht => (State.touch_mem ht).symm ▸ hw
    · exact hw
  · next hy => rw [hy] at hw; cases e; exact hw
  · cases e; exact h

/-! Functions of Machine/Host. -/

theorem execHostSnoop_wf {line : Nat} {s t : State} (h : s.mem.wf) (e : execHostSnoop line s = .next t) : t.mem.wf := by
  unfold execHostSnoop at e
  split at e
  · exact State.snoop_wf h (stepOf_eq_next.mp e)
  · cases e

/-! Functions of Machine/Resume. -/

theorem State.attempt_wf {s : State} {w : Wave} {x : Lane} {r} (h : s.mem.wf) (e : s.attempt w x = some r) : r.1.mem.wf := by
  unfold State.attempt at e
  dsimp only at e
  split at e
  · split at e
    · cases e
    · next hr =>
      cases e
      exact bodyOf_keeps _ _ _ (List.mem_of_getElem? hr) _ _ _ h
  · cases e

/-! Functions of Machine/Collective. -/

theorem execCollectiveComplete_wf {c t g : Nat} {pc : Addr} {s : State} {u : State} (h : s.mem.wf)
    (e : execCollectiveComplete c t g pc s = .next u) : u.mem.wf := by
  unfold execCollectiveComplete at e
  grind [State.completeColl_mem]

theorem execCollTimeout_wf {c t g : Nat} {pc : Addr} {s : State} {u : State} (h : s.mem.wf)
    (e : execCollTimeout c t g pc s = .next u) : u.mem.wf := by
  unfold execCollTimeout at e
  grind [= Option.map_eq_some_iff, = Option.bind_eq_some_iff, State.exceptAll_mem, State.modGroup_mem, foldl_wf, foldl_mem]

/-! Functions of Machine/Memory. -/

theorem execLoadReply_wf {c t g l i : Nat} {s : State} {u : State} (h : s.mem.wf) (e : execLoadReply c t g l i s = .next u) :
    u.mem.wf := by
  unfold execLoadReply at e
  grind [State.modThread_mem, State.touchA_mem, State.wake_mem, foldl_wf, foldl_mem]

theorem execStoreAck_wf {c t g l i : Nat} {s : State} {u : State} (h : s.mem.wf) (e : execStoreAck c t g l i s = .next u) :
    u.mem.wf := by
  unfold execStoreAck at e
  grind [State.modThread_mem, State.settle_mem, State.wake_mem]

theorem execPeerSendAppend_wf {c t g l i : Nat} {s : State} {u : State} (h : s.mem.wf)
    (e : execPeerSendAppend c t g l i s = .next u) : u.mem.wf := by
  unfold execPeerSendAppend at e
  grind [State.hear_mem, State.modThread_mem, State.pushQueue_mem, State.settle_mem, State.wake_mem]

/-! Functions of Machine/Sync. -/

theorem execBarrierOpen_wf {c t : Nat} {k : BarKind} {s : State} {u : State} (h : s.mem.wf)
    (e : execBarrierOpen c t k s = .next u) : u.mem.wf := by
  unfold execBarrierOpen at e
  grind [= Option.map_eq_some_iff, = Option.bind_eq_some_iff, → State.flushBar_wf, State.modFlask_mem, State.modPos_mem,
    State.modTeam_mem, foldl_wf, foldl_mem]

theorem execBarTimeout_wf {c t : Nat} {k : BarKind} {s : State} {u : State} (h : s.mem.wf)
    (e : execBarTimeout c t k s = .next u) : u.mem.wf := by
  unfold execBarTimeout at e
  grind [= Option.map_eq_some_iff, = Option.bind_eq_some_iff, State.dropBar_mem, State.exceptAll_mem]

/-! Functions of Machine/Control. -/

theorem execIcinvComplete_wf {c t g l : Nat} {s : State} {u : State} (h : s.mem.wf) (e : execIcinvComplete c t g l s = .next u)
    : u.mem.wf := by
  unfold execIcinvComplete at e
  grind [= Option.map_eq_some_iff, = Option.bind_eq_some_iff, State.finishWait_mem, → State.settleCode_wf]

theorem execTimer_wf {c t g : Nat} {s : State} {u : State} (h : s.mem.wf) (e : execTimer c t g s = .next u) : u.mem.wf := by
  unfold execTimer at e
  grind [= Option.map_eq_some_iff, = Option.bind_eq_some_iff, State.modGroup_mem]

/-! Functions of Machine/Engine. -/

theorem execEngineOpStart_wf {c : Nat} {e : Engine} {n : Nat} {s : State} {t : State} (h : s.mem.wf)
    (e : execEngineOpStart c e n s = .next t) : t.mem.wf := by
  unfold execEngineOpStart at e
  grind [State.setHead_mem, engRun_wf]

theorem execMqrunBlock_wf {c : Nat} {s : State} {t : State} (h : s.mem.wf) (e : execMqrunBlock c s = .next t) : t.mem.wf := by
  unfold execMqrunBlock at e
  grind [State.engRecord_mem, State.engStick_mem, State.engStop_mem, State.modCore_mem, State.modQueue_mem, State.setHead_mem,
    !engRead_wf, EngIo.Wf]

theorem execEngineOpComplete_wf {c : Nat} {e : Engine} {s : State} {t : State} (h : s.mem.wf)
    (e : execEngineOpComplete c e s = .next t) : t.mem.wf := by
  unfold execEngineOpComplete at e
  grind [→ State.retireOp_wf, State.setHead_mem, State.signalCount_mem, !signalBar_wf, !signalFuture_wf, EngStep.Wf]

/-! Functions of Machine/Launch. -/

theorem execLaunchPacketRead_wf {p : Nat} {s : State} {t : State} (h : s.mem.wf) (e : execLaunchPacketRead p s = .next t) :
    t.mem.wf := by
  unfold execLaunchPacketRead at e
  grind [!State.checkPacket_wf, → State.complete_wf, State.modPart_mem, → State.readAt_wf, LaunchCheck.Wf]

theorem execLaunchPlace_wf {p : Nat} {s : State} {t : State} (h : s.mem.wf) (e : execLaunchPlace p s = .next t) : t.mem.wf := by
  unfold execLaunchPlace at e
  grind [= Option.map_eq_some_iff, = Option.bind_eq_some_iff, → State.complete_wf, !State.dispBytes_wf, → State.launchTeams_wf,
    State.modPart_mem, EngIo.Wf]

theorem execTaskLaunch_wf {p n k : Nat} {s : State} {t : State} (h : s.mem.wf) (e : execTaskLaunch p n k s = .next t) : t.mem.wf
    := by
  unfold execTaskLaunch at e
  dsimp only at e
  repeat' split at e
  all_goals grind [State.addSafe_mem, → State.buildExtents_wf, → State.joinPkg_wf, State.modCore_mem, State.modPart_mem,
    State.modTeam_mem]

theorem execCopyNodeDispatch_wf {p n c : Nat} {s : State} {t : State} (h : s.mem.wf)
    (e : execCopyNodeDispatch p n c s = .next t) : t.mem.wf := by
  unfold execCopyNodeDispatch at e
  dsimp only at e
  repeat' split at e
  all_goals grind [!State.copyTag_wf, → State.joinPkg_wf, State.modCore_mem, State.modPart_mem, EngIo.Wf]

theorem execNodeFinish_wf {p n : Nat} {s : State} {t : State} (h : s.mem.wf) (e : execNodeFinish p n s = .next t) : t.mem.wf := by
  unfold execNodeFinish at e
  grind [→ State.homeAll_wf, State.modPart_mem, → State.successors_wf, State.wakePart_mem]

theorem execScopeComplete_wf {p n : Nat} {s : State} {t : State} (h : s.mem.wf) (e : execScopeComplete p n s = .next t) :
    t.mem.wf := by
  unfold execScopeComplete at e
  grind [→ State.flush_wf, State.modPart_mem, State.wakePart_mem]

theorem execGridEnd_wf {p g : Nat} {s : State} {t : State} (h : s.mem.wf) (e : execGridEnd p g s = .next t) : t.mem.wf := by
  unfold execGridEnd at e
  dsimp only at e
  repeat' split at e
  all_goals grind [→ State.complete_wf, State.dropTeams_mem, → State.flush_wf, → State.homeAll_wf, State.modPart_mem,
    State.wakePart_mem]

/-! Functions of Machine/Ladle. -/

theorem execLmsgReply_wf {c t g l i : Nat} {s : State} {u : State} (h : s.mem.wf) (e : execLmsgReply c t g l i s = .next u) :
    u.mem.wf := by
  unfold execLmsgReply at e
  grind [State.modCore_mem, State.putReply_mem]

theorem execLadleMessage_wf {sl : Nat} {s : State} {t : State} (h : s.mem.wf) (e : execLadleMessage sl s = .next t) : t.mem.wf := by
  unfold execLadleMessage at e
  grind [→ State.beginTrigger_wf]

theorem execDone_wf {sl : Nat} {v : DWord} {s : State} {t : State} (h : s.mem.wf) (e : execDone sl v s = .next t) : t.mem.wf := by
  unfold execDone at e
  grind [State.answer_mem, State.commit_wf, State.endInv_mem]

theorem execFwda0_wf {sl : Nat} {v : DWord} {s : State} {t : State} (h : s.mem.wf) (e : execFwda0 sl v s = .next t) : t.mem.wf := by
  unfold execFwda0 at e
  grind [State.modInv_mem]

theorem execFwda1_wf {sl : Nat} {v : DWord} {s : State} {t : State} (h : s.mem.wf) (e : execFwda1 sl v s = .next t) : t.mem.wf := by
  unfold execFwda1 at e
  grind [State.modInv_mem]

theorem execPosth_wf {sl : Nat} {v : DWord} {s : State} {t : State} (h : s.mem.wf) (e : execPosth sl v s = .next t) : t.mem.wf := by
  unfold execPosth at e
  grind [State.modInv_mem]

theorem execFwd_wf {sl : Nat} {v : DWord} {s : State} {t : State} (h : s.mem.wf) (e : execFwd sl v s = .next t) : t.mem.wf := by
  unfold execFwd at e
  grind [State.answer_mem, State.commit_wf, State.endInv_mem, State.ladleTrap_mem, !State.ladleWalk_wf, State.sendMessage_mem,
    Walk.Wf]

theorem execPost_wf {sl : Nat} {v : DWord} {s : State} {t : State} (h : s.mem.wf) (e : execPost sl v s = .next t) : t.mem.wf := by
  unfold execPost at e
  grind [State.bump_mem, State.scratchWrite_mem]

theorem execLadleOverrun_wf {sl : Nat} {s : State} {t : State} (h : s.mem.wf) (e : execLadleOverrun sl s = .next t) : t.mem.wf := by
  unfold execLadleOverrun at e
  grind [State.answer_mem, State.bump_mem, State.endInv_mem, State.ladleEvent_mem]

theorem execLadleFault_wf {sl : Nat} {mcause : BitVec 8} {mepc : BitVec 16} {s : State} {t : State} (h : s.mem.wf)
    (e : execLadleFault sl mcause mepc s = .next t) : t.mem.wf := by
  unfold execLadleFault at e
  grind [State.ladleAbort_mem]

theorem controlWrite_wf {sl o : Nat} {v : DWord} {s : State} {t : State} (h : s.mem.wf) (e : controlWrite sl o v s = .next t) :
    t.mem.wf := by
  unfold controlWrite at e
  grind [→ execDone_wf, → execFwd_wf, → execFwda0_wf, → execFwda1_wf, → execPost_wf, → execPosth_wf, → execPrefLadle_wf]

theorem apertureAccess_wf {sl : Nat} {i : Inv} {va : Nat} {k : LadleAccess} {n v : Nat} {s : State} {t : State} (h : s.mem.wf)
    (e : apertureAccess sl i va k n v s = .next t) : t.mem.wf := by
  unfold apertureAccess at e
  grind [→ State.homeRead_wf, → State.homeWrite_wf, State.ladleTrap_mem, !State.ladleWalk_wf, State.modInv_mem, → State.readAt_wf,
    State.windowAccess_mem, → State.writeAt_wf, Walk.Wf]

theorem execGlobalApertureAccess_wf {sl : Nat} {addr : DWord} {k : LadleAccess} {size : Nat} {v : DWord} {s : State} {t : State}
    (h : s.mem.wf) (e : execGlobalApertureAccess sl addr k size v s = .next t) : t.mem.wf := by
  unfold execGlobalApertureAccess at e
  grind [State.ladleTrap_mem, State.modInv_mem, State.sramAccess_mem, State.windowAccess_mem, → apertureAccess_wf,
    → controlWrite_wf]

theorem execLdTenWrite_wf {sl n : Nat} {v : DWord} {s : State} {t : State} (h : s.mem.wf)
    (e : execLdTenWrite sl n v s = .next t) : t.mem.wf := by
  unfold execLdTenWrite at e
  grind [State.modSlice_mem]

theorem execLadleCounterRead_wf {sl n k : Nat} {s : State} {t : State} (h : s.mem.wf)
    (e : execLadleCounterRead sl n k s = .next t) : t.mem.wf := by
  unfold execLadleCounterRead at e
  grind [= Option.map_eq_some_iff, = Option.bind_eq_some_iff, State.modPkg_mem, State.modSlice_mem]

/-! Functions of Machine/Resume. -/

theorem resumeLane_wf {ok : Wait → Bool} {c t g l : Nat} {s : State} {u : State} (h : s.mem.wf)
    (e : resumeLane ok c t g l s = .next u) : u.mem.wf := by
  unfold resumeLane at e
  grind [State.wake_mem]

theorem execWaitResume_wf {c t g l : Nat} {s : State} {u : State} (h : s.mem.wf) (e : execWaitResume c t g l s = .next u) :
    u.mem.wf := by
  unfold execWaitResume at e
  grind [→ resumeLane_wf]

theorem execWaitbarResume_wf {c t g l : Nat} {s : State} {u : State} (h : s.mem.wf) (e : execWaitbarResume c t g l s = .next u)
    : u.mem.wf := by
  unfold execWaitbarResume at e
  grind [→ resumeLane_wf]

theorem execChannelResume_wf {c t g l : Nat} {s : State} {u : State} (h : s.mem.wf) (e : execChannelResume c t g l s = .next u)
    : u.mem.wf := by
  unfold execChannelResume at e
  grind [→ resumeLane_wf]

theorem execFutureResume_wf {c t g l : Nat} {s : State} {u : State} (h : s.mem.wf) (e : execFutureResume c t g l s = .next u) :
    u.mem.wf := by
  unfold execFutureResume at e
  grind [→ resumeLane_wf]

theorem execActiveSetRotate_wf {c : Nat} {s : State} {t : State} (h : s.mem.wf) (e : execActiveSetRotate c s = .next t) :
    t.mem.wf := by
  unfold execActiveSetRotate at e
  grind [State.modCore_mem]

theorem execQuadrilleAgeDrain_wf {c b : Nat} {s : State} {t : State} (h : s.mem.wf) (e : execQuadrilleAgeDrain c b s = .next t)
    : t.mem.wf := by
  unfold execQuadrilleAgeDrain at e
  grind [State.count_mem, State.drainBin_mem]

/-! Functions of Machine/Traps. -/

theorem execLqTailWrite_wf {p : Nat} {v : Word} {s : State} {t : State} (h : s.mem.wf) (e : execLqTailWrite p v s = .next t) :
    t.mem.wf := by
  unfold execLqTailWrite at e
  grind [State.modPart_mem]

theorem execLqCtlWrite_wf {p : Nat} {v : Word} {s : State} {t : State} (h : s.mem.wf) (e : execLqCtlWrite p v s = .next t) :
    t.mem.wf := by
  unfold execLqCtlWrite at e
  grind [State.modPart_mem]

theorem execTrapRecordWrite_wf {p : Nat} {id : Word} {s : State} {t : State} (h : s.mem.wf)
    (e : execTrapRecordWrite p id s = .next t) : t.mem.wf := by
  unfold execTrapRecordWrite at e
  dsimp only at e
  repeat' split at e
  all_goals grind [= Option.map_eq_some_iff, = Option.bind_eq_some_iff, State.modCore_mem, State.modPart_mem, State.pushTail_mem,
    → State.putRecord_wf, → State.recordStores_wf]

theorem execTqHeadWrite_wf {p : Nat} {v : Word} {s : State} {t : State} (h : s.mem.wf) (e : execTqHeadWrite p v s = .next t) :
    t.mem.wf := by
  unfold execTqHeadWrite at e
  grind [State.modPart_mem, State.modPkg_mem]

theorem execTqCtlWrite_wf {p : Nat} {v : Word} {s : State} {t : State} (h : s.mem.wf) (e : execTqCtlWrite p v s = .next t) :
    t.mem.wf := by
  unfold execTqCtlWrite at e
  grind [State.modPart_mem]

theorem execTqServRelease_wf {p : Nat} {id : Word} {s : State} {t : State} (h : s.mem.wf)
    (e : execTqServRelease p id s = .next t) : t.mem.wf := by
  unfold execTqServRelease at e
  grind [State.serve_mem]

theorem execTqServEndTeam_wf {p : Nat} {id : Word} {s : State} {t : State} (h : s.mem.wf)
    (e : execTqServEndTeam p id s = .next t) : t.mem.wf := by
  unfold execTqServEndTeam at e
  grind [State.serve_mem]

theorem execTqServEndGrid_wf {p : Nat} {id : Word} {s : State} {t : State} (h : s.mem.wf)
    (e : execTqServEndGrid p id s = .next t) : t.mem.wf := by
  unfold execTqServEndGrid at e
  grind [State.serve_mem]

/-! Functions of Machine/Save. -/

theorem execPreReqWrite_wf {p : Nat} {v : Word} {s : State} {t : State} (h : s.mem.wf) (e : execPreReqWrite p v s = .next t) :
    t.mem.wf := by
  unfold execPreReqWrite at e
  grind [State.modPart_mem, State.requestTeams_mem]

theorem execPreForced_wf {c t : Nat} {s : State} {u : State} (h : s.mem.wf) (e : execPreForced c t s = .next u) : u.mem.wf := by
  unfold execPreForced at e
  grind [State.force_mem]

theorem execTeamSave_wf {c t : Nat} {s : State} {u : State} (h : s.mem.wf) (e : execTeamSave c t s = .next u) : u.mem.wf := by
  unfold execTeamSave at e
  grind [→ State.markSaved_wf, → State.saveGrid_wf]

theorem execRsSaveWrite_wf {p : Nat} {v : DWord} {s : State} {t : State} (h : s.mem.wf) (e : execRsSaveWrite p v s = .next t) :
    t.mem.wf := by
  unfold execRsSaveWrite at e
  grind [State.startRestore_wf]

theorem execRestorePlace_wf {p : Nat} {s : State} {t : State} (h : s.mem.wf) (e : execRestorePlace p s = .next t) : t.mem.wf := by
  unfold execRestorePlace at e
  grind [→ State.checkNow_wf, → State.placeRestore_wf, State.startRestore_wf]

/-! Functions of Machine/Device. -/

theorem execTlbInvWrite_wf {p : Nat} {v : DWord} {s : State} {t : State} (h : s.mem.wf) (e : execTlbInvWrite p v s = .next t) :
    t.mem.wf := by
  unfold execTlbInvWrite at e
  grind [State.modPart_mem]

theorem execTlbInvComplete_wf {p : Nat} {s : State} {t : State} (h : s.mem.wf) (e : execTlbInvComplete p s = .next t) : t.mem.wf
    := by
  unfold execTlbInvComplete at e
  grind [= Option.map_eq_some_iff, = Option.bind_eq_some_iff, → State.homeAll_wf, → State.leaveSlices_mem, State.modPart_mem]

theorem execBankRoleWrite_wf {c b : Nat} {v : Word} {s : State} {t : State} (h : s.mem.wf)
    (e : execBankRoleWrite c b v s = .next t) : t.mem.wf := by
  unfold execBankRoleWrite at e
  grind [State.leaveL1_mem, State.modCore_mem]

theorem execStoreEccCorrected_wf {c b : Nat} {s : State} {t : State} (h : s.mem.wf) (e : execStoreEccCorrected c b s = .next t)
    : t.mem.wf := by
  unfold execStoreEccCorrected at e
  grind [State.leaveL1_mem, State.modCore_mem]

theorem execStoreUe_wf {c off : Nat} {s : State} {t : State} (h : s.mem.wf) (e : execStoreUe c off s = .next t) : t.mem.wf := by
  unfold execStoreUe at e
  grind [State.dropL1At_mem, State.modCore_mem]

theorem execCacheUe_wf {w : CacheSite} {line : Nat} {s : State} {t : State} (h : s.mem.wf) (e : execCacheUe w line s = .next t)
    : t.mem.wf := by
  unfold execCacheUe at e
  grind [State.modDie_mem, State.modSlice_mem, State.poisonLine_mem]

theorem execLeaseExpiry_wf {d c line : Nat} {s : State} {t : State} (h : s.mem.wf) (e : execLeaseExpiry d c line s = .next t) :
    t.mem.wf := by
  unfold execLeaseExpiry at e
  grind [State.modCore_mem, State.modDie_mem]

theorem execAgeWriteback_wf {d line : Nat} {s : State} {t : State} (h : s.mem.wf) (e : execAgeWriteback d line s = .next t) :
    t.mem.wf := by
  unfold execAgeWriteback at e
  grind [State.modDie_mem, → State.writeBack_wf]

theorem execPartCfgWrite_wf {v : DWord} {s : State} {t : State} (h : s.mem.wf) (e : execPartCfgWrite v s = .next t) : t.mem.wf := by
  unfold execPartCfgWrite at e
  grind [State.modPkg_mem]

theorem execAnnCtlWrite_wf {p : Nat} {v : DWord} {s : State} {t : State} (h : s.mem.wf) (e : execAnnCtlWrite p v s = .next t) :
    t.mem.wf := by
  unfold execAnnCtlWrite at e
  grind [State.modPart_mem]

theorem execAnnealTranslate_wf {p : Nat} {base : Addr} {len : Nat} {s : State} {t : State} (h : s.mem.wf)
    (e : execAnnealTranslate p base len s = .next t) : t.mem.wf := by
  unfold execAnnealTranslate at e
  grind [State.modPart_mem]

theorem execJrnBaseWrite_wf {p : Nat} {v : DWord} {s : State} {t : State} (h : s.mem.wf) (e : execJrnBaseWrite p v s = .next t)
    : t.mem.wf := by
  unfold execJrnBaseWrite at e
  grind [State.modPart_mem]

theorem execFailureRecovery_wf {w : Sys2Proof.Part} {s : State} {t : State} (h : s.mem.wf)
    (e : execFailureRecovery w s = .next t) : t.mem.wf := by
  unfold execFailureRecovery at e
  grind [State.mapOut_mem, State.resumeAll_mem]

theorem execThermalSensorRead_wf {first : BitVec 12} {rest : List (BitVec 12)} {s : State} {t : State} (h : s.mem.wf)
    (e : execThermalSensorRead first rest s = .next t) : t.mem.wf := by
  unfold execThermalSensorRead at e
  grind [State.heat_mem, State.modPkg_mem]

theorem execPowerArbiterStep_wf {parts : List PartPower} {flasks : List FlaskPower} {s : State} {t : State} (h : s.mem.wf)
    (e : execPowerArbiterStep parts flasks s = .next t) : t.mem.wf := by
  unfold execPowerArbiterStep at e
  grind [= Option.map_eq_some_iff, = Option.bind_eq_some_iff, State.allSlow_mem, State.breach_mem, State.grantPoints_mem,
    State.modPkg_mem]

theorem execPwrStatW1c_wf {v : DWord} {s : State} {t : State} (h : s.mem.wf) (e : execPwrStatW1c v s = .next t) : t.mem.wf := by
  unfold execPwrStatW1c at e
  grind [State.modPkg_mem]

theorem execOperatingPointChange_wf {fl pt : Nat} {s : State} {t : State} (h : s.mem.wf)
    (e : execOperatingPointChange fl pt s = .next t) : t.mem.wf := by
  unfold execOperatingPointChange at e
  grind [State.setPoint_mem]

theorem execEngStatW1c_wf {c : Nat} {v : DWord} {s : State} {t : State} (h : s.mem.wf) (e : execEngStatW1c c v s = .next t) :
    t.mem.wf := by
  unfold execEngStatW1c at e
  grind [State.modCore_mem]

theorem execEngNfinRead_wf {c : Nat} {s : State} {t : State} (h : s.mem.wf) (e : execEngNfinRead c s = .next t) : t.mem.wf := by
  unfold execEngNfinRead at e
  grind [State.hostGets_mem, State.modCore_mem]

theorem execEngOvfcRead_wf {c : Nat} {s : State} {t : State} (h : s.mem.wf) (e : execEngOvfcRead c s = .next t) : t.mem.wf := by
  unfold execEngOvfcRead at e
  grind [State.hostGets_mem, State.modCore_mem]

theorem execMonitorBoot_wf {sl slot : Nat} {fw : MonitorImage} {s : State} {t : State} (h : s.mem.wf)
    (e : execMonitorBoot sl slot fw s = .next t) : t.mem.wf := by
  unfold execMonitorBoot at e
  grind [State.modPkg_mem, State.modSlice_mem]

theorem execFirmwareVerify_wf {kind hdrKind slot version : Nat} {hash : BitVec 256} {sigOk : Bool} {s : State} {t : State}
    (h : s.mem.wf) (e : execFirmwareVerify kind hdrKind slot version hash sigOk s = .next t) : t.mem.wf := by
  unfold execFirmwareVerify at e
  grind [= Option.map_eq_some_iff, = Option.bind_eq_some_iff, State.modPkg_mem, State.wakeDispatcher_mem]

theorem execKeyEnrol_wf {slot signer : Nat} {key : BitVec 256} {sigOk : Bool} {s : State} {t : State} (h : s.mem.wf)
    (e : execKeyEnrol slot signer key sigOk s = .next t) : t.mem.wf := by
  unfold execKeyEnrol at e
  grind [State.modPkg_mem]

theorem execKeyRevoke_wf {slot signer : Nat} {sigOk : Bool} {s : State} {t : State} (h : s.mem.wf)
    (e : execKeyRevoke slot signer sigOk s = .next t) : t.mem.wf := by
  unfold execKeyRevoke at e
  grind [State.modPkg_mem]

theorem execSpdmMeasurement_wf {nonce : BitVec 256} {s : State} {t : State} (h : s.mem.wf)
    (e : execSpdmMeasurement nonce s = .next t) : t.mem.wf := by
  unfold execSpdmMeasurement at e
  grind [State.modPkg_mem]

theorem execSprueFlitReceive_wf {port : Nat} {hdr : BitVec 128} {payload : List Byte} {crcOk : Bool} {s : State} {t : State}
    (h : s.mem.wf) (e : execSprueFlitReceive port hdr payload crcOk s = .next t) : t.mem.wf := by
  unfold execSprueFlitReceive at e
  grind [State.modPkg_mem]

theorem execSpruePortFail_wf {port : Nat} {s : State} {t : State} (h : s.mem.wf) (e : execSpruePortFail port s = .next t) :
    t.mem.wf := by
  unfold execSpruePortFail at e
  grind [State.modPkg_mem]

/-! Functions of Machine/Host. -/

theorem execHostMemRead_wf {pa n : Nat} {s : State} {t : State} (h : s.mem.wf) (e : execHostMemRead pa n s = .next t) : t.mem.wf
    := by
  unfold execHostMemRead at e
  grind [State.hostDo_wf]

theorem execHostMemWrite_wf {pa : Nat} {bytes : List Byte} {s : State} {t : State} (h : s.mem.wf)
    (e : execHostMemWrite pa bytes s = .next t) : t.mem.wf := by
  unfold execHostMemWrite at e
  grind [State.hostDo_wf]

theorem execMmioUnsupported_wf {off width : Nat} {write : Bool} {s : State} {t : State} (h : s.mem.wf)
    (e : execMmioUnsupported off width write s = .next t) : t.mem.wf := by
  unfold execMmioUnsupported at e
  grind [State.hostReads_mem, State.modPkg_mem]

theorem writePkg_wf {o : Nat} {v w : DWord} {s : State} {t : State} (h : s.mem.wf) (e : writePkg o v w s = .next t) : t.mem.wf := by
  unfold writePkg at e
  grind [State.heat_mem, State.modPkg_mem, → execPartCfgWrite_wf, → execPwrStatW1c_wf]

theorem writePart_wf {p o : Nat} {v : DWord} {s : State} {t : State} (h : s.mem.wf) (e : writePart p o v s = .next t) : t.mem.wf
    := by
  unfold writePart at e
  grind [State.modPart_mem, → execTlbInvWrite_wf]

theorem writeServ_wf {p : Nat} {v : DWord} {s : State} {t : State} (h : s.mem.wf) (e : writeServ p v s = .next t) : t.mem.wf := by
  unfold writeServ at e
  grind [→ execTqServEndGrid_wf, → execTqServEndTeam_wf, → execTqServRelease_wf]

theorem writeDisp_wf {p o : Nat} {v w : DWord} {s : State} {t : State} (h : s.mem.wf) (e : writeDisp p o v w s = .next t) :
    t.mem.wf := by
  unfold writeDisp at e
  grind [State.modPart_mem, → execAnnCtlWrite_wf, → execJrnBaseWrite_wf, → execLqCtlWrite_wf, → execLqTailWrite_wf,
    → execPreReqWrite_wf, → execRsSaveWrite_wf, → execTqCtlWrite_wf, → execTqHeadWrite_wf, → writeServ_wf]

theorem writeCore_wf {c o : Nat} {lo hi : Bool} {v : DWord} {s : State} {t : State} (h : s.mem.wf)
    (e : writeCore c o lo hi v s = .next t) : t.mem.wf := by
  unfold writeCore at e
  grind [State.modCore_mem, State.setEvsel_mem, → execBankRoleWrite_wf]

theorem writeSlice_wf {n o : Nat} {lo hi : Bool} {v : DWord} {s : State} {t : State} (h : s.mem.wf)
    (e : writeSlice n o lo hi v s = .next t) : t.mem.wf := by
  unfold writeSlice at e
  grind [State.modSlice_mem, → execLdTenWrite_wf]

theorem writeWindow_wf {off : Nat} {lo hi : Bool} {v w : DWord} {s : State} {t : State} (h : s.mem.wf)
    (e : writeWindow off lo hi v w s = .next t) : t.mem.wf := by
  unfold writeWindow at e
  grind [State.modCore_mem, State.modFlask_mem, → execEngStatW1c_wf, → writeCore_wf, writeDie_mem, → writeDisp_wf, → writePart_wf,
    → writePkg_wf, → writeSlice_wf]

theorem execRegisterWrite_wf {off width : Nat} {v : DWord} {s : State} {t : State} (h : s.mem.wf)
    (e : execRegisterWrite off width v s = .next t) : t.mem.wf := by
  unfold execRegisterWrite at e
  grind [State.modPkg_mem, → writeWindow_wf]

theorem execPackageReset_wf {defects : List Nat} {s : State} {t : State} (h : s.mem.wf)
    (e : execPackageReset defects s = .next t) : t.mem.wf := by
  unfold execPackageReset at e
  grind [= Option.map_eq_some_iff, = Option.bind_eq_some_iff, State.salvage_wf]

/-! Functions of Machine/Riscv. -/

theorem State.rvAccess_wf (s : State) (sl : Nat) (addr : DWord) (k : LadleAccess) (n : Nat) (v : DWord) (fin : Inv → Inv)
    (h : s.mem.wf) : (s.rvAccess sl addr k n v fin).mem.wf := by
  unfold State.rvAccess
  grind [State.modInv_mem, → execGlobalApertureAccess_wf]

theorem State.rvExec_wf (s : State) (sl : Nat) (i : Inv) (ins : RvInstr) (len : Nat) (h : s.mem.wf) :
    (s.rvExec sl i ins len).mem.wf := by
  unfold State.rvExec
  grind [State.ladleTrap_mem, State.modInv_mem, State.rvAccess_wf]

theorem State.ladleOn_wf {s : State} {sl : Nat} {t} (h : s.mem.wf) (e : s.ladleOn sl = some t) : t.mem.wf := by
  unfold State.ladleOn at e
  dsimp only at e
  repeat' split at e
  all_goals grind [State.ladleTrap_mem, State.modInv_mem, State.rvExec_wf]

end Sys2Proof.Machine
end

section
/-!
PROOFS. Instructions, the activities of a cycle, and a step keep memory canonical: O5.
-/
namespace Sys2Proof.Machine

/-- An operation that a slot can hold is issued with its own semantics. -/
theorem exec_eq_issueOp {i : Instr} {c : BitVec 8} {f : OpF} (hi : i.op = some (c, f)) (s : State) :
    exec i s = issueOp i f (semOf i) s := by
  cases i <;> cases hi <;> rfl

theorem exec_wf {i : Instr} {s t : State} (h : s.mem.wf) (e : exec i s = .next t) : t.mem.wf := by
  cases hi : i.op with
  | some cf => exact issueOp_wf (semOf_keeps i) h (exec_eq_issueOp hi s ▸ e)
  | none =>
    cases i with
    | tree hd slots => exact issue_wf (fun _ => treeBody_keeps hd slots) h e
    | rep p opc f => exact issue_wf (repBody_keeps p opc f) h e
    | moviLong f imm => exact issue_wf (fun nG => bodyOf_keeps (.moviLong f imm) nG) h e
    | longImmediateForm opc f imm => exact issue_wf (fun _ => longBody_keeps opc f imm) h e
    | collectiveComplete => exact execCollectiveComplete_wf h e
    | collTimeout => exact execCollTimeout_wf h e
    | loadReply => exact execLoadReply_wf h e
    | storeAck => exact execStoreAck_wf h e
    | translationWalk => exact execTranslationWalk_wf h e
    | waitResume => exact execWaitResume_wf h e
    | barrierOpen => exact execBarrierOpen_wf h e
    | barTimeout => exact execBarTimeout_wf h e
    | pavaneReleaseStep => exact execPavaneReleaseStep_wf h e
    | waitbarResume => exact execWaitbarResume_wf h e
    | channelResume => exact execChannelResume_wf h e
    | peerSendAppend => exact execPeerSendAppend_wf h e
    | futureResume => exact execFutureResume_wf h e
    | mqrunBlock => exact execMqrunBlock_wf h e
    | engineOpStart => exact execEngineOpStart_wf h e
    | engineOpComplete => exact execEngineOpComplete_wf h e
    | lmsgReply => exact execLmsgReply_wf h e
    | icinvComplete => exact execIcinvComplete_wf h e
    | timer => exact execTimer_wf h e
    | activeSetRotate => exact execActiveSetRotate_wf h e
    | quadrilleAgeDrain => exact execQuadrilleAgeDrain_wf h e
    | lqTailWrite => exact execLqTailWrite_wf h e
    | lqCtlWrite => exact execLqCtlWrite_wf h e
    | launchPacketRead => exact execLaunchPacketRead_wf h e
    | launchPlace => exact execLaunchPlace_wf h e
    | gridEnd => exact execGridEnd_wf h e
    | taskLaunch => exact execTaskLaunch_wf h e
    | copyNodeDispatch => exact execCopyNodeDispatch_wf h e
    | nodeFinish => exact execNodeFinish_wf h e
    | scopeComplete => exact execScopeComplete_wf h e
    | trapRecordWrite => exact execTrapRecordWrite_wf h e
    | tqHeadWrite => exact execTqHeadWrite_wf h e
    | tqCtlWrite => exact execTqCtlWrite_wf h e
    | tqServRelease => exact execTqServRelease_wf h e
    | tqServEndTeam => exact execTqServEndTeam_wf h e
    | tqServEndGrid => exact execTqServEndGrid_wf h e
    | preReqWrite => exact execPreReqWrite_wf h e
    | preForced => exact execPreForced_wf h e
    | teamSave => exact execTeamSave_wf h e
    | rsSaveWrite => exact execRsSaveWrite_wf h e
    | restorePlace => exact execRestorePlace_wf h e
    | tlbInvWrite => exact execTlbInvWrite_wf h e
    | tlbInvComplete => exact execTlbInvComplete_wf h e
    | bankRoleWrite => exact execBankRoleWrite_wf h e
    | storeEccCorrected => exact execStoreEccCorrected_wf h e
    | storeUe => exact execStoreUe_wf h e
    | cacheUe => exact execCacheUe_wf h e
    | leaseExpiry => exact execLeaseExpiry_wf h e
    | ageWriteback => exact execAgeWriteback_wf h e
    | partCfgWrite => exact execPartCfgWrite_wf h e
    | annCtlWrite => exact execAnnCtlWrite_wf h e
    | annealTranslate => exact execAnnealTranslate_wf h e
    | jrnBaseWrite => exact execJrnBaseWrite_wf h e
    | failureRecovery => exact execFailureRecovery_wf h e
    | powerArbiterStep => exact execPowerArbiterStep_wf h e
    | pwrStatW1c => exact execPwrStatW1c_wf h e
    | thermalSensorRead => exact execThermalSensorRead_wf h e
    | operatingPointChange => exact execOperatingPointChange_wf h e
    | engStatW1c => exact execEngStatW1c_wf h e
    | engNfinRead => exact execEngNfinRead_wf h e
    | engOvfcRead => exact execEngOvfcRead_wf h e
    | ladleCounterRead => exact execLadleCounterRead_wf h e
    | ldTenWrite => exact execLdTenWrite_wf h e
    | ladleOverrun => exact execLadleOverrun_wf h e
    | ladleMiss => exact execLadleMiss_wf h e
    | ladleFill => exact execLadleFill_wf h e
    | ladleEviction => exact execLadleEviction_wf h e
    | ladleMessage => exact execLadleMessage_wf h e
    | done => exact execDone_wf h e
    | fwda0 => exact execFwda0_wf h e
    | fwda1 => exact execFwda1_wf h e
    | fwd => exact execFwd_wf h e
    | posth => exact execPosth_wf h e
    | post => exact execPost_wf h e
    | prefLadle => exact execPrefLadle_wf h e
    | ladleFault => exact execLadleFault_wf h e
    | monitorBoot => exact execMonitorBoot_wf h e
    | firmwareVerify => exact execFirmwareVerify_wf h e
    | keyEnrol => exact execKeyEnrol_wf h e
    | keyRevoke => exact execKeyRevoke_wf h e
    | spdmMeasurement => exact execSpdmMeasurement_wf h e
    | sprueFlitReceive _ _ payload _ => exact execSprueFlitReceive_wf (payload := payload) h e
    | spruePortFail => exact execSpruePortFail_wf h e
    | hostMemRead => exact execHostMemRead_wf h e
    | hostMemWrite => exact execHostMemWrite_wf h e
    | hostSnoop => exact execHostSnoop_wf h e
    | mmioUnsupported => exact execMmioUnsupported_wf h e
    | registerWrite => exact execRegisterWrite_wf h e
    | packageReset => exact execPackageReset_wf h e
    | globalApertureAccess => exact execGlobalApertureAccess_wf h e
    | _ => cases hi

theorem nextOf_eq_some {r : Result} {t : State} : nextOf r = some t ↔ r = .next t := by
  cases r <;> simp [nextOf]

theorem State.issueOn_wf {s : State} {c : Nat} {t : State} (h : s.mem.wf) (e : s.issueOn c = some t) : t.mem.wf := by
  unfold State.issueOn at e
  split at e
  · cases e
  next w _ =>
  split at e
  · exact exec_wf (s := { s with turn := c }) h (nextOf_eq_some.mp e)
  have hf := State.fetch_wf s c (s.team c w.team).part (s.wavePc c w).toNat h
  split at e
  · next u ef =>
    rw [ef] at hf
    exact exec_wf (s := { u with turn := c }) hf (nextOf_eq_some.mp e)
  · next ef => rw [ef] at hf; cases e; exact (State.failWave_mem ..).symm ▸ hf
  · next ef => rw [ef] at hf; cases e; exact (State.failWave_mem ..).symm ▸ hf
  · exact State.raiseMiss_wf h e

theorem State.issueFirst_wf {s : State} {cs : List Nat} {t : State} (h : s.mem.wf) (e : s.issueFirst cs = some t) : t.mem.wf := by
  induction cs with
  | nil => cases e
  | cons c cs ih =>
    unfold State.issueFirst at e
    split at e
    · next hc =>
      have ht := State.issueOn_wf h hc
      cases e
      exact ht
    · exact ih e

theorem State.ladleFirst_wf {s : State} {ns : List Nat} {t : State} (h : s.mem.wf) (e : s.ladleFirst ns = some t) : t.mem.wf := by
  induction ns with
  | nil => cases e
  | cons n ns ih =>
    unfold State.ladleFirst at e
    split at e
    · next hn => cases e; exact State.ladleOn_wf h hn
    · exact ih e

theorem State.occurs_wf {s : State} {i : Instr} {t : State} (h : s.mem.wf) (e : s.occurs i = some t) : t.mem.wf := by
  rcases Option.or_eq_some_iff.mp e with e | ⟨-, e⟩
  · exact exec_wf h (nextOf_eq_some.mp e)
  · exact State.raiseMiss_wf h e

theorem State.firstOf_wf {s : State} {is : List Instr} {t : State} (h : s.mem.wf) (e : s.firstOf is = some t) : t.mem.wf := by
  induction is with
  | nil => cases e
  | cons i is ih =>
    unfold State.firstOf at e
    split at e
    · next hi => cases e; exact State.occurs_wf h hi
    · exact ih e

theorem State.allOf_wf {s : State} (is : List Instr) (h : s.mem.wf) : (s.allOf is).mem.wf :=
  foldl_wf (fun _ _ h => getD_wf h fun _ e => State.occurs_wf h e) h is

theorem State.coreGoes_wf {s : State} (c : Nat) (h : s.mem.wf) : (s.coreGoes c).mem.wf := by
  unfold State.coreGoes
  grind [State.drainWrites_wf, State.rewriteRecs_wf, State.modCore_mem, State.allOf_wf, State.readyWaves_wf]

theorem State.activity_wf {s : State} {n : Nat} {t : State} (h : s.mem.wf) (e : s.activity n = some t) : t.mem.wf := by
  unfold State.activity at e
  split at e
  · exact State.issueFirst_wf h e
  · exact State.firstOf_wf h e
  · exact State.ladleFirst_wf h e

theorem State.elapse_wf {s : State} (h : s.mem.wf) : (s.elapse).mem.wf :=
  State.allOf_wf _ (State.hostRetry_wf _ (State.nodesAgain_wf _ (foldl_wf (fun _ c h => State.coreGoes_wf c h) h _)))

theorem State.tick_wf {s : State} (h : s.mem.wf) : s.tick.mem.wf := by
  unfold State.tick
  refine State.elapse_wf ?_
  dsimp only
  split <;> exact h

theorem State.onward_wf {s : State} (h : s.mem.wf) : s.onward.mem.wf := by
  refine getD_wf h fun t e => ?_
  rcases Option.or_eq_some_iff.mp e with e | ⟨-, e⟩
  · rcases Option.or_eq_some_iff.mp e with e | ⟨-, e⟩ <;> exact State.activity_wf h e
  · exact State.activity_wf h e

theorem State.scheduled_wf {s : State} (c : Nat) (h : s.mem.wf) : (s.scheduled c).mem.wf := by
  refine getD_wf h fun t e => ?_
  split at e
  · exact State.issueOn_wf h e
  · exact State.ladleOn_wf h e

theorem State.fromOutside_wf {s : State} {i : Instr} {t : State} (h : s.mem.wf) (e : s.fromOutside i = .next t) : t.mem.wf := by
  unfold State.fromOutside at e
  split at e
  · cases e; exact h
  · split at e
    · next he => cases e; exact exec_wf h he
    · cases e
    · cases e; exact h

theorem State.cycle_wf {s t : State} (h : s.mem.wf) (e : s.cycle = .next t) : t.mem.wf := by
  unfold State.cycle at e
  split at e
  · split at e
    · next rest _ _ _ ho =>
      cases e
      exact State.tick_wf (State.fromOutside_wf (s := { s with agenda := rest }) h ho)
    · next hn => exact absurd e (hn t)
  · split at e
    · cases e; exact State.tick_wf (State.scheduled_wf _ h)
    · cases e; exact State.tick_wf (State.onward_wf h)

/-- Settles O5, by what each function that a step calls does with memory. -/
theorem memoryCanonicalKept : Obligations.MemoryCanonicalKept := by
  unfold Obligations.MemoryCanonicalKept
  exact fun s t h e => State.cycle_wf h e

end Sys2Proof.Machine
end

section
/-!
PROOFS. A host write to a line that a journal has left (O60).
-/
namespace Sys2Proof.Machine

/-- The bytes of an open place are the free bytes from the next index on. -/
theorem openBytes_byte (s : State) {n i : Nat} (hi : i < n) :
    BitVec.ofNat 8 ((s.openBytes n).1 / 256 ^ i) = Config.openByte (s.fresh + i) := by
  induction n generalizing s i with
  | zero => omega
  | succ n ih =>
    have e : (s.openBytes (n + 1)).1
        = (Config.openByte s.fresh).toNat + 256 * (State.openBytes { s with fresh := s.fresh + 1 } n).1 := rfl
    have hb := (Config.openByte s.fresh).isLt
    cases i with
    | zero =>
      refine BitVec.eq_of_toNat_eq ?_
      rw [e, BitVec.toNat_ofNat]
      simpa using hb
    | succ i =>
      rw [e, show s.fresh + (i + 1) = s.fresh + 1 + i by omega, ← ih { s with fresh := s.fresh + 1 } (by omega : i < n),
        Nat.pow_succ', ← Nat.div_div_eq_div_mul, Nat.add_mul_div_left _ _ (by omega), Nat.div_eq_of_lt hb, Nat.zero_add]

/-- A line that a journal has left settles to the free bytes. -/
theorem settleLine_mem_of_open {s : State} {line : Nat} (h : s.openLine line = true) :
    (s.settleLine line).mem = s.mem.writeN (128 * line) 128 (s.openBytes 128).1 := by
  unfold State.settleLine
  rw [if_neg (by simp [h])]
  dsimp only
  rw [State.openBytes_mem]

theorem settleLine_read_of_open {s : State} {line i : Nat} (hs : s.mem.wf = true) (h : s.openLine line = true) (hi : i < 128) :
    (s.settleLine line).mem.read (128 * line + i) = Config.openByte (s.fresh + i) := by
  rw [settleLine_mem_of_open h, Memory.read_writeN hs, if_pos (by omega), Nat.add_sub_cancel_left]
  exact openBytes_byte s hi

theorem openBytes_slices (s : State) (n : Nat) : (s.openBytes n).2.slices = s.slices := by
  induction n generalizing s with
  | zero => rfl
  | succ n ih => exact ih _

theorem settleLine_slices (s : State) (line : Nat) : (s.settleLine line).slices = s.slices := by
  unfold State.settleLine
  split
  · rfl
  · exact openBytes_slices s 128

/-- A line that comes to an empty slice takes a free way. -/
theorem touch_of_no_slices {s : State} (h : s.slices = []) : ∃ t, s.touch 0 3 true = some t := by
  have hs : s.slice (homeSlice 0) = {} := by simp [State.slice, h, Table.get, Table.find?]
  refine ⟨s.modSlice (homeSlice 0) (·.place (lineOf 0) 3 true), ?_⟩
  unfold State.touch
  simp only [hs]
  rfl

/-- A journal has left line 0, and memory does not hold at address 1 the byte that its entries left there. -/
def journalLeft : State :=
  { State.reset with mem := Memory.write [] 1 (Config.openByte 1 + 1), openMem := [(0, 1)] }

theorem journalLeft_wf : journalLeft.mem.wf = true := Memory.wf_write rfl _ _

theorem journalLeft_byte : journalLeft.mem.read 1 = Config.openByte 1 + 1 := by
  rw [journalLeft, Memory.read_write rfl, if_pos rfl]

/-- The host writes the byte at address 0 there, and the line settles with the write: the byte at address 1 is another. -/
theorem journalLeft_writeArea : ∃ u, journalLeft.writeArea 0 [0] = some u ∧ u.mem.read 1 = Config.openByte 1 := by
  have hs := settleLine_read_of_open (line := 0) (i := 1) journalLeft_wf rfl (by omega)
  rw [show 128 * 0 + 1 = 1 from rfl, show journalLeft.fresh + 1 = 1 from rfl] at hs
  have hw := State.settleLine_wf journalLeft 0 journalLeft_wf
  obtain ⟨t, ht⟩ := touch_of_no_slices
    (s := { journalLeft.settleLine 0 with mem := (journalLeft.settleLine 0).mem.writeN 0 1 0 }) (settleLine_slices journalLeft 0)
  have hwrite : journalLeft.writeAt 0 1 0 3 = some t := by
    unfold State.writeAt State.homeWrite
    rw [if_neg (by decide), if_neg (by decide), show journalLeft.settleBytes 0 1 = journalLeft.settleLine 0 from rfl]
    exact ht
  refine ⟨t, ?_, ?_⟩
  · show (journalLeft.writeAt 0 1 0 3).bind (Machine.writeArea 1 1 []) = some t
    rw [hwrite]
    rfl
  · rw [State.touch_mem ht]
    dsimp only
    rw [Memory.read_writeN hw, if_neg (by omega), hs]

/-- Refutes O60: a host write of one byte in a line that a journal has left settles the other bytes of the line too (R402), and the
clause about the bytes outside the write has no premise that keeps such lines out. In the state `journalLeft` the host writes the
byte at address 0, and the byte at address 1 changes. -/
theorem not_hostAccess : ¬ Obligations.HostAccess := by
  unfold Obligations.HostAccess
  intro h
  obtain ⟨u, hu, hread⟩ := journalLeft_writeArea
  obtain ⟨-, -, -, -, hwrite, -⟩ := h journalLeft u 0 0 0 0 0 0 0 false false [0] 0 0 []
  obtain ⟨-, hbytes⟩ := hwrite rfl (by decide) hu
  have hkeep := (hbytes journalLeft_wf).2 1 (by simp)
  rw [hread, journalLeft_byte] at hkeep
  bv_omega

end Sys2Proof.Machine
end
